-- ==== Sys2Proof/Word.lean ====
section
/-! DEFINITION. The word types of the CORE (spec 00_scope R7, R9) and the numbers that name registers. -/

namespace Sys2Proof

/-- A 64-bit value: a GPR, an FPR, HI, LO, the PC, an address (R7). -/
abbrev Word := BitVec 64

/-- One byte of data memory (R80). -/
abbrev Byte := BitVec 8

/-- One 32-bit instruction word (R7, R110). -/
abbrev InstrWord := BitVec 32

/-- The number of a GPR or an FPR, 0 to 31 (R30, R34). -/
abbrev RegNum := Fin 32

/-- The number of an FP condition code, 0 to 7 (R47). -/
abbrev CcNum := Fin 8

end Sys2Proof
end

