-- ==== Sys2Proof/Config.lean ====
section
/-! DEFINITION. What an implementation or the host fixes before a run: the parameters of spec 00_scope R7 and R8 and the
configuration inputs of 10_state R51. The parameters stand as plain data in `CoreConfig`, a field of State, so that a
statement over all states holds for every value of each of them. Two open values have no body here: the reset value
of each conversion sentinel (R180, D27), and the predictor index function that the source names and does not define (R261, N12). -/

namespace Sys2Proof

/-- The address of the first instruction word (R8, R93: CODE_BASE = 0). -/
def codeBase : Word := 0

/-- The predicted branches of 42_branch_predictor R260, the mnemonics PRED_INDEX may tell apart. -/
inductive BranchOp where
  | beq | bne | beqz | bnez | bgez | bc1f | bc1t
  deriving DecidableEq, Repr

/-- DATA_BYTE_ORDER (R8, R82): an open parameter with two values. -/
inductive ByteOrder where
  | big
  | little
  deriving DecidableEq, Repr

/-- Source tiers (R3). -/
inductive Tier where
  | S
  | I
  | G
  deriving DecidableEq, Repr

/-- PRED_INDEX (R261): the default index `pc[13:2]`, or the one supplied by the host, a function this model leaves open. -/
inductive PredIndexScheme where
  | pcBits
  | supplied
  deriving DecidableEq, Repr

/-- The host-supplied PRED_INDEX (R261: "A model must take it as a function, so that the unknown string-keyed hash can be
supplied"). No body: no proof can see its values (log entry 3). -/
opaque Config.suppliedPredIndex : BranchOp → Word → Fin 4096

/-- CVT_SENTINEL_L at reset: OPEN (R8, R180, D27). No body (log entry 4). -/
opaque Config.cvtSentinelL : BitVec 64

/-- CVT_SENTINEL_W at reset: OPEN (R8, R180, D27). No body (log entry 4). -/
opaque Config.cvtSentinelW : BitVec 32

/-- FCSR_ENABLES_RESET (R8, R46): the five enable bits the host sets at reset. -/
structure FcsrEnables where
  v : Bool
  z : Bool
  o : Bool
  u : Bool
  i : Bool
  deriving DecidableEq, Repr

/-- ADMITTED_TIERS (R3, R8): the tiers whose instructions the model admits. -/
structure AdmittedTiers where
  s : Bool
  i : Bool
  g : Bool
  deriving DecidableEq, Repr

/-- Is a tier admitted (R217)? -/
def AdmittedTiers.admits (t : AdmittedTiers) : Tier → Bool
  | .S => t.s
  | .I => t.i
  | .G => t.g

/-- The configuration inputs (R51) with the parameters of R8, constant during a run. -/
structure CoreConfig where
  /-- MEM_BYTES: the size of data memory in bytes (R81). -/
  memBytes : Nat
  /-- DATA_BYTE_ORDER (R82). -/
  byteOrder : ByteOrder
  /-- PREDICTION_ENABLED (R51, R265). -/
  predictionEnabled : Bool
  /-- PRED_INDEX (R261). -/
  predIndex : PredIndexScheme
  /-- PERSIST_PREDICTOR (R50, R563). -/
  persistPredictor : Bool
  /-- FCSR_ENABLES_RESET (R46). -/
  enablesReset : FcsrEnables
  /-- CVT_SENTINEL_L (R180, R182). -/
  cvtSentinelL : BitVec 64
  /-- CVT_SENTINEL_W (R180, R183). -/
  cvtSentinelW : BitVec 32
  /-- ADMITTED_TIERS (R8, R217). -/
  tiers : AdmittedTiers
  deriving DecidableEq, Repr

/-- MEM_BYTES is a multiple of 8 and at least 8 (R8). -/
abbrev CoreConfig.wf (c : CoreConfig) : Prop := c.memBytes % 8 = 0 ∧ 8 ≤ c.memBytes

/-- The configuration of the common start state of 95_test_vectors: MEM_BYTES = 4096, Big, prediction enabled,
PRED_INDEX = pc[13:2], no persistence, no enables, every tier admitted; the sentinels stay open (log entries 1, 2, 4). -/
def CoreConfig.commonStart : CoreConfig where
  memBytes := 4096
  byteOrder := .big
  predictionEnabled := true
  predIndex := .pcBits
  persistPredictor := false
  enablesReset := ⟨false, false, false, false, false⟩
  cvtSentinelL := Config.cvtSentinelL
  cvtSentinelW := Config.cvtSentinelW
  tiers := ⟨true, true, true⟩

end Sys2Proof
end

