-- ==== Sys2Proof/Syntax.lean ====
section
/-! DEFINITION. The instruction set: one constructor for each of the 98 rows of spec/opcode_table.json (30_encoding R119).
Operands stand in the assembler order of the table's "syntax" column (R151). Register numbers are GPR numbers for
rs, rt, rd and base, FPR numbers for fs, ft and fd (R114). -/

namespace Sys2Proof

/-- The 98 instructions of the opcode map (R119). -/
inductive Instr where
  -- 43_int_alu: doubleword and word add and subtract
  | dadd (rd rs rt : RegNum)
  | daddu (rd rs rt : RegNum)
  | dsub (rd rs rt : RegNum)
  | dsubu (rd rs rt : RegNum)
  | add (rd rs rt : RegNum)
  | addu (rd rs rt : RegNum)
  | sub (rd rs rt : RegNum)
  | subu (rd rs rt : RegNum)
  -- add immediate
  | daddi (rt rs : RegNum) (imm : BitVec 16)
  | daddiu (rt rs : RegNum) (imm : BitVec 16)
  | addi (rt rs : RegNum) (imm : BitVec 16)
  | addiu (rt rs : RegNum) (imm : BitVec 16)
  -- logical
  | and (rd rs rt : RegNum)
  | or (rd rs rt : RegNum)
  | xor (rd rs rt : RegNum)
  | andi (rt rs : RegNum) (imm : BitVec 16)
  | ori (rt rs : RegNum) (imm : BitVec 16)
  | xori (rt rs : RegNum) (imm : BitVec 16)
  | lui (rt : RegNum) (imm : BitVec 16)
  -- set on less than
  | slt (rd rs rt : RegNum)
  | sltu (rd rs rt : RegNum)
  | slti (rt rs : RegNum) (imm : BitVec 16)
  | sltiu (rt rs : RegNum) (imm : BitVec 16)
  -- shifts
  | sll (rd rt : RegNum) (sa : BitVec 5)
  | srl (rd rt : RegNum) (sa : BitVec 5)
  | sra (rd rt : RegNum) (sa : BitVec 5)
  | sllv (rd rt rs : RegNum)
  | srlv (rd rt rs : RegNum)
  | srav (rd rt rs : RegNum)
  | dsll (rd rt : RegNum) (sa : BitVec 5)
  | dsrl (rd rt : RegNum) (sa : BitVec 5)
  | dsra (rd rt : RegNum) (sa : BitVec 5)
  | dsllv (rd rt rs : RegNum)
  | dsrlv (rd rt rs : RegNum)
  | dsrav (rd rt rs : RegNum)
  -- conditional moves
  | movz (rd rs rt : RegNum)
  | movn (rd rs rt : RegNum)
  -- 44_int_muldiv
  | dmult (rs rt : RegNum)
  | dmultu (rs rt : RegNum)
  | mult (rs rt : RegNum)
  | multu (rs rt : RegNum)
  | ddiv (rs rt : RegNum)
  | ddivu (rs rt : RegNum)
  | div (rs rt : RegNum)
  | divu (rs rt : RegNum)
  | mfhi (rd : RegNum)
  | mflo (rd : RegNum)
  -- 45_loadstore
  | lb (rt : RegNum) (offset : BitVec 16) (base : RegNum)
  | lbu (rt : RegNum) (offset : BitVec 16) (base : RegNum)
  | lh (rt : RegNum) (offset : BitVec 16) (base : RegNum)
  | lhu (rt : RegNum) (offset : BitVec 16) (base : RegNum)
  | lw (rt : RegNum) (offset : BitVec 16) (base : RegNum)
  | lwu (rt : RegNum) (offset : BitVec 16) (base : RegNum)
  | ld (rt : RegNum) (offset : BitVec 16) (base : RegNum)
  | sb (rt : RegNum) (offset : BitVec 16) (base : RegNum)
  | sh (rt : RegNum) (offset : BitVec 16) (base : RegNum)
  | sw (rt : RegNum) (offset : BitVec 16) (base : RegNum)
  | sd (rt : RegNum) (offset : BitVec 16) (base : RegNum)
  | lwc1 (ft : RegNum) (offset : BitVec 16) (base : RegNum)
  | ldc1 (ft : RegNum) (offset : BitVec 16) (base : RegNum)
  | swc1 (ft : RegNum) (offset : BitVec 16) (base : RegNum)
  | sdc1 (ft : RegNum) (offset : BitVec 16) (base : RegNum)
  -- 46_control
  | beq (rs rt : RegNum) (offset : BitVec 16)
  | bne (rs rt : RegNum) (offset : BitVec 16)
  | beqz (rs : RegNum) (offset : BitVec 16)
  | bnez (rs : RegNum) (offset : BitVec 16)
  | bgez (rs : RegNum) (offset : BitVec 16)
  | bc1f (cc : CcNum) (offset : BitVec 16)
  | bc1t (cc : CcNum) (offset : BitVec 16)
  | j (target : BitVec 26)
  | jal (target : BitVec 26)
  | jr (rs : RegNum)
  | jalr (rd rs : RegNum)
  -- 47_fp_instructions: arithmetic, conversions, moves, compares, transfers, FCSR control
  | addD (fd fs ft : RegNum)
  | subD (fd fs ft : RegNum)
  | mulD (fd fs ft : RegNum)
  | divD (fd fs ft : RegNum)
  | cvtLD (fd fs : RegNum)
  | cvtWD (fd fs : RegNum)
  | cvtDL (fd fs : RegNum)
  | cvtDW (fd fs : RegNum)
  | movD (fd fs : RegNum)
  | movzD (fd fs rt : RegNum)
  | movnD (fd fs rt : RegNum)
  | movfD (fd fs : RegNum) (cc : CcNum)
  | movtD (fd fs : RegNum) (cc : CcNum)
  | cEqD (cc : CcNum) (fs ft : RegNum)
  | cLtD (cc : CcNum) (fs ft : RegNum)
  | cUnD (cc : CcNum) (fs ft : RegNum)
  | mtc1 (rt fs : RegNum)
  | mfc1 (rt fs : RegNum)
  | dmtc1 (rt fs : RegNum)
  | dmfc1 (rt fs : RegNum)
  | ctc1 (rt : RegNum)
  | cfc1 (rt : RegNum)
  -- 48_misc
  | halt
  | nop
  | brk (code : BitVec 20)
  deriving DecidableEq, Repr

end Sys2Proof
end

