-- ==== Sys2Proof/Machine/State.lean ====
section
/-! DEFINITION. The state of the CORE as plain data: everything spec 10_state, 20_memory and 60_exceptions give the machine,
and the two working fields of the model's own executor (`phase`, `outcome`). -/

namespace Sys2Proof.Machine

/-- The registers that have a reservation count (R36): the GPRs, the FPRs, HI and LO. -/
inductive RegId where
  | gpr (n : RegNum)
  | fpr (n : RegNum)
  | hi
  | lo
  deriving DecidableEq, Repr

/-- The five stages (R12). -/
inductive Stage where
  | IF
  | ID
  | EX
  | MEM
  | WB
  deriving DecidableEq, Repr

/-- The fault kinds of R504 with the information each records; `FaultKind.code` is the code. Codes 14 to 16 are named by the source and raised by no
rule (R515); they are kept so that the type is complete. -/
inductive FaultKind where
  | integerOverflow
  | divideByZero
  | memoryAlignment (ea : Word) (n : Nat)
  | addressFault (ea : Word) (n : Nat)
  | fpInvalidOperation
  | fpOverflow
  | fpUnderflow
  | fpDivideByZero
  | reservedInstruction (word : InstrWord)
  | instructionAlignment (pc : Word)
  | fetchAddress (pc : Word)
  | unsupported (word : InstrWord)
  | breakpoint
  | twosComplementSum
  | irregularStringOfBits
  | irregularWriteOperation
  deriving DecidableEq, Repr

/-- The outcome of one stage function (R210). -/
inductive StageOutcome where
  | ok
  | raw
  | misprediction (newPC : Word)
  | jump (newPC : Word)
  | fault (k : FaultKind)
  deriving DecidableEq, Repr

/-- The `op` and `poison` fields of R49 as one: a decoded instruction with its fields (rs, rt, rd, sa, fmt, fs, ft, fd, cc,
imm, target are the arguments of `Instr`), or POISON with the fault the entry carries to ID (R217). -/
inductive Op where
  | instr (i : Instr)
  | poison (k : FaultKind)
  deriving DecidableEq, Repr

/-- An in-flight record, the occupant of a slot (R49). -/
structure InFlight where
  /-- The fetched instruction word; 0 where the fetch found none. -/
  word : InstrWord
  op : Op
  /-- The address the word was fetched from. -/
  fetchedPC : Word
  /-- The prediction made at IF. -/
  predictedTaken : Bool
  /-- Source operand values read in ID. -/
  a : Word
  b : Word
  c : Word
  /-- The registers acquired in ID. -/
  dests : List RegId
  /-- The value to be written at WB. -/
  result : Word
  /-- The value for HI of a multiply or divide. -/
  resultHi : Word
  /-- False when a conditional move does not move. -/
  writeEnable : Bool
  /-- The effective address of a load or store. -/
  ea : Word
  deriving DecidableEq, Repr

/-- Events sent to the external trace sink (R530, R531). -/
inductive TraceEvent where
  | fetch (pc : Word)
  | dataAccess (ea : Word) (n : Nat)
  deriving DecidableEq, Repr

/-- Run status (R52). -/
inductive Status where
  | running
  | terminated
  | faulted (k : FaultKind) (stage : Stage) (fetchedPC : Word)
  | stoppedBreak (fetchedPC : Word)
  deriving DecidableEq, Repr

/-- Data memory (R80): the cells by their bytes, those that are not 0, by rising address (`Memory.wf`): bits 8j+7 to 8j of cell[A]
are listed at A + j, whatever DATA_BYTE_ORDER is; `laneOf` finds the byte at a data address (R82). An unlisted byte is 0
(R83). -/
abbrev Memory := List Host.Cell

/-- The predictor table (R50): the entries that are not 1 (weakly-not-taken), by rising index (`PredTable.wf`). -/
abbrev PredTable := List (Nat × BitVec 2)

/-- Why `step` stops. A run that is over takes no further cycle: "Only `Running` steps. The other three are final for the
run" (R52). Each constructor is raised by `step` on a state with that status and by nothing else, and is safe: the model
goes no further than the hardware. No instruction's meaning raises one; a fatal fault of the program is a NEXT state
with status `faulted` (R510). -/
inductive Fault where
  /-- Raised by `step` on a state whose run terminated normally (R225). Safe. -/
  | runTerminated
  /-- Raised by `step` on a state whose run a fatal fault ended (R510). Safe. -/
  | runFaulted (k : FaultKind) (stage : Stage) (fetchedPC : Word)
  /-- Raised by `step` on a state whose run BREAK ended (R493). Safe. -/
  | runStopped (fetchedPC : Word)
  deriving DecidableEq, Repr

/-- Why an instruction has no meaning. -/
inductive Refusal where
  /-- An instruction this model gives no meaning yet: raised by `exec`'s own arms only, and no arm raises it now. Safe. -/
  | notModelled (mnemonic : String)
  deriving DecidableEq, Repr

/-- The state of the CORE. -/
@[ext]
structure State where
  /-- The 32 GPRs (R30); entry 0 is read and written through `readReg` and `writeReg` only, which hold it at 0 (R31, R32). -/
  gpr : Vector Word 32
  /-- The 32 FPRs (R34). -/
  fpr : Vector Word 32
  /-- HI and LO (R35). -/
  hi : Word
  lo : Word
  /-- Reservation counts of the GPRs (R36); entry 0 is never touched. -/
  rcGpr : Vector Nat 32
  /-- Reservation counts of the FPRs (R36). -/
  rcFpr : Vector Nat 32
  /-- Reservation counts of HI and LO (R36). -/
  rcHi : Nat
  rcLo : Nat
  /-- The address of the next instruction to fetch (R40). -/
  pc : Word
  /-- The shadow register of the trace (R41). -/
  lastFetchedPC : Word
  /-- The FCSR (R42), read and written through `readFcsr` and `writeFcsr`. -/
  fcsr : BitVec 32
  /-- The five pipeline slots; none is a bubble (R48). -/
  slotIF : Option InFlight
  slotID : Option InFlight
  slotEX : Option InFlight
  slotMEM : Option InFlight
  slotWB : Option InFlight
  /-- The branch predictor table PT (R50). -/
  pt : PredTable
  /-- Data memory DM (R57, R80). -/
  mem : Memory
  /-- Instruction memory IM: the NPROG words from CODE_BASE on (R93). -/
  im : List InstrWord
  /-- The addresses of the data cells the host loaded, which reset keeps (R83, R564); log entry 6. -/
  hostLoaded : List Nat
  /-- The configuration inputs (R51). -/
  cfg : CoreConfig
  /-- The run status (R52). -/
  status : Status
  /-- 1 while an unflushed HALT is in flight (R53). -/
  haltFetched : Bool
  /-- The host-visible counters (R54). -/
  cycles : Nat
  retired : Nat
  rawStalls : Nat
  mispredictions : Nat
  /-- The trace output, oldest event first (R55). -/
  trace : List TraceEvent
  /-- The model's own: the stage whose function the executor is calling; IF between cycles (log entry 5). -/
  phase : Stage
  /-- The model's own: the outcome that stage function returned (R210); ok between cycles (log entry 5). -/
  outcome : StageOutcome
  deriving DecidableEq, Repr

/-- FCSR after reset (R46, R560): the enable bits FCSR_ENABLES_RESET in bits 11:7, every other bit 0. -/
def fcsrAtReset (e : FcsrEnables) : BitVec 32 :=
  (0 : BitVec 20) ++ BitVec.ofBool e.v ++ BitVec.ofBool e.z ++ BitVec.ofBool e.o ++ BitVec.ofBool e.u ++
    BitVec.ofBool e.i ++ (0 : BitVec 7)

/-- The CORE right after reset (R560) in the configuration of the common start state of 95_test_vectors, with no program and
no data loaded by the host (log entries 1, 2, 7). -/
def State.reset : State where
  gpr := Vector.replicate 32 0
  fpr := Vector.replicate 32 0
  hi := 0
  lo := 0
  rcGpr := Vector.replicate 32 0
  rcFpr := Vector.replicate 32 0
  rcHi := 0
  rcLo := 0
  pc := codeBase
  lastFetchedPC := 0
  fcsr := fcsrAtReset CoreConfig.commonStart.enablesReset
  slotIF := none
  slotID := none
  slotEX := none
  slotMEM := none
  slotWB := none
  pt := []
  mem := []
  im := []
  hostLoaded := []
  cfg := CoreConfig.commonStart
  status := .running
  haltFetched := false
  cycles := 0
  retired := 0
  rawStalls := 0
  mispredictions := 0
  trace := []
  phase := .IF
  outcome := .ok

end Sys2Proof.Machine
end

