-- ==== Sys2Proof/Machine/Flags.lean ====
section
/-! DEFINITION. Flag computations: the signed overflow tests of 43_int_alu and the fields of the FCSR (10_state R42 to R47),
with `signal` of 40_fpu R165. -/

namespace Sys2Proof.Machine

/-! ### Signed overflow (R281 to R291, R505) -/

/-- The exact integer `s` narrowed to 64 bits, or IntegerOverflow when it lies outside -2^63 .. 2^63 - 1 (R281). -/
def narrow64 (s : Int) : Except FaultKind Word :=
  if s < -(2 ^ 63) ∨ s > 2 ^ 63 - 1 then .error .integerOverflow else .ok (BitVec.ofInt 64 s)

/-- The exact integer `s` narrowed to 32 bits and sign-extended, or IntegerOverflow when it lies outside
-2^31 .. 2^31 - 1 (R285). -/
def narrow32 (s : Int) : Except FaultKind Word :=
  if s < -(2 ^ 31) ∨ s > 2 ^ 31 - 1 then .error .integerOverflow
  else .ok ((BitVec.ofInt 32 s).signExtend 64)

/-! ### FCSR fields (R42) -/

/-- The FP exception classes (R42). -/
inductive FpClass where
  | V
  | Z
  | O
  | U
  | I
  deriving DecidableEq, Repr

/-- A class's place within each of the Cause, Enable and Flag fields: I is the lowest bit, V the highest (R42). -/
def FpClass.index : FpClass → Nat
  | .I => 0
  | .U => 1
  | .O => 2
  | .Z => 3
  | .V => 4

/-- Cause bits 16:12 (R42). -/
def causeBit (c : FpClass) : Nat := 12 + c.index
/-- Enable bits 11:7 (R42). -/
def enableBit (c : FpClass) : Nat := 7 + c.index
/-- Flag bits 6:2 (R42). -/
def flagBit (c : FpClass) : Nat := 2 + c.index

/-- FCC[0] is bit 23; FCC[1] to FCC[7] are bits 25 to 31 (R42). -/
def fccBit (cc : CcNum) : Nat := if cc = 0 then 23 else 24 + cc.val

/-- A 32-bit value with bit n replaced. -/
def putBit (v : BitVec 32) (n : Nat) (b : Bool) : BitVec 32 :=
  if b then v ||| (1#32 <<< n) else v &&& ~~~(1#32 <<< n)

/-- The bits of the FCSR that exist: all but 24, 22:18 and 17, which are hardwired 0 (R42). -/
def fcsrMask : BitVec 32 := 0xFE81FFFF

/-- The five cause bits V, Z, O, U and I (R42). -/
def causeMask : BitVec 32 := 0x0001F000

/-- The FCSR as read: a hardwired bit reads 0 (R42). -/
def State.readFcsr (s : State) : BitVec 32 := s.fcsr &&& fcsrMask

/-- The FCSR written whole: "A write to a hardwired bit is ignored" (R42, R470). -/
def State.writeFcsr (s : State) (v : BitVec 32) : State := { s with fcsr := v &&& fcsrMask }

/-- FCSR.FCC[cc] (R47). -/
def fcc (f : BitVec 32) (cc : CcNum) : Bool := f.getLsbD (fccBit cc)

/-- FCSR with FCC[cc] written (R47). -/
def setFcc (f : BitVec 32) (cc : CcNum) (b : Bool) : BitVec 32 := putBit f (fccBit cc) b

/-- FCSR with Cause.V, Z, O, U and I cleared (R164). -/
def clearCause (f : BitVec 32) : BitVec 32 := f &&& ~~~causeMask

/-- The rounding modes (R43). -/
inductive RoundMode where
  | RN
  | RZ
  | RP
  | RM
  deriving DecidableEq, Repr

/-- FCSR.RM, bits 1:0: 0 to-nearest-even, 1 toward zero, 2 toward +infinity, 3 toward -infinity (R43). -/
def roundMode (f : BitVec 32) : RoundMode :=
  match f.getLsbD 1, f.getLsbD 0 with
  | false, false => .RN
  | false, true => .RZ
  | true, false => .RP
  | true, true => .RM

/-- The fault of a class (R165). Inexact is never signalled (R177), so I has none. -/
def FpClass.fault : FpClass → Option FaultKind
  | .V => some .fpInvalidOperation
  | .Z => some .fpDivideByZero
  | .O => some .fpOverflow
  | .U => some .fpUnderflow
  | .I => none

/-- What an FP arithmetic function returns (40_fpu): the new FCSR, with the result pattern or a fatal FP fault. -/
structure FpOut where
  fcsr : BitVec 32
  value : Except FaultKind Word
  deriving Repr

/-- `signal(c, default)` (R165): the cause bit is set; with the trap enabled the fault is raised and the flag is left as it was,
otherwise the sticky flag is set and the default delivered. -/
def signal (f : BitVec 32) (c : FpClass) (dflt : Word) : FpOut :=
  let f1 := putBit f (causeBit c) true
  match c.fault, f1.getLsbD (enableBit c) with
  | some k, true => ⟨f1, .error k⟩
  | _, _ => ⟨putBit f1 (flagBit c) true, .ok dflt⟩

end Sys2Proof.Machine
end

