-- ==== Sys2Proof/Machine/Fp.lean ====
section
/-! DEFINITION. The IEEE-754 binary64 arithmetic unit (spec 40_fpu): exact integer arithmetic, rounded once.
A finite pattern's real value is held exactly, as an integer number of units of 2^-1074 (MIN_SUB, R11): every finite binary64
value is a whole number of them. A real result is a fraction num / den of units with its sign. -/

namespace Sys2Proof.Machine

/-! ### Format and classification -/

/-- `sign = p[63]` (R160). -/
def fpSign (p : Word) : Bool := p.getLsbD 63
/-- `exp = p[62:52]` (R160). -/
def fpExp (p : Word) : Nat := (p.extractLsb' 52 11).toNat
/-- `frac = p[51:0]` (R160). -/
def fpFrac (p : Word) : Nat := (p.extractLsb' 0 52).toNat
/-- `frac[51]`, which tells SNaN from QNaN in the legacy MIPS polarity (R161, 90_conflicts C2). -/
def fpFracTop (p : Word) : Bool := p.getLsbD 51

/-- The classes of R161. -/
inductive FpKind where
  | inf
  | snan
  | qnan
  | zero
  | subnormal
  | normal
  deriving DecidableEq, Repr

/-- Classification, tested in the order of R161. -/
def fpKind (p : Word) : FpKind :=
  if fpExp p = 0x7FF then
    if fpFrac p = 0 then .inf
    else if fpFracTop p then .snan else .qnan
  else if fpExp p = 0 then
    if fpFrac p = 0 then .zero else .subnormal
  else .normal

/-- `isNaN(p)`: SNaN and QNaN (R161). -/
def isNaN (p : Word) : Bool := fpKind p = .snan || fpKind p = .qnan
/-- An infinity (R161). -/
def isInf (p : Word) : Bool := fpKind p = .inf
/-- A zero of either sign (R161). -/
def isZero (p : Word) : Bool := fpKind p = .zero
/-- `isFinite(p)`: Zero, Subnormal and Normal (R161). -/
def isFinite (p : Word) : Bool := !isNaN p && !isInf p

/-- PINF, NINF, PZERO, NZERO, QNAN, SNAN (R13). -/
def fpPINF : Word := 0x7FF0000000000000
def fpNINF : Word := 0xFFF0000000000000
def fpPZERO : Word := 0x0000000000000000
def fpNZERO : Word := 0x8000000000000000
def fpQNAN : Word := 0x7FF7FFFFFFFFFFFF
def fpSNAN : Word := 0x7FFFFFFFFFFFFFFF

/-- `Inf(s)` of 40_fpu section 3. -/
def infOf (s : Bool) : Word := if s then fpNINF else fpPINF
/-- `Zero(s)` of 40_fpu section 3. -/
def zeroOf (s : Bool) : Word := if s then fpNZERO else fpPZERO

/-- The units of 2^-1074 in 1. -/
def unitsPerOne : Nat := 2 ^ 1074

/-- |val(p)| of a finite pattern in units of 2^-1074 (R162). -/
def fpMag (p : Word) : Nat :=
  if fpExp p = 0 then fpFrac p else (2 ^ 52 + fpFrac p) * 2 ^ (fpExp p - 1)

/-- val(p) of a finite pattern in units of 2^-1074 (R162): val(p) = fpUnits p * 2^-1074. -/
def fpUnits (p : Word) : Int := if fpSign p then -(fpMag p : Int) else (fpMag p : Int)

/-- DBL_MAX = (2 - 2^-52) * 2^1023 in units of 2^-1074 (R11, R171). -/
def dblMaxUnits : Nat := (2 ^ 53 - 1) * 2 ^ 2045

/-! ### Rounding -/

/-- The magnitude num / den rounded to a natural number by a mode, for a value of the given sign (R181): to nearest with ties to
even, toward zero, toward +infinity, toward -infinity. -/
def roundQuotient (rm : RoundMode) (neg : Bool) (num den : Nat) : Nat :=
  let q := num / den
  let r := num % den
  match rm with
  | .RN => if 2 * r > den ∨ (2 * r = den ∧ q % 2 = 1) then q + 1 else q
  | .RZ => q
  | .RP => if !neg ∧ r ≠ 0 then q + 1 else q
  | .RM => if neg ∧ r ≠ 0 then q + 1 else q

/-- The pattern of the value of the given sign and magnitude q * 2^k units, where k = 0 or q >= 2^52 (and q <= 2^53): exponent and
fraction together are the number k * 2^52 + q (R160, R162). -/
def patternOf (neg : Bool) (k q : Nat) : Word :=
  BitVec.ofNat 64 ((if neg then 2 ^ 63 else 0) + k * 2 ^ 52 + q)

/-- The binary64 value of the given sign nearest by a mode to num / den units (R170, R181): k places the 53-bit significand, with
k = 0 for subnormals and the first normal binade. -/
def roundToPattern (rm : RoundMode) (neg : Bool) (num den : Nat) : Word :=
  let k := (num / den).log2 - 52
  patternOf neg k (roundQuotient rm neg num (den * 2 ^ k))

/-- `narrow(x)` (R171) of the exact real x, |x| = num / den units with sign neg; `zsign` is the sign of a zero result (R172). -/
def narrow (f : BitVec 32) (zsign neg : Bool) (num den : Nat) : FpOut :=
  if num = 0 then ⟨f, .ok (zeroOf zsign)⟩
  else if num > dblMaxUnits * den then signal f .O (infOf neg)
  else if num < den then signal f .U (zeroOf neg)
  else ⟨f, .ok (roundToPattern .RN neg num den)⟩

/-- `narrow` of an exact integer number of units. -/
def narrowInt (f : BitVec 32) (zsign : Bool) (x : Int) : FpOut :=
  narrow f zsign (x < 0) x.natAbs 1

/-! ### The four arithmetic functions -/

/-- The zero sign of FPAdd (R172). -/
def addZeroSign (a b : Word) : Bool := isZero a && isZero b && fpSign a && fpSign b

/-- `FPAdd(a, b)` (R163, R166, R173). -/
def fpAdd (f : BitVec 32) (a b : Word) : FpOut :=
  if isNaN a || isNaN b then signal f .V fpQNAN
  else if isInf a && isInf b then
    if fpSign a = fpSign b then ⟨f, .ok a⟩ else signal f .V fpQNAN
  else if isInf a then ⟨f, .ok a⟩
  else if isInf b then ⟨f, .ok b⟩
  else narrowInt f (addZeroSign a b) (fpUnits a + fpUnits b)

/-- `FPSub(a, b)` (R163, R167, R174); its zero sign is that of FPAdd(a, b with its sign bit inverted) (R172). -/
def fpSub (f : BitVec 32) (a b : Word) : FpOut :=
  if isNaN a || isNaN b then signal f .V fpQNAN
  else if isInf a && isInf b then
    if fpSign a = fpSign b then signal f .V fpQNAN else ⟨f, .ok a⟩
  else if isInf a then ⟨f, .ok a⟩
  else if isInf b then ⟨f, .ok (infOf (!fpSign b))⟩
  else narrowInt f (addZeroSign a (b ^^^ fpNZERO)) (fpUnits a - fpUnits b)

/-- `FPMul(a, b)` (R163, R168, R175). -/
def fpMul (f : BitVec 32) (a b : Word) : FpOut :=
  let s := fpSign a ^^ fpSign b
  if isNaN a || isNaN b then signal f .V fpQNAN
  else if (isZero a && isInf b) || (isInf a && isZero b) then signal f .V fpQNAN
  else if isInf a || isInf b then ⟨f, .ok (infOf s)⟩
  else if isZero a || isZero b then ⟨f, .ok (zeroOf s)⟩
  else narrow f s s (fpMag a * fpMag b) unitsPerOne

/-- `FPDiv(a, b)` (R163, R169, R176). -/
def fpDiv (f : BitVec 32) (a b : Word) : FpOut :=
  let s := fpSign a ^^ fpSign b
  if isNaN a || isNaN b then signal f .V fpQNAN
  else if isInf a && isInf b then signal f .V fpQNAN
  else if isZero a && isZero b then signal f .V fpQNAN
  else if isFinite a && isZero b then signal f .Z (infOf s)
  else if isZero a && isFinite b then ⟨f, .ok (zeroOf s)⟩
  else if isInf a then ⟨f, .ok (infOf s)⟩
  else if isInf b then ⟨f, .ok (zeroOf s)⟩
  else narrow f s s (fpMag a * unitsPerOne) (fpMag b)

/-! ### Conversions (R180 to R185); none changes the FCSR -/

/-- `roundToInteger(val(p), RM)` of a finite pattern (R181). -/
def roundToInteger (rm : RoundMode) (p : Word) : Int :=
  let n := roundQuotient rm (fpSign p) (fpMag p) unitsPerOne
  if fpSign p then -(n : Int) else (n : Int)

/-- `roundToFP(n, RM)` (R181, R184); 0 converts to +0. -/
def roundToFP (rm : RoundMode) (n : Int) : Word :=
  if n = 0 then fpPZERO else roundToPattern rm (n < 0) (n.natAbs * unitsPerOne) 1

/-- `CvtDL(p)` (R182). -/
def cvtDoubleToLong (rm : RoundMode) (sentinel : BitVec 64) (p : Word) : BitVec 64 :=
  if isNaN p || isInf p then sentinel
  else
    let n := roundToInteger rm p
    if n < -(2 ^ 63) ∨ n > 2 ^ 63 - 1 then sentinel else BitVec.ofInt 64 n

/-- `CvtDW(p)` (R183). -/
def cvtDoubleToWord (rm : RoundMode) (sentinel : BitVec 32) (p : Word) : BitVec 32 :=
  if isNaN p || isInf p then sentinel
  else
    let n := roundToInteger rm p
    if n < -(2 ^ 31) ∨ n > 2 ^ 31 - 1 then sentinel else BitVec.ofInt 32 n

/-- `CvtLD(v)` (R184). -/
def cvtLongToDouble (rm : RoundMode) (v : Word) : Word := roundToFP rm v.toInt

/-- `CvtWD(v)` (R185): every 32-bit integer converts exactly, so the mode has no effect. -/
def cvtWordToDouble (v : BitVec 32) : Word := roundToFP .RN v.toInt

/-! ### Comparison (47_fp_instructions section 4) -/

/-- `unordered(a, b) = isNaN(a) or isNaN(b)`. -/
def unordered (a b : Word) : Bool := isNaN a || isNaN b

/-- The extended real of an ordered pattern in units of 2^-1074: an infinity lies beyond every finite value. -/
def fpExtended (p : Word) : Int :=
  if isInf p then (if fpSign p then -((dblMaxUnits : Int) + 1) else (dblMaxUnits : Int) + 1) else fpUnits p

/-- The condition of C.EQ.D (R454); +0 = -0. -/
def fpEq (a b : Word) : Bool := !unordered a b && fpExtended a == fpExtended b
/-- The condition of C.LT.D (R455). -/
def fpLt (a b : Word) : Bool := !unordered a b && decide (fpExtended a < fpExtended b)

end Sys2Proof.Machine
end

