-- ==== Sys2Proof/WellFormed.lean ====
section
/-! DEFINITION. Which terms of `Instr` an instruction word can stand for. Every field has exactly the values its bits can
hold, so one check remains: the word of `SLL R0, R0, 0` is 0x00000000, which is NOP (30_encoding R112, R117). -/

namespace Sys2Proof

/-- The word 0x00000000 "decodes as NOP in preference to SLL R0, R0, 0" (R112, R117), so the term `sll 0 0 0` is no
instruction of its own. -/
def Instr.wellFormed (i : Instr) : Bool := i != .sll 0 0 0

end Sys2Proof
end

