-- ==== Sys2Proof/Decode.lean ====
section
/-! DEFINITION. Instruction encoding (spec 30_encoding): the fields of a word (R111, R113), the decoder (R116 to R123), the
encoder, and the opcode map of R119 as rows of match and mask. -/

namespace Sys2Proof

/-! ### Fields of a word (R111, R113) -/

/-- word[31:26]. -/
def fOp (w : InstrWord) : BitVec 6 := w.extractLsb' 26 6
/-- word[25:21]: rs, base, fmt or the COP1 sub-op. -/
def fRs (w : InstrWord) : BitVec 5 := w.extractLsb' 21 5
/-- word[20:16]: rt, ft, or the REGIMM sub-opcode, or cc ‖ nd ‖ tf. -/
def fRt (w : InstrWord) : BitVec 5 := w.extractLsb' 16 5
/-- word[15:11]: rd or fs. -/
def fRd (w : InstrWord) : BitVec 5 := w.extractLsb' 11 5
/-- word[10:6]: shamt, fd, or cc ‖ 00. -/
def fSa (w : InstrWord) : BitVec 5 := w.extractLsb' 6 5
/-- word[5:0]. -/
def fFunct (w : InstrWord) : BitVec 6 := w.extractLsb' 0 6
/-- word[15:0]. -/
def fImm (w : InstrWord) : BitVec 16 := w.extractLsb' 0 16
/-- word[25:0]. -/
def fTarget (w : InstrWord) : BitVec 26 := w.extractLsb' 0 26
/-- word[25:6]: the BREAK code (R493). -/
def fCode (w : InstrWord) : BitVec 20 := w.extractLsb' 6 20

/-- A 5-bit register field names a register directly (R114). -/
def regOf (f : BitVec 5) : RegNum := f.toFin
/-- The 5-bit field of a register number. -/
def regBits (r : RegNum) : BitVec 5 := BitVec.ofFin r

/-- The condition code in the upper three bits of a 5-bit field: word[20:18] or word[10:8] (R113). -/
def ccOf (f : BitVec 5) : CcNum := (f.extractLsb' 2 3).toFin
/-- The lower two bits of such a field: nd ‖ tf of word[17:16], or word[7:6] (R113). -/
def ccTail (f : BitVec 5) : BitVec 2 := f.extractLsb' 0 2
/-- A condition code and the two bits below it as one 5-bit field. -/
def ccBits (cc : CcNum) (tail : BitVec 2) : BitVec 5 := (BitVec.ofFin cc : BitVec 3) ++ tail

/-! ### Formats (R111, R113) -/

/-- R and FR format: opcode, rs (fmt), rt (ft), rd (fs), shamt (fd), funct. -/
def rWord (op : BitVec 6) (rs rt rd sa : BitVec 5) (funct : BitVec 6) : InstrWord :=
  op ++ rs ++ rt ++ rd ++ sa ++ funct

/-- I and FI format: opcode, rs, rt, immediate. -/
def iWord (op : BitVec 6) (rs rt : BitVec 5) (imm : BitVec 16) : InstrWord :=
  op ++ rs ++ rt ++ imm

/-- J format: opcode, target. -/
def jWord (op : BitVec 6) (target : BitVec 26) : InstrWord := op ++ target

/-- BREAK: SPECIAL, a 20-bit code, funct (R493). -/
def codeWord (op : BitVec 6) (code : BitVec 20) (funct : BitVec 6) : InstrWord := op ++ code ++ funct

/-! ### Decoding -/

/-- What decoding answers (R116): an instruction with its fields, or `reserved`; `truncated` is the byte form's answer to
fewer than four bytes (R110: every instruction is 32 bits). -/
inductive DecodeResult where
  | instr (i : Instr)
  | reserved
  | truncated
  deriving DecidableEq, Repr

/-- Fixed bits are part of the match: a word whose fixed field has another value is Reserved (R118). -/
def onlyIf (b : Bool) (i : Instr) : DecodeResult := if b then .instr i else .reserved

/-- The SPECIAL funct map (R121), with the fixed fields of R119. The word 0 is NOP, not SLL (R117). -/
def decodeSpecial (w : InstrWord) : DecodeResult :=
  let rs := regOf (fRs w)
  let rt := regOf (fRt w)
  let rd := regOf (fRd w)
  let sa := fSa w
  match fFunct w with
  | 0b000000#6 =>
    if fRs w = 0 then
      if fRt w = 0 ∧ fRd w = 0 ∧ sa = 0 then .instr .nop else .instr (.sll rd rt sa)
    else .reserved
  | 0b000010#6 => onlyIf (fRs w = 0) (.srl rd rt sa)
  | 0b000011#6 => onlyIf (fRs w = 0) (.sra rd rt sa)
  | 0b000100#6 => onlyIf (sa = 0) (.sllv rd rt rs)
  | 0b000110#6 => onlyIf (sa = 0) (.srlv rd rt rs)
  | 0b000111#6 => onlyIf (sa = 0) (.srav rd rt rs)
  | 0b001000#6 => onlyIf (fRt w = 0 ∧ fRd w = 0 ∧ sa = 0) (.jr rs)
  | 0b001001#6 => onlyIf (fRt w = 0 ∧ sa = 0) (.jalr rd rs)
  | 0b001010#6 => onlyIf (sa = 0) (.movz rd rs rt)
  | 0b001011#6 => onlyIf (sa = 0) (.movn rd rs rt)
  | 0b001101#6 => .instr (.brk (fCode w))
  | 0b010000#6 => onlyIf (fRs w = 0 ∧ fRt w = 0 ∧ sa = 0) (.mfhi rd)
  | 0b010010#6 => onlyIf (fRs w = 0 ∧ fRt w = 0 ∧ sa = 0) (.mflo rd)
  | 0b010100#6 => onlyIf (sa = 0) (.dsllv rd rt rs)
  | 0b010110#6 => onlyIf (sa = 0) (.dsrlv rd rt rs)
  | 0b010111#6 => onlyIf (sa = 0) (.dsrav rd rt rs)
  | 0b011000#6 => onlyIf (fRd w = 0 ∧ sa = 0) (.mult rs rt)
  | 0b011001#6 => onlyIf (fRd w = 0 ∧ sa = 0) (.multu rs rt)
  | 0b011010#6 => onlyIf (fRd w = 0 ∧ sa = 0) (.div rs rt)
  | 0b011011#6 => onlyIf (fRd w = 0 ∧ sa = 0) (.divu rs rt)
  | 0b011100#6 => onlyIf (fRd w = 0 ∧ sa = 0) (.dmult rs rt)
  | 0b011101#6 => onlyIf (fRd w = 0 ∧ sa = 0) (.dmultu rs rt)
  | 0b011110#6 => onlyIf (fRd w = 0 ∧ sa = 0) (.ddiv rs rt)
  | 0b011111#6 => onlyIf (fRd w = 0 ∧ sa = 0) (.ddivu rs rt)
  | 0b100000#6 => onlyIf (sa = 0) (.add rd rs rt)
  | 0b100001#6 => onlyIf (sa = 0) (.addu rd rs rt)
  | 0b100010#6 => onlyIf (sa = 0) (.sub rd rs rt)
  | 0b100011#6 => onlyIf (sa = 0) (.subu rd rs rt)
  | 0b100100#6 => onlyIf (sa = 0) (.and rd rs rt)
  | 0b100101#6 => onlyIf (sa = 0) (.or rd rs rt)
  | 0b100110#6 => onlyIf (sa = 0) (.xor rd rs rt)
  | 0b101010#6 => onlyIf (sa = 0) (.slt rd rs rt)
  | 0b101011#6 => onlyIf (sa = 0) (.sltu rd rs rt)
  | 0b101100#6 => onlyIf (sa = 0) (.dadd rd rs rt)
  | 0b101101#6 => onlyIf (sa = 0) (.daddu rd rs rt)
  | 0b101110#6 => onlyIf (sa = 0) (.dsub rd rs rt)
  | 0b101111#6 => onlyIf (sa = 0) (.dsubu rd rs rt)
  | 0b111000#6 => onlyIf (fRs w = 0) (.dsll rd rt sa)
  | 0b111010#6 => onlyIf (fRs w = 0) (.dsrl rd rt sa)
  | 0b111011#6 => onlyIf (fRs w = 0) (.dsra rd rt sa)
  | _ => .reserved

/-- The REGIMM map (R122): rt = 00001 is BGEZ; rt = 00000 is HALT, only as the whole word 0x04000000. -/
def decodeRegimm (w : InstrWord) : DecodeResult :=
  match fRt w with
  | 0b00000#5 => onlyIf (fRs w = 0 ∧ fImm w = 0) .halt
  | 0b00001#5 => .instr (.bgez (regOf (fRs w)) (fImm w))
  | _ => .reserved

/-- COP1 with fmt D (R123). -/
def decodeFmtD (w : InstrWord) : DecodeResult :=
  let ft := regOf (fRt w)
  let fs := regOf (fRd w)
  let fd := regOf (fSa w)
  match fFunct w with
  | 0b000000#6 => .instr (.addD fd fs ft)
  | 0b000001#6 => .instr (.subD fd fs ft)
  | 0b000010#6 => .instr (.mulD fd fs ft)
  | 0b000011#6 => .instr (.divD fd fs ft)
  | 0b000110#6 => onlyIf (fRt w = 0) (.movD fd fs)
  | 0b010001#6 =>
    match ccTail (fRt w) with
    | 0b00#2 => .instr (.movfD fd fs (ccOf (fRt w)))
    | 0b01#2 => .instr (.movtD fd fs (ccOf (fRt w)))
    | _ => .reserved
  | 0b010010#6 => .instr (.movzD fd fs ft)
  | 0b010011#6 => .instr (.movnD fd fs ft)
  | 0b100100#6 => onlyIf (fRt w = 0) (.cvtWD fd fs)
  | 0b100101#6 => onlyIf (fRt w = 0) (.cvtLD fd fs)
  | 0b110001#6 => onlyIf (ccTail (fSa w) = 0) (.cUnD (ccOf (fSa w)) fs ft)
  | 0b110010#6 => onlyIf (ccTail (fSa w) = 0) (.cEqD (ccOf (fSa w)) fs ft)
  | 0b111100#6 => onlyIf (ccTail (fSa w) = 0) (.cLtD (ccOf (fSa w)) fs ft)
  | _ => .reserved

/-- The COP1 map (R123) by word[25:21]. -/
def decodeCop1 (w : InstrWord) : DecodeResult :=
  let rt := regOf (fRt w)
  let fs := regOf (fRd w)
  let fd := regOf (fSa w)
  match fRs w with
  | 0b00000#5 => onlyIf (fSa w = 0 ∧ fFunct w = 0) (.mfc1 rt fs)
  | 0b00001#5 => onlyIf (fSa w = 0 ∧ fFunct w = 0) (.dmfc1 rt fs)
  | 0b00010#5 => onlyIf (fRd w = 31 ∧ fSa w = 0 ∧ fFunct w = 0) (.cfc1 rt)
  | 0b00100#5 => onlyIf (fSa w = 0 ∧ fFunct w = 0) (.mtc1 rt fs)
  | 0b00101#5 => onlyIf (fSa w = 0 ∧ fFunct w = 0) (.dmtc1 rt fs)
  | 0b00110#5 => onlyIf (fRd w = 31 ∧ fSa w = 0 ∧ fFunct w = 0) (.ctc1 rt)
  | 0b01000#5 =>
    match ccTail (fRt w) with
    | 0b00#2 => .instr (.bc1f (ccOf (fRt w)) (fImm w))
    | 0b01#2 => .instr (.bc1t (ccOf (fRt w)) (fImm w))
    | _ => .reserved
  | 0b10001#5 => decodeFmtD w
  | 0b10100#5 => onlyIf (fRt w = 0 ∧ fFunct w = 0b100001) (.cvtDW fd fs)
  | 0b10101#5 => onlyIf (fRt w = 0 ∧ fFunct w = 0b100001) (.cvtDL fd fs)
  | _ => .reserved

/-- The decoder (R116): total on 32-bit words, by primary opcode (R120). Every opcode R120 does not name is Reserved (R140). -/
def decode (w : InstrWord) : DecodeResult :=
  let rs := regOf (fRs w)
  let rt := regOf (fRt w)
  let imm := fImm w
  match fOp w with
  | 0b000000#6 => decodeSpecial w
  | 0b000001#6 => decodeRegimm w
  | 0b000010#6 => .instr (.j (fTarget w))
  | 0b000011#6 => .instr (.jal (fTarget w))
  | 0b000100#6 => .instr (.beq rs rt imm)
  | 0b000101#6 => .instr (.bne rs rt imm)
  | 0b000110#6 => onlyIf (fRt w = 0) (.beqz rs imm)
  | 0b000111#6 => onlyIf (fRt w = 0) (.bnez rs imm)
  | 0b001000#6 => .instr (.addi rt rs imm)
  | 0b001001#6 => .instr (.addiu rt rs imm)
  | 0b001010#6 => .instr (.slti rt rs imm)
  | 0b001011#6 => .instr (.sltiu rt rs imm)
  | 0b001100#6 => .instr (.andi rt rs imm)
  | 0b001101#6 => .instr (.ori rt rs imm)
  | 0b001110#6 => .instr (.xori rt rs imm)
  | 0b001111#6 => onlyIf (fRs w = 0) (.lui rt imm)
  | 0b010001#6 => decodeCop1 w
  | 0b011000#6 => .instr (.daddi rt rs imm)
  | 0b011001#6 => .instr (.daddiu rt rs imm)
  | 0b100000#6 => .instr (.lb rt imm rs)
  | 0b100001#6 => .instr (.lh rt imm rs)
  | 0b100011#6 => .instr (.lw rt imm rs)
  | 0b100100#6 => .instr (.lbu rt imm rs)
  | 0b100101#6 => .instr (.lhu rt imm rs)
  | 0b100111#6 => .instr (.lwu rt imm rs)
  | 0b101000#6 => .instr (.sb rt imm rs)
  | 0b101001#6 => .instr (.sh rt imm rs)
  | 0b101011#6 => .instr (.sw rt imm rs)
  | 0b110001#6 => .instr (.lwc1 rt imm rs)
  | 0b110101#6 => .instr (.ldc1 rt imm rs)
  | 0b110111#6 => .instr (.ld rt imm rs)
  | 0b111001#6 => .instr (.swc1 rt imm rs)
  | 0b111101#6 => .instr (.sdc1 rt imm rs)
  | 0b111111#6 => .instr (.sd rt imm rs)
  | _ => .reserved

/-! ### Words in a byte image (R94) -/

/-- The word of four bytes, the first the most significant (R94). -/
def wordOfBytes (b0 b1 b2 b3 : Byte) : InstrWord := b0 ++ b1 ++ b2 ++ b3

/-- The four bytes of a word as a byte image holds them (R94). -/
def bytesOfWord (w : InstrWord) : List Byte :=
  [w.extractLsb' 24 8, w.extractLsb' 16 8, w.extractLsb' 8 8, w.extractLsb' 0 8]

/-- Decoding at the head of a byte image, total on any bytes: the result and the bytes that follow. -/
def decodeBytes : List Byte → DecodeResult × List Byte
  | b0 :: b1 :: b2 :: b3 :: rest => (decode (wordOfBytes b0 b1 b2 b3), rest)
  | short => (.truncated, short)

/-- The words of a whole byte image (R94); a last piece of fewer than four bytes holds no word. -/
def wordsOfBytes : List Byte → List InstrWord
  | b0 :: b1 :: b2 :: b3 :: rest => wordOfBytes b0 b1 b2 b3 :: wordsOfBytes rest
  | _ => []

/-- The instruction the decoder reads from a word of the opcode table (bits numbered as the table numbers them). -/
def decodeTableWord (nbits w : Nat) : Option Instr :=
  match (decodeBytes (bytesOfWord (BitVec.ofNat 32 (w % 2 ^ nbits)))).1 with
  | .instr i => some i
  | .reserved => none
  | .truncated => none

/-! ### Encoding -/

/-- SPECIAL, shamt 0 (R119). -/
def specialWord (rs rt rd : RegNum) (funct : BitVec 6) : InstrWord :=
  rWord 0 (regBits rs) (regBits rt) (regBits rd) 0 funct

/-- SPECIAL shift by the 5-bit field, rs 0 (R119). -/
def shiftWord (rt rd : RegNum) (sa : BitVec 5) (funct : BitVec 6) : InstrWord :=
  rWord 0 0 (regBits rt) (regBits rd) sa funct

/-- I format with two registers. -/
def immWord (op : BitVec 6) (rs rt : RegNum) (imm : BitVec 16) : InstrWord :=
  iWord op (regBits rs) (regBits rt) imm

/-- COP1, fmt D (R113). -/
def fmtDWord (ft : BitVec 5) (fs : RegNum) (fd : BitVec 5) (funct : BitVec 6) : InstrWord :=
  rWord 0b010001 0b10001 ft (regBits fs) fd funct

/-- COP1 transfer (FT format, R113). -/
def transferWord (sub : BitVec 5) (rt fs : RegNum) : InstrWord :=
  rWord 0b010001 sub (regBits rt) (regBits fs) 0 0

/-- The word of an instruction, from the encoding column of R119. -/
def encode : Instr → InstrWord
  | .dadd rd rs rt => specialWord rs rt rd 0b101100
  | .daddu rd rs rt => specialWord rs rt rd 0b101101
  | .dsub rd rs rt => specialWord rs rt rd 0b101110
  | .dsubu rd rs rt => specialWord rs rt rd 0b101111
  | .add rd rs rt => specialWord rs rt rd 0b100000
  | .addu rd rs rt => specialWord rs rt rd 0b100001
  | .sub rd rs rt => specialWord rs rt rd 0b100010
  | .subu rd rs rt => specialWord rs rt rd 0b100011
  | .daddi rt rs imm => immWord 0b011000 rs rt imm
  | .daddiu rt rs imm => immWord 0b011001 rs rt imm
  | .addi rt rs imm => immWord 0b001000 rs rt imm
  | .addiu rt rs imm => immWord 0b001001 rs rt imm
  | .and rd rs rt => specialWord rs rt rd 0b100100
  | .or rd rs rt => specialWord rs rt rd 0b100101
  | .xor rd rs rt => specialWord rs rt rd 0b100110
  | .andi rt rs imm => immWord 0b001100 rs rt imm
  | .ori rt rs imm => immWord 0b001101 rs rt imm
  | .xori rt rs imm => immWord 0b001110 rs rt imm
  | .lui rt imm => immWord 0b001111 0 rt imm
  | .slt rd rs rt => specialWord rs rt rd 0b101010
  | .sltu rd rs rt => specialWord rs rt rd 0b101011
  | .slti rt rs imm => immWord 0b001010 rs rt imm
  | .sltiu rt rs imm => immWord 0b001011 rs rt imm
  | .sll rd rt sa => shiftWord rt rd sa 0b000000
  | .srl rd rt sa => shiftWord rt rd sa 0b000010
  | .sra rd rt sa => shiftWord rt rd sa 0b000011
  | .sllv rd rt rs => specialWord rs rt rd 0b000100
  | .srlv rd rt rs => specialWord rs rt rd 0b000110
  | .srav rd rt rs => specialWord rs rt rd 0b000111
  | .dsll rd rt sa => shiftWord rt rd sa 0b111000
  | .dsrl rd rt sa => shiftWord rt rd sa 0b111010
  | .dsra rd rt sa => shiftWord rt rd sa 0b111011
  | .dsllv rd rt rs => specialWord rs rt rd 0b010100
  | .dsrlv rd rt rs => specialWord rs rt rd 0b010110
  | .dsrav rd rt rs => specialWord rs rt rd 0b010111
  | .movz rd rs rt => specialWord rs rt rd 0b001010
  | .movn rd rs rt => specialWord rs rt rd 0b001011
  | .dmult rs rt => specialWord rs rt 0 0b011100
  | .dmultu rs rt => specialWord rs rt 0 0b011101
  | .mult rs rt => specialWord rs rt 0 0b011000
  | .multu rs rt => specialWord rs rt 0 0b011001
  | .ddiv rs rt => specialWord rs rt 0 0b011110
  | .ddivu rs rt => specialWord rs rt 0 0b011111
  | .div rs rt => specialWord rs rt 0 0b011010
  | .divu rs rt => specialWord rs rt 0 0b011011
  | .mfhi rd => specialWord 0 0 rd 0b010000
  | .mflo rd => specialWord 0 0 rd 0b010010
  | .lb rt offset base => immWord 0b100000 base rt offset
  | .lbu rt offset base => immWord 0b100100 base rt offset
  | .lh rt offset base => immWord 0b100001 base rt offset
  | .lhu rt offset base => immWord 0b100101 base rt offset
  | .lw rt offset base => immWord 0b100011 base rt offset
  | .lwu rt offset base => immWord 0b100111 base rt offset
  | .ld rt offset base => immWord 0b110111 base rt offset
  | .sb rt offset base => immWord 0b101000 base rt offset
  | .sh rt offset base => immWord 0b101001 base rt offset
  | .sw rt offset base => immWord 0b101011 base rt offset
  | .sd rt offset base => immWord 0b111111 base rt offset
  | .lwc1 ft offset base => immWord 0b110001 base ft offset
  | .ldc1 ft offset base => immWord 0b110101 base ft offset
  | .swc1 ft offset base => immWord 0b111001 base ft offset
  | .sdc1 ft offset base => immWord 0b111101 base ft offset
  | .beq rs rt offset => immWord 0b000100 rs rt offset
  | .bne rs rt offset => immWord 0b000101 rs rt offset
  | .beqz rs offset => immWord 0b000110 rs 0 offset
  | .bnez rs offset => immWord 0b000111 rs 0 offset
  | .bgez rs offset => immWord 0b000001 rs 1 offset
  | .bc1f cc offset => iWord 0b010001 0b01000 (ccBits cc 0b00) offset
  | .bc1t cc offset => iWord 0b010001 0b01000 (ccBits cc 0b01) offset
  | .j target => jWord 0b000010 target
  | .jal target => jWord 0b000011 target
  | .jr rs => specialWord rs 0 0 0b001000
  | .jalr rd rs => specialWord rs 0 rd 0b001001
  | .addD fd fs ft => fmtDWord (regBits ft) fs (regBits fd) 0b000000
  | .subD fd fs ft => fmtDWord (regBits ft) fs (regBits fd) 0b000001
  | .mulD fd fs ft => fmtDWord (regBits ft) fs (regBits fd) 0b000010
  | .divD fd fs ft => fmtDWord (regBits ft) fs (regBits fd) 0b000011
  | .cvtLD fd fs => fmtDWord 0 fs (regBits fd) 0b100101
  | .cvtWD fd fs => fmtDWord 0 fs (regBits fd) 0b100100
  | .cvtDL fd fs => rWord 0b010001 0b10101 0 (regBits fs) (regBits fd) 0b100001
  | .cvtDW fd fs => rWord 0b010001 0b10100 0 (regBits fs) (regBits fd) 0b100001
  | .movD fd fs => fmtDWord 0 fs (regBits fd) 0b000110
  | .movzD fd fs rt => fmtDWord (regBits rt) fs (regBits fd) 0b010010
  | .movnD fd fs rt => fmtDWord (regBits rt) fs (regBits fd) 0b010011
  | .movfD fd fs cc => fmtDWord (ccBits cc 0b00) fs (regBits fd) 0b010001
  | .movtD fd fs cc => fmtDWord (ccBits cc 0b01) fs (regBits fd) 0b010001
  | .cEqD cc fs ft => fmtDWord (regBits ft) fs (ccBits cc 0b00) 0b110010
  | .cLtD cc fs ft => fmtDWord (regBits ft) fs (ccBits cc 0b00) 0b111100
  | .cUnD cc fs ft => fmtDWord (regBits ft) fs (ccBits cc 0b00) 0b110001
  | .mtc1 rt fs => transferWord 0b00100 rt fs
  | .mfc1 rt fs => transferWord 0b00000 rt fs
  | .dmtc1 rt fs => transferWord 0b00101 rt fs
  | .dmfc1 rt fs => transferWord 0b00001 rt fs
  | .ctc1 rt => transferWord 0b00110 rt 31
  | .cfc1 rt => transferWord 0b00010 rt 31
  | .halt => iWord 0b000001 0 0 0
  | .nop => rWord 0 0 0 0 0 0
  | .brk code => codeWord 0 code 0b001101

/-! ### The opcode map as data (R119) -/

/-- One row of R119: its mnemonic, its match and mask words, its tier. -/
structure OpcodeRow where
  mnemonic : String
  pattern : InstrWord
  mask : InstrWord
  tier : Tier
  deriving DecidableEq, Repr

/-- A word belongs to a row when `(word AND mask) = match` (R116). -/
def OpcodeRow.fits (r : OpcodeRow) (w : InstrWord) : Bool := w &&& r.mask == r.pattern

/-- The row of R119 an instruction belongs to. -/
def Instr.row : Instr → OpcodeRow
  | .dadd _ _ _ => ⟨"DADD", 0x0000002C, 0xFC0007FF, .S⟩
  | .daddu _ _ _ => ⟨"DADDU", 0x0000002D, 0xFC0007FF, .I⟩
  | .dsub _ _ _ => ⟨"DSUB", 0x0000002E, 0xFC0007FF, .G⟩
  | .dsubu _ _ _ => ⟨"DSUBU", 0x0000002F, 0xFC0007FF, .G⟩
  | .add _ _ _ => ⟨"ADD", 0x00000020, 0xFC0007FF, .G⟩
  | .addu _ _ _ => ⟨"ADDU", 0x00000021, 0xFC0007FF, .G⟩
  | .sub _ _ _ => ⟨"SUB", 0x00000022, 0xFC0007FF, .G⟩
  | .subu _ _ _ => ⟨"SUBU", 0x00000023, 0xFC0007FF, .G⟩
  | .daddi _ _ _ => ⟨"DADDI", 0x60000000, 0xFC000000, .S⟩
  | .daddiu _ _ _ => ⟨"DADDIU", 0x64000000, 0xFC000000, .I⟩
  | .addi _ _ _ => ⟨"ADDI", 0x20000000, 0xFC000000, .G⟩
  | .addiu _ _ _ => ⟨"ADDIU", 0x24000000, 0xFC000000, .G⟩
  | .and _ _ _ => ⟨"AND", 0x00000024, 0xFC0007FF, .G⟩
  | .or _ _ _ => ⟨"OR", 0x00000025, 0xFC0007FF, .G⟩
  | .xor _ _ _ => ⟨"XOR", 0x00000026, 0xFC0007FF, .G⟩
  | .andi _ _ _ => ⟨"ANDI", 0x30000000, 0xFC000000, .G⟩
  | .ori _ _ _ => ⟨"ORI", 0x34000000, 0xFC000000, .G⟩
  | .xori _ _ _ => ⟨"XORI", 0x38000000, 0xFC000000, .G⟩
  | .lui _ _ => ⟨"LUI", 0x3C000000, 0xFFE00000, .G⟩
  | .slt _ _ _ => ⟨"SLT", 0x0000002A, 0xFC0007FF, .G⟩
  | .sltu _ _ _ => ⟨"SLTU", 0x0000002B, 0xFC0007FF, .G⟩
  | .slti _ _ _ => ⟨"SLTI", 0x28000000, 0xFC000000, .G⟩
  | .sltiu _ _ _ => ⟨"SLTIU", 0x2C000000, 0xFC000000, .G⟩
  | .sll _ _ _ => ⟨"SLL", 0x00000000, 0xFFE0003F, .G⟩
  | .srl _ _ _ => ⟨"SRL", 0x00000002, 0xFFE0003F, .G⟩
  | .sra _ _ _ => ⟨"SRA", 0x00000003, 0xFFE0003F, .G⟩
  | .sllv _ _ _ => ⟨"SLLV", 0x00000004, 0xFC0007FF, .G⟩
  | .srlv _ _ _ => ⟨"SRLV", 0x00000006, 0xFC0007FF, .G⟩
  | .srav _ _ _ => ⟨"SRAV", 0x00000007, 0xFC0007FF, .G⟩
  | .dsll _ _ _ => ⟨"DSLL", 0x00000038, 0xFFE0003F, .G⟩
  | .dsrl _ _ _ => ⟨"DSRL", 0x0000003A, 0xFFE0003F, .G⟩
  | .dsra _ _ _ => ⟨"DSRA", 0x0000003B, 0xFFE0003F, .G⟩
  | .dsllv _ _ _ => ⟨"DSLLV", 0x00000014, 0xFC0007FF, .G⟩
  | .dsrlv _ _ _ => ⟨"DSRLV", 0x00000016, 0xFC0007FF, .G⟩
  | .dsrav _ _ _ => ⟨"DSRAV", 0x00000017, 0xFC0007FF, .G⟩
  | .movz _ _ _ => ⟨"MOVZ", 0x0000000A, 0xFC0007FF, .G⟩
  | .movn _ _ _ => ⟨"MOVN", 0x0000000B, 0xFC0007FF, .G⟩
  | .dmult _ _ => ⟨"DMULT", 0x0000001C, 0xFC00FFFF, .G⟩
  | .dmultu _ _ => ⟨"DMULTU", 0x0000001D, 0xFC00FFFF, .G⟩
  | .mult _ _ => ⟨"MULT", 0x00000018, 0xFC00FFFF, .G⟩
  | .multu _ _ => ⟨"MULTU", 0x00000019, 0xFC00FFFF, .G⟩
  | .ddiv _ _ => ⟨"DDIV", 0x0000001E, 0xFC00FFFF, .I⟩
  | .ddivu _ _ => ⟨"DDIVU", 0x0000001F, 0xFC00FFFF, .I⟩
  | .div _ _ => ⟨"DIV", 0x0000001A, 0xFC00FFFF, .G⟩
  | .divu _ _ => ⟨"DIVU", 0x0000001B, 0xFC00FFFF, .G⟩
  | .mfhi _ => ⟨"MFHI", 0x00000010, 0xFFFF07FF, .G⟩
  | .mflo _ => ⟨"MFLO", 0x00000012, 0xFFFF07FF, .G⟩
  | .lb _ _ _ => ⟨"LB", 0x80000000, 0xFC000000, .I⟩
  | .lbu _ _ _ => ⟨"LBU", 0x90000000, 0xFC000000, .I⟩
  | .lh _ _ _ => ⟨"LH", 0x84000000, 0xFC000000, .I⟩
  | .lhu _ _ _ => ⟨"LHU", 0x94000000, 0xFC000000, .I⟩
  | .lw _ _ _ => ⟨"LW", 0x8C000000, 0xFC000000, .I⟩
  | .lwu _ _ _ => ⟨"LWU", 0x9C000000, 0xFC000000, .I⟩
  | .ld _ _ _ => ⟨"LD", 0xDC000000, 0xFC000000, .I⟩
  | .sb _ _ _ => ⟨"SB", 0xA0000000, 0xFC000000, .I⟩
  | .sh _ _ _ => ⟨"SH", 0xA4000000, 0xFC000000, .I⟩
  | .sw _ _ _ => ⟨"SW", 0xAC000000, 0xFC000000, .I⟩
  | .sd _ _ _ => ⟨"SD", 0xFC000000, 0xFC000000, .I⟩
  | .lwc1 _ _ _ => ⟨"LWC1", 0xC4000000, 0xFC000000, .G⟩
  | .ldc1 _ _ _ => ⟨"LDC1", 0xD4000000, 0xFC000000, .G⟩
  | .swc1 _ _ _ => ⟨"SWC1", 0xE4000000, 0xFC000000, .G⟩
  | .sdc1 _ _ _ => ⟨"SDC1", 0xF4000000, 0xFC000000, .G⟩
  | .beq _ _ _ => ⟨"BEQ", 0x10000000, 0xFC000000, .S⟩
  | .bne _ _ _ => ⟨"BNE", 0x14000000, 0xFC000000, .S⟩
  | .beqz _ _ => ⟨"BEQZ", 0x18000000, 0xFC1F0000, .S⟩
  | .bnez _ _ => ⟨"BNEZ", 0x1C000000, 0xFC1F0000, .S⟩
  | .bgez _ _ => ⟨"BGEZ", 0x04010000, 0xFC1F0000, .S⟩
  | .bc1f _ _ => ⟨"BC1F", 0x45000000, 0xFFE30000, .G⟩
  | .bc1t _ _ => ⟨"BC1T", 0x45010000, 0xFFE30000, .G⟩
  | .j _ => ⟨"J", 0x08000000, 0xFC000000, .I⟩
  | .jal _ => ⟨"JAL", 0x0C000000, 0xFC000000, .G⟩
  | .jr _ => ⟨"JR", 0x00000008, 0xFC1FFFFF, .G⟩
  | .jalr _ _ => ⟨"JALR", 0x00000009, 0xFC1F07FF, .G⟩
  | .addD _ _ _ => ⟨"ADD.D", 0x46200000, 0xFFE0003F, .S⟩
  | .subD _ _ _ => ⟨"SUB.D", 0x46200001, 0xFFE0003F, .S⟩
  | .mulD _ _ _ => ⟨"MUL.D", 0x46200002, 0xFFE0003F, .S⟩
  | .divD _ _ _ => ⟨"DIV.D", 0x46200003, 0xFFE0003F, .S⟩
  | .cvtLD _ _ => ⟨"CVT.L.D", 0x46200025, 0xFFFF003F, .I⟩
  | .cvtWD _ _ => ⟨"CVT.W.D", 0x46200024, 0xFFFF003F, .I⟩
  | .cvtDL _ _ => ⟨"CVT.D.L", 0x46A00021, 0xFFFF003F, .I⟩
  | .cvtDW _ _ => ⟨"CVT.D.W", 0x46800021, 0xFFFF003F, .G⟩
  | .movD _ _ => ⟨"MOV.D", 0x46200006, 0xFFFF003F, .G⟩
  | .movzD _ _ _ => ⟨"MOVZ.D", 0x46200012, 0xFFE0003F, .G⟩
  | .movnD _ _ _ => ⟨"MOVN.D", 0x46200013, 0xFFE0003F, .G⟩
  | .movfD _ _ _ => ⟨"MOVF.D", 0x46200011, 0xFFE3003F, .G⟩
  | .movtD _ _ _ => ⟨"MOVT.D", 0x46210011, 0xFFE3003F, .G⟩
  | .cEqD _ _ _ => ⟨"C.EQ.D", 0x46200032, 0xFFE000FF, .G⟩
  | .cLtD _ _ _ => ⟨"C.LT.D", 0x4620003C, 0xFFE000FF, .G⟩
  | .cUnD _ _ _ => ⟨"C.UN.D", 0x46200031, 0xFFE000FF, .G⟩
  | .mtc1 _ _ => ⟨"MTC1", 0x44800000, 0xFFE007FF, .G⟩
  | .mfc1 _ _ => ⟨"MFC1", 0x44000000, 0xFFE007FF, .G⟩
  | .dmtc1 _ _ => ⟨"DMTC1", 0x44A00000, 0xFFE007FF, .G⟩
  | .dmfc1 _ _ => ⟨"DMFC1", 0x44200000, 0xFFE007FF, .G⟩
  | .ctc1 _ => ⟨"CTC1", 0x44C0F800, 0xFFE0FFFF, .I⟩
  | .cfc1 _ => ⟨"CFC1", 0x4440F800, 0xFFE0FFFF, .G⟩
  | .halt => ⟨"HALT", 0x04000000, 0xFFFFFFFF, .S⟩
  | .nop => ⟨"NOP", 0x00000000, 0xFFFFFFFF, .G⟩
  | .brk _ => ⟨"BREAK", 0x0000000D, 0xFC00003F, .G⟩

/-- The tier of an instruction (R3, R119). -/
def Instr.tier (i : Instr) : Tier := i.row.tier

/-- One instruction of each row of 43_int_alu, in the order of R119. -/
def intAluInstrs : List Instr :=
  [.dadd 0 0 0, .daddu 0 0 0, .dsub 0 0 0, .dsubu 0 0 0, .add 0 0 0, .addu 0 0 0, .sub 0 0 0, .subu 0 0 0,
   .daddi 0 0 0, .daddiu 0 0 0, .addi 0 0 0, .addiu 0 0 0, .and 0 0 0, .or 0 0 0, .xor 0 0 0, .andi 0 0 0,
   .ori 0 0 0, .xori 0 0 0, .lui 0 0, .slt 0 0 0, .sltu 0 0 0, .slti 0 0 0, .sltiu 0 0 0, .sll 0 0 0, .srl 0 0 0,
   .sra 0 0 0, .sllv 0 0 0, .srlv 0 0 0, .srav 0 0 0, .dsll 0 0 0, .dsrl 0 0 0, .dsra 0 0 0, .dsllv 0 0 0,
   .dsrlv 0 0 0, .dsrav 0 0 0, .movz 0 0 0, .movn 0 0 0]

/-- One instruction of each row of 44_int_muldiv, in the order of R119. -/
def mulDivInstrs : List Instr :=
  [.dmult 0 0, .dmultu 0 0, .mult 0 0, .multu 0 0, .ddiv 0 0, .ddivu 0 0, .div 0 0, .divu 0 0, .mfhi 0, .mflo 0]

/-- One instruction of each row of 45_loadstore, in the order of R119. -/
def loadStoreInstrs : List Instr :=
  [.lb 0 0 0, .lbu 0 0 0, .lh 0 0 0, .lhu 0 0 0, .lw 0 0 0, .lwu 0 0 0, .ld 0 0 0, .sb 0 0 0, .sh 0 0 0, .sw 0 0 0,
   .sd 0 0 0, .lwc1 0 0 0, .ldc1 0 0 0, .swc1 0 0 0, .sdc1 0 0 0]

/-- One instruction of each row of 46_control, in the order of R119. -/
def controlInstrs : List Instr :=
  [.beq 0 0 0, .bne 0 0 0, .beqz 0 0, .bnez 0 0, .bgez 0 0, .bc1f 0 0, .bc1t 0 0, .j 0, .jal 0, .jr 0, .jalr 0 0]

/-- One instruction of each row of 47_fp_instructions, in the order of R119. -/
def fpInstrs : List Instr :=
  [.addD 0 0 0, .subD 0 0 0, .mulD 0 0 0, .divD 0 0 0, .cvtLD 0 0, .cvtWD 0 0, .cvtDL 0 0, .cvtDW 0 0, .movD 0 0,
   .movzD 0 0 0, .movnD 0 0 0, .movfD 0 0 0, .movtD 0 0 0, .cEqD 0 0 0, .cLtD 0 0 0, .cUnD 0 0 0, .mtc1 0 0,
   .mfc1 0 0, .dmtc1 0 0, .dmfc1 0 0, .ctc1 0, .cfc1 0]

/-- One instruction of each row of 48_misc, in the order of R119. -/
def miscInstrs : List Instr :=
  [.halt, .nop, .brk 0]

/-- One instruction of each row, in the order of R119. -/
def tableInstrs : List Instr :=
  intAluInstrs ++ (mulDivInstrs ++ (loadStoreInstrs ++ (controlInstrs ++ (fpInstrs ++ miscInstrs))))

/-- The 98 rows of R119. -/
def opcodeRows : List OpcodeRow := tableInstrs.map Instr.row

end Sys2Proof
end

