-- ==== Sys2Proof/Machine/Operands.lean ====
section
/-! DEFINITION. Operand forms: the immediates of 30_encoding R115, effective addresses (20_memory R91), branch and jump
targets (46_control R411, R421), and which registers an instruction reads into which latch (41_pipeline R212). -/

namespace Sys2Proof.Machine

/-- The registers ID reads into the latches a, b and c (R49, R212); none where the instruction has no such source. -/
structure Operands where
  a : Option RegId := none
  b : Option RegId := none
  c : Option RegId := none
  deriving DecidableEq, Repr

/-- The source registers that ID checks (R212: `srcs(op)`). -/
def Operands.srcs (o : Operands) : List RegId := o.a.toList ++ o.b.toList ++ o.c.toList

/-- No register source. -/
def noOperands : Operands := {}

/-- a from rs, b from rt: the register-register forms (R280, R340) and the two-register branches (R410). -/
def rsRt (rs rt : RegNum) : Operands := { a := some (.gpr rs), b := some (.gpr rt) }

/-- a from one GPR: the immediate forms, loads, one-register branches and register jumps. -/
def rsOnly (rs : RegNum) : Operands := { a := some (.gpr rs) }

/-- b from rt: the shifts by the sa field (R304 to R306, R310 to R312). -/
def rtOnly (rt : RegNum) : Operands := { b := some (.gpr rt) }

/-- a from HI or LO (R349, R350). -/
def hiLoOnly (r : RegId) : Operands := { a := some r }

/-- a from the base GPR, b from the GPR stored (R371). -/
def baseAndGpr (base rt : RegNum) : Operands := { a := some (.gpr base), b := some (.gpr rt) }

/-- a from the base GPR, b from the FPR stored (R371). -/
def baseAndFpr (base ft : RegNum) : Operands := { a := some (.gpr base), b := some (.fpr ft) }

/-- a from FPR fs, b from FPR ft (R440). -/
def fsFt (fs ft : RegNum) : Operands := { a := some (.fpr fs), b := some (.fpr ft) }

/-- a from FPR fs (R440). -/
def fsOnly (fs : RegNum) : Operands := { a := some (.fpr fs) }

/-- a from FPR fs, c from GPR rt (R440, R450). -/
def fsAndGpr (fs rt : RegNum) : Operands := { a := some (.fpr fs), c := some (.gpr rt) }

/-- c from GPR rt (R440). -/
def gprToC (rt : RegNum) : Operands := { c := some (.gpr rt) }

/-- The low 32 bits of a 64-bit operand (R280, R340: A32, B32). -/
def low32 (v : Word) : BitVec 32 := v.extractLsb' 0 32

/-- sext_64 of a 32-bit value (R10). -/
def sext32 (v : BitVec 32) : Word := v.signExtend 64

/-- `simm = sext_64(imm)` (R115, R280). -/
def simm (imm : BitVec 16) : Word := imm.signExtend 64

/-- `zimm = zext_64(imm)` (R115, R280). -/
def zimm (imm : BitVec 16) : Word := imm.zeroExtend 64

/-- LUI's `sext_64(imm ‖ 0x0000)` (R115, R299). -/
def upperImm (imm : BitVec 16) : Word := (imm ++ (0 : BitVec 16)).signExtend 64

/-- `sext_64(imm ‖ 00)`, the byte distance of a branch offset (R115). -/
def branchDistance (offset : BitVec 16) : Word := (offset ++ (0 : BitVec 2)).signExtend 64

/-- `ea = x[base] + sext_64(imm)`, modulo 2^64 (R91). -/
def effectiveAddress (base : Word) (offset : BitVec 16) : Word := base + simm offset

/-- `branchTarget = fetchedPC + 4 + sext_64(imm ‖ 00)`, modulo 2^64 (R411). -/
def branchTarget (fetchedPC : Word) (offset : BitVec 16) : Word := fetchedPC + 4 + branchDistance offset

/-- `jumpTarget = (fetchedPC + 4)[63:28] ‖ target ‖ 00` (R421). -/
def jumpTarget (fetchedPC : Word) (target : BitVec 26) : Word :=
  (fetchedPC + 4).extractLsb' 28 36 ++ target ++ (0 : BitVec 2)

/-- The link value of JAL and JALR (R424, R425). -/
def linkAddress (fetchedPC : Word) : Word := fetchedPC + 4

end Sys2Proof.Machine
end

