-- ==== Sys2Proof/Machine/Sparse.lean ====
section
/-! DEFINITION. Sparse data by key, in one canonical form: keys strictly rising, no entry equal to the value an unlisted key
reads as. Data memory and the predictor table are held so. -/

namespace Sys2Proof.Machine

/-- The value at a key; `d` where the key is not listed. -/
def Sparse.get {β : Type} (d : β) : List (Nat × β) → Nat → β
  | [], _ => d
  | (k, v) :: rest, a => if k = a then v else Sparse.get d rest a

/-- The list with the value at one key replaced; writing `d` takes the entry out. -/
def Sparse.set {β : Type} [DecidableEq β] (d : β) : List (Nat × β) → Nat → β → List (Nat × β)
  | [], a, v => if v = d then [] else [(a, v)]
  | (k, w) :: rest, a, v =>
    if a < k then (if v = d then (k, w) :: rest else (a, v) :: (k, w) :: rest)
    else if a = k then (if v = d then rest else (a, v) :: rest)
    else (k, w) :: Sparse.set d rest a v

/-- The canonical form. -/
abbrev Sparse.wf {β : Type} (d : β) (m : List (Nat × β)) : Prop :=
  m.Pairwise (fun p q => p.1 < q.1) ∧ ∀ p ∈ m, p.2 ≠ d

/-- The byte that data memory lists at A + j, bits 8j+7 to 8j of cell[A]: "Reads from never-written cells yield zero" (R83). -/
def Memory.read (m : Memory) (a : Nat) : Byte := Sparse.get 0 m a

/-- Data memory with one listed byte replaced. -/
def Memory.write (m : Memory) (a : Nat) (v : Byte) : Memory := Sparse.set 0 m a v

/-- The canonical form of data memory: addresses strictly rising, no listed byte 0. -/
abbrev Memory.wf (m : Memory) : Prop := Sparse.wf (0 : Byte) m

/-- The counter PT[i] (R50): 1, weakly-not-taken, where nothing else is listed. -/
def PredTable.read (t : PredTable) (i : Nat) : BitVec 2 := Sparse.get 1 t i

/-- PT with one counter written. -/
def PredTable.write (t : PredTable) (i : Nat) (v : BitVec 2) : PredTable := Sparse.set 1 t i v

/-- The canonical form of PT: rising indexes below 4096, no listed counter 1. -/
abbrev PredTable.wf (t : PredTable) : Prop := Sparse.wf (1 : BitVec 2) t ∧ ∀ p ∈ t, p.1 < 4096

end Sys2Proof.Machine
end

