-- ==== Sys2Proof/Machine/Ops.lean ====
section
/-! DEFINITION. The named operations over registers, the scoreboard, data memory, instruction memory and the pipeline slots,
and the stop of a run by a fatal fault (the CORE's only exception; there is no handler entry and no return from one, R516). -/

namespace Sys2Proof.Machine

/-! ### Registers -/

/-- `x[i]`, `f[i]`, HI, LO as an instruction reads them: GPR 0 always returns 0 (R31, R34, R35). -/
def State.readReg (s : State) : RegId → Word
  | .gpr n => if n = 0 then 0 else s.gpr[n]
  | .fpr n => s.fpr[n]
  | .hi => s.hi
  | .lo => s.lo

/-- A register write: to GPR 0 it is discarded (R32). -/
def State.writeReg (s : State) (r : RegId) (v : Word) : State :=
  match r with
  | .gpr n => if n = 0 then s else { s with gpr := s.gpr.set n v }
  | .fpr n => { s with fpr := s.fpr.set n v }
  | .hi => { s with hi := v }
  | .lo => { s with lo := v }

/-! ### The write-reservation scoreboard -/

/-- `rc(r)` (R36): the count of GPR 0 is always 0. -/
def State.rc (s : State) : RegId → Nat
  | .gpr n => if n = 0 then 0 else s.rcGpr[n]
  | .fpr n => s.rcFpr[n]
  | .hi => s.rcHi
  | .lo => s.rcLo

/-- The state with one reservation count replaced; that of GPR 0 stays 0. -/
def State.setRc (s : State) (r : RegId) (k : Nat) : State :=
  match r with
  | .gpr n => if n = 0 then s else { s with rcGpr := s.rcGpr.set n k }
  | .fpr n => { s with rcFpr := s.rcFpr.set n k }
  | .hi => { s with rcHi := k }
  | .lo => { s with rcLo := k }

/-- `acquireWrite(r)` (R37). -/
def State.acquireWrite (s : State) (r : RegId) : State := s.setRc r (s.rc r + 1)

/-- `releaseWrite(r)` (R38). -/
def State.releaseWrite (s : State) (r : RegId) : State := s.setRc r (s.rc r - 1)

/-- `acquireWrite` of each register of a list (R212). -/
def State.acquireAll (s : State) (rs : List RegId) : State := rs.foldl State.acquireWrite s

/-- `releaseWrite` of each register of a list (R215, R222). -/
def State.releaseAll (s : State) (rs : List RegId) : State := rs.foldl State.releaseWrite s

/-- Has one of the source registers a read-after-write hazard (R39)? -/
def State.rawHazard (s : State) (srcs : List RegId) : Bool := srcs.any (fun r => s.rc r != 0)

/-! ### Pipeline slots -/

/-- The occupant of a stage's slot (R48). -/
def State.slot (s : State) : Stage → Option InFlight
  | .IF => s.slotIF
  | .ID => s.slotID
  | .EX => s.slotEX
  | .MEM => s.slotMEM
  | .WB => s.slotWB

/-- The state with a stage's slot replaced. -/
def State.setSlot (s : State) (st : Stage) (o : Option InFlight) : State :=
  match st with
  | .IF => { s with slotIF := o }
  | .ID => { s with slotID := o }
  | .EX => { s with slotEX := o }
  | .MEM => { s with slotMEM := o }
  | .WB => { s with slotWB := o }

/-- The state in which the executor calls a stage's function (R211). -/
def State.enter (s : State) (st : Stage) : State := { s with phase := st, outcome := .ok }

/-- The state with a stage function's outcome recorded (R210). -/
def State.done (s : State) (o : StageOutcome) : State := { s with outcome := o }

/-! ### Data memory -/

/-- The unsigned number whose bytes lie at rising addresses, in a byte order (R84). -/
def numberOfBytes (order : ByteOrder) (bs : List Byte) : Nat :=
  match order with
  | .big => bs.foldl (fun acc b => acc * 256 + b.toNat) 0
  | .little => bs.foldr (fun b acc => acc * 256 + b.toNat) 0

/-- Byte number j of a value, the least significant first. -/
def byteOf (v : Word) (j : Nat) : Byte := v.extractLsb' (8 * j) 8

/-- The low n bytes of a value as they lie at rising addresses (R84, R85). -/
def bytesOfNumber (order : ByteOrder) (n : Nat) (v : Word) : List Byte :=
  match order with
  | .big => (List.range n).map (fun j => byteOf v (n - 1 - j))
  | .little => (List.range n).map (fun j => byteOf v j)

/-- Where `mem` lists the byte at a data address (R82): `mem` holds cell[A] under either byte order with its bits 8j+7 to 8j at
A + j, so for Big the byte at A + k is the one at A + 7 - k. -/
def laneOf (order : ByteOrder) (a : Nat) : Nat :=
  match order with
  | .big => a - a % 8 + (7 - a % 8)
  | .little => a

/-- `byte(a)` (R82): the byte at a data address. -/
def Memory.byteAt (m : Memory) (order : ByteOrder) (a : Nat) : Byte := m.read (laneOf order a)

/-- Data memory with the byte at a data address replaced. -/
def Memory.setByte (m : Memory) (order : ByteOrder) (a : Nat) (b : Byte) : Memory := m.write (laneOf order a) b

/-- The n bytes from an address on. -/
def Memory.readBytes (m : Memory) (order : ByteOrder) (a n : Nat) : List Byte :=
  (List.range n).map (fun j => m.byteAt order (a + j))

/-- Memory with bytes written from an address on. -/
def Memory.writeBytes (m : Memory) (order : ByteOrder) (a : Nat) : List Byte → Memory
  | [] => m
  | b :: rest => Memory.writeBytes (m.setByte order a b) order (a + 1) rest

/-- The value of `MemRead(a, n)` (R84), zero-extended to 64 bits; the checks of R87 and R88 stand in `accessFault`. -/
def Memory.load (m : Memory) (order : ByteOrder) (a n : Nat) : Word :=
  BitVec.ofNat 64 (numberOfBytes order (m.readBytes order a n))

/-- The memory after `MemWrite(a, n, v)` (R85), v in the low n bytes. -/
def Memory.store (m : Memory) (order : ByteOrder) (a n : Nat) (v : Word) : Memory :=
  m.writeBytes order a (bytesOfNumber order n v)

/-- `cell[A]` (R80): the 64-bit word at an 8-byte-aligned address, the same whatever DATA_BYTE_ORDER is (R86). -/
def Memory.cell (m : Memory) (a : Nat) : Word := m.load .little a 8

/-- `cell[A] <- v` (R80, R86). -/
def Memory.setCell (m : Memory) (a : Nat) (v : Word) : Memory := m.store .little a 8 v

/-- `cell[A]` of the CORE's data memory. -/
def State.cell (s : State) (a : Nat) : Word := s.mem.cell a

/-- `byte(a)` of the CORE's data memory, in its byte order. -/
def State.byteAt (s : State) (a : Nat) : Byte := s.mem.byteAt s.cfg.byteOrder a

/-- The checks of an access of n bytes: alignment first (R87), then range without wrap (R88). -/
def State.accessFault (s : State) (ea : Word) (n : Nat) : Option FaultKind :=
  if ea.toNat % n ≠ 0 then some (.memoryAlignment ea n)
  else if ea.toNat + n > s.cfg.memBytes then some (.addressFault ea n)
  else none

/-! ### Instruction memory -/

/-- What a fetch finds (R95). -/
inductive FetchResult where
  | misaligned
  | noWord
  | word (w : InstrWord)
  deriving DecidableEq, Repr

/-- `Fetch(pc)` (R95): misalignment is tested first; the words lie at CODE_BASE + 4k (R93). -/
def State.fetchAt (s : State) (pc : Word) : FetchResult :=
  if pc.toNat % 4 ≠ 0 then .misaligned
  else if pc.toNat < codeBase.toNat then .noWord
  else
    match s.im[(pc.toNat - codeBase.toNat) / 4]? with
    | none => .noWord
    | some w => .word w

/-! ### Stop and flush -/

/-- The code of each fault kind (R504). -/
def FaultKind.code : FaultKind → Nat
  | .integerOverflow => 1
  | .divideByZero => 2
  | .memoryAlignment _ _ => 3
  | .addressFault _ _ => 4
  | .fpInvalidOperation => 5
  | .fpOverflow => 6
  | .fpUnderflow => 7
  | .fpDivideByZero => 8
  | .reservedInstruction _ => 9
  | .instructionAlignment _ => 10
  | .fetchAddress _ => 11
  | .unsupported _ => 12
  | .breakpoint => 13
  | .twosComplementSum => 14
  | .irregularStringOfBits => 15
  | .irregularWriteOperation => 16

/-- The code the host reads from `status` (R504, R511): that of the fault, or 13 where BREAK stopped the run (R493). -/
def Status.code? : Status → Option Nat
  | .running => none
  | .terminated => none
  | .faulted k _ _ => some k.code
  | .stoppedBreak _ => some FaultKind.breakpoint.code

/-- `stop(st)` (R211): the cycle is counted, the status set, and nothing else happens; no slot advances (R226). This is all that
taking a fatal fault does: no register of the CORE receives it (R511, R516). -/
def State.stop (s : State) (st : Status) : State :=
  { s with status := st, cycles := s.cycles + 1, phase := .IF, outcome := .ok }

/-- `flush(ID)` (R222): the slot becomes a bubble, reservations the record holds are released, and a flushed HALT no longer
keeps IF from fetching. -/
def State.flushID (s : State) : State :=
  match s.slotID with
  | none => s
  | some rec =>
    let t := s.releaseAll rec.dests
    { t with
      slotID := none
      haltFetched := if rec.op = .instr .halt then false else t.haltFetched }

end Sys2Proof.Machine
end

