-- ==== Sys2Proof/Machine/Predictor.lean ====
section
/-! DEFINITION. The branch predictor (spec 42_branch_predictor). -/

namespace Sys2Proof.Machine

/-- `idx(rec) = PRED_INDEX(op, fetchedPC)` (R261): by default pc[13:2] for every op. -/
def predIndex (cfg : CoreConfig) (op : BranchOp) (pc : Word) : Nat :=
  match cfg.predIndex with
  | .pcBits => (pc.extractLsb' 2 12).toNat
  | .supplied => (Config.suppliedPredIndex op pc).val

/-- "Lookup returns taken iff counter ≥ 2" (R263). -/
def predictsTaken (counter : BitVec 2) : Bool := decide (2 ≤ counter.toNat)

/-- Saturate-increment on taken, saturate-decrement on not-taken (R264). -/
def updateCounter (counter : BitVec 2) (taken : Bool) : BitVec 2 :=
  if taken then (if counter = 3 then 3 else counter + 1)
  else (if counter = 0 then 0 else counter - 1)

/-- The prediction IF makes for a branch fetched at pc (R262, R265). -/
def State.prediction (s : State) (op : BranchOp) (pc : Word) : Bool :=
  s.cfg.predictionEnabled && predictsTaken (s.pt.read (predIndex s.cfg op pc))

/-- `predictAtIF(rec)` (R262): it runs after `PC <- fetchedPC + 4`, reads PT and does not write it. -/
def predictAtIF (op : BranchOp) (offset : BitVec 16) (r : InFlight) (s : State) : State :=
  let taken := s.prediction op r.fetchedPC
  { s with
    pc := if taken then branchTarget r.fetchedPC offset else s.pc
    slotIF := some { r with predictedTaken := taken }
    outcome := .ok }

/-- PT after the EX of a predicted branch (R264, R265). -/
def State.trainPredictor (s : State) (op : BranchOp) (pc : Word) (taken : Bool) : State :=
  if s.cfg.predictionEnabled then
    let i := predIndex s.cfg op pc
    { s with pt := s.pt.write i (updateCounter (s.pt.read i) taken) }
  else s

/-- What EX returns for a branch (R410): the prediction is compared with the outcome, not the addresses (D59). -/
def branchOutcome (r : InFlight) (offset : BitVec 16) (taken : Bool) : StageOutcome :=
  if r.predictedTaken && !taken then .misprediction (r.fetchedPC + 4)
  else if !r.predictedTaken && taken then .misprediction (branchTarget r.fetchedPC offset)
  else .ok

end Sys2Proof.Machine
end

