-- ==== Sys2Proof/Machine/Stages.lean ====
section
/-! DEFINITION. The stage contract (spec 41_pipeline R210 to R215) and the templates that the instruction files share: R280,
R340, R370, R371, R410, R420, R440. A meaning is the stage function of its instruction for the stage the executor is
calling (`State.phase`), on the occupant of that stage's slot. -/

namespace Sys2Proof.Machine

/-- What the stages of one instruction do beyond what all share (R210): ID's sources, destinations and own outcome, and the
functions of IF, EX and MEM on the slot's occupant. WB is the same for every instruction (R215). -/
structure StageFns where
  operands : Operands
  dests : List RegId
  idOutcome : StageOutcome
  onIF : InFlight → State → State
  onEX : InFlight → State → State
  onMEM : InFlight → State → State

/-- "A stage they do not mention returns `Ok` and does nothing" (R210). -/
def nothing (_ : InFlight) (s : State) : State := s.done .ok

/-- An instruction with no sources, no destinations and no effect in any stage. -/
def idle : StageFns := ⟨noOperands, [], .ok, nothing, nothing, nothing⟩

/-- A latch after ID's reads: the register's value, or the latch as it was where the instruction has no such source. -/
def State.latch (s : State) (src : Option RegId) (old : Word) : Word :=
  match src with
  | some reg => s.readReg reg
  | none => old

/-- The record after an ID that finds no hazard (R212): operands latched, `dests` the destinations with GPR 0 removed. -/
def State.latched (s : State) (o : Operands) (ds : List RegId) (r : InFlight) : InFlight :=
  { r with
    a := s.latch o.a r.a
    b := s.latch o.b r.b
    c := s.latch o.c r.c
    dests := ds.filter (fun d => d != .gpr 0) }

/-- ID (R212): a RAW hazard changes nothing; otherwise the operands are read and every destination reserved. -/
def idStage (o : Operands) (ds : List RegId) (own : StageOutcome) (r : InFlight) (s : State) : State :=
  if s.rawHazard o.srcs then s.done .raw
  else ((s.acquireAll ds).setSlot .ID (some (s.latched o ds r))).done own

/-- The value WB writes to a register: HI from `resultHi`, any other from `result` (R215). -/
def wbValue (r : InFlight) (d : RegId) : Word := if d = .hi then r.resultHi else r.result

/-- The register writes of WB (R215). -/
def State.writeDests (s : State) (r : InFlight) : State :=
  if r.writeEnable then r.dests.foldl (fun t d => t.writeReg d (wbValue r d)) s else s

/-- WB (R215, R216): the write comes before the release. -/
def wbStage (r : InFlight) (s : State) : State :=
  ((s.writeDests r).releaseAll r.dests).done .ok

/-- The stage function of an instruction for the stage the executor is calling. "No stage function runs on a bubble" (R227):
where the slot is empty nothing is done. -/
def runStages (f : StageFns) (s : State) : Host.Outcome State Fault Refusal :=
  match s.slot s.phase with
  | none => .next (s.done .ok)
  | some r =>
    match s.phase with
    | .IF => .next (f.onIF r s)
    | .ID => .next (idStage f.operands f.dests f.idOutcome r s)
    | .EX => .next (f.onEX r s)
    | .MEM => .next (f.onMEM r s)
    | .WB => .next (wbStage r s)

/-! ### EX -/

/-- EX latches a result. -/
def exValue (f : InFlight → Word) (r : InFlight) (s : State) : State :=
  (s.setSlot .EX (some { r with result := f r })).done .ok

/-- EX latches a result or returns a fault, in which case the result latch is not written (R280). -/
def exChecked (f : InFlight → Except FaultKind Word) (r : InFlight) (s : State) : State :=
  match f r with
  | .error k => s.done (.fault k)
  | .ok v => (s.setSlot .EX (some { r with result := v })).done .ok

/-- EX of a multiply or divide latches its HI value in `resultHi` and its LO value in `result` (R340). -/
def exHiLo (f : InFlight → Except FaultKind (Word × Word)) (r : InFlight) (s : State) : State :=
  match f r with
  | .error k => s.done (.fault k)
  | .ok (hi, lo) => (s.setSlot .EX (some { r with result := lo, resultHi := hi })).done .ok

/-- EX of a conditional move: `result <- a`, written at WB only if the condition holds (R316). -/
def exMove (cond : InFlight → State → Bool) (r : InFlight) (s : State) : State :=
  (s.setSlot .EX (some { r with result := r.a, writeEnable := cond r s })).done .ok

/-- EX of a load or store: `ea <- a + sext_64(imm)` (R370, R371). -/
def exAddress (offset : BitVec 16) (r : InFlight) (s : State) : State :=
  (s.setSlot .EX (some { r with ea := effectiveAddress r.a offset })).done .ok

/-- EX of a conditional branch (R410). -/
def exBranch (op : BranchOp) (offset : BitVec 16) (cond : InFlight → State → Bool) (r : InFlight) (s : State) : State :=
  let taken := cond r s
  (s.trainPredictor op r.fetchedPC taken).done (branchOutcome r offset taken)

/-- EX of a jump without a link (R420). -/
def exJump (target : InFlight → Word) (r : InFlight) (s : State) : State := s.done (.jump (target r))

/-- EX of a jump with a link: `result <- fetchedPC + 4` (R424, R425). -/
def exJumpLink (target : InFlight → Word) (r : InFlight) (s : State) : State :=
  (s.setSlot .EX (some { r with result := linkAddress r.fetchedPC })).done (.jump (target r))

/-- EX of an FP arithmetic instruction (R164, R441): the cause bits are cleared, then the function runs; a fault leaves the
cause bit it set, and no result is latched (R165). -/
def exFp (f : BitVec 32 → Word → Word → FpOut) (r : InFlight) (s : State) : State :=
  let out := f (clearCause s.readFcsr) r.a r.b
  let t := s.writeFcsr out.fcsr
  match out.value with
  | .error k => t.done (.fault k)
  | .ok v => (t.setSlot .EX (some { r with result := v })).done .ok

/-- EX of a compare: `FCC[cc] <- cond(a, b)`; cause and flag bits are left (47_fp_instructions section 4). -/
def exCompare (cond : Word → Word → Bool) (cc : CcNum) (r : InFlight) (s : State) : State :=
  (s.writeFcsr (setFcc s.readFcsr cc (cond r.a r.b))).done .ok

/-! ### MEM -/

/-- MEM of a load (R213, R370): a faulting access does nothing; a successful one latches the value and is traced (R531). -/
def memLoad (n : Nat) (ext : Word → Word) (r : InFlight) (s : State) : State :=
  match s.accessFault r.ea n with
  | some k => s.done (.fault k)
  | none =>
    { s with
      slotMEM := some { r with result := ext (s.mem.load s.cfg.byteOrder r.ea.toNat n) }
      trace := s.trace ++ [.dataAccess r.ea n]
      outcome := .ok }

/-- MEM of a store (R213, R371): the low n bytes of the value latched in ID are written. -/
def memStore (n : Nat) (r : InFlight) (s : State) : State :=
  match s.accessFault r.ea n with
  | some k => s.done (.fault k)
  | none =>
    { s with
      mem := s.mem.store s.cfg.byteOrder r.ea.toNat n r.b
      trace := s.trace ++ [.dataAccess r.ea n]
      outcome := .ok }

/-! ### Templates -/

/-- The integer ALU template with a result that never faults (R280). -/
def aluFns (o : Operands) (dst : RegId) (f : InFlight → Word) : StageFns :=
  ⟨o, [dst], .ok, nothing, exValue f, nothing⟩

/-- The integer ALU template of a signed-overflow instruction (R280). -/
def aluTrapFns (o : Operands) (dst : RegId) (f : InFlight → Except FaultKind Word) : StageFns :=
  ⟨o, [dst], .ok, nothing, exChecked f, nothing⟩

/-- The conditional move template (R316): the destination is reserved whatever the condition. -/
def moveFns (o : Operands) (dst : RegId) (cond : InFlight → State → Bool) : StageFns :=
  ⟨o, [dst], .ok, nothing, exMove cond, nothing⟩

/-- The multiply and divide template (R340). -/
def hiLoFns (rs rt : RegNum) (f : InFlight → Except FaultKind (Word × Word)) : StageFns :=
  ⟨rsRt rs rt, [.hi, .lo], .ok, nothing, exHiLo f, nothing⟩

/-- The load template (R370). -/
def loadFns (base : RegNum) (offset : BitVec 16) (dst : RegId) (n : Nat) (ext : Word → Word) : StageFns :=
  ⟨rsOnly base, [dst], .ok, nothing, exAddress offset, memLoad n ext⟩

/-- The store template (R371): no destination. -/
def storeFns (o : Operands) (offset : BitVec 16) (n : Nat) : StageFns :=
  ⟨o, [], .ok, nothing, exAddress offset, memStore n⟩

/-- The conditional branch template (R262, R410). -/
def branchFns (op : BranchOp) (o : Operands) (offset : BitVec 16) (cond : InFlight → State → Bool) : StageFns :=
  ⟨o, [], .ok, predictAtIF op offset, exBranch op offset cond, nothing⟩

/-- The FP arithmetic template (R440, R441). -/
def fpArithFns (fd fs ft : RegNum) (f : BitVec 32 → Word → Word → FpOut) : StageFns :=
  ⟨fsFt fs ft, [.fpr fd], .ok, nothing, exFp f, nothing⟩

/-- The FP compare template (R440, R454): no destination register. -/
def fpCompareFns (cc : CcNum) (fs ft : RegNum) (cond : Word → Word → Bool) : StageFns :=
  ⟨fsFt fs ft, [], .ok, nothing, exCompare cond cc, nothing⟩

end Sys2Proof.Machine
end

