-- ==== Sys2Proof/Machine/Control.lean ====
section
/-! DEFINITION. Branches and jumps (spec 46_control, R410 to R428). -/

namespace Sys2Proof.Machine

/-- BEQ rs, rt, offset (R412). -/
def execBeq (rs rt : RegNum) (offset : BitVec 16) (s : State) : Host.Outcome State Fault Refusal :=
  runStages (branchFns .beq (rsRt rs rt) offset (fun r _ => r.a == r.b)) s

/-- BNE rs, rt, offset (R413). -/
def execBne (rs rt : RegNum) (offset : BitVec 16) (s : State) : Host.Outcome State Fault Refusal :=
  runStages (branchFns .bne (rsRt rs rt) offset (fun r _ => r.a != r.b)) s

/-- BEQZ rs, offset (R414). -/
def execBeqz (rs : RegNum) (offset : BitVec 16) (s : State) : Host.Outcome State Fault Refusal :=
  runStages (branchFns .beqz (rsOnly rs) offset (fun r _ => r.a == 0)) s

/-- BNEZ rs, offset (R415). -/
def execBnez (rs : RegNum) (offset : BitVec 16) (s : State) : Host.Outcome State Fault Refusal :=
  runStages (branchFns .bnez (rsOnly rs) offset (fun r _ => r.a != 0)) s

/-- BGEZ rs, offset (R416). -/
def execBgez (rs : RegNum) (offset : BitVec 16) (s : State) : Host.Outcome State Fault Refusal :=
  runStages (branchFns .bgez (rsOnly rs) offset (fun r _ => decide (0 ≤ r.a.toInt))) s

/-- BC1F cc, offset (R418): FCC is read in EX. -/
def execBc1f (cc : CcNum) (offset : BitVec 16) (s : State) : Host.Outcome State Fault Refusal :=
  runStages (branchFns .bc1f noOperands offset (fun _ s => !fcc s.readFcsr cc)) s

/-- BC1T cc, offset (R419): FCC is read in EX. -/
def execBc1t (cc : CcNum) (offset : BitVec 16) (s : State) : Host.Outcome State Fault Refusal :=
  runStages (branchFns .bc1t noOperands offset (fun _ s => fcc s.readFcsr cc)) s

/-- J target (R422). -/
def execJ (target : BitVec 26) (s : State) : Host.Outcome State Fault Refusal :=
  runStages ⟨noOperands, [], .ok, nothing, exJump (fun r => jumpTarget r.fetchedPC target), nothing⟩ s

/-- JAL target (R424): the link goes to GPR 31. -/
def execJal (target : BitVec 26) (s : State) : Host.Outcome State Fault Refusal :=
  runStages ⟨noOperands, [.gpr 31], .ok, nothing, exJumpLink (fun r => jumpTarget r.fetchedPC target), nothing⟩ s

/-- JR rs (R423). -/
def execJr (rs : RegNum) (s : State) : Host.Outcome State Fault Refusal :=
  runStages ⟨rsOnly rs, [], .ok, nothing, exJump (fun r => r.a), nothing⟩ s

/-- JALR rd, rs (R425): the target is the value of rs read in ID. -/
def execJalr (rd rs : RegNum) (s : State) : Host.Outcome State Fault Refusal :=
  runStages ⟨rsOnly rs, [.gpr rd], .ok, nothing, exJumpLink (fun r => r.a), nothing⟩ s

end Sys2Proof.Machine
end

