-- ==== Sys2Proof/Machine/FpInstr.lean ====
section
/-! DEFINITION. The floating-point instructions (spec 47_fp_instructions, R440 to R471). -/

namespace Sys2Proof.Machine

/-! ### Arithmetic -/

/-- ADD.D fd, fs, ft (R441). -/
def execAddD (fd fs ft : RegNum) (s : State) : Host.Outcome State Fault Refusal :=
  runStages (fpArithFns fd fs ft fpAdd) s

/-- SUB.D fd, fs, ft (R442). -/
def execSubD (fd fs ft : RegNum) (s : State) : Host.Outcome State Fault Refusal :=
  runStages (fpArithFns fd fs ft fpSub) s

/-- MUL.D fd, fs, ft (R443). -/
def execMulD (fd fs ft : RegNum) (s : State) : Host.Outcome State Fault Refusal :=
  runStages (fpArithFns fd fs ft fpMul) s

/-- DIV.D fd, fs, ft (R444). -/
def execDivD (fd fs ft : RegNum) (s : State) : Host.Outcome State Fault Refusal :=
  runStages (fpArithFns fd fs ft fpDiv) s

/-! ### Conversions -/

/-- EX of a conversion: it reads FCSR.RM and the sentinels and changes no FCSR bit (R180). -/
def exConvert (f : RoundMode → CoreConfig → Word → Word) (r : InFlight) (s : State) : State :=
  (s.setSlot .EX (some { r with result := f (roundMode s.readFcsr) s.cfg r.a })).done .ok

/-- The conversion template (R440). -/
def convertFns (fd fs : RegNum) (f : RoundMode → CoreConfig → Word → Word) : StageFns :=
  ⟨fsOnly fs, [.fpr fd], .ok, nothing, exConvert f, nothing⟩

/-- CVT.L.D fd, fs (R445). -/
def execCvtLD (fd fs : RegNum) (s : State) : Host.Outcome State Fault Refusal :=
  runStages (convertFns fd fs (fun rm cfg v => cvtDoubleToLong rm cfg.cvtSentinelL v)) s

/-- CVT.W.D fd, fs (R446). -/
def execCvtWD (fd fs : RegNum) (s : State) : Host.Outcome State Fault Refusal :=
  runStages (convertFns fd fs (fun rm cfg v => sext32 (cvtDoubleToWord rm cfg.cvtSentinelW v))) s

/-- CVT.D.L fd, fs (R447). -/
def execCvtDL (fd fs : RegNum) (s : State) : Host.Outcome State Fault Refusal :=
  runStages (convertFns fd fs (fun rm _ v => cvtLongToDouble rm v)) s

/-- CVT.D.W fd, fs (R448). -/
def execCvtDW (fd fs : RegNum) (s : State) : Host.Outcome State Fault Refusal :=
  runStages (convertFns fd fs (fun _ _ v => cvtWordToDouble (low32 v))) s

/-! ### Moves -/

/-- MOV.D fd, fs (R449). -/
def execMovD (fd fs : RegNum) (s : State) : Host.Outcome State Fault Refusal :=
  runStages (aluFns (fsOnly fs) (.fpr fd) (fun r => r.a)) s

/-- MOVZ.D fd, fs, rt (R450). -/
def execMovzD (fd fs rt : RegNum) (s : State) : Host.Outcome State Fault Refusal :=
  runStages (moveFns (fsAndGpr fs rt) (.fpr fd) (fun r _ => r.c == 0)) s

/-- MOVN.D fd, fs, rt (R451). -/
def execMovnD (fd fs rt : RegNum) (s : State) : Host.Outcome State Fault Refusal :=
  runStages (moveFns (fsAndGpr fs rt) (.fpr fd) (fun r _ => r.c != 0)) s

/-- MOVF.D fd, fs, cc (R452): FCC is read in EX. -/
def execMovfD (fd fs : RegNum) (cc : CcNum) (s : State) : Host.Outcome State Fault Refusal :=
  runStages (moveFns (fsOnly fs) (.fpr fd) (fun _ s => !fcc s.readFcsr cc)) s

/-- MOVT.D fd, fs, cc (R453): FCC is read in EX. -/
def execMovtD (fd fs : RegNum) (cc : CcNum) (s : State) : Host.Outcome State Fault Refusal :=
  runStages (moveFns (fsOnly fs) (.fpr fd) (fun _ s => fcc s.readFcsr cc)) s

/-! ### Compares -/

/-- C.EQ.D cc, fs, ft (R454). -/
def execCEqD (cc : CcNum) (fs ft : RegNum) (s : State) : Host.Outcome State Fault Refusal :=
  runStages (fpCompareFns cc fs ft fpEq) s

/-- C.LT.D cc, fs, ft (R455). -/
def execCLtD (cc : CcNum) (fs ft : RegNum) (s : State) : Host.Outcome State Fault Refusal :=
  runStages (fpCompareFns cc fs ft fpLt) s

/-- C.UN.D cc, fs, ft (R456). -/
def execCUnD (cc : CcNum) (fs ft : RegNum) (s : State) : Host.Outcome State Fault Refusal :=
  runStages (fpCompareFns cc fs ft unordered) s

/-! ### Transfers between GPRs and FPRs -/

/-- MTC1 rt, fs (R457). -/
def execMtc1 (rt fs : RegNum) (s : State) : Host.Outcome State Fault Refusal :=
  runStages (aluFns (gprToC rt) (.fpr fs) (fun r => sext32 (low32 r.c))) s

/-- MFC1 rt, fs (R458). -/
def execMfc1 (rt fs : RegNum) (s : State) : Host.Outcome State Fault Refusal :=
  runStages (aluFns (fsOnly fs) (.gpr rt) (fun r => sext32 (low32 r.a))) s

/-- DMTC1 rt, fs (R459). -/
def execDmtc1 (rt fs : RegNum) (s : State) : Host.Outcome State Fault Refusal :=
  runStages (aluFns (gprToC rt) (.fpr fs) (fun r => r.c)) s

/-- DMFC1 rt, fs (R460). -/
def execDmfc1 (rt fs : RegNum) (s : State) : Host.Outcome State Fault Refusal :=
  runStages (aluFns (fsOnly fs) (.gpr rt) (fun r => r.a)) s

/-! ### FCSR control -/

/-- EX of CTC1 (R470): the whole FCSR is written from the low 32 bits of c, hardwired bits forced to 0; no trap is checked. -/
def exCtc1 (r : InFlight) (s : State) : State := (s.writeFcsr (low32 r.c)).done .ok

/-- EX of CFC1 (R471): the FCSR as read in EX, sign-extended. -/
def exCfc1 (r : InFlight) (s : State) : State :=
  (s.setSlot .EX (some { r with result := sext32 s.readFcsr })).done .ok

/-- CTC1 rt, 31 (R470): it has no destination register. -/
def execCtc1 (rt : RegNum) (s : State) : Host.Outcome State Fault Refusal :=
  runStages ⟨gprToC rt, [], .ok, nothing, exCtc1, nothing⟩ s

/-- CFC1 rt, 31 (R471). -/
def execCfc1 (rt : RegNum) (s : State) : Host.Outcome State Fault Refusal :=
  runStages ⟨noOperands, [.gpr rt], .ok, nothing, exCfc1, nothing⟩ s

end Sys2Proof.Machine
end

