-- ==== Sys2Proof/Machine/IntAlu.lean ====
section
/-! DEFINITION. The integer ALU instructions (spec 43_int_alu, R280 to R317): each is its EX computation over the shared template. -/

namespace Sys2Proof.Machine

/-- 1 or 0, the result of a set instruction (R300). -/
def setWord (p : Bool) : Word := if p then 1 else 0

/-- The shift amount `s = a[4:0]` of the word shifts by register (R307 to R309). -/
def shamt5 (a : Word) : Nat := (a.extractLsb' 0 5).toNat
/-- The shift amount `s = a[5:0]` of the doubleword shifts by register (R313 to R315). -/
def shamt6 (a : Word) : Nat := (a.extractLsb' 0 6).toNat

/-! ### Results (EX) -/

/-- R281, R289: the exact signed sum of two doublewords, or IntegerOverflow. -/
def addTrap64 (x y : Word) : Except FaultKind Word := narrow64 (x.toInt + y.toInt)
/-- R283: the exact signed difference of two doublewords, or IntegerOverflow. -/
def subTrap64 (x y : Word) : Except FaultKind Word := narrow64 (x.toInt - y.toInt)
/-- R285, R291: the exact signed sum of two low words, sign-extended, or IntegerOverflow. -/
def addTrap32 (x y : Word) : Except FaultKind Word := narrow32 ((low32 x).toInt + (low32 y).toInt)
/-- R287: the exact signed difference of two low words, sign-extended, or IntegerOverflow. -/
def subTrap32 (x y : Word) : Except FaultKind Word := narrow32 ((low32 x).toInt - (low32 y).toInt)
/-- R286, R292: the wrapped sum of two low words, sign-extended. -/
def addWrap32 (x y : Word) : Word := sext32 (low32 x + low32 y)
/-- R288: the wrapped difference of two low words, sign-extended. -/
def subWrap32 (x y : Word) : Word := sext32 (low32 x - low32 y)
/-- R304, R307: low word shifted left, sign-extended. -/
def sllWord (b : Word) (s : Nat) : Word := sext32 (low32 b <<< s)
/-- R305, R308: low word shifted right logically, sign-extended. -/
def srlWord (b : Word) (s : Nat) : Word := sext32 (low32 b >>> s)
/-- R306, R309: low word shifted right arithmetically, sign-extended. -/
def sraWord (b : Word) (s : Nat) : Word := sext32 ((low32 b).sshiftRight s)

/-! ### Doubleword and word add and subtract -/

/-- DADD rd, rs, rt (R281). -/
def execDadd (rd rs rt : RegNum) (s : State) : Host.Outcome State Fault Refusal :=
  runStages (aluTrapFns (rsRt rs rt) (.gpr rd) (fun r => addTrap64 r.a r.b)) s

/-- DADDU rd, rs, rt (R282). -/
def execDaddu (rd rs rt : RegNum) (s : State) : Host.Outcome State Fault Refusal :=
  runStages (aluFns (rsRt rs rt) (.gpr rd) (fun r => r.a + r.b)) s

/-- DSUB rd, rs, rt (R283). -/
def execDsub (rd rs rt : RegNum) (s : State) : Host.Outcome State Fault Refusal :=
  runStages (aluTrapFns (rsRt rs rt) (.gpr rd) (fun r => subTrap64 r.a r.b)) s

/-- DSUBU rd, rs, rt (R284). -/
def execDsubu (rd rs rt : RegNum) (s : State) : Host.Outcome State Fault Refusal :=
  runStages (aluFns (rsRt rs rt) (.gpr rd) (fun r => r.a - r.b)) s

/-- ADD rd, rs, rt (R285). -/
def execAdd (rd rs rt : RegNum) (s : State) : Host.Outcome State Fault Refusal :=
  runStages (aluTrapFns (rsRt rs rt) (.gpr rd) (fun r => addTrap32 r.a r.b)) s

/-- ADDU rd, rs, rt (R286). -/
def execAddu (rd rs rt : RegNum) (s : State) : Host.Outcome State Fault Refusal :=
  runStages (aluFns (rsRt rs rt) (.gpr rd) (fun r => addWrap32 r.a r.b)) s

/-- SUB rd, rs, rt (R287). -/
def execSub (rd rs rt : RegNum) (s : State) : Host.Outcome State Fault Refusal :=
  runStages (aluTrapFns (rsRt rs rt) (.gpr rd) (fun r => subTrap32 r.a r.b)) s

/-- SUBU rd, rs, rt (R288). -/
def execSubu (rd rs rt : RegNum) (s : State) : Host.Outcome State Fault Refusal :=
  runStages (aluFns (rsRt rs rt) (.gpr rd) (fun r => subWrap32 r.a r.b)) s

/-! ### Add immediate -/

/-- DADDI rt, rs, imm (R289). -/
def execDaddi (rt rs : RegNum) (imm : BitVec 16) (s : State) : Host.Outcome State Fault Refusal :=
  runStages (aluTrapFns (rsOnly rs) (.gpr rt) (fun r => addTrap64 r.a (simm imm))) s

/-- DADDIU rt, rs, imm (R290). -/
def execDaddiu (rt rs : RegNum) (imm : BitVec 16) (s : State) : Host.Outcome State Fault Refusal :=
  runStages (aluFns (rsOnly rs) (.gpr rt) (fun r => r.a + simm imm)) s

/-- ADDI rt, rs, imm (R291). -/
def execAddi (rt rs : RegNum) (imm : BitVec 16) (s : State) : Host.Outcome State Fault Refusal :=
  runStages (aluTrapFns (rsOnly rs) (.gpr rt) (fun r => addTrap32 r.a (simm imm))) s

/-- ADDIU rt, rs, imm (R292). -/
def execAddiu (rt rs : RegNum) (imm : BitVec 16) (s : State) : Host.Outcome State Fault Refusal :=
  runStages (aluFns (rsOnly rs) (.gpr rt) (fun r => addWrap32 r.a (simm imm))) s

/-! ### Logical -/

/-- AND rd, rs, rt (R293). -/
def execAnd (rd rs rt : RegNum) (s : State) : Host.Outcome State Fault Refusal :=
  runStages (aluFns (rsRt rs rt) (.gpr rd) (fun r => r.a &&& r.b)) s

/-- OR rd, rs, rt (R294). -/
def execOr (rd rs rt : RegNum) (s : State) : Host.Outcome State Fault Refusal :=
  runStages (aluFns (rsRt rs rt) (.gpr rd) (fun r => r.a ||| r.b)) s

/-- XOR rd, rs, rt (R295). -/
def execXor (rd rs rt : RegNum) (s : State) : Host.Outcome State Fault Refusal :=
  runStages (aluFns (rsRt rs rt) (.gpr rd) (fun r => r.a ^^^ r.b)) s

/-- ANDI rt, rs, imm (R296). -/
def execAndi (rt rs : RegNum) (imm : BitVec 16) (s : State) : Host.Outcome State Fault Refusal :=
  runStages (aluFns (rsOnly rs) (.gpr rt) (fun r => r.a &&& zimm imm)) s

/-- ORI rt, rs, imm (R297). -/
def execOri (rt rs : RegNum) (imm : BitVec 16) (s : State) : Host.Outcome State Fault Refusal :=
  runStages (aluFns (rsOnly rs) (.gpr rt) (fun r => r.a ||| zimm imm)) s

/-- XORI rt, rs, imm (R298). -/
def execXori (rt rs : RegNum) (imm : BitVec 16) (s : State) : Host.Outcome State Fault Refusal :=
  runStages (aluFns (rsOnly rs) (.gpr rt) (fun r => r.a ^^^ zimm imm)) s

/-- LUI rt, imm (R299). -/
def execLui (rt : RegNum) (imm : BitVec 16) (s : State) : Host.Outcome State Fault Refusal :=
  runStages (aluFns noOperands (.gpr rt) (fun _ => upperImm imm)) s

/-! ### Set on less than -/

/-- SLT rd, rs, rt (R300). -/
def execSlt (rd rs rt : RegNum) (s : State) : Host.Outcome State Fault Refusal :=
  runStages (aluFns (rsRt rs rt) (.gpr rd) (fun r => setWord (decide (r.a.toInt < r.b.toInt)))) s

/-- SLTU rd, rs, rt (R301). -/
def execSltu (rd rs rt : RegNum) (s : State) : Host.Outcome State Fault Refusal :=
  runStages (aluFns (rsRt rs rt) (.gpr rd) (fun r => setWord (decide (r.a.toNat < r.b.toNat)))) s

/-- SLTI rt, rs, imm (R302). -/
def execSlti (rt rs : RegNum) (imm : BitVec 16) (s : State) : Host.Outcome State Fault Refusal :=
  runStages (aluFns (rsOnly rs) (.gpr rt) (fun r => setWord (decide (r.a.toInt < (simm imm).toInt)))) s

/-- SLTIU rt, rs, imm (R303): the immediate is sign-extended and then compared as unsigned. -/
def execSltiu (rt rs : RegNum) (imm : BitVec 16) (s : State) : Host.Outcome State Fault Refusal :=
  runStages (aluFns (rsOnly rs) (.gpr rt) (fun r => setWord (decide (r.a.toNat < (simm imm).toNat)))) s

/-! ### Shifts -/

/-- SLL rd, rt, sa (R304). -/
def execSll (rd rt : RegNum) (sa : BitVec 5) (s : State) : Host.Outcome State Fault Refusal :=
  runStages (aluFns (rtOnly rt) (.gpr rd) (fun r => sllWord r.b sa.toNat)) s

/-- SRL rd, rt, sa (R305). -/
def execSrl (rd rt : RegNum) (sa : BitVec 5) (s : State) : Host.Outcome State Fault Refusal :=
  runStages (aluFns (rtOnly rt) (.gpr rd) (fun r => srlWord r.b sa.toNat)) s

/-- SRA rd, rt, sa (R306). -/
def execSra (rd rt : RegNum) (sa : BitVec 5) (s : State) : Host.Outcome State Fault Refusal :=
  runStages (aluFns (rtOnly rt) (.gpr rd) (fun r => sraWord r.b sa.toNat)) s

/-- SLLV rd, rt, rs (R307). -/
def execSllv (rd rt rs : RegNum) (s : State) : Host.Outcome State Fault Refusal :=
  runStages (aluFns (rsRt rs rt) (.gpr rd) (fun r => sllWord r.b (shamt5 r.a))) s

/-- SRLV rd, rt, rs (R308). -/
def execSrlv (rd rt rs : RegNum) (s : State) : Host.Outcome State Fault Refusal :=
  runStages (aluFns (rsRt rs rt) (.gpr rd) (fun r => srlWord r.b (shamt5 r.a))) s

/-- SRAV rd, rt, rs (R309). -/
def execSrav (rd rt rs : RegNum) (s : State) : Host.Outcome State Fault Refusal :=
  runStages (aluFns (rsRt rs rt) (.gpr rd) (fun r => sraWord r.b (shamt5 r.a))) s

/-- DSLL rd, rt, sa (R310). -/
def execDsll (rd rt : RegNum) (sa : BitVec 5) (s : State) : Host.Outcome State Fault Refusal :=
  runStages (aluFns (rtOnly rt) (.gpr rd) (fun r => r.b <<< sa.toNat)) s

/-- DSRL rd, rt, sa (R311). -/
def execDsrl (rd rt : RegNum) (sa : BitVec 5) (s : State) : Host.Outcome State Fault Refusal :=
  runStages (aluFns (rtOnly rt) (.gpr rd) (fun r => r.b >>> sa.toNat)) s

/-- DSRA rd, rt, sa (R312). -/
def execDsra (rd rt : RegNum) (sa : BitVec 5) (s : State) : Host.Outcome State Fault Refusal :=
  runStages (aluFns (rtOnly rt) (.gpr rd) (fun r => r.b.sshiftRight sa.toNat)) s

/-- DSLLV rd, rt, rs (R313). -/
def execDsllv (rd rt rs : RegNum) (s : State) : Host.Outcome State Fault Refusal :=
  runStages (aluFns (rsRt rs rt) (.gpr rd) (fun r => r.b <<< shamt6 r.a)) s

/-- DSRLV rd, rt, rs (R314). -/
def execDsrlv (rd rt rs : RegNum) (s : State) : Host.Outcome State Fault Refusal :=
  runStages (aluFns (rsRt rs rt) (.gpr rd) (fun r => r.b >>> shamt6 r.a)) s

/-- DSRAV rd, rt, rs (R315). -/
def execDsrav (rd rt rs : RegNum) (s : State) : Host.Outcome State Fault Refusal :=
  runStages (aluFns (rsRt rs rt) (.gpr rd) (fun r => r.b.sshiftRight (shamt6 r.a))) s

/-! ### Conditional moves -/

/-- MOVZ rd, rs, rt (R316). -/
def execMovz (rd rs rt : RegNum) (s : State) : Host.Outcome State Fault Refusal :=
  runStages (moveFns (rsRt rs rt) (.gpr rd) (fun r _ => r.b == 0)) s

/-- MOVN rd, rs, rt (R317). -/
def execMovn (rd rs rt : RegNum) (s : State) : Host.Outcome State Fault Refusal :=
  runStages (moveFns (rsRt rs rt) (.gpr rd) (fun r _ => r.b != 0)) s

end Sys2Proof.Machine
end

