-- ==== Sys2Proof/Machine/LoadStore.lean ====
section
/-! DEFINITION. Loads and stores (spec 45_loadstore, R370 to R386). The value of MemRead arrives zero-extended; `ext` is the extension of 20_memory R89. -/

namespace Sys2Proof.Machine

/-- Sign extension from n bytes (R372, R374, R376, R383). -/
def sextByte (v : Word) : Word := (v.extractLsb' 0 8).signExtend 64
def sextHalf (v : Word) : Word := (v.extractLsb' 0 16).signExtend 64
def sextWord (v : Word) : Word := (v.extractLsb' 0 32).signExtend 64

/-- Zero extension from n bytes (R373, R375, R377). -/
def zextByte (v : Word) : Word := (v.extractLsb' 0 8).zeroExtend 64
def zextHalf (v : Word) : Word := (v.extractLsb' 0 16).zeroExtend 64
def zextWord (v : Word) : Word := (v.extractLsb' 0 32).zeroExtend 64

/-- A doubleword is taken as it is (R378, R384). -/
def wholeDouble (v : Word) : Word := v

/-- LB rt, offset(base) (R372). -/
def execLb (rt : RegNum) (offset : BitVec 16) (base : RegNum) (s : State) : Host.Outcome State Fault Refusal :=
  runStages (loadFns base offset (.gpr rt) 1 sextByte) s

/-- LBU rt, offset(base) (R373). -/
def execLbu (rt : RegNum) (offset : BitVec 16) (base : RegNum) (s : State) : Host.Outcome State Fault Refusal :=
  runStages (loadFns base offset (.gpr rt) 1 zextByte) s

/-- LH rt, offset(base) (R374). -/
def execLh (rt : RegNum) (offset : BitVec 16) (base : RegNum) (s : State) : Host.Outcome State Fault Refusal :=
  runStages (loadFns base offset (.gpr rt) 2 sextHalf) s

/-- LHU rt, offset(base) (R375). -/
def execLhu (rt : RegNum) (offset : BitVec 16) (base : RegNum) (s : State) : Host.Outcome State Fault Refusal :=
  runStages (loadFns base offset (.gpr rt) 2 zextHalf) s

/-- LW rt, offset(base) (R376). -/
def execLw (rt : RegNum) (offset : BitVec 16) (base : RegNum) (s : State) : Host.Outcome State Fault Refusal :=
  runStages (loadFns base offset (.gpr rt) 4 sextWord) s

/-- LWU rt, offset(base) (R377). -/
def execLwu (rt : RegNum) (offset : BitVec 16) (base : RegNum) (s : State) : Host.Outcome State Fault Refusal :=
  runStages (loadFns base offset (.gpr rt) 4 zextWord) s

/-- LD rt, offset(base) (R378). -/
def execLd (rt : RegNum) (offset : BitVec 16) (base : RegNum) (s : State) : Host.Outcome State Fault Refusal :=
  runStages (loadFns base offset (.gpr rt) 8 wholeDouble) s

/-- SB rt, offset(base) (R379). -/
def execSb (rt : RegNum) (offset : BitVec 16) (base : RegNum) (s : State) : Host.Outcome State Fault Refusal :=
  runStages (storeFns (baseAndGpr base rt) offset 1) s

/-- SH rt, offset(base) (R380). -/
def execSh (rt : RegNum) (offset : BitVec 16) (base : RegNum) (s : State) : Host.Outcome State Fault Refusal :=
  runStages (storeFns (baseAndGpr base rt) offset 2) s

/-- SW rt, offset(base) (R381). -/
def execSw (rt : RegNum) (offset : BitVec 16) (base : RegNum) (s : State) : Host.Outcome State Fault Refusal :=
  runStages (storeFns (baseAndGpr base rt) offset 4) s

/-- SD rt, offset(base) (R382). -/
def execSd (rt : RegNum) (offset : BitVec 16) (base : RegNum) (s : State) : Host.Outcome State Fault Refusal :=
  runStages (storeFns (baseAndGpr base rt) offset 8) s

/-- LWC1 ft, offset(base) (R383). -/
def execLwc1 (ft : RegNum) (offset : BitVec 16) (base : RegNum) (s : State) : Host.Outcome State Fault Refusal :=
  runStages (loadFns base offset (.fpr ft) 4 sextWord) s

/-- LDC1 ft, offset(base) (R384). -/
def execLdc1 (ft : RegNum) (offset : BitVec 16) (base : RegNum) (s : State) : Host.Outcome State Fault Refusal :=
  runStages (loadFns base offset (.fpr ft) 8 wholeDouble) s

/-- SWC1 ft, offset(base) (R385). -/
def execSwc1 (ft : RegNum) (offset : BitVec 16) (base : RegNum) (s : State) : Host.Outcome State Fault Refusal :=
  runStages (storeFns (baseAndFpr base ft) offset 4) s

/-- SDC1 ft, offset(base) (R386). -/
def execSdc1 (ft : RegNum) (offset : BitVec 16) (base : RegNum) (s : State) : Host.Outcome State Fault Refusal :=
  runStages (storeFns (baseAndFpr base ft) offset 8) s

end Sys2Proof.Machine
end

