-- ==== Sys2Proof/Machine/Misc.lean ====
section
/-! DEFINITION. HALT, NOP and BREAK (spec 48_misc, R490 to R493). -/

namespace Sys2Proof.Machine

/-- The IF of a HALT: fetch stops (R224, R490). -/
def haltAtIF (_ : InFlight) (s : State) : State := { s with haltFetched := true, outcome := .ok }

/-- HALT (R490): its ID, EX, MEM and WB do nothing. -/
def execHalt (s : State) : Host.Outcome State Fault Refusal :=
  runStages { idle with onIF := haltAtIF } s

/-- NOP (R491): it does nothing in any stage. -/
def execNop (s : State) : Host.Outcome State Fault Refusal :=
  runStages idle s

/-- BREAK (R493): its ID returns Fault(Break); the code field is ignored. The executor then ends the run with status Stopped. -/
def execBrk (_code : BitVec 20) (s : State) : Host.Outcome State Fault Refusal :=
  runStages { idle with idOutcome := .fault .breakpoint } s

end Sys2Proof.Machine
end

