-- ==== Sys2Proof/Machine/MulDiv.lean ====
section
/-! DEFINITION. Integer multiply and divide and the moves from HI and LO (spec 44_int_muldiv, R340 to R351). A pair is (HI, LO). -/

namespace Sys2Proof.Machine

/-- R341: the two halves of the exact signed product. -/
def dmultHiLo (x y : Word) : Word × Word :=
  let p := x.toInt * y.toInt
  (BitVec.ofInt 64 (p / 2 ^ 64), BitVec.ofInt 64 p)

/-- R342: the two halves of the exact unsigned product. -/
def dmultuHiLo (x y : Word) : Word × Word :=
  let p := x.toNat * y.toNat
  (BitVec.ofNat 64 (p / 2 ^ 64), BitVec.ofNat 64 p)

/-- The two 32-bit halves of a 64-bit product, each sign-extended (R343, R344, D63). -/
def sextHalves (p : BitVec 64) : Word × Word := (sext32 (p.extractLsb' 32 32), sext32 (p.extractLsb' 0 32))

/-- R343: the signed product of the low words. -/
def multHiLo (x y : Word) : Word × Word := sextHalves (BitVec.ofInt 64 ((low32 x).toInt * (low32 y).toInt))

/-- R344: the unsigned product of the low words. -/
def multuHiLo (x y : Word) : Word × Word := sextHalves (BitVec.ofNat 64 ((low32 x).toNat * (low32 y).toNat))

/-- R345: quotient truncated toward zero and remainder; -2^63 / -1 gives -2^63 and 0 (D20). -/
def ddivHiLo (x y : Word) : Except FaultKind (Word × Word) :=
  if y = 0 then .error .divideByZero
  else if x.toInt = -(2 ^ 63) ∧ y.toInt = -1 then .ok (0, BitVec.ofInt 64 (-(2 ^ 63)))
  else
    let q := x.toInt.tdiv y.toInt
    .ok (BitVec.ofInt 64 (x.toInt - q * y.toInt), BitVec.ofInt 64 q)

/-- R346: unsigned quotient and remainder. -/
def ddivuHiLo (x y : Word) : Except FaultKind (Word × Word) :=
  if y = 0 then .error .divideByZero
  else .ok (BitVec.ofNat 64 (x.toNat % y.toNat), BitVec.ofNat 64 (x.toNat / y.toNat))

/-- R347: as R345 on the low words, each result sign-extended; the zero test uses the low 32 bits only. -/
def divHiLo (x y : Word) : Except FaultKind (Word × Word) :=
  let x32 := (low32 x).toInt
  let y32 := (low32 y).toInt
  if low32 y = 0 then .error .divideByZero
  else if x32 = -(2 ^ 31) ∧ y32 = -1 then .ok (0, sext32 (BitVec.ofInt 32 (-(2 ^ 31))))
  else
    let q := x32.tdiv y32
    .ok (sext32 (BitVec.ofInt 32 (x32 - q * y32)), sext32 (BitVec.ofInt 32 q))

/-- R348: unsigned quotient and remainder of the low words, each sign-extended. -/
def divuHiLo (x y : Word) : Except FaultKind (Word × Word) :=
  let x32 := (low32 x).toNat
  let y32 := (low32 y).toNat
  if low32 y = 0 then .error .divideByZero
  else .ok (sext32 (BitVec.ofNat 32 (x32 % y32)), sext32 (BitVec.ofNat 32 (x32 / y32)))

/-- DMULT rs, rt (R341). -/
def execDmult (rs rt : RegNum) (s : State) : Host.Outcome State Fault Refusal :=
  runStages (hiLoFns rs rt (fun r => .ok (dmultHiLo r.a r.b))) s

/-- DMULTU rs, rt (R342). -/
def execDmultu (rs rt : RegNum) (s : State) : Host.Outcome State Fault Refusal :=
  runStages (hiLoFns rs rt (fun r => .ok (dmultuHiLo r.a r.b))) s

/-- MULT rs, rt (R343). -/
def execMult (rs rt : RegNum) (s : State) : Host.Outcome State Fault Refusal :=
  runStages (hiLoFns rs rt (fun r => .ok (multHiLo r.a r.b))) s

/-- MULTU rs, rt (R344). -/
def execMultu (rs rt : RegNum) (s : State) : Host.Outcome State Fault Refusal :=
  runStages (hiLoFns rs rt (fun r => .ok (multuHiLo r.a r.b))) s

/-- DDIV rs, rt (R345). -/
def execDdiv (rs rt : RegNum) (s : State) : Host.Outcome State Fault Refusal :=
  runStages (hiLoFns rs rt (fun r => ddivHiLo r.a r.b)) s

/-- DDIVU rs, rt (R346). -/
def execDdivu (rs rt : RegNum) (s : State) : Host.Outcome State Fault Refusal :=
  runStages (hiLoFns rs rt (fun r => ddivuHiLo r.a r.b)) s

/-- DIV rs, rt (R347). -/
def execDiv (rs rt : RegNum) (s : State) : Host.Outcome State Fault Refusal :=
  runStages (hiLoFns rs rt (fun r => divHiLo r.a r.b)) s

/-- DIVU rs, rt (R348). -/
def execDivu (rs rt : RegNum) (s : State) : Host.Outcome State Fault Refusal :=
  runStages (hiLoFns rs rt (fun r => divuHiLo r.a r.b)) s

/-- MFHI rd (R349): the value read in ID. -/
def execMfhi (rd : RegNum) (s : State) : Host.Outcome State Fault Refusal :=
  runStages (aluFns (hiLoOnly .hi) (.gpr rd) (fun r => r.a)) s

/-- MFLO rd (R350): the value read in ID. -/
def execMflo (rd : RegNum) (s : State) : Host.Outcome State Fault Refusal :=
  runStages (aluFns (hiLoOnly .lo) (.gpr rd) (fun r => r.a)) s

end Sys2Proof.Machine
end

