-- ==== Sys2Proof/Machine/Executor.lean ====
section
/-! DEFINITION. The pipeline executor: one cycle of spec 41_pipeline R211, as the seven steps it lists, in their order. -/

namespace Sys2Proof.Machine

/-- What a step of the cycle or a stage function answers. -/
abbrev Result := Host.Outcome State Fault Refusal

/-- One part of a cycle after another. -/
def andThen (o : Result) (f : State → Result) : Result :=
  match o with
  | .next s => f s
  | .fault r => .fault r
  | .refused r => .refused r

/-- A step of the cycle runs only while the run has not been stopped earlier in the same cycle (R211: `stop(…); return`). -/
def whileRunning (f : State → Result) (s : State) : Result :=
  match s.status with
  | .running => f s
  | _ => .next s

/-- The executor calls a stage function on the occupant of the stage's slot (R210, R211). A bubble performs no work (R227). A
poison entry has no effect but that its ID returns the fault it carries (R212, R217). -/
def callStage (st : Stage) (s : State) : Result :=
  match s.slot st with
  | none => .next (s.enter st)
  | some r =>
    match r.op with
    | .instr i => exec i (s.enter st)
    | .poison k => .next (if st = .ID then (s.enter st).done (.fault k) else s.enter st)

/-- The fetched PC of a slot's occupant (R211: `slot[st].fetchedPC`). -/
def State.fetchedPCOf (s : State) (st : Stage) : Word :=
  match s.slot st with
  | some r => r.fetchedPC
  | none => 0

/-- One more instruction has completed WB (R54). -/
def State.countRetired (s : State) : State := { s with retired := s.retired + 1 }

/-- One more cycle in which ID raised RAW (R54). -/
def State.countStall (s : State) : State := { s with rawStalls := s.rawStalls + 1 }

/-- One more EX stage that raised Misprediction (R54). -/
def State.countMisprediction (s : State) : State := { s with mispredictions := s.mispredictions + 1 }

/-- PC written by EX (R40, R221). -/
def State.setPc (s : State) (target : Word) : State := { s with pc := target }

/-- Step 1, WB: each occupant that completes WB is counted as retired (R54, R211). -/
def wbStep (s : State) : Result :=
  andThen (callStage .WB s) fun t =>
    .next (if s.slotWB.isSome then t.countRetired else t)

/-- Step 2, MEM: a fault stops the run (R211, R213). -/
def memStep (s : State) : Result :=
  andThen (callStage .MEM s) fun t =>
    match t.outcome with
    | .fault k => .next (t.stop (.faulted k .MEM (s.fetchedPCOf .MEM)))
    | _ => .next t

/-- Step 3, EX: a misprediction or a jump redirects the PC and flushes ID; only the former is counted (R211, R221). -/
def exStep (s : State) : Result :=
  andThen (callStage .EX s) fun t =>
    match t.outcome with
    | .fault k => .next (t.stop (.faulted k .EX (s.fetchedPCOf .EX)))
    | .misprediction target => .next (t.setPc target).flushID.countMisprediction
    | .jump target => .next (t.setPc target).flushID
    | _ => .next t

/-- Step 4, ID: RAW is counted and stalls (the outcome stays `raw` until the end of the cycle), Break stops the run (R211). -/
def idStep (s : State) : Result :=
  andThen (callStage .ID s) fun t =>
    match t.outcome with
    | .raw => .next t.countStall
    | .fault .breakpoint => .next (t.stop (.stoppedBreak (s.fetchedPCOf .ID)))
    | .fault k => .next (t.stop (.faulted k .ID (s.fetchedPCOf .ID)))
    | _ => .next t

/-- `new record` of R217. -/
def newRecord (pc : Word) (w : InstrWord) (op : Op) : InFlight where
  word := w
  op := op
  fetchedPC := pc
  predictedTaken := false
  a := 0
  b := 0
  c := 0
  dests := []
  result := 0
  resultHi := 0
  writeEnable := true
  ea := 0

/-- What IF places in the slot for the word it fetched: the decoded instruction, or a poison entry (R217). -/
def fetchedOp (cfg : CoreConfig) (w : InstrWord) : Op :=
  match decode w with
  | .instr i => if cfg.tiers.admits i.tier then .instr i else .poison (.unsupported w)
  | .reserved => .poison (.reservedInstruction w)
  | .truncated => .poison (.reservedInstruction w)

/-- The record of a fetch at an address (R95, R217). -/
def State.fetchRecord (s : State) (pc : Word) : InFlight :=
  match s.fetchAt pc with
  | .misaligned => newRecord pc 0 (.poison (.instructionAlignment pc))
  | .noWord => newRecord pc 0 (.poison (.fetchAddress pc))
  | .word w => newRecord pc w (fetchedOp s.cfg w)

/-- IF up to the instruction's own part (R217, R218): the fetch is traced, the record made, and PC advanced by 4. -/
def State.fetched (s : State) : State :=
  { s with
    trace := s.trace ++ [.fetch s.pc]
    lastFetchedPC := s.pc
    slotIF := some (s.fetchRecord s.pc)
    pc := s.pc + 4
    phase := .IF
    outcome := .ok }

/-- `IF()` (R217): after the fetch, the instruction's own IF: HALT sets haltFetched, a predicted branch predicts. -/
def ifFetch (s : State) : Result :=
  match (s.fetchRecord s.pc).op with
  | .instr i => exec i s.fetched
  | .poison _ => .next s.fetched

/-- Step 5, IF: it does not run in a stall or once a HALT is fetched (R211, R220, R224). -/
def ifStep (s : State) : Result :=
  if s.outcome = .raw then .next s
  else if s.haltFetched then .next s
  else ifFetch s

/-- `advance(stall)` (R219). -/
def State.advance (s : State) (stall : Bool) : State :=
  { s with
    slotWB := s.slotMEM
    slotMEM := s.slotEX
    slotEX := if stall then none else s.slotID
    slotID := if stall then s.slotID else s.slotIF
    slotIF := none }

/-- Are all five slots bubbles (R211, R225)? -/
def State.drained (s : State) : Bool :=
  s.slotIF.isNone && s.slotID.isNone && s.slotEX.isNone && s.slotMEM.isNone && s.slotWB.isNone

/-- Step 7: the cycle is counted and termination tested (R211, R225, R228). -/
def State.close (s : State) : State :=
  { s with
    cycles := s.cycles + 1
    status := if s.haltFetched && s.drained then .terminated else s.status
    phase := .IF
    outcome := .ok }

/-- Steps 6 and 7 (R211). -/
def endOfCycle (s : State) : State := (s.advance (s.outcome = .raw)).close

/-- One cycle (R211). -/
def cycle (s : State) : Result :=
  andThen (wbStep s) fun s =>
  andThen (memStep s) fun s =>
  andThen (whileRunning exStep s) fun s =>
  andThen (whileRunning idStep s) fun s =>
  andThen (whileRunning ifStep s) fun s =>
  whileRunning (fun s => .next (endOfCycle s)) s

/-- The machine's step: a cycle while `status = Running`; "Only `Running` steps. The other three are final" (R52, R211). -/
def runCycle (s : State) : Result :=
  match s.status with
  | .running => cycle s
  | .terminated => .fault .runTerminated
  | .faulted k st pc => .fault (.runFaulted k st pc)
  | .stoppedBreak pc => .fault (.runStopped pc)

end Sys2Proof.Machine
end

