-- ==== Sys2Proof/Machine/HostPort.lean ====
section
/-! DEFINITION. What the host does to the CORE outside a run (spec 60_exceptions R540, 70_reset_and_hazards R560 to R566):
configure, load instruction memory, load data cells, reset. None of them is part of a cycle. -/

namespace Sys2Proof.Machine

/-- The host accesses the CORE "only while `status != Running`" (R97, R540, and 93_implementation_defined, Host access while Running:
refuse). Reset leaves `status` Running, so it is the last of the host's actions before a run, as R566 orders them. -/
def State.hostMayWrite (s : State) : Bool := s.status != .running

/-- What the host may ask for (R540). -/
inductive HostCommand where
  | configure (cfg : CoreConfig)
  | loadProgram (words : List InstrWord)
  | loadImage (bytes : List Byte)
  | loadCell (address : Nat) (value : Word)
  | reset
  deriving DecidableEq, Repr

/-- Data memory after reset: host-loaded cells stay, every other cell is 0 (R83, R564). -/
def keepLoaded (loaded : List Nat) (m : Memory) : Memory :=
  m.filter (fun p => loaded.contains (p.1 - p.1 % 8))

/-- Reset (R560, R563, R564): the configuration, instruction memory and the host-loaded cells stay; PT stays where the host
configured it to persist; everything else takes its reset value. -/
def State.resetRun (s : State) : State :=
  { State.reset with
    fcsr := fcsrAtReset s.cfg.enablesReset
    pt := if s.cfg.persistPredictor then s.pt else []
    mem := keepLoaded s.hostLoaded s.mem
    im := s.im
    hostLoaded := s.hostLoaded
    cfg := s.cfg }

/-- The host's configuration (R51, R8). The words of the cells stay, whatever byte order is set (R80, R86). A cell at or above a smaller
MEM_BYTES is no cell any more (R80): it is dropped, and is 0 and not host-loaded if MEM_BYTES grows again. The spec does
not say what becomes of it: DESIGN CHOICE, log entry 25. -/
def State.configure (s : State) (cfg : CoreConfig) : State :=
  { s with
    cfg := cfg
    mem := s.mem.filter (fun p => decide (p.1 < cfg.memBytes))
    hostLoaded := s.hostLoaded.filter (fun a => decide (a < cfg.memBytes)) }

/-- A data cell the host loads (R566): an 8-byte-aligned address within [0, MEM_BYTES). -/
def State.loadCell (s : State) (address : Nat) (value : Word) : State :=
  { s with
    mem := s.mem.setCell address value
    hostLoaded := if s.hostLoaded.contains address then s.hostLoaded else address :: s.hostLoaded }

/-- The host's commands; none where the CORE does not take it: any while `status` is Running (R97, R540, log entry 8), a program of
no words (R93: NPROG >= 1), a byte image that is no whole number of words (R94), an address that is no cell (R566), parameters
outside R8. That a reset too is refused while `status` is Running, in mid-run and before the first cycle, is the model's
choice: R540 lists reset without a condition and says in general that the host writes state never during a run (DESIGN CHOICE,
log entry 8). -/
def State.host (s : State) (command : HostCommand) : Option State :=
  if s.hostMayWrite then
    match command with
    | .configure cfg => if cfg.wf then some (s.configure cfg) else none
    | .loadProgram ws => if ws = [] then none else some { s with im := ws }
    | .loadImage bs => if bs = [] ∨ bs.length % 4 ≠ 0 then none else some { s with im := wordsOfBytes bs }
    | .loadCell a v => if a % 8 = 0 ∧ a + 8 ≤ s.cfg.memBytes then some (s.loadCell a v) else none
    | .reset => some s.resetRun
  else none

/-- Instruction memory with one word placed, extended with NOP words where the program is shorter. -/
def placeWord (im : List InstrWord) (k : Nat) (w : InstrWord) : List InstrWord :=
  if k < im.length then im.set k w else im ++ List.replicate (k - im.length) 0 ++ [w]

/-- The state with a word where the next cycle's IF fetches it. IF runs only in a Running state with no HALT in flight and no older
instruction that stalls, redirects or stops it, so the pipeline is empty and its reservations are released; a PC that no
word can lie at is set to CODE_BASE. From State.reset only instruction memory changes (log entry 7). -/
def State.placeFetchWord (s : State) (w : InstrWord) : State :=
  let pc := if s.pc.toNat % 4 = 0 ∧ codeBase.toNat ≤ s.pc.toNat then s.pc else codeBase
  { s with
    pc := pc
    im := placeWord s.im ((pc.toNat - codeBase.toNat) / 4) w
    slotIF := none
    slotID := none
    slotEX := none
    slotMEM := none
    slotWB := none
    rcGpr := Vector.replicate 32 0
    rcFpr := Vector.replicate 32 0
    rcHi := 0
    rcLo := 0
    status := .running
    haltFetched := false }

end Sys2Proof.Machine
end

