-- ==== Sys2Proof/Machine/Step.lean ====
section
/-! DEFINITION. One step of the machine is one clock cycle of the CORE (spec 41_pipeline R211). -/

namespace Sys2Proof.Machine

/-- One cycle of a Running state; a run that is over takes no further step (R52). -/
def step (s : State) : Host.Outcome State Fault Refusal := runCycle s

/-- `s` with an instruction word (bit 0 its least significant, bits above `nbits` 0) where the next step fetches it. -/
def State.withFetchWord (s : State) (nbits w : Nat) : State :=
  s.placeFetchWord (BitVec.ofNat 32 (w % 2 ^ nbits))

end Sys2Proof.Machine
end

