-- ==== Sys2Proof/Safety.lean ====
section
/-! DEFINITION. What counts as a good state and a good run of the CORE: the invariants of spec 10_state R56 and the accounting of
70_reset_and_hazards R580, with the tables of the sources and destinations that the instruction rules give. -/

namespace Sys2Proof

open Machine

/-! ### Sources and destinations as the instruction rules list them (R212, R33) -/

/-- `srcs` with the latch each goes to: R281 to R317, R340, R349, R350, R370, R371, R410 to R419, R423, R425, R440 to R471. -/
def Instr.operands : Instr → Operands
  | .dadd _ rs rt | .daddu _ rs rt | .dsub _ rs rt | .dsubu _ rs rt | .add _ rs rt | .addu _ rs rt
  | .sub _ rs rt | .subu _ rs rt | .and _ rs rt | .or _ rs rt | .xor _ rs rt | .slt _ rs rt | .sltu _ rs rt
  | .movz _ rs rt | .movn _ rs rt => { a := some (.gpr rs), b := some (.gpr rt) }
  | .sllv _ rt rs | .srlv _ rt rs | .srav _ rt rs | .dsllv _ rt rs | .dsrlv _ rt rs | .dsrav _ rt rs =>
    { a := some (.gpr rs), b := some (.gpr rt) }
  | .daddi _ rs _ | .daddiu _ rs _ | .addi _ rs _ | .addiu _ rs _ | .andi _ rs _ | .ori _ rs _ | .xori _ rs _
  | .slti _ rs _ | .sltiu _ rs _ => { a := some (.gpr rs) }
  | .sll _ rt _ | .srl _ rt _ | .sra _ rt _ | .dsll _ rt _ | .dsrl _ rt _ | .dsra _ rt _ => { b := some (.gpr rt) }
  | .lui _ _ => {}
  | .dmult rs rt | .dmultu rs rt | .mult rs rt | .multu rs rt | .ddiv rs rt | .ddivu rs rt | .div rs rt
  | .divu rs rt => { a := some (.gpr rs), b := some (.gpr rt) }
  | .mfhi _ => { a := some .hi }
  | .mflo _ => { a := some .lo }
  | .lb _ _ base | .lbu _ _ base | .lh _ _ base | .lhu _ _ base | .lw _ _ base | .lwu _ _ base | .ld _ _ base
  | .lwc1 _ _ base | .ldc1 _ _ base => { a := some (.gpr base) }
  | .sb rt _ base | .sh rt _ base | .sw rt _ base | .sd rt _ base => { a := some (.gpr base), b := some (.gpr rt) }
  | .swc1 ft _ base | .sdc1 ft _ base => { a := some (.gpr base), b := some (.fpr ft) }
  | .beq rs rt _ | .bne rs rt _ => { a := some (.gpr rs), b := some (.gpr rt) }
  | .beqz rs _ | .bnez rs _ | .bgez rs _ => { a := some (.gpr rs) }
  | .bc1f _ _ | .bc1t _ _ | .j _ | .jal _ => {}
  | .jr rs | .jalr _ rs => { a := some (.gpr rs) }
  | .addD _ fs ft | .subD _ fs ft | .mulD _ fs ft | .divD _ fs ft | .cEqD _ fs ft | .cLtD _ fs ft
  | .cUnD _ fs ft => { a := some (.fpr fs), b := some (.fpr ft) }
  | .cvtLD _ fs | .cvtWD _ fs | .cvtDL _ fs | .cvtDW _ fs | .movD _ fs => { a := some (.fpr fs) }
  | .movfD _ fs _ | .movtD _ fs _ => { a := some (.fpr fs) }
  | .movzD _ fs rt | .movnD _ fs rt => { a := some (.fpr fs), c := some (.gpr rt) }
  | .mtc1 rt _ | .dmtc1 rt _ | .ctc1 rt => { c := some (.gpr rt) }
  | .mfc1 _ fs | .dmfc1 _ fs => { a := some (.fpr fs) }
  | .cfc1 _ | .halt | .nop | .brk _ => {}

/-- `dests` (R33, R340, R440): the registers an instruction reserves in ID and writes in WB. -/
def Instr.dests : Instr → List RegId
  | .dadd rd _ _ | .daddu rd _ _ | .dsub rd _ _ | .dsubu rd _ _ | .add rd _ _ | .addu rd _ _ | .sub rd _ _
  | .subu rd _ _ | .and rd _ _ | .or rd _ _ | .xor rd _ _ | .slt rd _ _ | .sltu rd _ _ | .movz rd _ _
  | .movn rd _ _ | .sllv rd _ _ | .srlv rd _ _ | .srav rd _ _ | .dsllv rd _ _ | .dsrlv rd _ _ | .dsrav rd _ _ =>
    [.gpr rd]
  | .sll rd _ _ | .srl rd _ _ | .sra rd _ _ | .dsll rd _ _ | .dsrl rd _ _ | .dsra rd _ _ => [.gpr rd]
  | .daddi rt _ _ | .daddiu rt _ _ | .addi rt _ _ | .addiu rt _ _ | .andi rt _ _ | .ori rt _ _ | .xori rt _ _
  | .slti rt _ _ | .sltiu rt _ _ => [.gpr rt]
  | .lui rt _ => [.gpr rt]
  | .dmult _ _ | .dmultu _ _ | .mult _ _ | .multu _ _ | .ddiv _ _ | .ddivu _ _ | .div _ _ | .divu _ _ => [.hi, .lo]
  | .mfhi rd | .mflo rd => [.gpr rd]
  | .lb rt _ _ | .lbu rt _ _ | .lh rt _ _ | .lhu rt _ _ | .lw rt _ _ | .lwu rt _ _ | .ld rt _ _ => [.gpr rt]
  | .lwc1 ft _ _ | .ldc1 ft _ _ => [.fpr ft]
  | .sb _ _ _ | .sh _ _ _ | .sw _ _ _ | .sd _ _ _ | .swc1 _ _ _ | .sdc1 _ _ _ => []
  | .beq _ _ _ | .bne _ _ _ | .beqz _ _ | .bnez _ _ | .bgez _ _ | .bc1f _ _ | .bc1t _ _ | .j _ | .jr _ => []
  | .jal _ => [.gpr 31]
  | .jalr rd _ => [.gpr rd]
  | .addD fd _ _ | .subD fd _ _ | .mulD fd _ _ | .divD fd _ _ | .cvtLD fd _ | .cvtWD fd _ | .cvtDL fd _
  | .cvtDW fd _ | .movD fd _ | .movzD fd _ _ | .movnD fd _ _ | .movfD fd _ _ | .movtD fd _ _ => [.fpr fd]
  | .cEqD _ _ _ | .cLtD _ _ _ | .cUnD _ _ _ | .ctc1 _ | .halt | .nop | .brk _ => []
  | .mtc1 _ fs | .dmtc1 _ fs => [.fpr fs]
  | .mfc1 rt _ | .dmfc1 rt _ => [.gpr rt]
  | .cfc1 rt => [.gpr rt]

/-- The outcome of an instruction's own ID where no source has a hazard (R212): Fault(Break) for BREAK (R493), else Ok. -/
def Instr.idOutcome : Instr → StageOutcome
  | .brk _ => .fault .breakpoint
  | _ => .ok

/-- The predicted branches (R260) with the offset field of each. -/
def Instr.branch? : Instr → Option (BranchOp × BitVec 16)
  | .beq _ _ offset => some (.beq, offset)
  | .bne _ _ offset => some (.bne, offset)
  | .beqz _ offset => some (.beqz, offset)
  | .bnez _ offset => some (.bnez, offset)
  | .bgez _ offset => some (.bgez, offset)
  | .bc1f _ offset => some (.bc1f, offset)
  | .bc1t _ offset => some (.bc1t, offset)
  | _ => none

/-- The loads and stores with the width of each access (R89). -/
def Instr.access? : Instr → Option Nat
  | .lb _ _ _ | .lbu _ _ _ | .sb _ _ _ => some 1
  | .lh _ _ _ | .lhu _ _ _ | .sh _ _ _ => some 2
  | .lw _ _ _ | .lwu _ _ _ | .sw _ _ _ | .lwc1 _ _ _ | .swc1 _ _ _ => some 4
  | .ld _ _ _ | .sd _ _ _ | .ldc1 _ _ _ | .sdc1 _ _ _ => some 8
  | _ => none

/-- The instructions that write data memory (R371). -/
def Instr.isStore : Instr → Bool
  | .sb _ _ _ | .sh _ _ _ | .sw _ _ _ | .sd _ _ _ | .swc1 _ _ _ | .sdc1 _ _ _ => true
  | _ => false

/-- The four FP arithmetic instructions (R441 to R444). -/
def Instr.isFpArith : Instr → Bool
  | .addD _ _ _ | .subD _ _ _ | .mulD _ _ _ | .divD _ _ _ => true
  | _ => false

/-- The FP compares (R454 to R456). -/
def Instr.isCompare : Instr → Bool
  | .cEqD _ _ _ | .cLtD _ _ _ | .cUnD _ _ _ => true
  | _ => false

/-- CTC1 (R470). -/
def Instr.isCtc1 : Instr → Bool
  | .ctc1 _ => true
  | _ => false

end Sys2Proof

namespace Sys2Proof.Machine

/-! ### The scoreboard (R56) -/

/-- The in-flight records (R49). -/
def State.inFlight (s : State) : List InFlight :=
  s.slotIF.toList ++ s.slotID.toList ++ s.slotEX.toList ++ s.slotMEM.toList ++ s.slotWB.toList

/-- The number of in-flight records whose `dests` contain a register (R56 item 2). -/
def State.reservers (s : State) (r : RegId) : Nat := s.inFlight.countP (fun rec => rec.dests.contains r)

/-- A run that has not been stopped: the states R56 speaks of. -/
def State.unstopped (s : State) : Prop := s.status = .running ∨ s.status = .terminated

/-- Is an occupant a poison entry (R217)? -/
def InFlight.isPoison (r : InFlight) : Bool :=
  match r.op with
  | .instr _ => false
  | .poison _ => true

/-- R56 item 2 with what makes it inductive: IF's slot is a bubble between cycles (R48), the record in ID has acquired nothing
yet (R222), a record's `dests` are distinct and never GPR 0 (R212), and a poison entry has none (R217). -/
def State.scoreboardInv (s : State) : Prop :=
  s.unstopped →
    s.slotIF = none ∧
    (∀ r, s.slotID = some r → r.dests = []) ∧
    (∀ rec ∈ s.inFlight, rec.dests.Nodup ∧ RegId.gpr 0 ∉ rec.dests ∧ (rec.isPoison → rec.dests = [])) ∧
    ∀ r, s.rc r = s.reservers r

/-! ### HALT and the cycle count (R224, R225, R580) -/

/-- Does a slot hold a HALT? -/
def holdsHalt (o : Option InFlight) : Bool := o.any (fun r => r.op == .instr .halt)

/-- How many cycles have run since the HALT that now stops IF was fetched, by the slot it has reached (R580); 0 where none has. -/
def State.drainCycles (s : State) : Nat :=
  if s.haltFetched then
    if holdsHalt s.slotID then 0
    else if holdsHalt s.slotEX then 1
    else if holdsHalt s.slotMEM then 2
    else if holdsHalt s.slotWB then 3
    else 4
  else 0

/-- Where a HALT may be (R224): none where haltFetched is 0; where it is 1, one HALT, the youngest occupant, or none at all once
the run has terminated. -/
def State.haltInv (s : State) : Prop :=
  s.slotIF = none ∧
  if s.haltFetched then
    (s.status = .running ∧ holdsHalt s.slotID ∧ !holdsHalt s.slotEX ∧ !holdsHalt s.slotMEM ∧ !holdsHalt s.slotWB) ∨
    (s.status = .running ∧ s.slotID = none ∧ holdsHalt s.slotEX ∧ !holdsHalt s.slotMEM ∧ !holdsHalt s.slotWB) ∨
    (s.status = .running ∧ s.slotID = none ∧ s.slotEX = none ∧ holdsHalt s.slotMEM ∧ !holdsHalt s.slotWB) ∨
    (s.status = .running ∧ s.slotID = none ∧ s.slotEX = none ∧ s.slotMEM = none ∧ holdsHalt s.slotWB) ∨
    (s.status = .terminated ∧ s.drained)
  else
    s.status = .running ∧ !holdsHalt s.slotID ∧ !holdsHalt s.slotEX ∧ !holdsHalt s.slotMEM ∧ !holdsHalt s.slotWB

/-- Is an event a fetch (R530)? -/
def TraceEvent.isFetch : TraceEvent → Bool
  | .fetch _ => true
  | .dataAccess _ _ => false

/-- F of R580: the number of fetches traced. -/
def State.fetchCount (s : State) : Nat := s.trace.countP TraceEvent.isFetch

/-- R580 with the cycles since HALT was fetched in the place of its 4, so that it holds between any two cycles. -/
def State.accountInv (s : State) : Prop :=
  s.unstopped → s.haltInv ∧ s.cycles = s.fetchCount + s.rawStalls + s.drainCycles

/-! ### Data that keeps its form -/

/-- Data memory is canonical and lists no byte outside [0, MEM_BYTES), which is a whole number of cells (R8, R80, R81); what the host
loaded are cells. -/
def State.memInv (s : State) : Prop :=
  s.cfg.wf ∧ Memory.wf s.mem ∧ (∀ p ∈ s.mem, p.1 < s.cfg.memBytes) ∧
    ∀ a ∈ s.hostLoaded, a % 8 = 0 ∧ a < s.cfg.memBytes

/-- PT is canonical, its indexes below 4096 (R50). -/
def State.ptInv (s : State) : Prop := PredTable.wf s.pt

/-- The hardwired bits of the FCSR are 0 (R42). -/
def State.fcsrInv (s : State) : Prop := s.fcsr &&& ~~~fcsrMask = 0

/-! ### Words that the statements use -/

/-- The executor is calling a stage on the record r, the occupant of that stage's slot (R210). -/
def State.calls (s : State) (st : Stage) (r : InFlight) : Prop := s.phase = st ∧ s.slot st = some r

/-- Which instruction a record is: what IF put in it, which no later stage changes (R49, R217). -/
def InFlight.identity (r : InFlight) : InstrWord × Op × Word × Bool := (r.word, r.op, r.fetchedPC, r.predictedTaken)

/-- The state after ID of an instruction with these sources and destinations (R212): RAW and nothing else where a source is
reserved; otherwise the operands read, the destinations reserved, and `own` the outcome. -/
def State.afterID (s : State) (r : InFlight) (o : Operands) (ds : List RegId) (own : StageOutcome) : State :=
  if o.srcs.any (fun q => s.rc q != 0) then { s with outcome := .raw }
  else
    { s.acquireAll ds with
      slotID := some { r with
        a := match o.a with | some q => s.readReg q | none => r.a
        b := match o.b with | some q => s.readReg q | none => r.b
        c := match o.c with | some q => s.readReg q | none => r.c
        dests := ds.filter (fun d => d != .gpr 0) }
      outcome := own }

/-- The state after an EX that latches `result` and does nothing else. -/
def State.exResult (s : State) (r : InFlight) (v : Word) : State :=
  { s with slotEX := some { r with result := v }, outcome := .ok }

/-- The state after an EX of a multiply or divide: HI's value in `resultHi`, LO's in `result` (R340). -/
def State.exHiLoResult (s : State) (r : InFlight) (hi lo : Word) : State :=
  { s with slotEX := some { r with result := lo, resultHi := hi }, outcome := .ok }

/-- The state after an EX of a conditional move (R316). -/
def State.exMoveResult (s : State) (r : InFlight) (move : Bool) : State :=
  { s with slotEX := some { r with result := r.a, writeEnable := move }, outcome := .ok }

/-- The state after an EX of a load or store: the effective address (R91). -/
def State.exAddressResult (s : State) (r : InFlight) (ea : Word) : State :=
  { s with slotEX := some { r with ea := ea }, outcome := .ok }

/-- EX of a conditional branch with condition `taken` (R410, R411): PT is updated, then the prediction compared. -/
def branchResult (s : State) (r : InFlight) (op : BranchOp) (off : BitVec 16) (taken : Bool) : State :=
  let pt := if s.cfg.predictionEnabled then
      s.pt.write (predIndex s.cfg op r.fetchedPC)
        (if taken then (if s.pt.read (predIndex s.cfg op r.fetchedPC) = 3 then 3
          else s.pt.read (predIndex s.cfg op r.fetchedPC) + 1)
        else if s.pt.read (predIndex s.cfg op r.fetchedPC) = 0 then 0
          else s.pt.read (predIndex s.cfg op r.fetchedPC) - 1)
    else s.pt
  { s with
    pt := pt
    outcome :=
      if r.predictedTaken = true ∧ taken = false then .misprediction (r.fetchedPC + 4)
      else if r.predictedTaken = false ∧ taken = true then
        .misprediction (r.fetchedPC + 4 + BitVec.ofInt 64 (off.toInt * 4))
      else .ok }

/-- The state after a stage that only answers an outcome. -/
def State.answers (s : State) (o : StageOutcome) : State := { s with outcome := o }

/-- The state after the MEM of a load that reads `v` (R213, R370, R531). -/
def State.memLoaded (s : State) (r : InFlight) (n : Nat) (v : Word) : State :=
  { s with
    slotMEM := some { r with result := v }
    trace := s.trace ++ [.dataAccess r.ea n]
    outcome := .ok }

/-- The state after the MEM of a store (R213, R371, R531). -/
def State.memStored (s : State) (r : InFlight) (n : Nat) (m : Memory) : State :=
  { s with mem := m, trace := s.trace ++ [.dataAccess r.ea n], outcome := .ok }

/-- Is an access of n bytes aligned and in range (R87, R88)? -/
def State.accessible (s : State) (ea : Word) (n : Nat) : Prop :=
  ea.toNat % n = 0 ∧ ea.toNat + n ≤ s.cfg.memBytes

/-- One instruction taken alone through ID, EX, MEM and WB: no other instruction is in flight and no outcome is acted on. -/
def runAlone (i : Instr) (r : InFlight) (s : State) : Result :=
  andThen (exec i ((s.setSlot .ID (some r)).enter .ID)) fun s =>
  andThen (exec i ((s.advance false).enter .EX)) fun s =>
  andThen (exec i ((s.advance false).enter .MEM)) fun s =>
  exec i ((s.advance false).enter .WB)

/-- The state that step 4 of a cycle finds: steps 1 to 3 done (R211). -/
def beforeID (s : State) : Result :=
  andThen (wbStep s) fun s => andThen (memStep s) fun s => whileRunning exStep s

/-! ### Real values (R162, R170, R181) -/

/-- `val(p)` (R162) of a finite pattern, as an exact rational number. -/
def fpVal (p : Word) : ℚ :=
  (if fpSign p then -1 else 1) *
    (if fpExp p = 0 then (fpFrac p : ℚ) * 2 ^ (-1074 : Int)
    else (1 + (fpFrac p : ℚ) / 2 ^ 52) * 2 ^ ((fpExp p : Int) - 1023))

/-- DBL_MAX (R11). -/
def dblMax : ℚ := (2 - 2 ^ (-52 : Int)) * 2 ^ (1023 : Int)

/-- MIN_SUB (R11). -/
def minSub : ℚ := 2 ^ (-1074 : Int)

/-- `p` is RNE(x) (R170): no finite pattern is nearer to x, and where another value is as near, p's fraction is even. -/
def isNearestEven (p : Word) (x : ℚ) : Prop :=
  isFinite p = true ∧ (∀ q, isFinite q = true → |fpVal p - x| ≤ |fpVal q - x|) ∧
    ∀ q, isFinite q = true → |fpVal q - x| = |fpVal p - x| → fpVal q ≠ fpVal p → fpFrac p % 2 = 0

/-- What `narrow` of the exact real result x answers (R171), given the sign a zero result has (R172). -/
def narrowsTo (f : BitVec 32) (zeroSign : Bool) (x : ℚ) (out : FpOut) : Prop :=
  if x = 0 then out = ⟨f, .ok (zeroOf zeroSign)⟩
  else if dblMax < |x| then out = signal f .O (infOf (x < 0))
  else if |x| < minSub then out = signal f .U (zeroOf (x < 0))
  else ∃ p, out = ⟨f, .ok p⟩ ∧ isNearestEven p x ∧ fpSign p = decide (x < 0)

/-- `n` is roundToInteger(v, RM) (R181). -/
def roundsToInt (rm : RoundMode) (v : ℚ) (n : Int) : Prop :=
  match rm with
  | .RN => |v - n| ≤ 1 / 2 ∧ (|v - n| = 1 / 2 → n % 2 = 0)
  | .RZ => n = if 0 ≤ v then ⌊v⌋ else ⌈v⌉
  | .RP => n = ⌈v⌉
  | .RM => n = ⌊v⌋

/-- `p` is roundToFP(n, RM) (R181): the nearest value, or the nearest on the side the directed mode names. -/
def roundsToFp (rm : RoundMode) (n : Int) (p : Word) : Prop :=
  isFinite p = true ∧
  match rm with
  | .RN => isNearestEven p n
  | .RZ => |fpVal p| ≤ |(n : ℚ)| ∧ 0 ≤ fpVal p * n ∧
      ∀ q, isFinite q = true → |fpVal q| ≤ |(n : ℚ)| → |fpVal q| ≤ |fpVal p|
  | .RP => (n : ℚ) ≤ fpVal p ∧ ∀ q, isFinite q = true → (n : ℚ) ≤ fpVal q → fpVal p ≤ fpVal q
  | .RM => fpVal p ≤ n ∧ ∀ q, isFinite q = true → fpVal q ≤ n → fpVal q ≤ fpVal p

/-! ### Runs -/

/-- A run that no fatal fault has ended: what a claim of safety asks of every state of a run (R510). -/
def State.unfaulted (s : State) : Prop := ∀ k st pc, s.status ≠ .faulted k st pc

/-- `k` cycles, none of them past the end of the run. -/
def runsTo : Nat → State → State → Prop
  | 0, s, t => t = s
  | k + 1, s, t => ∃ u, step s = .next u ∧ runsTo k u t

end Sys2Proof.Machine
end

