-- ==== Sys2Proof/Certificates/Slice0/Obligations.lean ====
section
/-! DEFINITION. The statements for the provers, each one of or from the numbered rules of spec/. -/

open Sys2Proof Sys2Proof.Machine

/-! ## Encoding (30_encoding) -/

/-- Words written out from the encoding column of R119 decode to the instructions they stand for, and words that no row of R119
fits decode to Reserved. -/
def Obligations.DecodesTableWords : Prop :=
  decode 0b011000_00000_00001_0000000000000101 = .instr (.daddi 1 0 5) ∧
  decode 0b000000_00001_00010_00011_00000_101100 = .instr (.dadd 3 1 2) ∧
  decode 0b000000_00000_00010_00011_00111_000011 = .instr (.sra 3 2 7) ∧
  decode 0b000000_00001_00010_00000_00000_011110 = .instr (.ddiv 1 2) ∧
  decode 0b100011_00001_00010_1111111111111100 = .instr (.lw 2 0xFFFC 1) ∧
  decode 0b000111_00001_00000_0000000000000001 = .instr (.bnez 1 1) ∧
  decode 0b010001_01000_01101_0000000000000001 = .instr (.bc1t 3 1) ∧
  decode 0b000011_00000000000000000001000000 = .instr (.jal 0x40) ∧
  decode 0b010001_10001_00010_00001_00011_000000 = .instr (.addD 3 1 2) ∧
  decode 0b010001_10001_00010_00001_01100_110010 = .instr (.cEqD 3 1 2) ∧
  decode 0b010001_00110_00001_11111_00000_000000 = .instr (.ctc1 1) ∧
  decode 0b000001_00000_00000_0000000000000000 = .instr .halt ∧
  decode 0 = .instr .nop ∧
  decode 0b000000_00000000000000000111_001101 = .instr (.brk 7) ∧
  decode 0b000000_00001_00010_00011_00001_101100 = .reserved ∧
  decode 0b000110_00001_00001_0000000000000000 = .reserved ∧
  decode 0b000000_00000000000000000000_001100 = .reserved ∧
  decode 0b010001_00110_00001_00000_00000_000000 = .reserved

/-- Decoding the word of a well-formed instruction gives it back, with every operand at every value. -/
def Obligations.DecodeOfEncode : Prop :=
  ∀ i : Instr, i.wellFormed = true → decode (encode i) = .instr i

/-- A word that decodes to an instruction is that instruction's word, and the instruction is well formed: each word has one
meaning, and no bit of it is dropped. -/
def Obligations.EncodeOfDecode : Prop :=
  ∀ (w : InstrWord) (i : Instr), decode w = .instr i → encode i = w ∧ i.wellFormed = true

/-- The decoder follows the opcode map (R116) and the map is unambiguous (R117): a word decodes to an instruction of a row it
fits, or to Reserved where it fits no row; two rows that one word fits are the same row or that word is 0, which fits NOP and SLL. -/
def Obligations.DecodeFollowsOpcodeMap : Prop :=
  (∀ w : InstrWord,
    match decode w with
    | .instr i => i.row ∈ opcodeRows ∧ i.row.fits w = true
    | .reserved => ∀ row ∈ opcodeRows, row.fits w = false
    | .truncated => False) ∧
  (∀ (w : InstrWord) (row row' : OpcodeRow), row ∈ opcodeRows → row' ∈ opcodeRows → row.fits w = true →
    row'.fits w = true → row = row' ∨
      (w = 0 ∧ row.mnemonic ∈ ["NOP", "SLL"] ∧ row'.mnemonic ∈ ["NOP", "SLL"])) ∧
  decode 0 = .instr .nop

/-- A byte image holds each word most significant byte first (R94), and a decoder on bytes reads it so. -/
def Obligations.ByteImagesAreBigEndian : Prop :=
  (∀ (w : InstrWord) (j : Nat) (hj : j < 4),
    (bytesOfWord w)[j]'(by simpa [bytesOfWord] using hj) = w.extractLsb' (24 - 8 * j) 8) ∧
  (∀ ws : List InstrWord, wordsOfBytes (ws.flatMap bytesOfWord) = ws) ∧
  (∀ (w : InstrWord) (rest : List Byte), decodeBytes (bytesOfWord w ++ rest) = (decode w, rest))

/-! ## The cycle (41_pipeline) -/

/-- A step runs the decoded instruction. In each stage the executor calls `exec` on the instruction in that stage's slot. Where IF
runs and the word at PC decodes to an admitted instruction, IF is `exec` of that instruction on its new record. From an empty
pipeline a step is that `exec`, then the advance. -/
def Obligations.StepRunsDecodedInstruction : Prop :=
  (∀ (st : Stage) (s : State) (r : InFlight) (i : Instr), s.slot st = some r → r.op = .instr i →
    callStage st s = exec i { s with phase := st, outcome := .ok }) ∧
  (∀ (s : State) (w : InstrWord) (i : Instr), s.fetchAt s.pc = .word w → decode w = .instr i →
    s.cfg.tiers.admits i.tier = true → s.haltFetched = false → s.outcome ≠ .raw →
    s.fetched.slotIF = some (newRecord s.pc w (.instr i)) ∧ ifStep s = exec i s.fetched) ∧
  (∀ (s : State) (w : InstrWord) (i : Instr), s.status = .running → s.drained = true →
    s.fetchAt s.pc = .word w → decode w = .instr i → s.cfg.tiers.admits i.tier = true → s.haltFetched = false →
    ∃ t, exec i s.fetched = .next t ∧ step s = .next (endOfCycle t))

/-- Only a Running state steps (R52); a fatal fault or BREAK ends the run in the cycle it is raised, the stages after it and
the advance left out (R226, R510, R493). A poison entry faults in ID and only there, with the fault it carries, and no other
stage does anything with it (R217, R509). The host reads the fault's code of R504 from `status` (R511), 13 after a BREAK. -/
def Obligations.FaultStopsRun : Prop :=
  (∀ s : State, (∃ t, step s = .next t) ↔ s.status = .running) ∧
  (∀ (s a v : State) (k : FaultKind), s.status = .running → wbStep s = .next a → callStage .MEM a = .next v →
    v.outcome = .fault k → step s = .next (v.stop (.faulted k .MEM (a.fetchedPCOf .MEM)))) ∧
  (∀ (s a b v : State) (k : FaultKind), s.status = .running → wbStep s = .next a → memStep a = .next b →
    b.status = .running → callStage .EX b = .next v → v.outcome = .fault k →
    step s = .next (v.stop (.faulted k .EX (b.fetchedPCOf .EX)))) ∧
  (∀ (s c v : State) (k : FaultKind), s.status = .running → beforeID s = .next c → c.status = .running →
    callStage .ID c = .next v → v.outcome = .fault k →
    step s = .next (v.stop (if k = .breakpoint then .stoppedBreak (c.fetchedPCOf .ID)
      else .faulted k .ID (c.fetchedPCOf .ID)))) ∧
  (∀ (s c : State) (r : InFlight) (k : FaultKind), s.status = .running → beforeID s = .next c → c.status = .running →
    c.slotID = some r → r.op = .poison k → k ≠ .breakpoint →
    callStage .ID c = .next { c with phase := .ID, outcome := .fault k } ∧
    step s = .next { c with
      status := .faulted k .ID r.fetchedPC, cycles := c.cycles + 1, phase := .IF, outcome := .ok }) ∧
  (∀ (st : Stage) (s : State) (r : InFlight) (k : FaultKind), st ≠ .ID → s.slot st = some r → r.op = .poison k →
    callStage st s = .next { s with phase := st, outcome := .ok }) ∧
  (∀ (ea pc : Word) (n : Nat) (w : InstrWord),
    [FaultKind.integerOverflow, .divideByZero, .memoryAlignment ea n, .addressFault ea n, .fpInvalidOperation, .fpOverflow,
      .fpUnderflow, .fpDivideByZero, .reservedInstruction w, .instructionAlignment pc, .fetchAddress pc, .unsupported w,
      .breakpoint, .twosComplementSum, .irregularStringOfBits, .irregularWriteOperation].map FaultKind.code =
      [1, 2, 3, 4, 5, 6, 7, 8, 9, 10, 11, 12, 13, 14, 15, 16]) ∧
  (∀ (k : FaultKind) (st : Stage) (pc : Word),
    (Status.faulted k st pc).code? = some k.code ∧ (Status.stoppedBreak pc).code? = some 13)

/-- What IF puts in the slot (R95, R217): a poison entry for a misaligned PC, for a PC with no word, for a Reserved word and for
an instruction of a tier that is not admitted, in that order; otherwise the decoded instruction. A fetch does not read data memory. -/
def Obligations.FetchMakesRecord : Prop :=
  ∀ (s : State) (pc : Word),
    (pc.toNat % 4 ≠ 0 → s.fetchAt pc = .misaligned ∧
      s.fetchRecord pc = newRecord pc 0 (.poison (.instructionAlignment pc))) ∧
    (pc.toNat % 4 = 0 → s.im.length ≤ pc.toNat / 4 → s.fetchAt pc = .noWord ∧
      s.fetchRecord pc = newRecord pc 0 (.poison (.fetchAddress pc))) ∧
    (∀ w : InstrWord, pc.toNat % 4 = 0 → s.im[pc.toNat / 4]? = some w → s.fetchAt pc = .word w ∧
      (decode w = .reserved → s.fetchRecord pc = newRecord pc w (.poison (.reservedInstruction w))) ∧
      (∀ i, decode w = .instr i → s.cfg.tiers.admits i.tier = false →
        s.fetchRecord pc = newRecord pc w (.poison (.unsupported w))) ∧
      (∀ i, decode w = .instr i → s.cfg.tiers.admits i.tier = true →
        s.fetchRecord pc = newRecord pc w (.instr i))) ∧
    (∀ m : Memory, ({ s with mem := m } : State).fetchRecord pc = s.fetchRecord pc)

/-- IF (R217, R218, R224, R530): where it runs, the fetch is traced, the record placed and PC advanced by 4, unless a branch is
predicted taken; a HALT sets haltFetched. In a stall and after a HALT it does nothing. -/
def Obligations.FetchAdvancesPc : Prop :=
  (∀ s : State, s.outcome = .raw ∨ s.haltFetched = true → ifStep s = .next s) ∧
  (∀ s : State, s.outcome ≠ .raw → s.haltFetched = false → ∃ t, ifStep s = .next t ∧
    t.trace = s.trace ++ [.fetch s.pc] ∧ t.lastFetchedPC = s.pc ∧
    t.slotIF.map (fun r => { r with predictedTaken := false }) = some (s.fetchRecord s.pc) ∧
    (t.haltFetched = true ↔ (s.fetchRecord s.pc).op = .instr .halt) ∧
    (t.pc = s.pc + 4 ∨
      ∃ i op offset, (s.fetchRecord s.pc).op = .instr i ∧ i.branch? = some (op, offset) ∧
        s.prediction op s.pc = true ∧ t.pc = branchTarget s.pc offset) ∧
    t.mem = s.mem ∧ t.fcsr = s.fcsr ∧ t.pt = s.pt ∧ (∀ q, t.readReg q = s.readReg q ∧ t.rc q = s.rc q))

/-- A RAW at ID (R220): the ID occupant stays, EX gets a bubble, IF does not run, MEM and WB advance, and the stall is counted. -/
def Obligations.StallHoldsDecode : Prop :=
  ∀ (s c : State) (r : InFlight) (i : Instr), s.status = .running → beforeID s = .next c → c.status = .running →
    c.slotID = some r → r.op = .instr i → c.rawHazard i.operands.srcs = true →
    step s = .next { c with
      slotWB := c.slotMEM, slotMEM := c.slotEX, slotEX := none, slotIF := none
      rawStalls := c.rawStalls + 1, cycles := c.cycles + 1, phase := .IF, outcome := .ok }

/-- EX's redirects (R221, R222): a misprediction or a jump sets PC and makes ID's slot a bubble, MEM and WB untouched; a flushed HALT
lets fetch go on; only a misprediction is counted. -/
def Obligations.RedirectFlushesDecode : Prop :=
  ∀ (b v : State) (target : Word), callStage .EX b = .next v →
    v.outcome = .misprediction target ∨ v.outcome = .jump target →
    ∃ c, exStep b = .next c ∧ c.pc = target ∧ c.slotID = none ∧ c.slotMEM = b.slotMEM ∧ c.slotWB = b.slotWB ∧
      c.slotEX = v.slotEX ∧ c.status = b.status ∧
      c.mispredictions = b.mispredictions + (if v.outcome = .misprediction target then 1 else 0) ∧
      (∀ r, b.slotID = some r → (r.op = .instr .halt → c.haltFetched = false) ∧
        (r.op ≠ .instr .halt → c.haltFetched = b.haltFetched) ∧
        ∀ q, c.rc q = if q = .gpr 0 then 0 else b.rc q - r.dests.count q) ∧
      (b.slotID = none → c.haltFetched = b.haltFetched ∧ ∀ q, c.rc q = b.rc q)

/-- After a redirect in EX the same cycle fetches from the target, and the instruction fetched on the wrong path runs no further
stage (R218, R223): ID is given the record fetched at the target and EX a bubble. The premise on HALT holds in every run. -/
def Obligations.RedirectRefetchesAtTarget : Prop :=
  ∀ (s a b v : State) (target : Word), s.status = .running → wbStep s = .next a → memStep a = .next b →
    b.status = .running → callStage .EX b = .next v →
    v.outcome = .misprediction target ∨ v.outcome = .jump target →
    (b.haltFetched = true → holdsHalt b.slotID = true) →
    ∃ t, step s = .next t ∧ t.slotEX = none ∧ t.slotMEM = v.slotEX ∧ t.slotWB = b.slotMEM ∧
      t.trace = b.trace ++ [.fetch target] ∧ t.lastFetchedPC = target ∧
      t.slotID.map (fun r => { r with predictedTaken := false }) = some (b.fetchRecord target) ∧
      t.fcsr = v.fcsr ∧ t.mem = b.mem

/-- Every cycle is counted once (R228) and moves no configuration and no instruction memory (R51, R93). Three clauses are about the
model's own fields and no rule of the spec: the record of what the host loaded stays (log entry 6, DEDUCED), and between
cycles no stage is being called and no outcome is kept (`phase` IF, `outcome` ok: log entry 5, DESIGN CHOICE). -/
def Obligations.CycleBookkeeping : Prop :=
  ∀ s t : State, step s = .next t → t.cycles = s.cycles + 1 ∧ t.im = s.im ∧ t.cfg = s.cfg ∧
    t.hostLoaded = s.hostLoaded ∧ t.phase = .IF ∧ t.outcome = .ok ∧
    t.retired = s.retired + (if s.slotWB.isSome then 1 else 0) ∧
    s.rawStalls ≤ t.rawStalls ∧ t.rawStalls ≤ s.rawStalls + 1 ∧
    s.mispredictions ≤ t.mispredictions ∧ t.mispredictions ≤ s.mispredictions + 1

/-- The end of a full cycle (R219, R225, R228): the occupants advance, the cycle is counted, and the run terminates when a HALT is
fetched and all five slots are bubbles. Of every step that neither stops the run nor stalls nor redirects: WB then holds what
MEM held, MEM what EX held, EX what ID held, each as its stage left it, and ID what IF fetched, or a bubble once a HALT is
fetched (`slotIF` is one between cycles, R48). -/
def Obligations.AdvanceAndTerminate : Prop :=
  (∀ s : State, let t := endOfCycle s
    t.slotWB = s.slotMEM ∧ t.slotMEM = s.slotEX ∧
    t.slotEX = (if s.outcome = .raw then none else s.slotID) ∧
    t.slotID = (if s.outcome = .raw then s.slotID else s.slotIF) ∧ t.slotIF = none ∧ t.cycles = s.cycles + 1) ∧
  (∀ s a b v t : State, wbStep s = .next a → memStep a = .next b → callStage .EX b = .next v → v.outcome = .ok →
    step s = .next t → t.status = .running ∨ t.status = .terminated → t.rawStalls = s.rawStalls →
    t.slotWB.map InFlight.identity = s.slotMEM.map InFlight.identity ∧ t.slotWB = b.slotMEM ∧
    t.slotMEM.map InFlight.identity = s.slotEX.map InFlight.identity ∧ t.slotMEM = v.slotEX ∧
    t.slotEX.map InFlight.identity = s.slotID.map InFlight.identity ∧
    (∀ w, callStage .ID v = .next w → t.slotEX = w.slotID) ∧
    (s.haltFetched = false →
      t.slotID.map (fun r => { r with predictedTaken := false }) = some (s.fetchRecord s.pc)) ∧
    (s.haltFetched = true → t.slotID = s.slotIF) ∧ t.slotIF = none) ∧
  (∀ s t : State, step s = .next t → t.status = .terminated → t.haltFetched = true ∧ t.drained = true) ∧
  (∀ s t : State, step s = .next t → t.status = .running → ¬(t.haltFetched = true ∧ t.drained = true))

/-- The trace is only appended to (R55), and within a cycle the data event comes before the fetch event (R532): at most one of
each. -/
def Obligations.TraceGrowsInOrder : Prop :=
  ∀ s t : State, step s = .next t → ∃ d f : List TraceEvent, t.trace = s.trace ++ d ++ f ∧
    (d = [] ∨ ∃ r i n, s.slotMEM = some r ∧ r.op = .instr i ∧ i.access? = some n ∧ d = [.dataAccess r.ea n]) ∧
    (f = [] ∨ f = [.fetch t.lastFetchedPC])

/-- GPRs, FPRs, HI and LO change only in WB (R32, R34): after a step every register reads what the WB occupant wrote, or as
before. -/
def Obligations.RegistersChangeOnlyInWriteBack : Prop :=
  ∀ s t : State, step s = .next t → ∀ q : RegId, t.readReg q =
    match s.slotWB with
    | some r => if r.isPoison = false ∧ r.writeEnable = true ∧ q ∈ r.dests ∧ q ≠ .gpr 0 then
        (if q = .hi then r.resultHi else r.result) else s.readReg q
    | none => s.readReg q

/-- What a step may do to the FCSR (R44, R45, R56): cause bits change only in the EX of an FP arithmetic instruction or CTC1; flag
bits are cleared, and enables and RM changed, only in the EX of CTC1; FCC changes only in the EX of a compare or CTC1. -/
def Obligations.FcsrChangesOnlyInEx : Prop :=
  ∀ s t : State, step s = .next t →
    ((∀ r i, s.slotEX = some r → r.op = .instr i → i.isFpArith = false ∧ i.isCtc1 = false) →
      ∀ n, 12 ≤ n → n ≤ 16 → t.readFcsr.getLsbD n = s.readFcsr.getLsbD n) ∧
    ((∀ r i, s.slotEX = some r → r.op = .instr i → i.isCtc1 = false) →
      (∀ n, 2 ≤ n → n ≤ 6 → s.readFcsr.getLsbD n = true → t.readFcsr.getLsbD n = true) ∧
      (∀ n, n ≤ 1 ∨ (7 ≤ n ∧ n ≤ 11) → t.readFcsr.getLsbD n = s.readFcsr.getLsbD n)) ∧
    ((∀ r i, s.slotEX = some r → r.op = .instr i → i.isFpArith = false ∧ i.isCtc1 = false) →
      ∀ n, 2 ≤ n → n ≤ 6 → t.readFcsr.getLsbD n = s.readFcsr.getLsbD n) ∧
    ((∀ r i, s.slotEX = some r → r.op = .instr i → i.isCompare = false ∧ i.isCtc1 = false) →
      ∀ cc, fcc t.readFcsr cc = fcc s.readFcsr cc)

/-- Data memory changes only by the store in MEM, and only in the bytes it stores, from its effective address on (R85, R213). -/
def Obligations.MemoryChangesOnlyByStores : Prop :=
  ∀ s t : State, step s = .next t → ∀ x : Nat,
    (∀ r i n, s.slotMEM = some r → r.op = .instr i → i.isStore = true → i.access? = some n →
      s.accessible r.ea n → x < r.ea.toNat ∨ r.ea.toNat + n ≤ x) →
    t.byteAt x = s.byteAt x

/-- The predictor table changes only in the EX of a predicted branch with prediction enabled, at the branch's own index, by one
saturating step (R264 to R267). -/
def Obligations.PredictorChangesOnlyByBranches : Prop :=
  ∀ s t : State, s.ptInv → step s = .next t → ∀ j : Nat, t.pt.read j = s.pt.read j ∨
    ∃ r i op offset taken, s.slotEX = some r ∧ r.op = .instr i ∧ i.branch? = some (op, offset) ∧
      s.cfg.predictionEnabled = true ∧ j = predIndex s.cfg op r.fetchedPC ∧
      t.pt.read j = (if taken = true then (if s.pt.read j = 3 then 3 else s.pt.read j + 1)
        else if s.pt.read j = 0 then 0 else s.pt.read j - 1)

/-! ## Invariants -/

/-- Every step keeps: each register's reservation count is the number of in-flight records whose `dests` contain it (R56). -/
def Obligations.ScoreboardKept : Prop :=
  ∀ s t : State, s.scoreboardInv → step s = .next t → t.scoreboardInv

/-- Every step keeps the cycle account of R580, with the place of the HALT in the pipeline (R224). -/
def Obligations.CycleAccountKept : Prop :=
  ∀ s t : State, s.accountInv → step s = .next t → t.accountInv

/-- Every step keeps data memory and the predictor table canonical and in range, and the hardwired FCSR bits 0 (R42, R50, R80). -/
def Obligations.DataFormsKept : Prop :=
  ∀ s t : State, step s = .next t →
    (s.memInv → t.memInv) ∧ (s.ptInv → t.ptInv) ∧ (s.fcsrInv → t.fcsrInv)

/-- At normal termination every reservation count is 0 (R56) and cycles = F + R + 4 (R580). -/
def Obligations.TerminationAccount : Prop :=
  ∀ s t : State, s.scoreboardInv → s.accountInv → step s = .next t → t.status = .terminated →
    (∀ q, t.rc q = 0) ∧ t.cycles = t.fetchCount + t.rawStalls + 4

/-- HALT drains the pipeline (R224, R225, R577): once it runs EX and no older access faults in that cycle, two more cycles end the
run normally, with nothing more fetched and no store. -/
def Obligations.HaltDrains : Prop :=
  ∀ s t : State, s.accountInv → s.status = .running → s.haltFetched = true → holdsHalt s.slotEX = true →
    step s = .next t → t.status = .running →
    ∃ u v, step t = .next u ∧ u.status = .running ∧ step u = .next v ∧ v.status = .terminated ∧
      v.fetchCount = s.fetchCount ∧ v.pc = s.pc ∧ v.mem = t.mem ∧ v.cycles = s.cycles + 3

/-- The invariants hold at reset, and after every reset the host asks for from a state that meets the data ones. -/
def Obligations.InvariantsHoldAtReset : Prop :=
  (State.reset.scoreboardInv ∧ State.reset.accountInv ∧ State.reset.memInv ∧ State.reset.ptInv ∧
    State.reset.fcsrInv) ∧
  ∀ s : State, s.memInv → s.ptInv → s.resetRun.scoreboardInv ∧ s.resetRun.accountInv ∧ s.resetRun.memInv ∧
    s.resetRun.ptInv ∧ s.resetRun.fcsrInv

/-! ## ID and WB -/

/-- ID of every instruction (R212): with no source reserved it latches its sources, reserves its destinations and answers its own
outcome; with one reserved it answers RAW and changes nothing else. -/
def Obligations.DecodeReadsAndReserves : Prop :=
  ∀ (i : Instr) (s : State) (r : InFlight), s.calls .ID r →
    exec i s = .next (s.afterID r i.operands i.dests i.idOutcome)

/-- The reservation counts (R36 to R39): an ID that passes its checks adds one for each destination but GPR 0; the count of GPR 0
is 0; a register is a hazard exactly when its count is not 0. -/
def Obligations.ReservationsAcquired : Prop :=
  (∀ (i : Instr) (s : State) (r : InFlight), s.calls .ID r → (∀ q ∈ i.operands.srcs, s.rc q = 0) →
    ∃ t, exec i s = .next t ∧ t.outcome = i.idOutcome ∧
      ∀ q, t.rc q = s.rc q + if q ≠ .gpr 0 ∧ q ∈ i.dests then 1 else 0) ∧
  (∀ (i : Instr) (s : State) (r : InFlight) (q : RegId), s.calls .ID r → q ∈ i.operands.srcs → s.rc q ≠ 0 →
    exec i s = .next { s with outcome := .raw }) ∧
  (∀ s : State, s.rc (.gpr 0) = 0 ∧ s.readReg (.gpr 0) = 0)

/-- WB of every instruction (R215, R32, R38): with writeEnable its destinations take the latched values, HI from `resultHi`; GPR 0
keeps 0; each destination's count is then one less; nothing else changes. -/
def Obligations.WriteBackWritesAndReleases : Prop :=
  ∀ (i : Instr) (s : State) (r : InFlight), s.calls .WB r → r.dests.Nodup →
    ∃ t, exec i s = .next t ∧ t.outcome = .ok ∧
      (∀ q, t.readReg q = if r.writeEnable = true ∧ q ∈ r.dests ∧ q ≠ .gpr 0 then
        (if q = .hi then r.resultHi else r.result) else s.readReg q) ∧
      (∀ q, t.rc q = s.rc q - if q ∈ r.dests then 1 else 0) ∧
      t = { s with
        gpr := t.gpr, fpr := t.fpr, hi := t.hi, lo := t.lo
        rcGpr := t.rcGpr, rcFpr := t.rcFpr, rcHi := t.rcHi, rcLo := t.rcLo, outcome := .ok }

/-- Every instruction that runs ID, EX, MEM and WB gives back each reservation it took (R56 item 3), and writes no register but
its destinations (R33, R34, R35). -/
def Obligations.InstructionReleasesWhatItReserves : Prop :=
  ∀ (i : Instr) (s : State) (pc : Word), (∀ q ∈ i.operands.srcs, s.rc q = 0) →
    ∃ t, runAlone i (newRecord pc (encode i) (.instr i)) s = .next t ∧
      (∀ q, t.rc q = s.rc q) ∧ (∀ q, q ∉ i.dests → t.readReg q = s.readReg q) ∧ t.readReg (.gpr 0) = 0

/-- Instructions taken alone from ID to WB: the registers and the memory that a whole instruction leaves (R282, R317, R342, R378,
R382), every other register and every byte not stored as before. A write to GPR 0 is discarded (R32). -/
def Obligations.InstructionsEndToEnd : Prop :=
  ∀ (s : State) (pc : Word) (rd rs rt : RegNum) (off : BitVec 16),
    let run := fun i : Instr => runAlone i (newRecord pc (encode i) (.instr i)) s
    let x := fun n : RegNum => s.readReg (.gpr n)
    let ea := x rs + off.signExtend 64
    s.rc (.gpr rs) = 0 → s.rc (.gpr rt) = 0 →
    (∃ t, run (.daddu rd rs rt) = .next t ∧ t.mem = s.mem ∧ t.fcsr = s.fcsr ∧ t.pt = s.pt ∧
      ∀ q, t.readReg q = if q = .gpr rd ∧ rd ≠ 0 then x rs + x rt else s.readReg q) ∧
    (∃ t, run (.movn rd rs rt) = .next t ∧ t.mem = s.mem ∧ t.fcsr = s.fcsr ∧ t.pt = s.pt ∧
      ∀ q, t.readReg q = if q = .gpr rd ∧ rd ≠ 0 ∧ x rt ≠ 0 then x rs else s.readReg q) ∧
    (∃ t, run (.dmultu rs rt) = .next t ∧ t.mem = s.mem ∧ t.fcsr = s.fcsr ∧ t.pt = s.pt ∧
      t.hi.toNat * 2 ^ 64 + t.lo.toNat = (x rs).toNat * (x rt).toNat ∧
      ∀ q, q ≠ .hi → q ≠ .lo → t.readReg q = s.readReg q) ∧
    (s.accessible ea 8 →
      (∃ t, run (.ld rt off rs) = .next t ∧ t.mem = s.mem ∧ t.fcsr = s.fcsr ∧ t.pt = s.pt ∧
        ∀ q, t.readReg q = if q = .gpr rt ∧ rt ≠ 0 then s.cell ea.toNat else s.readReg q) ∧
      (Memory.wf s.mem → ∃ t, run (.sd rt off rs) = .next t ∧ t.fcsr = s.fcsr ∧ t.pt = s.pt ∧
        (∀ q, t.readReg q = s.readReg q) ∧ t.cell ea.toNat = x rt ∧
        ∀ y, y < ea.toNat ∨ ea.toNat + 8 ≤ y → t.byteAt y = s.byteAt y))

/-! ## Integer instructions (43_int_alu, 44_int_muldiv) -/

/-- The adds and subtracts that wrap (R282, R284, R286, R288, R290, R292). -/
def Obligations.WrappingArithmetic : Prop :=
  ∀ (s : State) (r : InFlight) (rd rs rt : RegNum) (imm : BitVec 16),
    (s.calls .ID r →
      exec (.daddu rd rs rt) s = .next (s.afterID r { a := some (.gpr rs), b := some (.gpr rt) } [.gpr rd] .ok) ∧
      exec (.dsubu rd rs rt) s = .next (s.afterID r { a := some (.gpr rs), b := some (.gpr rt) } [.gpr rd] .ok) ∧
      exec (.addu rd rs rt) s = .next (s.afterID r { a := some (.gpr rs), b := some (.gpr rt) } [.gpr rd] .ok) ∧
      exec (.subu rd rs rt) s = .next (s.afterID r { a := some (.gpr rs), b := some (.gpr rt) } [.gpr rd] .ok) ∧
      exec (.daddiu rt rs imm) s = .next (s.afterID r { a := some (.gpr rs) } [.gpr rt] .ok) ∧
      exec (.addiu rt rs imm) s = .next (s.afterID r { a := some (.gpr rs) } [.gpr rt] .ok)) ∧
    (s.calls .EX r →
      exec (.daddu rd rs rt) s = .next (s.exResult r (r.a + r.b)) ∧
      exec (.dsubu rd rs rt) s = .next (s.exResult r (r.a - r.b)) ∧
      exec (.addu rd rs rt) s = .next (s.exResult r ((r.a.setWidth 32 + r.b.setWidth 32).signExtend 64)) ∧
      exec (.subu rd rs rt) s = .next (s.exResult r ((r.a.setWidth 32 - r.b.setWidth 32).signExtend 64)) ∧
      exec (.daddiu rt rs imm) s = .next (s.exResult r (r.a + imm.signExtend 64)) ∧
      exec (.addiu rt rs imm) s =
        .next (s.exResult r ((r.a.setWidth 32 + (imm.signExtend 64).setWidth 32).signExtend 64)))

/-- The signed adds and subtracts (R281, R283, R285, R287, R289, R291): the exact result where it fits, IntegerOverflow and no
result where it does not. -/
def Obligations.TrappingArithmetic : Prop :=
  ∀ (s : State) (r : InFlight) (rd rs rt : RegNum) (imm : BitVec 16),
    (s.calls .ID r →
      exec (.dadd rd rs rt) s = .next (s.afterID r { a := some (.gpr rs), b := some (.gpr rt) } [.gpr rd] .ok) ∧
      exec (.dsub rd rs rt) s = .next (s.afterID r { a := some (.gpr rs), b := some (.gpr rt) } [.gpr rd] .ok) ∧
      exec (.add rd rs rt) s = .next (s.afterID r { a := some (.gpr rs), b := some (.gpr rt) } [.gpr rd] .ok) ∧
      exec (.sub rd rs rt) s = .next (s.afterID r { a := some (.gpr rs), b := some (.gpr rt) } [.gpr rd] .ok) ∧
      exec (.daddi rt rs imm) s = .next (s.afterID r { a := some (.gpr rs) } [.gpr rt] .ok) ∧
      exec (.addi rt rs imm) s = .next (s.afterID r { a := some (.gpr rs) } [.gpr rt] .ok)) ∧
    (s.calls .EX r →
      (∀ (x : Int), -(2 ^ 63) ≤ x → x < 2 ^ 63 →
        (x = r.a.toInt + r.b.toInt → exec (.dadd rd rs rt) s = .next (s.exResult r (BitVec.ofInt 64 x))) ∧
        (x = r.a.toInt - r.b.toInt → exec (.dsub rd rs rt) s = .next (s.exResult r (BitVec.ofInt 64 x))) ∧
        (x = r.a.toInt + (imm.signExtend 64).toInt →
          exec (.daddi rt rs imm) s = .next (s.exResult r (BitVec.ofInt 64 x)))) ∧
      (∀ (x : Int), x < -(2 ^ 63) ∨ 2 ^ 63 ≤ x →
        (x = r.a.toInt + r.b.toInt → exec (.dadd rd rs rt) s = .next (s.answers (.fault .integerOverflow))) ∧
        (x = r.a.toInt - r.b.toInt → exec (.dsub rd rs rt) s = .next (s.answers (.fault .integerOverflow))) ∧
        (x = r.a.toInt + (imm.signExtend 64).toInt →
          exec (.daddi rt rs imm) s = .next (s.answers (.fault .integerOverflow)))) ∧
      (∀ (x : Int), -(2 ^ 31) ≤ x → x < 2 ^ 31 →
        (x = (r.a.setWidth 32).toInt + (r.b.setWidth 32).toInt →
          exec (.add rd rs rt) s = .next (s.exResult r ((BitVec.ofInt 32 x).signExtend 64))) ∧
        (x = (r.a.setWidth 32).toInt - (r.b.setWidth 32).toInt →
          exec (.sub rd rs rt) s = .next (s.exResult r ((BitVec.ofInt 32 x).signExtend 64))) ∧
        (x = (r.a.setWidth 32).toInt + ((imm.signExtend 64).setWidth 32).toInt →
          exec (.addi rt rs imm) s = .next (s.exResult r ((BitVec.ofInt 32 x).signExtend 64)))) ∧
      (∀ (x : Int), x < -(2 ^ 31) ∨ 2 ^ 31 ≤ x →
        (x = (r.a.setWidth 32).toInt + (r.b.setWidth 32).toInt →
          exec (.add rd rs rt) s = .next (s.answers (.fault .integerOverflow))) ∧
        (x = (r.a.setWidth 32).toInt - (r.b.setWidth 32).toInt →
          exec (.sub rd rs rt) s = .next (s.answers (.fault .integerOverflow))) ∧
        (x = (r.a.setWidth 32).toInt + ((imm.signExtend 64).setWidth 32).toInt →
          exec (.addi rt rs imm) s = .next (s.answers (.fault .integerOverflow)))))

/-- The logical instructions and LUI (R293 to R299). -/
def Obligations.LogicalInstructions : Prop :=
  ∀ (s : State) (r : InFlight) (rd rs rt : RegNum) (imm : BitVec 16),
    (s.calls .ID r →
      exec (.and rd rs rt) s = .next (s.afterID r { a := some (.gpr rs), b := some (.gpr rt) } [.gpr rd] .ok) ∧
      exec (.or rd rs rt) s = .next (s.afterID r { a := some (.gpr rs), b := some (.gpr rt) } [.gpr rd] .ok) ∧
      exec (.xor rd rs rt) s = .next (s.afterID r { a := some (.gpr rs), b := some (.gpr rt) } [.gpr rd] .ok) ∧
      exec (.andi rt rs imm) s = .next (s.afterID r { a := some (.gpr rs) } [.gpr rt] .ok) ∧
      exec (.ori rt rs imm) s = .next (s.afterID r { a := some (.gpr rs) } [.gpr rt] .ok) ∧
      exec (.xori rt rs imm) s = .next (s.afterID r { a := some (.gpr rs) } [.gpr rt] .ok) ∧
      exec (.lui rt imm) s = .next (s.afterID r {} [.gpr rt] .ok)) ∧
    (s.calls .EX r →
      exec (.and rd rs rt) s = .next (s.exResult r (r.a &&& r.b)) ∧
      exec (.or rd rs rt) s = .next (s.exResult r (r.a ||| r.b)) ∧
      exec (.xor rd rs rt) s = .next (s.exResult r (r.a ^^^ r.b)) ∧
      exec (.andi rt rs imm) s = .next (s.exResult r (r.a &&& BitVec.ofNat 64 imm.toNat)) ∧
      exec (.ori rt rs imm) s = .next (s.exResult r (r.a ||| BitVec.ofNat 64 imm.toNat)) ∧
      exec (.xori rt rs imm) s = .next (s.exResult r (r.a ^^^ BitVec.ofNat 64 imm.toNat)) ∧
      exec (.lui rt imm) s = .next (s.exResult r (BitVec.ofInt 64 (imm.toInt * 2 ^ 16))))

/-- The set instructions (R300 to R303). -/
def Obligations.SetOnLessThan : Prop :=
  ∀ (s : State) (r : InFlight) (rd rs rt : RegNum) (imm : BitVec 16),
    (s.calls .ID r →
      exec (.slt rd rs rt) s = .next (s.afterID r { a := some (.gpr rs), b := some (.gpr rt) } [.gpr rd] .ok) ∧
      exec (.sltu rd rs rt) s = .next (s.afterID r { a := some (.gpr rs), b := some (.gpr rt) } [.gpr rd] .ok) ∧
      exec (.slti rt rs imm) s = .next (s.afterID r { a := some (.gpr rs) } [.gpr rt] .ok) ∧
      exec (.sltiu rt rs imm) s = .next (s.afterID r { a := some (.gpr rs) } [.gpr rt] .ok)) ∧
    (s.calls .EX r →
      exec (.slt rd rs rt) s = .next (s.exResult r (if r.a.toInt < r.b.toInt then 1 else 0)) ∧
      exec (.sltu rd rs rt) s = .next (s.exResult r (if r.a.toNat < r.b.toNat then 1 else 0)) ∧
      exec (.slti rt rs imm) s = .next (s.exResult r (if r.a.toInt < imm.toInt then 1 else 0)) ∧
      exec (.sltiu rt rs imm) s =
        .next (s.exResult r (if r.a.toNat < (imm.signExtend 64).toNat then 1 else 0)))

/-- The word shifts (R304 to R309): the low word times or divided by a power of two, floored, narrowed and sign-extended. -/
def Obligations.WordShifts : Prop :=
  ∀ (s : State) (r : InFlight) (rd rs rt : RegNum) (sa : BitVec 5),
    (s.calls .ID r →
      exec (.sll rd rt sa) s = .next (s.afterID r { b := some (.gpr rt) } [.gpr rd] .ok) ∧
      exec (.srl rd rt sa) s = .next (s.afterID r { b := some (.gpr rt) } [.gpr rd] .ok) ∧
      exec (.sra rd rt sa) s = .next (s.afterID r { b := some (.gpr rt) } [.gpr rd] .ok) ∧
      exec (.sllv rd rt rs) s = .next (s.afterID r { a := some (.gpr rs), b := some (.gpr rt) } [.gpr rd] .ok) ∧
      exec (.srlv rd rt rs) s = .next (s.afterID r { a := some (.gpr rs), b := some (.gpr rt) } [.gpr rd] .ok) ∧
      exec (.srav rd rt rs) s = .next (s.afterID r { a := some (.gpr rs), b := some (.gpr rt) } [.gpr rd] .ok)) ∧
    (s.calls .EX r →
      let b32 := r.b.setWidth 32
      let k := r.a.toNat % 32
      exec (.sll rd rt sa) s = .next (s.exResult r ((BitVec.ofNat 32 (b32.toNat * 2 ^ sa.toNat)).signExtend 64)) ∧
      exec (.srl rd rt sa) s = .next (s.exResult r ((BitVec.ofNat 32 (b32.toNat / 2 ^ sa.toNat)).signExtend 64)) ∧
      exec (.sra rd rt sa) s = .next (s.exResult r ((BitVec.ofInt 32 (b32.toInt / 2 ^ sa.toNat)).signExtend 64)) ∧
      exec (.sllv rd rt rs) s = .next (s.exResult r ((BitVec.ofNat 32 (b32.toNat * 2 ^ k)).signExtend 64)) ∧
      exec (.srlv rd rt rs) s = .next (s.exResult r ((BitVec.ofNat 32 (b32.toNat / 2 ^ k)).signExtend 64)) ∧
      exec (.srav rd rt rs) s = .next (s.exResult r ((BitVec.ofInt 32 (b32.toInt / 2 ^ k)).signExtend 64)))

/-- The doubleword shifts (R310 to R315). -/
def Obligations.DoublewordShifts : Prop :=
  ∀ (s : State) (r : InFlight) (rd rs rt : RegNum) (sa : BitVec 5),
    (s.calls .ID r →
      exec (.dsll rd rt sa) s = .next (s.afterID r { b := some (.gpr rt) } [.gpr rd] .ok) ∧
      exec (.dsrl rd rt sa) s = .next (s.afterID r { b := some (.gpr rt) } [.gpr rd] .ok) ∧
      exec (.dsra rd rt sa) s = .next (s.afterID r { b := some (.gpr rt) } [.gpr rd] .ok) ∧
      exec (.dsllv rd rt rs) s = .next (s.afterID r { a := some (.gpr rs), b := some (.gpr rt) } [.gpr rd] .ok) ∧
      exec (.dsrlv rd rt rs) s = .next (s.afterID r { a := some (.gpr rs), b := some (.gpr rt) } [.gpr rd] .ok) ∧
      exec (.dsrav rd rt rs) s = .next (s.afterID r { a := some (.gpr rs), b := some (.gpr rt) } [.gpr rd] .ok)) ∧
    (s.calls .EX r →
      let k := r.a.toNat % 64
      exec (.dsll rd rt sa) s = .next (s.exResult r (BitVec.ofNat 64 (r.b.toNat * 2 ^ sa.toNat))) ∧
      exec (.dsrl rd rt sa) s = .next (s.exResult r (BitVec.ofNat 64 (r.b.toNat / 2 ^ sa.toNat))) ∧
      exec (.dsra rd rt sa) s = .next (s.exResult r (BitVec.ofInt 64 (r.b.toInt / 2 ^ sa.toNat))) ∧
      exec (.dsllv rd rt rs) s = .next (s.exResult r (BitVec.ofNat 64 (r.b.toNat * 2 ^ k))) ∧
      exec (.dsrlv rd rt rs) s = .next (s.exResult r (BitVec.ofNat 64 (r.b.toNat / 2 ^ k))) ∧
      exec (.dsrav rd rt rs) s = .next (s.exResult r (BitVec.ofInt 64 (r.b.toInt / 2 ^ k))))

/-- The conditional moves between GPRs (R316, R317): the destination is reserved whatever the condition, written at WB only when
the condition held, and released in either case. -/
def Obligations.ConditionalMoves : Prop :=
  ∀ (s : State) (r : InFlight) (rd rs rt : RegNum),
    (s.calls .ID r →
      exec (.movz rd rs rt) s = .next (s.afterID r { a := some (.gpr rs), b := some (.gpr rt) } [.gpr rd] .ok) ∧
      exec (.movn rd rs rt) s = .next (s.afterID r { a := some (.gpr rs), b := some (.gpr rt) } [.gpr rd] .ok)) ∧
    (s.calls .EX r →
      exec (.movz rd rs rt) s = .next (s.exMoveResult r (decide (r.b = 0))) ∧
      exec (.movn rd rs rt) s = .next (s.exMoveResult r (decide (r.b ≠ 0)))) ∧
    (s.calls .WB r → ∀ i ∈ [Instr.movz rd rs rt, .movn rd rs rt], ∃ t, exec i s = .next t ∧
      (∀ q, t.readReg q = if r.writeEnable = true ∧ q ∈ r.dests ∧ q ≠ .gpr 0 then
        (if q = .hi then r.resultHi else r.result) else s.readReg q) ∧
      ∀ q, t.rc q = if q = .gpr 0 then 0 else s.rc q - r.dests.count q)

/-- The multiplies and the moves from HI and LO (R341 to R344, R349, R350). -/
def Obligations.MultiplyAndHiLo : Prop :=
  ∀ (s : State) (r : InFlight) (rd rs rt : RegNum),
    (s.calls .ID r →
      exec (.dmult rs rt) s = .next (s.afterID r { a := some (.gpr rs), b := some (.gpr rt) } [.hi, .lo] .ok) ∧
      exec (.dmultu rs rt) s = .next (s.afterID r { a := some (.gpr rs), b := some (.gpr rt) } [.hi, .lo] .ok) ∧
      exec (.mult rs rt) s = .next (s.afterID r { a := some (.gpr rs), b := some (.gpr rt) } [.hi, .lo] .ok) ∧
      exec (.multu rs rt) s = .next (s.afterID r { a := some (.gpr rs), b := some (.gpr rt) } [.hi, .lo] .ok) ∧
      exec (.mfhi rd) s = .next (s.afterID r { a := some .hi } [.gpr rd] .ok) ∧
      exec (.mflo rd) s = .next (s.afterID r { a := some .lo } [.gpr rd] .ok)) ∧
    (s.calls .EX r →
      (∃ hi lo : Word, exec (.dmult rs rt) s = .next (s.exHiLoResult r hi lo) ∧
        hi.toInt * 2 ^ 64 + lo.toNat = r.a.toInt * r.b.toInt) ∧
      (∃ hi lo : Word, exec (.dmultu rs rt) s = .next (s.exHiLoResult r hi lo) ∧
        hi.toNat * 2 ^ 64 + lo.toNat = r.a.toNat * r.b.toNat) ∧
      (∃ hi lo : BitVec 32, exec (.mult rs rt) s =
          .next (s.exHiLoResult r (hi.signExtend 64) (lo.signExtend 64)) ∧
        hi.toInt * 2 ^ 32 + lo.toNat = (r.a.setWidth 32).toInt * (r.b.setWidth 32).toInt) ∧
      (∃ hi lo : BitVec 32, exec (.multu rs rt) s =
          .next (s.exHiLoResult r (hi.signExtend 64) (lo.signExtend 64)) ∧
        hi.toNat * 2 ^ 32 + lo.toNat = (r.a.setWidth 32).toNat * (r.b.setWidth 32).toNat) ∧
      exec (.mfhi rd) s = .next (s.exResult r r.a) ∧
      exec (.mflo rd) s = .next (s.exResult r r.a))

/-- The divides (R345 to R348, R351): DivideByZero for a zero divisor, which for the word forms is a zero low word; otherwise the
quotient truncated toward zero in LO and the remainder in HI, the most negative number over -1 giving itself and 0. -/
def Obligations.Divides : Prop :=
  ∀ (s : State) (r : InFlight) (rs rt : RegNum),
    (s.calls .ID r →
      exec (.ddiv rs rt) s = .next (s.afterID r { a := some (.gpr rs), b := some (.gpr rt) } [.hi, .lo] .ok) ∧
      exec (.ddivu rs rt) s = .next (s.afterID r { a := some (.gpr rs), b := some (.gpr rt) } [.hi, .lo] .ok) ∧
      exec (.div rs rt) s = .next (s.afterID r { a := some (.gpr rs), b := some (.gpr rt) } [.hi, .lo] .ok) ∧
      exec (.divu rs rt) s = .next (s.afterID r { a := some (.gpr rs), b := some (.gpr rt) } [.hi, .lo] .ok)) ∧
    (s.calls .EX r →
      let a32 := r.a.setWidth 32
      let b32 := r.b.setWidth 32
      (r.b = 0 → exec (.ddiv rs rt) s = .next (s.answers (.fault .divideByZero)) ∧
        exec (.ddivu rs rt) s = .next (s.answers (.fault .divideByZero))) ∧
      (b32 = 0 → exec (.div rs rt) s = .next (s.answers (.fault .divideByZero)) ∧
        exec (.divu rs rt) s = .next (s.answers (.fault .divideByZero))) ∧
      (r.b ≠ 0 → ¬(r.a.toInt = -(2 ^ 63) ∧ r.b.toInt = -1) → ∃ hi lo : Word,
        exec (.ddiv rs rt) s = .next (s.exHiLoResult r hi lo) ∧
        lo.toInt * r.b.toInt + hi.toInt = r.a.toInt ∧ |hi.toInt| < |r.b.toInt| ∧ 0 ≤ hi.toInt * r.a.toInt) ∧
      (r.a.toInt = -(2 ^ 63) → r.b.toInt = -1 →
        exec (.ddiv rs rt) s = .next (s.exHiLoResult r 0 0x8000000000000000)) ∧
      (r.b ≠ 0 → exec (.ddivu rs rt) s =
        .next (s.exHiLoResult r (BitVec.ofNat 64 (r.a.toNat % r.b.toNat)) (BitVec.ofNat 64 (r.a.toNat / r.b.toNat)))) ∧
      (b32 ≠ 0 → ¬(a32.toInt = -(2 ^ 31) ∧ b32.toInt = -1) → ∃ hi lo : BitVec 32,
        exec (.div rs rt) s = .next (s.exHiLoResult r (hi.signExtend 64) (lo.signExtend 64)) ∧
        lo.toInt * b32.toInt + hi.toInt = a32.toInt ∧ |hi.toInt| < |b32.toInt| ∧ 0 ≤ hi.toInt * a32.toInt) ∧
      (a32.toInt = -(2 ^ 31) → b32.toInt = -1 →
        exec (.div rs rt) s = .next (s.exHiLoResult r 0 0xFFFFFFFF80000000)) ∧
      (b32 ≠ 0 → exec (.divu rs rt) s =
        .next (s.exHiLoResult r ((BitVec.ofNat 32 (a32.toNat % b32.toNat)).signExtend 64)
          ((BitVec.ofNat 32 (a32.toNat / b32.toNat)).signExtend 64))))

/-! ## Loads and stores (45_loadstore, 20_memory) -/

/-- The loads (R370, R372 to R378, R383, R384): ID reads the base, EX forms the effective address, MEM of an aligned access in range
latches the extended value, traces the access and changes nothing else. -/
def Obligations.Loads : Prop :=
  ∀ (s : State) (r : InFlight) (rt base : RegNum) (off : BitVec 16),
    let gprLoads := [Instr.lb rt off base, .lbu rt off base, .lh rt off base, .lhu rt off base, .lw rt off base,
      .lwu rt off base, .ld rt off base]
    let fprLoads := [Instr.lwc1 rt off base, .ldc1 rt off base]
    let v := fun n : Nat => s.mem.load s.cfg.byteOrder r.ea.toNat n
    (s.calls .ID r →
      (∀ i ∈ gprLoads, exec i s = .next (s.afterID r { a := some (.gpr base) } [.gpr rt] .ok)) ∧
      ∀ i ∈ fprLoads, exec i s = .next (s.afterID r { a := some (.gpr base) } [.fpr rt] .ok)) ∧
    (s.calls .EX r → ∀ i ∈ gprLoads ++ fprLoads,
      exec i s = .next (s.exAddressResult r (r.a + off.signExtend 64))) ∧
    (s.calls .MEM r →
      (s.accessible r.ea 1 →
        exec (.lb rt off base) s = .next (s.memLoaded r 1 (((v 1).setWidth 8).signExtend 64)) ∧
        exec (.lbu rt off base) s = .next (s.memLoaded r 1 (((v 1).setWidth 8).setWidth 64))) ∧
      (s.accessible r.ea 2 →
        exec (.lh rt off base) s = .next (s.memLoaded r 2 (((v 2).setWidth 16).signExtend 64)) ∧
        exec (.lhu rt off base) s = .next (s.memLoaded r 2 (((v 2).setWidth 16).setWidth 64))) ∧
      (s.accessible r.ea 4 →
        exec (.lw rt off base) s = .next (s.memLoaded r 4 (((v 4).setWidth 32).signExtend 64)) ∧
        exec (.lwu rt off base) s = .next (s.memLoaded r 4 (((v 4).setWidth 32).setWidth 64)) ∧
        exec (.lwc1 rt off base) s = .next (s.memLoaded r 4 (((v 4).setWidth 32).signExtend 64))) ∧
      (s.accessible r.ea 8 →
        exec (.ld rt off base) s = .next (s.memLoaded r 8 (v 8)) ∧
        exec (.ldc1 rt off base) s = .next (s.memLoaded r 8 (v 8))))

/-- The stores (R371, R379 to R382, R385, R386): ID reads the base and the value, EX forms the effective address, MEM of an aligned
access in range writes the low bytes of the value at it, traces the access and changes nothing else: every byte outside
those stored reads as before. No load or store changes the FCSR. -/
def Obligations.Stores : Prop :=
  ∀ (s : State) (r : InFlight) (rt base : RegNum) (off : BitVec 16),
    let gprStores := [(Instr.sb rt off base, 1), (.sh rt off base, 2), (.sw rt off base, 4), (.sd rt off base, 8)]
    let fprStores := [(Instr.swc1 rt off base, 4), (.sdc1 rt off base, 8)]
    (s.calls .ID r →
      (∀ p ∈ gprStores, exec p.1 s = .next (s.afterID r { a := some (.gpr base), b := some (.gpr rt) } [] .ok)) ∧
      ∀ p ∈ fprStores, exec p.1 s = .next (s.afterID r { a := some (.gpr base), b := some (.fpr rt) } [] .ok)) ∧
    (s.calls .EX r → ∀ p ∈ gprStores ++ fprStores,
      exec p.1 s = .next (s.exAddressResult r (r.a + off.signExtend 64))) ∧
    (s.calls .MEM r → ∀ p ∈ gprStores ++ fprStores, s.accessible r.ea p.2 → ∃ m,
      exec p.1 s = .next (s.memStored r p.2 m) ∧
      (Memory.wf s.mem → ∀ x, m.byteAt s.cfg.byteOrder x =
        if r.ea.toNat ≤ x ∧ x < r.ea.toNat + p.2 then
          (match s.cfg.byteOrder with
          | .big => r.b.extractLsb' (8 * (r.ea.toNat + p.2 - 1 - x)) 8
          | .little => r.b.extractLsb' (8 * (x - r.ea.toNat)) 8)
        else s.byteAt x) ∧
      (Memory.wf s.mem → Memory.wf m)) ∧
    (∀ (i : Instr) (t : State), i.access? ≠ none → exec i s = .next t → t.fcsr = s.fcsr)

/-- Access faults of every load and store (R87, R88, R507): MemoryAlignment for a misaligned address whether or not it is in range,
AddressFault for an aligned one out of range, and an access that faults does nothing else. -/
def Obligations.AccessFaults : Prop :=
  ∀ (s : State) (r : InFlight) (i : Instr) (n : Nat), s.calls .MEM r → i.access? = some n →
    (r.ea.toNat % n ≠ 0 → exec i s = .next (s.answers (.fault (.memoryAlignment r.ea n)))) ∧
    (r.ea.toNat % n = 0 → s.cfg.memBytes < r.ea.toNat + n →
      exec i s = .next (s.answers (.fault (.addressFault r.ea n)))) ∧
    (s.accessible r.ea n → ∃ t, exec i s = .next t ∧ t.outcome = .ok ∧
      t.trace = s.trace ++ [.dataAccess r.ea n])

/-- Where the bytes of a cell lie (R82) and what MemRead returns of it (R84): an aligned access of n bytes reads the n bytes of the
enclosing cell that the byte order puts at its address. A doubleword is the cell under either order (R86). -/
def Obligations.MemoryCells : Prop :=
  ∀ (m : Memory) (a : Nat), let k := a % 8
    m.byteAt .big a = (m.cell (a - k)).extractLsb' (56 - 8 * k) 8 ∧
    m.byteAt .little a = (m.cell (a - k)).extractLsb' (8 * k) 8 ∧
    (∀ n, n = 1 ∨ n = 2 ∨ n = 4 ∨ n = 8 → a % n = 0 →
      (m.load .big a n).toNat = (m.cell (a - k)).toNat / 2 ^ (64 - 8 * k - 8 * n) % 2 ^ (8 * n) ∧
      (m.load .little a n).toNat = (m.cell (a - k)).toNat / 2 ^ (8 * k) % 2 ^ (8 * n)) ∧
    (∀ order, (m.load order a 1).toNat = (m.byteAt order a).toNat ∧ (a % 8 = 0 → m.load order a 8 = m.cell a))

/-- What MemWrite does (R85, R86): the bits of the cell that a read of the same bytes returns become the value, every other bit of
that cell and every other cell stays. A doubleword sets the cell under either byte order. -/
def Obligations.StoreReplacesItsBits : Prop :=
  ∀ (m : Memory) (order : ByteOrder) (a n : Nat) (v : Word), Memory.wf m → n = 1 ∨ n = 2 ∨ n = 4 ∨ n = 8 →
    a % n = 0 →
    let k := a % 8
    let low := match order with
      | .big => 64 - 8 * k - 8 * n
      | .little => 8 * k
    (∀ j, j < 64 → ((m.store order a n v).cell (a - k)).getLsbD j =
      if low ≤ j ∧ j < low + 8 * n then v.getLsbD (j - low) else (m.cell (a - k)).getLsbD j) ∧
    (∀ c, c % 8 = 0 → c ≠ a - k → (m.store order a n v).cell c = m.cell c) ∧
    (n = 8 → m.store order a n v = m.setCell a v ∧ (m.store order a n v).cell a = v) ∧
    Memory.wf (m.store order a n v)

/-! ## Branches and jumps (46_control, 42_branch_predictor) -/

/-- The conditional branches (R410 to R416, R418, R419). -/
def Obligations.ConditionalBranches : Prop :=
  ∀ (s : State) (r : InFlight) (rs rt : RegNum) (cc : CcNum) (off : BitVec 16),
    (s.calls .ID r →
      exec (.beq rs rt off) s = .next (s.afterID r { a := some (.gpr rs), b := some (.gpr rt) } [] .ok) ∧
      exec (.bne rs rt off) s = .next (s.afterID r { a := some (.gpr rs), b := some (.gpr rt) } [] .ok) ∧
      exec (.beqz rs off) s = .next (s.afterID r { a := some (.gpr rs) } [] .ok) ∧
      exec (.bnez rs off) s = .next (s.afterID r { a := some (.gpr rs) } [] .ok) ∧
      exec (.bgez rs off) s = .next (s.afterID r { a := some (.gpr rs) } [] .ok) ∧
      exec (.bc1f cc off) s = .next (s.afterID r {} [] .ok) ∧
      exec (.bc1t cc off) s = .next (s.afterID r {} [] .ok)) ∧
    (s.calls .EX r →
      exec (.beq rs rt off) s = .next (branchResult s r .beq off (decide (r.a = r.b))) ∧
      exec (.bne rs rt off) s = .next (branchResult s r .bne off (decide (r.a ≠ r.b))) ∧
      exec (.beqz rs off) s = .next (branchResult s r .beqz off (decide (r.a = 0))) ∧
      exec (.bnez rs off) s = .next (branchResult s r .bnez off (decide (r.a ≠ 0))) ∧
      exec (.bgez rs off) s = .next (branchResult s r .bgez off (decide (0 ≤ r.a.toInt))) ∧
      exec (.bc1f cc off) s = .next (branchResult s r .bc1f off (decide (fcc s.readFcsr cc = false))) ∧
      exec (.bc1t cc off) s = .next (branchResult s r .bc1t off (decide (fcc s.readFcsr cc = true))))

/-- The prediction at IF (R262, R263, R265): with prediction enabled a branch is predicted taken when its counter is at least 2, and
PC becomes its target; otherwise it is predicted not taken and PC stays. PT is not written. -/
def Obligations.BranchPrediction : Prop :=
  ∀ (s : State) (r : InFlight) (i : Instr) (op : BranchOp) (off : BitVec 16), s.calls .IF r →
    i.branch? = some (op, off) →
    (s.cfg.predictionEnabled = true → 2 ≤ (s.pt.read (predIndex s.cfg op r.fetchedPC)).toNat →
      exec i s = .next { s with
        slotIF := some { r with predictedTaken := true }
        pc := r.fetchedPC + 4 + BitVec.ofInt 64 (off.toInt * 4), outcome := .ok }) ∧
    (s.cfg.predictionEnabled = false ∨ (s.pt.read (predIndex s.cfg op r.fetchedPC)).toNat < 2 →
      exec i s = .next { s with slotIF := some { r with predictedTaken := false }, outcome := .ok }) ∧
    (s.cfg.predIndex = .pcBits → predIndex s.cfg op r.fetchedPC = r.fetchedPC.toNat / 4 % 4096)

/-- The jumps (R421 to R425): each answers Jump with its target; JAL and JALR latch the link. -/
def Obligations.Jumps : Prop :=
  ∀ (s : State) (r : InFlight) (rd rs : RegNum) (target : BitVec 26),
    let next := r.fetchedPC + 4
    let region := BitVec.ofNat 64 (next.toNat / 2 ^ 28 * 2 ^ 28 + target.toNat * 4)
    (s.calls .ID r →
      exec (.j target) s = .next (s.afterID r {} [] .ok) ∧
      exec (.jr rs) s = .next (s.afterID r { a := some (.gpr rs) } [] .ok) ∧
      exec (.jal target) s = .next (s.afterID r {} [.gpr 31] .ok) ∧
      exec (.jalr rd rs) s = .next (s.afterID r { a := some (.gpr rs) } [.gpr rd] .ok)) ∧
    (s.calls .EX r →
      exec (.j target) s = .next (s.answers (.jump region)) ∧
      exec (.jr rs) s = .next (s.answers (.jump r.a)) ∧
      exec (.jal target) s = .next ((s.exResult r next).answers (.jump region)) ∧
      exec (.jalr rd rs) s = .next ((s.exResult r next).answers (.jump r.a)))

/-! ## Floating point (40_fpu, 47_fp_instructions) -/

/-- EX of the FP arithmetic instructions (R164, R165, R441 to R444): the cause bits are cleared, then the function of the latched
operands runs; its FCSR is kept, its value latched, or its fault answered with no value latched. `signal` sets the cause
bit, then faults or sets the flag and delivers the default. -/
def Obligations.FpArithmeticStage : Prop :=
  (∀ (s : State) (r : InFlight) (fd fs ft : RegNum),
    let instrs := [(Instr.addD fd fs ft, fpAdd), (.subD fd fs ft, fpSub), (.mulD fd fs ft, fpMul), (.divD fd fs ft, fpDiv)]
    (s.calls .ID r → ∀ p ∈ instrs,
      exec p.1 s = .next (s.afterID r { a := some (.fpr fs), b := some (.fpr ft) } [.fpr fd] .ok)) ∧
    (s.calls .EX r → ∀ p ∈ instrs, ∃ f0 : BitVec 32,
      (∀ n, f0.getLsbD n = if 12 ≤ n ∧ n ≤ 16 then false else s.readFcsr.getLsbD n) ∧
      (∀ v, (p.2 f0 r.a r.b).value = .ok v →
        exec p.1 s = .next { s.exResult r v with fcsr := (p.2 f0 r.a r.b).fcsr }) ∧
      (∀ k, (p.2 f0 r.a r.b).value = .error k →
        exec p.1 s = .next { s.answers (.fault k) with fcsr := (p.2 f0 r.a r.b).fcsr }))) ∧
  (∀ (f : BitVec 32) (d : Word), ∀ p ∈ [(FpClass.V, 4, FaultKind.fpInvalidOperation), (.Z, 3, .fpDivideByZero),
      (.O, 2, .fpOverflow), (.U, 1, .fpUnderflow)],
    (f.getLsbD (7 + p.2.1) = true → (signal f p.1 d).value = .error p.2.2 ∧
      ∀ n, n < 32 → (signal f p.1 d).fcsr.getLsbD n = (decide (n = 12 + p.2.1) || f.getLsbD n)) ∧
    (f.getLsbD (7 + p.2.1) = false → (signal f p.1 d).value = .ok d ∧
      ∀ n, n < 32 → (signal f p.1 d).fcsr.getLsbD n =
        (decide (n = 12 + p.2.1) || decide (n = 2 + p.2.1) || f.getLsbD n)))

/-- The NaN step and the special-value tables (R163, R166 to R169). -/
def Obligations.FpSpecialValues : Prop :=
  ∀ (f : BitVec 32) (a b : Word),
    (isNaN a = true ∨ isNaN b = true →
      fpAdd f a b = signal f .V 0x7FF7FFFFFFFFFFFF ∧ fpSub f a b = signal f .V 0x7FF7FFFFFFFFFFFF ∧
      fpMul f a b = signal f .V 0x7FF7FFFFFFFFFFFF ∧ fpDiv f a b = signal f .V 0x7FF7FFFFFFFFFFFF) ∧
    (isInf a = true → isInf b = true →
      (fpSign a ≠ fpSign b → fpAdd f a b = signal f .V fpQNAN ∧ fpSub f a b = ⟨f, .ok a⟩) ∧
      (fpSign a = fpSign b → fpAdd f a b = ⟨f, .ok a⟩ ∧ fpSub f a b = signal f .V fpQNAN) ∧
      fpMul f a b = ⟨f, .ok (infOf (fpSign a ^^ fpSign b))⟩ ∧ fpDiv f a b = signal f .V fpQNAN) ∧
    (isInf a = true → isFinite b = true →
      fpAdd f a b = ⟨f, .ok a⟩ ∧ fpSub f a b = ⟨f, .ok a⟩ ∧
      fpMul f a b = (if isZero b = true then signal f .V fpQNAN else ⟨f, .ok (infOf (fpSign a ^^ fpSign b))⟩) ∧
      fpDiv f a b = ⟨f, .ok (infOf (fpSign a ^^ fpSign b))⟩) ∧
    (isFinite a = true → isInf b = true →
      fpAdd f a b = ⟨f, .ok b⟩ ∧ fpSub f a b = ⟨f, .ok (infOf (!fpSign b))⟩ ∧
      fpMul f a b = (if isZero a = true then signal f .V fpQNAN else ⟨f, .ok (infOf (fpSign a ^^ fpSign b))⟩) ∧
      fpDiv f a b = ⟨f, .ok (zeroOf (fpSign a ^^ fpSign b))⟩) ∧
    (isFinite a = true → isFinite b = true →
      (isZero a = true ∨ isZero b = true → fpMul f a b = ⟨f, .ok (zeroOf (fpSign a ^^ fpSign b))⟩) ∧
      (isZero a = true → isZero b = true → fpDiv f a b = signal f .V fpQNAN) ∧
      (isZero a = false → isZero b = true → fpDiv f a b = signal f .Z (infOf (fpSign a ^^ fpSign b))) ∧
      (isZero a = true → isZero b = false → fpDiv f a b = ⟨f, .ok (zeroOf (fpSign a ^^ fpSign b))⟩))

/-- Finite sums and differences (R170 to R174): the exact real result, narrowed: rounded to nearest-even in range, overflow and
underflow tested on the exact result, and the sign of a zero. -/
def Obligations.FpAddSubNarrowExactResult : Prop :=
  ∀ (f : BitVec 32) (a b : Word), isFinite a = true → isFinite b = true →
    narrowsTo f (isZero a && isZero b && fpSign a && fpSign b) (fpVal a + fpVal b) (fpAdd f a b) ∧
    narrowsTo f (isZero a && isZero b && fpSign a && !fpSign b) (fpVal a - fpVal b) (fpSub f a b)

/-- Finite products and quotients (R170, R171, R175, R176), as for sums. -/
def Obligations.FpMulDivNarrowExactResult : Prop :=
  ∀ (f : BitVec 32) (a b : Word), isFinite a = true → isFinite b = true →
    narrowsTo f (fpSign a ^^ fpSign b) (fpVal a * fpVal b) (fpMul f a b) ∧
    (isZero b = false → narrowsTo f (fpSign a ^^ fpSign b) (fpVal a / fpVal b) (fpDiv f a b))

/-- The laws of R178 and R177: sums and products of finite operands commute with their FCSR effect; a finite non-zero value narrows
to its own pattern; an operation sets at most one cause bit, and never Inexact. -/
def Obligations.FpArithmeticLaws : Prop :=
  (∀ (f : BitVec 32) (a b : Word), isFinite a = true → isFinite b = true →
    fpAdd f a b = fpAdd f b a ∧ fpMul f a b = fpMul f b a) ∧
  (∀ (f : BitVec 32) (p : Word) (z : Bool), isFinite p = true → isZero p = false →
    narrow f z (fpSign p) (fpMag p) 1 = ⟨f, .ok p⟩) ∧
  (∀ (f : BitVec 32) (a b : Word), ∀ g ∈ [fpAdd, fpSub, fpMul, fpDiv],
    ∃ c ∈ [none, some 13, some 14, some 15, some 16], ∀ n, 12 ≤ n → n ≤ 16 →
      (g (clearCause f) a b).fcsr.getLsbD n = decide (c = some n)) ∧
  (∀ (f : BitVec 32) (a b : Word), ∀ g ∈ [fpAdd, fpSub, fpMul, fpDiv],
    (g f a b).fcsr.getLsbD 2 = f.getLsbD 2 ∧ (g f a b).fcsr.getLsbD 12 = f.getLsbD 12)

/-- The conversions as instructions (R180, R445 to R448): they read FCSR.RM and the sentinels in EX and change nothing but the
result. -/
def Obligations.ConversionStage : Prop :=
  ∀ (s : State) (r : InFlight) (fd fs : RegNum),
    (s.calls .ID r → ∀ i ∈ [Instr.cvtLD fd fs, .cvtWD fd fs, .cvtDL fd fs, .cvtDW fd fs],
      exec i s = .next (s.afterID r { a := some (.fpr fs) } [.fpr fd] .ok)) ∧
    (s.calls .EX r → ∀ rm : RoundMode, s.readFcsr.toNat % 4 =
        (match rm with | .RN => 0 | .RZ => 1 | .RP => 2 | .RM => 3) →
      exec (.cvtLD fd fs) s = .next (s.exResult r (cvtDoubleToLong rm s.cfg.cvtSentinelL r.a)) ∧
      exec (.cvtWD fd fs) s =
        .next (s.exResult r ((cvtDoubleToWord rm s.cfg.cvtSentinelW r.a).signExtend 64)) ∧
      exec (.cvtDL fd fs) s = .next (s.exResult r (cvtLongToDouble rm r.a)) ∧
      exec (.cvtDW fd fs) s = .next (s.exResult r (cvtWordToDouble (r.a.setWidth 32))))

/-- The values conversions give (R181 to R185): the sentinel for NaN, infinity and a rounded value out of range, otherwise the
integer the mode gives; and the binary64 value the mode gives of an integer, exact for every 32-bit integer. -/
def Obligations.ConversionValues : Prop :=
  (∀ (rm : RoundMode) (sl : BitVec 64) (sw : BitVec 32) (p : Word),
    (isFinite p = false → cvtDoubleToLong rm sl p = sl ∧ cvtDoubleToWord rm sw p = sw) ∧
    (isFinite p = true → ∃ n : Int, roundsToInt rm (fpVal p) n ∧
      cvtDoubleToLong rm sl p = (if -(2 ^ 63) ≤ n ∧ n ≤ 2 ^ 63 - 1 then BitVec.ofInt 64 n else sl) ∧
      cvtDoubleToWord rm sw p = (if -(2 ^ 31) ≤ n ∧ n ≤ 2 ^ 31 - 1 then BitVec.ofInt 32 n else sw))) ∧
  (∀ (rm : RoundMode) (v : Word), roundsToFp rm v.toInt (cvtLongToDouble rm v) ∧
    (|v.toInt| ≤ 2 ^ 53 → fpVal (cvtLongToDouble rm v) = v.toInt) ∧
    (v = 0 → cvtLongToDouble rm v = 0)) ∧
  (∀ v : BitVec 32, isFinite (cvtWordToDouble v) = true ∧ fpVal (cvtWordToDouble v) = v.toInt ∧
    (v = 0 → cvtWordToDouble v = 0))

/-- The FP moves and the transfers between GPRs and FPRs (R449 to R453, R457 to R460). -/
def Obligations.FpMovesAndTransfers : Prop :=
  ∀ (s : State) (r : InFlight) (fd fs rt : RegNum) (cc : CcNum),
    (s.calls .ID r →
      exec (.movD fd fs) s = .next (s.afterID r { a := some (.fpr fs) } [.fpr fd] .ok) ∧
      exec (.movzD fd fs rt) s = .next (s.afterID r { a := some (.fpr fs), c := some (.gpr rt) } [.fpr fd] .ok) ∧
      exec (.movnD fd fs rt) s = .next (s.afterID r { a := some (.fpr fs), c := some (.gpr rt) } [.fpr fd] .ok) ∧
      exec (.movfD fd fs cc) s = .next (s.afterID r { a := some (.fpr fs) } [.fpr fd] .ok) ∧
      exec (.movtD fd fs cc) s = .next (s.afterID r { a := some (.fpr fs) } [.fpr fd] .ok) ∧
      exec (.mtc1 rt fs) s = .next (s.afterID r { c := some (.gpr rt) } [.fpr fs] .ok) ∧
      exec (.dmtc1 rt fs) s = .next (s.afterID r { c := some (.gpr rt) } [.fpr fs] .ok) ∧
      exec (.mfc1 rt fs) s = .next (s.afterID r { a := some (.fpr fs) } [.gpr rt] .ok) ∧
      exec (.dmfc1 rt fs) s = .next (s.afterID r { a := some (.fpr fs) } [.gpr rt] .ok)) ∧
    (s.calls .EX r →
      exec (.movD fd fs) s = .next (s.exResult r r.a) ∧
      exec (.movzD fd fs rt) s = .next (s.exMoveResult r (decide (r.c = 0))) ∧
      exec (.movnD fd fs rt) s = .next (s.exMoveResult r (decide (r.c ≠ 0))) ∧
      exec (.movfD fd fs cc) s = .next (s.exMoveResult r (decide (fcc s.readFcsr cc = false))) ∧
      exec (.movtD fd fs cc) s = .next (s.exMoveResult r (decide (fcc s.readFcsr cc = true))) ∧
      exec (.mtc1 rt fs) s = .next (s.exResult r ((r.c.setWidth 32).signExtend 64)) ∧
      exec (.dmtc1 rt fs) s = .next (s.exResult r r.c) ∧
      exec (.mfc1 rt fs) s = .next (s.exResult r ((r.a.setWidth 32).signExtend 64)) ∧
      exec (.dmfc1 rt fs) s = .next (s.exResult r r.a))

/-- The compares (R454 to R456): FCC[cc] takes the condition and every other FCSR bit stays; the conditions compare real values,
infinities as the extended reals, +0 equal to -0, and a NaN unordered. -/
def Obligations.Compares : Prop :=
  (∀ (s : State) (r : InFlight) (cc : CcNum) (fs ft : RegNum),
    let instrs := [(Instr.cEqD cc fs ft, fpEq), (.cLtD cc fs ft, fpLt), (.cUnD cc fs ft, fun a b => isNaN a || isNaN b)]
    (s.calls .ID r → ∀ p ∈ instrs,
      exec p.1 s = .next (s.afterID r { a := some (.fpr fs), b := some (.fpr ft) } [] .ok)) ∧
    (s.calls .EX r → ∀ p ∈ instrs, ∃ f : BitVec 32, exec p.1 s = .next { s with fcsr := f, outcome := .ok } ∧
      fcc f cc = p.2 r.a r.b ∧ (∀ cc', cc' ≠ cc → fcc f cc' = fcc s.readFcsr cc') ∧
      ∀ n, n < 23 ∨ n = 24 → f.getLsbD n = s.readFcsr.getLsbD n)) ∧
  (∀ a b : Word,
    (isNaN a = true ∨ isNaN b = true → fpEq a b = false ∧ fpLt a b = false) ∧
    (isFinite a = true → isFinite b = true →
      fpEq a b = decide (fpVal a = fpVal b) ∧ fpLt a b = decide (fpVal a < fpVal b)) ∧
    (isInf a = true → isInf b = true →
      fpEq a b = decide (fpSign a = fpSign b) ∧ fpLt a b = (fpSign a && !fpSign b)) ∧
    (isInf a = true → isFinite b = true → fpEq a b = false ∧ fpLt a b = fpSign a) ∧
    (isFinite a = true → isInf b = true → fpEq a b = false ∧ fpLt a b = !fpSign b))

/-- FCSR control (R42, R470, R471): CTC1 writes every bit of the FCSR but the hardwired ones, which read 0, and never faults; CFC1
gives the FCSR as read in EX, sign-extended. -/
def Obligations.FcsrControl : Prop :=
  ∀ (s : State) (r : InFlight) (rt : RegNum),
    (s.calls .ID r →
      exec (.ctc1 rt) s = .next (s.afterID r { c := some (.gpr rt) } [] .ok) ∧
      exec (.cfc1 rt) s = .next (s.afterID r {} [.gpr rt] .ok)) ∧
    (s.calls .EX r →
      (∃ f : BitVec 32, exec (.ctc1 rt) s = .next { s with fcsr := f, outcome := .ok } ∧
        ∀ n, f.getLsbD n = if n = 24 ∨ (17 ≤ n ∧ n ≤ 22) ∨ 32 ≤ n then false else r.c.getLsbD n) ∧
      exec (.cfc1 rt) s = .next (s.exResult r (s.readFcsr.signExtend 64))) ∧
    (∀ n, n = 24 ∨ (17 ≤ n ∧ n ≤ 22) → s.readFcsr.getLsbD n = false)

/-! ## HALT, NOP, BREAK and the stages that do nothing (48_misc) -/

/-- HALT, NOP and BREAK (R490, R491, R493), and the stages in which an instruction does nothing of its own (R210, R213): IF of all
but the predicted branches and HALT, MEM of all but the loads and stores. The last clause, `exec` on an empty slot answering ok
and changing nothing else, is the model's choice and no rule (DESIGN CHOICE, log entry 12): R227 has no stage function run on a
bubble. -/
def Obligations.QuietStages : Prop :=
  (∀ (s : State) (r : InFlight) (code : BitVec 20),
    (s.calls .IF r → exec .halt s = .next { s with haltFetched := true, outcome := .ok } ∧
      exec .nop s = .next (s.answers .ok) ∧ exec (.brk code) s = .next (s.answers .ok)) ∧
    (s.calls .ID r → exec .halt s = .next (s.afterID r {} [] .ok) ∧ exec .nop s = .next (s.afterID r {} [] .ok) ∧
      exec (.brk code) s = .next (s.afterID r {} [] (.fault .breakpoint))) ∧
    (s.calls .EX r → exec .halt s = .next (s.answers .ok) ∧ exec .nop s = .next (s.answers .ok)) ∧
    (s.calls .WB r → r.dests = [] → exec .halt s = .next (s.answers .ok) ∧ exec .nop s = .next (s.answers .ok))) ∧
  (∀ (i : Instr) (s : State) (r : InFlight),
    (s.calls .IF r → i.branch? = none → i ≠ .halt → exec i s = .next (s.answers .ok)) ∧
    (s.calls .MEM r → i.access? = none → exec i s = .next (s.answers .ok))) ∧
  (∀ (i : Instr) (s : State), s.slot s.phase = none → exec i s = .next (s.answers .ok))

/-! ## Reset and the host (70_reset_and_hazards, 60_exceptions) -/

/-- Reset (R560, R563, R564): every register, count, slot and counter at its reset value; the FCSR enables as configured and its
other bits 0; PT kept only where the host configured it to persist; configuration, instruction memory and the cells the
host loaded kept, every other cell of data memory 0. That a kept cell keeps its present value, which stores of the last run may
have changed, and not the value loaded, is the model's reading (DEDUCED, log entry 6). -/
def Obligations.ResetValues : Prop :=
  ∀ s : State, let t := s.resetRun
    (∀ q, t.readReg q = 0 ∧ t.rc q = 0) ∧ t.pc = 0 ∧ t.lastFetchedPC = 0 ∧
    (∀ n, t.readFcsr.getLsbD n = (decide (n = 11) && s.cfg.enablesReset.v || decide (n = 10) && s.cfg.enablesReset.z ||
      decide (n = 9) && s.cfg.enablesReset.o || decide (n = 8) && s.cfg.enablesReset.u ||
      decide (n = 7) && s.cfg.enablesReset.i)) ∧
    t.drained = true ∧
    (s.cfg.persistPredictor = true → t.pt = s.pt) ∧
    (s.cfg.persistPredictor = false → ∀ j, t.pt.read j = 1) ∧
    t.status = .running ∧ t.haltFetched = false ∧
    t.cycles = 0 ∧ t.retired = 0 ∧ t.rawStalls = 0 ∧ t.mispredictions = 0 ∧ t.trace = [] ∧
    t.cfg = s.cfg ∧ t.im = s.im ∧
    (∀ c, c % 8 = 0 → t.cell c = if c ∈ s.hostLoaded then s.cell c else 0)

/-- The host port (R97, R540, R566): while `status` is Running the host can do nothing to the state; otherwise it can configure within
the bounds of R8, load a program of at least one word (R93), as words or as a byte image (R94), and load an aligned cell within
data memory, which then reads as loaded, also after the reset that follows; and only a reset makes the CORE step again. A byte
order set anew leaves every cell's word, and a new MEM_BYTES the cells below it. These clauses are the model's choices and no
rule of the spec: that a reset too is refused while Running (DESIGN CHOICE, log entry 8); that the host port refuses a
configuration outside R8 and a program of no words (DEDUCED, log entry 20); that while not Running every configuration and
load is taken, in any order and any number of times (DESIGN CHOICE, log entry 26); that a loaded cell keeps its present value
over reset (DEDUCED, log entry 6); that data memory stays within a smaller MEM_BYTES (DESIGN CHOICE, log entry 25). -/
def Obligations.HostActsOutsideRuns : Prop :=
  (∀ (s : State) (cmd : HostCommand), s.status = .running → s.host cmd = none) ∧
  (∀ s : State, s.status ≠ .running →
    (∀ cfg : CoreConfig, cfg.wf → ∃ t, s.host (.configure cfg) = some t ∧
      t = { s with cfg := cfg, mem := t.mem, hostLoaded := t.hostLoaded } ∧
      (∀ c, c % 8 = 0 → c + 8 ≤ cfg.memBytes → t.cell c = s.cell c ∧ (c ∈ t.hostLoaded ↔ c ∈ s.hostLoaded)) ∧
      (s.memInv → t.memInv)) ∧
    (∀ cfg : CoreConfig, ¬cfg.wf → s.host (.configure cfg) = none) ∧
    s.host (.loadProgram []) = none ∧
    (∀ ws, ws ≠ [] → s.host (.loadProgram ws) = some { s with im := ws }) ∧
    (∀ ws, ws ≠ [] → s.host (.loadImage (ws.flatMap bytesOfWord)) = some { s with im := ws }) ∧
    (∀ (a : Nat) (v : Word), s.memInv → a % 8 = 0 → a + 8 ≤ s.cfg.memBytes → ∃ t, s.host (.loadCell a v) = some t ∧
      t = { s with mem := t.mem, hostLoaded := t.hostLoaded } ∧ t.cell a = v ∧ t.resetRun.cell a = v ∧
      (∀ c, c % 8 = 0 → c ≠ a → t.cell c = s.cell c) ∧ t.memInv) ∧
    s.host .reset = some s.resetRun ∧
    (∀ cmd t, cmd ≠ .reset → s.host cmd = some t → t.status = s.status ∧ ∀ u, step t ≠ .next u))
end

