-- ==== Sys2Proof/Laws/Flags.lean ====
section
/-! SUPPORT. The FCSR bit by bit (R42): what each operation on it reads and writes, and what an FP arithmetic function may do to it. -/

namespace Sys2Proof.Machine

theorem getLsbD_putBit (v : BitVec 32) (k : Nat) (b : Bool) {n : Nat} (hn : n < 32) :
    (putBit v k b).getLsbD n = if n = k then b else v.getLsbD n := by
  have hone : (1#32 <<< k).getLsbD n = decide (n = k) := by
    rw [BitVec.getLsbD_shiftLeft, BitVec.getLsbD_one]
    by_cases h : n = k
    · subst h; simp [hn]
    · by_cases h2 : n < k <;> simp [h, h2, hn]; omega
  unfold putBit
  cases b
  · simp only [Bool.false_eq_true, if_false, BitVec.getLsbD_and, BitVec.getLsbD_not, hone, hn, decide_true, Bool.true_and]
    by_cases h : n = k <;> simp [h]
  · simp only [if_true, BitVec.getLsbD_or, hone]
    by_cases h : n = k <;> simp [h]

/-- The bits that exist (R42). -/
theorem getLsbD_fcsrMask (n : Nat) : fcsrMask.getLsbD n = decide (n < 32 ∧ ¬(n = 24 ∨ (17 ≤ n ∧ n ≤ 22))) := by
  by_cases h : n < 32
  · interval_cases n <;> decide
  · simp [h, BitVec.getLsbD_of_ge fcsrMask n (by omega)]

/-- The cause bits V, Z, O, U and I (R42). -/
theorem getLsbD_causeMask (n : Nat) : causeMask.getLsbD n = decide (12 ≤ n ∧ n ≤ 16) := by
  by_cases h : n < 32
  · interval_cases n <;> decide
  · simp [BitVec.getLsbD_of_ge causeMask n (by omega)]; omega

theorem getLsbD_clearCause (f : BitVec 32) (n : Nat) :
    (clearCause f).getLsbD n = if 12 ≤ n ∧ n ≤ 16 then false else f.getLsbD n := by
  rw [clearCause, BitVec.getLsbD_and, BitVec.getLsbD_not, getLsbD_causeMask]
  by_cases h : n < 32
  · by_cases h2 : 12 ≤ n ∧ n ≤ 16 <;> simp [h, h2]
  · simp [BitVec.getLsbD_of_ge f n (by omega)]

/-- A read of the FCSR: the hardwired bits read 0 (R42). -/
theorem State.getLsbD_readFcsr (s : State) (n : Nat) :
    s.readFcsr.getLsbD n = if n = 24 ∨ (17 ≤ n ∧ n ≤ 22) then false else s.fcsr.getLsbD n := by
  rw [State.readFcsr, BitVec.getLsbD_and, getLsbD_fcsrMask]
  by_cases h : n < 32
  · by_cases h2 : n = 24 ∨ (17 ≤ n ∧ n ≤ 22) <;> simp [h, h2]
  · simp [BitVec.getLsbD_of_ge s.fcsr n (by omega)]

/-- A write of the FCSR as it is then read: the hardwired bits are ignored (R42). -/
theorem State.getLsbD_readFcsr_writeFcsr (s : State) (v : BitVec 32) (n : Nat) :
    (s.writeFcsr v).readFcsr.getLsbD n = if n = 24 ∨ (17 ≤ n ∧ n ≤ 22) then false else v.getLsbD n := by
  rw [State.getLsbD_readFcsr, State.writeFcsr, BitVec.getLsbD_and, getLsbD_fcsrMask]
  by_cases h : n < 32
  · by_cases h2 : n = 24 ∨ (17 ≤ n ∧ n ≤ 22) <;> simp [h, h2]
  · simp [BitVec.getLsbD_of_ge v n (by omega)]

/-- A pattern with its hardwired bits 0 is stored as it is. -/
theorem fcsrMask_of_hardwired {v : BitVec 32} (h : ∀ n, n = 24 ∨ (17 ≤ n ∧ n ≤ 22) → v.getLsbD n = false) :
    v &&& fcsrMask = v := by
  apply BitVec.eq_of_getLsbD_eq
  intro n hn
  rw [BitVec.getLsbD_and, getLsbD_fcsrMask]
  by_cases h2 : n = 24 ∨ (17 ≤ n ∧ n ≤ 22)
  · rw [h n h2]; simp
  · simp [hn, h2]

/-- The FCC bits are distinct, exist, and lie above bit 22 (R42). -/
theorem fccBit_facts (cc : CcNum) : 23 ≤ fccBit cc ∧ fccBit cc < 32 ∧ fccBit cc ≠ 24 := by
  revert cc; decide

theorem fccBit_inj {c d : CcNum} (h : fccBit c = fccBit d) : c = d := by
  revert c d; decide

/-! ### The FP arithmetic functions and the FCSR -/

/-- What `signal` leaves in the FCSR (R165). -/
theorem getLsbD_signal (f : BitVec 32) (c : FpClass) (d : Word) {n : Nat} (hn : n < 32) :
    (signal f c d).fcsr.getLsbD n =
      (decide (n = causeBit c) || (decide (n = flagBit c) && !(c.fault.isSome && f.getLsbD (enableBit c))) ||
        f.getLsbD n) := by
  have he : enableBit c ≠ causeBit c := by simp [enableBit, causeBit]
  have hl : enableBit c < 32 := by cases c <;> decide
  unfold signal
  simp only [getLsbD_putBit _ _ _ hl, if_neg he]
  cases c <;> simp only [FpClass.fault, Option.isSome] <;>
    (cases hb : f.getLsbD (enableBit _) <;> simp only [getLsbD_putBit _ _ _ hn] <;> split <;> simp_all)

/-- An FP arithmetic function leaves the FCSR as it was, or signals one of V, Z, O and U (R165, R177). -/
inductive Signals (f : BitVec 32) (out : FpOut) : Prop
  | quiet (v : Word) (h : out = ⟨f, .ok v⟩)
  | raises (c : FpClass) (d : Word) (hc : c ≠ .I) (h : out = signal f c d)

theorem narrow_signals (f : BitVec 32) (z n : Bool) (x y : Nat) : Signals f (narrow f z n x y) := by
  unfold narrow
  split
  · exact .quiet _ rfl
  · split
    · exact .raises _ _ (by simp) rfl
    · split
      · exact .raises _ _ (by simp) rfl
      · exact .quiet _ rfl

theorem fpAdd_signals (f : BitVec 32) (a b : Word) : Signals f (fpAdd f a b) := by
  unfold fpAdd
  split
  · exact .raises _ _ (by simp) rfl
  · split
    · split
      · exact .quiet _ rfl
      · exact .raises _ _ (by simp) rfl
    · split
      · exact .quiet _ rfl
      · split
        · exact .quiet _ rfl
        · exact narrow_signals _ _ _ _ _

theorem fpSub_signals (f : BitVec 32) (a b : Word) : Signals f (fpSub f a b) := by
  unfold fpSub
  split
  · exact .raises _ _ (by simp) rfl
  · split
    · split
      · exact .raises _ _ (by simp) rfl
      · exact .quiet _ rfl
    · split
      · exact .quiet _ rfl
      · split
        · exact .quiet _ rfl
        · exact narrow_signals _ _ _ _ _

theorem fpMul_signals (f : BitVec 32) (a b : Word) : Signals f (fpMul f a b) := by
  unfold fpMul
  simp only
  split
  · exact .raises _ _ (by simp) rfl
  · split
    · exact .raises _ _ (by simp) rfl
    · split
      · exact .quiet _ rfl
      · split
        · exact .quiet _ rfl
        · exact narrow_signals _ _ _ _ _

theorem fpDiv_signals (f : BitVec 32) (a b : Word) : Signals f (fpDiv f a b) := by
  unfold fpDiv
  simp only
  split
  · exact .raises _ _ (by simp) rfl
  · split
    · exact .raises _ _ (by simp) rfl
    · split
      · exact .raises _ _ (by simp) rfl
      · split
        · exact .raises _ _ (by simp) rfl
        · split
          · exact .quiet _ rfl
          · split
            · exact .quiet _ rfl
            · split
              · exact .quiet _ rfl
              · exact narrow_signals _ _ _ _ _

/-- So its FCSR keeps every enable bit, the rounding mode, the FCC bits and the hardwired bits, and loses no flag or cause bit. -/
theorem Signals.keeps {f : BitVec 32} {out : FpOut} (h : Signals f out) {n : Nat} (hn : n < 32) :
    (f.getLsbD n = true → out.fcsr.getLsbD n = true) ∧
    (¬(3 ≤ n ∧ n ≤ 6) → ¬(13 ≤ n ∧ n ≤ 16) → out.fcsr.getLsbD n = f.getLsbD n) := by
  cases h with
  | quiet v h => subst h; exact ⟨id, fun _ _ => rfl⟩
  | raises c d hc h =>
    subst h
    rw [getLsbD_signal f c d hn]
    refine ⟨fun hf => by simp [hf], fun h1 h2 => ?_⟩
    have hcause : n ≠ causeBit c := by cases c <;> simp_all [causeBit, FpClass.index] <;> omega
    have hflag : n ≠ flagBit c := by cases c <;> simp_all [flagBit, FpClass.index] <;> omega
    simp [hcause, hflag]

end Sys2Proof.Machine
end

