-- ==== Sys2Proof/Laws/State.lean ====
section
/-! SUPPORT. One lemma for each field of State and each named update: what the update leaves, or the value it gives. -/

namespace Sys2Proof.Machine

/-- A fold of updates that each leave a view of the state leaves that view. -/
theorem foldl_view {α β : Type} (g : State → α) (f : State → β → State) (h : ∀ s x, g (f s x) = g s) (l : List β) :
    ∀ s, g (l.foldl f s) = g s := by
  induction l with
  | nil => intro s; rfl
  | cons x xs ih => intro s; rw [List.foldl_cons, ih, h]

/-! ### done -/

@[simp] theorem State.done_gpr (s : State) (o : StageOutcome) : (s.done o).gpr = s.gpr := rfl
@[simp] theorem State.done_fpr (s : State) (o : StageOutcome) : (s.done o).fpr = s.fpr := rfl
@[simp] theorem State.done_hi (s : State) (o : StageOutcome) : (s.done o).hi = s.hi := rfl
@[simp] theorem State.done_lo (s : State) (o : StageOutcome) : (s.done o).lo = s.lo := rfl
@[simp] theorem State.done_rcGpr (s : State) (o : StageOutcome) : (s.done o).rcGpr = s.rcGpr := rfl
@[simp] theorem State.done_rcFpr (s : State) (o : StageOutcome) : (s.done o).rcFpr = s.rcFpr := rfl
@[simp] theorem State.done_rcHi (s : State) (o : StageOutcome) : (s.done o).rcHi = s.rcHi := rfl
@[simp] theorem State.done_rcLo (s : State) (o : StageOutcome) : (s.done o).rcLo = s.rcLo := rfl
@[simp] theorem State.done_pc (s : State) (o : StageOutcome) : (s.done o).pc = s.pc := rfl
@[simp] theorem State.done_lastFetchedPC (s : State) (o : StageOutcome) : (s.done o).lastFetchedPC = s.lastFetchedPC := rfl
@[simp] theorem State.done_fcsr (s : State) (o : StageOutcome) : (s.done o).fcsr = s.fcsr := rfl
@[simp] theorem State.done_slotIF (s : State) (o : StageOutcome) : (s.done o).slotIF = s.slotIF := rfl
@[simp] theorem State.done_slotID (s : State) (o : StageOutcome) : (s.done o).slotID = s.slotID := rfl
@[simp] theorem State.done_slotEX (s : State) (o : StageOutcome) : (s.done o).slotEX = s.slotEX := rfl
@[simp] theorem State.done_slotMEM (s : State) (o : StageOutcome) : (s.done o).slotMEM = s.slotMEM := rfl
@[simp] theorem State.done_slotWB (s : State) (o : StageOutcome) : (s.done o).slotWB = s.slotWB := rfl
@[simp] theorem State.done_pt (s : State) (o : StageOutcome) : (s.done o).pt = s.pt := rfl
@[simp] theorem State.done_mem (s : State) (o : StageOutcome) : (s.done o).mem = s.mem := rfl
@[simp] theorem State.done_im (s : State) (o : StageOutcome) : (s.done o).im = s.im := rfl
@[simp] theorem State.done_hostLoaded (s : State) (o : StageOutcome) : (s.done o).hostLoaded = s.hostLoaded := rfl
@[simp] theorem State.done_cfg (s : State) (o : StageOutcome) : (s.done o).cfg = s.cfg := rfl
@[simp] theorem State.done_status (s : State) (o : StageOutcome) : (s.done o).status = s.status := rfl
@[simp] theorem State.done_haltFetched (s : State) (o : StageOutcome) : (s.done o).haltFetched = s.haltFetched := rfl
@[simp] theorem State.done_cycles (s : State) (o : StageOutcome) : (s.done o).cycles = s.cycles := rfl
@[simp] theorem State.done_retired (s : State) (o : StageOutcome) : (s.done o).retired = s.retired := rfl
@[simp] theorem State.done_rawStalls (s : State) (o : StageOutcome) : (s.done o).rawStalls = s.rawStalls := rfl
@[simp] theorem State.done_mispredictions (s : State) (o : StageOutcome) : (s.done o).mispredictions = s.mispredictions := rfl
@[simp] theorem State.done_trace (s : State) (o : StageOutcome) : (s.done o).trace = s.trace := rfl
@[simp] theorem State.done_phase (s : State) (o : StageOutcome) : (s.done o).phase = s.phase := rfl

@[simp] theorem State.done_outcome (s : State) (o : StageOutcome) : (s.done o).outcome = o := rfl

/-! ### enter -/

@[simp] theorem State.enter_gpr (s : State) (st : Stage) : (s.enter st).gpr = s.gpr := rfl
@[simp] theorem State.enter_fpr (s : State) (st : Stage) : (s.enter st).fpr = s.fpr := rfl
@[simp] theorem State.enter_hi (s : State) (st : Stage) : (s.enter st).hi = s.hi := rfl
@[simp] theorem State.enter_lo (s : State) (st : Stage) : (s.enter st).lo = s.lo := rfl
@[simp] theorem State.enter_rcGpr (s : State) (st : Stage) : (s.enter st).rcGpr = s.rcGpr := rfl
@[simp] theorem State.enter_rcFpr (s : State) (st : Stage) : (s.enter st).rcFpr = s.rcFpr := rfl
@[simp] theorem State.enter_rcHi (s : State) (st : Stage) : (s.enter st).rcHi = s.rcHi := rfl
@[simp] theorem State.enter_rcLo (s : State) (st : Stage) : (s.enter st).rcLo = s.rcLo := rfl
@[simp] theorem State.enter_pc (s : State) (st : Stage) : (s.enter st).pc = s.pc := rfl
@[simp] theorem State.enter_lastFetchedPC (s : State) (st : Stage) : (s.enter st).lastFetchedPC = s.lastFetchedPC := rfl
@[simp] theorem State.enter_fcsr (s : State) (st : Stage) : (s.enter st).fcsr = s.fcsr := rfl
@[simp] theorem State.enter_slotIF (s : State) (st : Stage) : (s.enter st).slotIF = s.slotIF := rfl
@[simp] theorem State.enter_slotID (s : State) (st : Stage) : (s.enter st).slotID = s.slotID := rfl
@[simp] theorem State.enter_slotEX (s : State) (st : Stage) : (s.enter st).slotEX = s.slotEX := rfl
@[simp] theorem State.enter_slotMEM (s : State) (st : Stage) : (s.enter st).slotMEM = s.slotMEM := rfl
@[simp] theorem State.enter_slotWB (s : State) (st : Stage) : (s.enter st).slotWB = s.slotWB := rfl
@[simp] theorem State.enter_pt (s : State) (st : Stage) : (s.enter st).pt = s.pt := rfl
@[simp] theorem State.enter_mem (s : State) (st : Stage) : (s.enter st).mem = s.mem := rfl
@[simp] theorem State.enter_im (s : State) (st : Stage) : (s.enter st).im = s.im := rfl
@[simp] theorem State.enter_hostLoaded (s : State) (st : Stage) : (s.enter st).hostLoaded = s.hostLoaded := rfl
@[simp] theorem State.enter_cfg (s : State) (st : Stage) : (s.enter st).cfg = s.cfg := rfl
@[simp] theorem State.enter_status (s : State) (st : Stage) : (s.enter st).status = s.status := rfl
@[simp] theorem State.enter_haltFetched (s : State) (st : Stage) : (s.enter st).haltFetched = s.haltFetched := rfl
@[simp] theorem State.enter_cycles (s : State) (st : Stage) : (s.enter st).cycles = s.cycles := rfl
@[simp] theorem State.enter_retired (s : State) (st : Stage) : (s.enter st).retired = s.retired := rfl
@[simp] theorem State.enter_rawStalls (s : State) (st : Stage) : (s.enter st).rawStalls = s.rawStalls := rfl
@[simp] theorem State.enter_mispredictions (s : State) (st : Stage) : (s.enter st).mispredictions = s.mispredictions := rfl
@[simp] theorem State.enter_trace (s : State) (st : Stage) : (s.enter st).trace = s.trace := rfl

@[simp] theorem State.enter_phase (s : State) (st : Stage) : (s.enter st).phase = st := rfl
@[simp] theorem State.enter_outcome (s : State) (st : Stage) : (s.enter st).outcome = .ok := rfl

/-! ### setSlot -/

@[simp] theorem State.setSlot_gpr (s : State) (st : Stage) (o : Option InFlight) : (s.setSlot st o).gpr = s.gpr := by cases st <;> rfl
@[simp] theorem State.setSlot_fpr (s : State) (st : Stage) (o : Option InFlight) : (s.setSlot st o).fpr = s.fpr := by cases st <;> rfl
@[simp] theorem State.setSlot_hi (s : State) (st : Stage) (o : Option InFlight) : (s.setSlot st o).hi = s.hi := by cases st <;> rfl
@[simp] theorem State.setSlot_lo (s : State) (st : Stage) (o : Option InFlight) : (s.setSlot st o).lo = s.lo := by cases st <;> rfl
@[simp] theorem State.setSlot_rcGpr (s : State) (st : Stage) (o : Option InFlight) : (s.setSlot st o).rcGpr = s.rcGpr := by cases st <;> rfl
@[simp] theorem State.setSlot_rcFpr (s : State) (st : Stage) (o : Option InFlight) : (s.setSlot st o).rcFpr = s.rcFpr := by cases st <;> rfl
@[simp] theorem State.setSlot_rcHi (s : State) (st : Stage) (o : Option InFlight) : (s.setSlot st o).rcHi = s.rcHi := by cases st <;> rfl
@[simp] theorem State.setSlot_rcLo (s : State) (st : Stage) (o : Option InFlight) : (s.setSlot st o).rcLo = s.rcLo := by cases st <;> rfl
@[simp] theorem State.setSlot_pc (s : State) (st : Stage) (o : Option InFlight) : (s.setSlot st o).pc = s.pc := by cases st <;> rfl
@[simp] theorem State.setSlot_lastFetchedPC (s : State) (st : Stage) (o : Option InFlight) : (s.setSlot st o).lastFetchedPC = s.lastFetchedPC := by cases st <;> rfl
@[simp] theorem State.setSlot_fcsr (s : State) (st : Stage) (o : Option InFlight) : (s.setSlot st o).fcsr = s.fcsr := by cases st <;> rfl
@[simp] theorem State.setSlot_pt (s : State) (st : Stage) (o : Option InFlight) : (s.setSlot st o).pt = s.pt := by cases st <;> rfl
@[simp] theorem State.setSlot_mem (s : State) (st : Stage) (o : Option InFlight) : (s.setSlot st o).mem = s.mem := by cases st <;> rfl
@[simp] theorem State.setSlot_im (s : State) (st : Stage) (o : Option InFlight) : (s.setSlot st o).im = s.im := by cases st <;> rfl
@[simp] theorem State.setSlot_hostLoaded (s : State) (st : Stage) (o : Option InFlight) : (s.setSlot st o).hostLoaded = s.hostLoaded := by cases st <;> rfl
@[simp] theorem State.setSlot_cfg (s : State) (st : Stage) (o : Option InFlight) : (s.setSlot st o).cfg = s.cfg := by cases st <;> rfl
@[simp] theorem State.setSlot_status (s : State) (st : Stage) (o : Option InFlight) : (s.setSlot st o).status = s.status := by cases st <;> rfl
@[simp] theorem State.setSlot_haltFetched (s : State) (st : Stage) (o : Option InFlight) : (s.setSlot st o).haltFetched = s.haltFetched := by cases st <;> rfl
@[simp] theorem State.setSlot_cycles (s : State) (st : Stage) (o : Option InFlight) : (s.setSlot st o).cycles = s.cycles := by cases st <;> rfl
@[simp] theorem State.setSlot_retired (s : State) (st : Stage) (o : Option InFlight) : (s.setSlot st o).retired = s.retired := by cases st <;> rfl
@[simp] theorem State.setSlot_rawStalls (s : State) (st : Stage) (o : Option InFlight) : (s.setSlot st o).rawStalls = s.rawStalls := by cases st <;> rfl
@[simp] theorem State.setSlot_mispredictions (s : State) (st : Stage) (o : Option InFlight) : (s.setSlot st o).mispredictions = s.mispredictions := by cases st <;> rfl
@[simp] theorem State.setSlot_trace (s : State) (st : Stage) (o : Option InFlight) : (s.setSlot st o).trace = s.trace := by cases st <;> rfl
@[simp] theorem State.setSlot_phase (s : State) (st : Stage) (o : Option InFlight) : (s.setSlot st o).phase = s.phase := by cases st <;> rfl
@[simp] theorem State.setSlot_outcome (s : State) (st : Stage) (o : Option InFlight) : (s.setSlot st o).outcome = s.outcome := by cases st <;> rfl

@[simp] theorem State.setSlot_IF_slotIF (s : State) (o : Option InFlight) : (s.setSlot .IF o).slotIF = o := rfl
@[simp] theorem State.setSlot_IF_slotID (s : State) (o : Option InFlight) : (s.setSlot .IF o).slotID = s.slotID := rfl
@[simp] theorem State.setSlot_IF_slotEX (s : State) (o : Option InFlight) : (s.setSlot .IF o).slotEX = s.slotEX := rfl
@[simp] theorem State.setSlot_IF_slotMEM (s : State) (o : Option InFlight) : (s.setSlot .IF o).slotMEM = s.slotMEM := rfl
@[simp] theorem State.setSlot_IF_slotWB (s : State) (o : Option InFlight) : (s.setSlot .IF o).slotWB = s.slotWB := rfl
@[simp] theorem State.setSlot_ID_slotIF (s : State) (o : Option InFlight) : (s.setSlot .ID o).slotIF = s.slotIF := rfl
@[simp] theorem State.setSlot_ID_slotID (s : State) (o : Option InFlight) : (s.setSlot .ID o).slotID = o := rfl
@[simp] theorem State.setSlot_ID_slotEX (s : State) (o : Option InFlight) : (s.setSlot .ID o).slotEX = s.slotEX := rfl
@[simp] theorem State.setSlot_ID_slotMEM (s : State) (o : Option InFlight) : (s.setSlot .ID o).slotMEM = s.slotMEM := rfl
@[simp] theorem State.setSlot_ID_slotWB (s : State) (o : Option InFlight) : (s.setSlot .ID o).slotWB = s.slotWB := rfl
@[simp] theorem State.setSlot_EX_slotIF (s : State) (o : Option InFlight) : (s.setSlot .EX o).slotIF = s.slotIF := rfl
@[simp] theorem State.setSlot_EX_slotID (s : State) (o : Option InFlight) : (s.setSlot .EX o).slotID = s.slotID := rfl
@[simp] theorem State.setSlot_EX_slotEX (s : State) (o : Option InFlight) : (s.setSlot .EX o).slotEX = o := rfl
@[simp] theorem State.setSlot_EX_slotMEM (s : State) (o : Option InFlight) : (s.setSlot .EX o).slotMEM = s.slotMEM := rfl
@[simp] theorem State.setSlot_EX_slotWB (s : State) (o : Option InFlight) : (s.setSlot .EX o).slotWB = s.slotWB := rfl
@[simp] theorem State.setSlot_MEM_slotIF (s : State) (o : Option InFlight) : (s.setSlot .MEM o).slotIF = s.slotIF := rfl
@[simp] theorem State.setSlot_MEM_slotID (s : State) (o : Option InFlight) : (s.setSlot .MEM o).slotID = s.slotID := rfl
@[simp] theorem State.setSlot_MEM_slotEX (s : State) (o : Option InFlight) : (s.setSlot .MEM o).slotEX = s.slotEX := rfl
@[simp] theorem State.setSlot_MEM_slotMEM (s : State) (o : Option InFlight) : (s.setSlot .MEM o).slotMEM = o := rfl
@[simp] theorem State.setSlot_MEM_slotWB (s : State) (o : Option InFlight) : (s.setSlot .MEM o).slotWB = s.slotWB := rfl
@[simp] theorem State.setSlot_WB_slotIF (s : State) (o : Option InFlight) : (s.setSlot .WB o).slotIF = s.slotIF := rfl
@[simp] theorem State.setSlot_WB_slotID (s : State) (o : Option InFlight) : (s.setSlot .WB o).slotID = s.slotID := rfl
@[simp] theorem State.setSlot_WB_slotEX (s : State) (o : Option InFlight) : (s.setSlot .WB o).slotEX = s.slotEX := rfl
@[simp] theorem State.setSlot_WB_slotMEM (s : State) (o : Option InFlight) : (s.setSlot .WB o).slotMEM = s.slotMEM := rfl
@[simp] theorem State.setSlot_WB_slotWB (s : State) (o : Option InFlight) : (s.setSlot .WB o).slotWB = o := rfl

/-! ### writeReg and setRc -/

/-- `writeReg` changes a view of the state only through the register files, HI and LO. -/
theorem State.writeReg_view {α : Type} {s : State} {r : RegId} {v : Word} (g : State → α)
    (hg : ∀ x, g { s with gpr := x } = g s) (hf : ∀ x, g { s with fpr := x } = g s)
    (hh : ∀ x, g { s with hi := x } = g s) (hl : ∀ x, g { s with lo := x } = g s) :
    g (s.writeReg r v) = g s := by
  cases r with
  | gpr n => simp only [State.writeReg]; split; rfl; exact hg _
  | fpr n => exact hf _
  | hi => exact hh _
  | lo => exact hl _

/-- `setRc` changes a view of the state only through the reservation counts. -/
theorem State.setRc_view {α : Type} {s : State} {r : RegId} {k : Nat} (g : State → α)
    (hg : ∀ x, g { s with rcGpr := x } = g s) (hf : ∀ x, g { s with rcFpr := x } = g s)
    (hh : ∀ x, g { s with rcHi := x } = g s) (hl : ∀ x, g { s with rcLo := x } = g s) :
    g (s.setRc r k) = g s := by
  cases r with
  | gpr n => simp only [State.setRc]; split; rfl; exact hg _
  | fpr n => exact hf _
  | hi => exact hh _
  | lo => exact hl _

@[simp] theorem State.writeReg_rcGpr (s : State) (r : RegId) (v : Word) : (s.writeReg r v).rcGpr = s.rcGpr := State.writeReg_view State.rcGpr (fun _ => rfl) (fun _ => rfl) (fun _ => rfl) (fun _ => rfl)
@[simp] theorem State.writeReg_rcFpr (s : State) (r : RegId) (v : Word) : (s.writeReg r v).rcFpr = s.rcFpr := State.writeReg_view State.rcFpr (fun _ => rfl) (fun _ => rfl) (fun _ => rfl) (fun _ => rfl)
@[simp] theorem State.writeReg_rcHi (s : State) (r : RegId) (v : Word) : (s.writeReg r v).rcHi = s.rcHi := State.writeReg_view State.rcHi (fun _ => rfl) (fun _ => rfl) (fun _ => rfl) (fun _ => rfl)
@[simp] theorem State.writeReg_rcLo (s : State) (r : RegId) (v : Word) : (s.writeReg r v).rcLo = s.rcLo := State.writeReg_view State.rcLo (fun _ => rfl) (fun _ => rfl) (fun _ => rfl) (fun _ => rfl)
@[simp] theorem State.writeReg_pc (s : State) (r : RegId) (v : Word) : (s.writeReg r v).pc = s.pc := State.writeReg_view State.pc (fun _ => rfl) (fun _ => rfl) (fun _ => rfl) (fun _ => rfl)
@[simp] theorem State.writeReg_lastFetchedPC (s : State) (r : RegId) (v : Word) : (s.writeReg r v).lastFetchedPC = s.lastFetchedPC := State.writeReg_view State.lastFetchedPC (fun _ => rfl) (fun _ => rfl) (fun _ => rfl) (fun _ => rfl)
@[simp] theorem State.writeReg_fcsr (s : State) (r : RegId) (v : Word) : (s.writeReg r v).fcsr = s.fcsr := State.writeReg_view State.fcsr (fun _ => rfl) (fun _ => rfl) (fun _ => rfl) (fun _ => rfl)
@[simp] theorem State.writeReg_slotIF (s : State) (r : RegId) (v : Word) : (s.writeReg r v).slotIF = s.slotIF := State.writeReg_view State.slotIF (fun _ => rfl) (fun _ => rfl) (fun _ => rfl) (fun _ => rfl)
@[simp] theorem State.writeReg_slotID (s : State) (r : RegId) (v : Word) : (s.writeReg r v).slotID = s.slotID := State.writeReg_view State.slotID (fun _ => rfl) (fun _ => rfl) (fun _ => rfl) (fun _ => rfl)
@[simp] theorem State.writeReg_slotEX (s : State) (r : RegId) (v : Word) : (s.writeReg r v).slotEX = s.slotEX := State.writeReg_view State.slotEX (fun _ => rfl) (fun _ => rfl) (fun _ => rfl) (fun _ => rfl)
@[simp] theorem State.writeReg_slotMEM (s : State) (r : RegId) (v : Word) : (s.writeReg r v).slotMEM = s.slotMEM := State.writeReg_view State.slotMEM (fun _ => rfl) (fun _ => rfl) (fun _ => rfl) (fun _ => rfl)
@[simp] theorem State.writeReg_slotWB (s : State) (r : RegId) (v : Word) : (s.writeReg r v).slotWB = s.slotWB := State.writeReg_view State.slotWB (fun _ => rfl) (fun _ => rfl) (fun _ => rfl) (fun _ => rfl)
@[simp] theorem State.writeReg_pt (s : State) (r : RegId) (v : Word) : (s.writeReg r v).pt = s.pt := State.writeReg_view State.pt (fun _ => rfl) (fun _ => rfl) (fun _ => rfl) (fun _ => rfl)
@[simp] theorem State.writeReg_mem (s : State) (r : RegId) (v : Word) : (s.writeReg r v).mem = s.mem := State.writeReg_view State.mem (fun _ => rfl) (fun _ => rfl) (fun _ => rfl) (fun _ => rfl)
@[simp] theorem State.writeReg_im (s : State) (r : RegId) (v : Word) : (s.writeReg r v).im = s.im := State.writeReg_view State.im (fun _ => rfl) (fun _ => rfl) (fun _ => rfl) (fun _ => rfl)
@[simp] theorem State.writeReg_hostLoaded (s : State) (r : RegId) (v : Word) : (s.writeReg r v).hostLoaded = s.hostLoaded := State.writeReg_view State.hostLoaded (fun _ => rfl) (fun _ => rfl) (fun _ => rfl) (fun _ => rfl)
@[simp] theorem State.writeReg_cfg (s : State) (r : RegId) (v : Word) : (s.writeReg r v).cfg = s.cfg := State.writeReg_view State.cfg (fun _ => rfl) (fun _ => rfl) (fun _ => rfl) (fun _ => rfl)
@[simp] theorem State.writeReg_status (s : State) (r : RegId) (v : Word) : (s.writeReg r v).status = s.status := State.writeReg_view State.status (fun _ => rfl) (fun _ => rfl) (fun _ => rfl) (fun _ => rfl)
@[simp] theorem State.writeReg_haltFetched (s : State) (r : RegId) (v : Word) : (s.writeReg r v).haltFetched = s.haltFetched := State.writeReg_view State.haltFetched (fun _ => rfl) (fun _ => rfl) (fun _ => rfl) (fun _ => rfl)
@[simp] theorem State.writeReg_cycles (s : State) (r : RegId) (v : Word) : (s.writeReg r v).cycles = s.cycles := State.writeReg_view State.cycles (fun _ => rfl) (fun _ => rfl) (fun _ => rfl) (fun _ => rfl)
@[simp] theorem State.writeReg_retired (s : State) (r : RegId) (v : Word) : (s.writeReg r v).retired = s.retired := State.writeReg_view State.retired (fun _ => rfl) (fun _ => rfl) (fun _ => rfl) (fun _ => rfl)
@[simp] theorem State.writeReg_rawStalls (s : State) (r : RegId) (v : Word) : (s.writeReg r v).rawStalls = s.rawStalls := State.writeReg_view State.rawStalls (fun _ => rfl) (fun _ => rfl) (fun _ => rfl) (fun _ => rfl)
@[simp] theorem State.writeReg_mispredictions (s : State) (r : RegId) (v : Word) : (s.writeReg r v).mispredictions = s.mispredictions := State.writeReg_view State.mispredictions (fun _ => rfl) (fun _ => rfl) (fun _ => rfl) (fun _ => rfl)
@[simp] theorem State.writeReg_trace (s : State) (r : RegId) (v : Word) : (s.writeReg r v).trace = s.trace := State.writeReg_view State.trace (fun _ => rfl) (fun _ => rfl) (fun _ => rfl) (fun _ => rfl)
@[simp] theorem State.writeReg_phase (s : State) (r : RegId) (v : Word) : (s.writeReg r v).phase = s.phase := State.writeReg_view State.phase (fun _ => rfl) (fun _ => rfl) (fun _ => rfl) (fun _ => rfl)
@[simp] theorem State.writeReg_outcome (s : State) (r : RegId) (v : Word) : (s.writeReg r v).outcome = s.outcome := State.writeReg_view State.outcome (fun _ => rfl) (fun _ => rfl) (fun _ => rfl) (fun _ => rfl)

@[simp] theorem State.setRc_gpr (s : State) (r : RegId) (k : Nat) : (s.setRc r k).gpr = s.gpr :=
  State.setRc_view State.gpr (fun _ => rfl) (fun _ => rfl) (fun _ => rfl) (fun _ => rfl)
@[simp] theorem State.setRc_fpr (s : State) (r : RegId) (k : Nat) : (s.setRc r k).fpr = s.fpr :=
  State.setRc_view State.fpr (fun _ => rfl) (fun _ => rfl) (fun _ => rfl) (fun _ => rfl)
@[simp] theorem State.setRc_hi (s : State) (r : RegId) (k : Nat) : (s.setRc r k).hi = s.hi :=
  State.setRc_view State.hi (fun _ => rfl) (fun _ => rfl) (fun _ => rfl) (fun _ => rfl)
@[simp] theorem State.setRc_lo (s : State) (r : RegId) (k : Nat) : (s.setRc r k).lo = s.lo :=
  State.setRc_view State.lo (fun _ => rfl) (fun _ => rfl) (fun _ => rfl) (fun _ => rfl)
@[simp] theorem State.setRc_pc (s : State) (r : RegId) (k : Nat) : (s.setRc r k).pc = s.pc :=
  State.setRc_view State.pc (fun _ => rfl) (fun _ => rfl) (fun _ => rfl) (fun _ => rfl)
@[simp] theorem State.setRc_lastFetchedPC (s : State) (r : RegId) (k : Nat) : (s.setRc r k).lastFetchedPC = s.lastFetchedPC :=
  State.setRc_view State.lastFetchedPC (fun _ => rfl) (fun _ => rfl) (fun _ => rfl) (fun _ => rfl)
@[simp] theorem State.setRc_fcsr (s : State) (r : RegId) (k : Nat) : (s.setRc r k).fcsr = s.fcsr :=
  State.setRc_view State.fcsr (fun _ => rfl) (fun _ => rfl) (fun _ => rfl) (fun _ => rfl)
@[simp] theorem State.setRc_slotIF (s : State) (r : RegId) (k : Nat) : (s.setRc r k).slotIF = s.slotIF :=
  State.setRc_view State.slotIF (fun _ => rfl) (fun _ => rfl) (fun _ => rfl) (fun _ => rfl)
@[simp] theorem State.setRc_slotID (s : State) (r : RegId) (k : Nat) : (s.setRc r k).slotID = s.slotID :=
  State.setRc_view State.slotID (fun _ => rfl) (fun _ => rfl) (fun _ => rfl) (fun _ => rfl)
@[simp] theorem State.setRc_slotEX (s : State) (r : RegId) (k : Nat) : (s.setRc r k).slotEX = s.slotEX :=
  State.setRc_view State.slotEX (fun _ => rfl) (fun _ => rfl) (fun _ => rfl) (fun _ => rfl)
@[simp] theorem State.setRc_slotMEM (s : State) (r : RegId) (k : Nat) : (s.setRc r k).slotMEM = s.slotMEM :=
  State.setRc_view State.slotMEM (fun _ => rfl) (fun _ => rfl) (fun _ => rfl) (fun _ => rfl)
@[simp] theorem State.setRc_slotWB (s : State) (r : RegId) (k : Nat) : (s.setRc r k).slotWB = s.slotWB :=
  State.setRc_view State.slotWB (fun _ => rfl) (fun _ => rfl) (fun _ => rfl) (fun _ => rfl)
@[simp] theorem State.setRc_pt (s : State) (r : RegId) (k : Nat) : (s.setRc r k).pt = s.pt :=
  State.setRc_view State.pt (fun _ => rfl) (fun _ => rfl) (fun _ => rfl) (fun _ => rfl)
@[simp] theorem State.setRc_mem (s : State) (r : RegId) (k : Nat) : (s.setRc r k).mem = s.mem :=
  State.setRc_view State.mem (fun _ => rfl) (fun _ => rfl) (fun _ => rfl) (fun _ => rfl)
@[simp] theorem State.setRc_im (s : State) (r : RegId) (k : Nat) : (s.setRc r k).im = s.im :=
  State.setRc_view State.im (fun _ => rfl) (fun _ => rfl) (fun _ => rfl) (fun _ => rfl)
@[simp] theorem State.setRc_hostLoaded (s : State) (r : RegId) (k : Nat) : (s.setRc r k).hostLoaded = s.hostLoaded :=
  State.setRc_view State.hostLoaded (fun _ => rfl) (fun _ => rfl) (fun _ => rfl) (fun _ => rfl)
@[simp] theorem State.setRc_cfg (s : State) (r : RegId) (k : Nat) : (s.setRc r k).cfg = s.cfg :=
  State.setRc_view State.cfg (fun _ => rfl) (fun _ => rfl) (fun _ => rfl) (fun _ => rfl)
@[simp] theorem State.setRc_status (s : State) (r : RegId) (k : Nat) : (s.setRc r k).status = s.status :=
  State.setRc_view State.status (fun _ => rfl) (fun _ => rfl) (fun _ => rfl) (fun _ => rfl)
@[simp] theorem State.setRc_haltFetched (s : State) (r : RegId) (k : Nat) : (s.setRc r k).haltFetched = s.haltFetched :=
  State.setRc_view State.haltFetched (fun _ => rfl) (fun _ => rfl) (fun _ => rfl) (fun _ => rfl)
@[simp] theorem State.setRc_cycles (s : State) (r : RegId) (k : Nat) : (s.setRc r k).cycles = s.cycles :=
  State.setRc_view State.cycles (fun _ => rfl) (fun _ => rfl) (fun _ => rfl) (fun _ => rfl)
@[simp] theorem State.setRc_retired (s : State) (r : RegId) (k : Nat) : (s.setRc r k).retired = s.retired :=
  State.setRc_view State.retired (fun _ => rfl) (fun _ => rfl) (fun _ => rfl) (fun _ => rfl)
@[simp] theorem State.setRc_rawStalls (s : State) (r : RegId) (k : Nat) : (s.setRc r k).rawStalls = s.rawStalls :=
  State.setRc_view State.rawStalls (fun _ => rfl) (fun _ => rfl) (fun _ => rfl) (fun _ => rfl)
@[simp] theorem State.setRc_mispredictions (s : State) (r : RegId) (k : Nat) : (s.setRc r k).mispredictions = s.mispredictions :=
  State.setRc_view State.mispredictions (fun _ => rfl) (fun _ => rfl) (fun _ => rfl) (fun _ => rfl)
@[simp] theorem State.setRc_trace (s : State) (r : RegId) (k : Nat) : (s.setRc r k).trace = s.trace :=
  State.setRc_view State.trace (fun _ => rfl) (fun _ => rfl) (fun _ => rfl) (fun _ => rfl)
@[simp] theorem State.setRc_phase (s : State) (r : RegId) (k : Nat) : (s.setRc r k).phase = s.phase :=
  State.setRc_view State.phase (fun _ => rfl) (fun _ => rfl) (fun _ => rfl) (fun _ => rfl)
@[simp] theorem State.setRc_outcome (s : State) (r : RegId) (k : Nat) : (s.setRc r k).outcome = s.outcome :=
  State.setRc_view State.outcome (fun _ => rfl) (fun _ => rfl) (fun _ => rfl) (fun _ => rfl)

/-! ### acquireAll, releaseAll, writeDests -/

@[simp] theorem State.acquireAll_gpr (s : State) (rs : List RegId) : (s.acquireAll rs).gpr = s.gpr :=
  foldl_view State.gpr _ (fun s r => s.setRc_gpr r _) rs s
@[simp] theorem State.acquireAll_fpr (s : State) (rs : List RegId) : (s.acquireAll rs).fpr = s.fpr :=
  foldl_view State.fpr _ (fun s r => s.setRc_fpr r _) rs s
@[simp] theorem State.acquireAll_hi (s : State) (rs : List RegId) : (s.acquireAll rs).hi = s.hi :=
  foldl_view State.hi _ (fun s r => s.setRc_hi r _) rs s
@[simp] theorem State.acquireAll_lo (s : State) (rs : List RegId) : (s.acquireAll rs).lo = s.lo :=
  foldl_view State.lo _ (fun s r => s.setRc_lo r _) rs s
@[simp] theorem State.acquireAll_pc (s : State) (rs : List RegId) : (s.acquireAll rs).pc = s.pc :=
  foldl_view State.pc _ (fun s r => s.setRc_pc r _) rs s
@[simp] theorem State.acquireAll_lastFetchedPC (s : State) (rs : List RegId) : (s.acquireAll rs).lastFetchedPC = s.lastFetchedPC :=
  foldl_view State.lastFetchedPC _ (fun s r => s.setRc_lastFetchedPC r _) rs s
@[simp] theorem State.acquireAll_fcsr (s : State) (rs : List RegId) : (s.acquireAll rs).fcsr = s.fcsr :=
  foldl_view State.fcsr _ (fun s r => s.setRc_fcsr r _) rs s
@[simp] theorem State.acquireAll_slotIF (s : State) (rs : List RegId) : (s.acquireAll rs).slotIF = s.slotIF :=
  foldl_view State.slotIF _ (fun s r => s.setRc_slotIF r _) rs s
@[simp] theorem State.acquireAll_slotID (s : State) (rs : List RegId) : (s.acquireAll rs).slotID = s.slotID :=
  foldl_view State.slotID _ (fun s r => s.setRc_slotID r _) rs s
@[simp] theorem State.acquireAll_slotEX (s : State) (rs : List RegId) : (s.acquireAll rs).slotEX = s.slotEX :=
  foldl_view State.slotEX _ (fun s r => s.setRc_slotEX r _) rs s
@[simp] theorem State.acquireAll_slotMEM (s : State) (rs : List RegId) : (s.acquireAll rs).slotMEM = s.slotMEM :=
  foldl_view State.slotMEM _ (fun s r => s.setRc_slotMEM r _) rs s
@[simp] theorem State.acquireAll_slotWB (s : State) (rs : List RegId) : (s.acquireAll rs).slotWB = s.slotWB :=
  foldl_view State.slotWB _ (fun s r => s.setRc_slotWB r _) rs s
@[simp] theorem State.acquireAll_pt (s : State) (rs : List RegId) : (s.acquireAll rs).pt = s.pt :=
  foldl_view State.pt _ (fun s r => s.setRc_pt r _) rs s
@[simp] theorem State.acquireAll_mem (s : State) (rs : List RegId) : (s.acquireAll rs).mem = s.mem :=
  foldl_view State.mem _ (fun s r => s.setRc_mem r _) rs s
@[simp] theorem State.acquireAll_im (s : State) (rs : List RegId) : (s.acquireAll rs).im = s.im :=
  foldl_view State.im _ (fun s r => s.setRc_im r _) rs s
@[simp] theorem State.acquireAll_hostLoaded (s : State) (rs : List RegId) : (s.acquireAll rs).hostLoaded = s.hostLoaded :=
  foldl_view State.hostLoaded _ (fun s r => s.setRc_hostLoaded r _) rs s
@[simp] theorem State.acquireAll_cfg (s : State) (rs : List RegId) : (s.acquireAll rs).cfg = s.cfg :=
  foldl_view State.cfg _ (fun s r => s.setRc_cfg r _) rs s
@[simp] theorem State.acquireAll_status (s : State) (rs : List RegId) : (s.acquireAll rs).status = s.status :=
  foldl_view State.status _ (fun s r => s.setRc_status r _) rs s
@[simp] theorem State.acquireAll_haltFetched (s : State) (rs : List RegId) : (s.acquireAll rs).haltFetched = s.haltFetched :=
  foldl_view State.haltFetched _ (fun s r => s.setRc_haltFetched r _) rs s
@[simp] theorem State.acquireAll_cycles (s : State) (rs : List RegId) : (s.acquireAll rs).cycles = s.cycles :=
  foldl_view State.cycles _ (fun s r => s.setRc_cycles r _) rs s
@[simp] theorem State.acquireAll_retired (s : State) (rs : List RegId) : (s.acquireAll rs).retired = s.retired :=
  foldl_view State.retired _ (fun s r => s.setRc_retired r _) rs s
@[simp] theorem State.acquireAll_rawStalls (s : State) (rs : List RegId) : (s.acquireAll rs).rawStalls = s.rawStalls :=
  foldl_view State.rawStalls _ (fun s r => s.setRc_rawStalls r _) rs s
@[simp] theorem State.acquireAll_mispredictions (s : State) (rs : List RegId) : (s.acquireAll rs).mispredictions = s.mispredictions :=
  foldl_view State.mispredictions _ (fun s r => s.setRc_mispredictions r _) rs s
@[simp] theorem State.acquireAll_trace (s : State) (rs : List RegId) : (s.acquireAll rs).trace = s.trace :=
  foldl_view State.trace _ (fun s r => s.setRc_trace r _) rs s
@[simp] theorem State.acquireAll_phase (s : State) (rs : List RegId) : (s.acquireAll rs).phase = s.phase :=
  foldl_view State.phase _ (fun s r => s.setRc_phase r _) rs s
@[simp] theorem State.acquireAll_outcome (s : State) (rs : List RegId) : (s.acquireAll rs).outcome = s.outcome :=
  foldl_view State.outcome _ (fun s r => s.setRc_outcome r _) rs s

@[simp] theorem State.releaseAll_gpr (s : State) (rs : List RegId) : (s.releaseAll rs).gpr = s.gpr :=
  foldl_view State.gpr _ (fun s r => s.setRc_gpr r _) rs s
@[simp] theorem State.releaseAll_fpr (s : State) (rs : List RegId) : (s.releaseAll rs).fpr = s.fpr :=
  foldl_view State.fpr _ (fun s r => s.setRc_fpr r _) rs s
@[simp] theorem State.releaseAll_hi (s : State) (rs : List RegId) : (s.releaseAll rs).hi = s.hi :=
  foldl_view State.hi _ (fun s r => s.setRc_hi r _) rs s
@[simp] theorem State.releaseAll_lo (s : State) (rs : List RegId) : (s.releaseAll rs).lo = s.lo :=
  foldl_view State.lo _ (fun s r => s.setRc_lo r _) rs s
@[simp] theorem State.releaseAll_pc (s : State) (rs : List RegId) : (s.releaseAll rs).pc = s.pc :=
  foldl_view State.pc _ (fun s r => s.setRc_pc r _) rs s
@[simp] theorem State.releaseAll_lastFetchedPC (s : State) (rs : List RegId) : (s.releaseAll rs).lastFetchedPC = s.lastFetchedPC :=
  foldl_view State.lastFetchedPC _ (fun s r => s.setRc_lastFetchedPC r _) rs s
@[simp] theorem State.releaseAll_fcsr (s : State) (rs : List RegId) : (s.releaseAll rs).fcsr = s.fcsr :=
  foldl_view State.fcsr _ (fun s r => s.setRc_fcsr r _) rs s
@[simp] theorem State.releaseAll_slotIF (s : State) (rs : List RegId) : (s.releaseAll rs).slotIF = s.slotIF :=
  foldl_view State.slotIF _ (fun s r => s.setRc_slotIF r _) rs s
@[simp] theorem State.releaseAll_slotID (s : State) (rs : List RegId) : (s.releaseAll rs).slotID = s.slotID :=
  foldl_view State.slotID _ (fun s r => s.setRc_slotID r _) rs s
@[simp] theorem State.releaseAll_slotEX (s : State) (rs : List RegId) : (s.releaseAll rs).slotEX = s.slotEX :=
  foldl_view State.slotEX _ (fun s r => s.setRc_slotEX r _) rs s
@[simp] theorem State.releaseAll_slotMEM (s : State) (rs : List RegId) : (s.releaseAll rs).slotMEM = s.slotMEM :=
  foldl_view State.slotMEM _ (fun s r => s.setRc_slotMEM r _) rs s
@[simp] theorem State.releaseAll_slotWB (s : State) (rs : List RegId) : (s.releaseAll rs).slotWB = s.slotWB :=
  foldl_view State.slotWB _ (fun s r => s.setRc_slotWB r _) rs s
@[simp] theorem State.releaseAll_pt (s : State) (rs : List RegId) : (s.releaseAll rs).pt = s.pt :=
  foldl_view State.pt _ (fun s r => s.setRc_pt r _) rs s
@[simp] theorem State.releaseAll_mem (s : State) (rs : List RegId) : (s.releaseAll rs).mem = s.mem :=
  foldl_view State.mem _ (fun s r => s.setRc_mem r _) rs s
@[simp] theorem State.releaseAll_im (s : State) (rs : List RegId) : (s.releaseAll rs).im = s.im :=
  foldl_view State.im _ (fun s r => s.setRc_im r _) rs s
@[simp] theorem State.releaseAll_hostLoaded (s : State) (rs : List RegId) : (s.releaseAll rs).hostLoaded = s.hostLoaded :=
  foldl_view State.hostLoaded _ (fun s r => s.setRc_hostLoaded r _) rs s
@[simp] theorem State.releaseAll_cfg (s : State) (rs : List RegId) : (s.releaseAll rs).cfg = s.cfg :=
  foldl_view State.cfg _ (fun s r => s.setRc_cfg r _) rs s
@[simp] theorem State.releaseAll_status (s : State) (rs : List RegId) : (s.releaseAll rs).status = s.status :=
  foldl_view State.status _ (fun s r => s.setRc_status r _) rs s
@[simp] theorem State.releaseAll_haltFetched (s : State) (rs : List RegId) : (s.releaseAll rs).haltFetched = s.haltFetched :=
  foldl_view State.haltFetched _ (fun s r => s.setRc_haltFetched r _) rs s
@[simp] theorem State.releaseAll_cycles (s : State) (rs : List RegId) : (s.releaseAll rs).cycles = s.cycles :=
  foldl_view State.cycles _ (fun s r => s.setRc_cycles r _) rs s
@[simp] theorem State.releaseAll_retired (s : State) (rs : List RegId) : (s.releaseAll rs).retired = s.retired :=
  foldl_view State.retired _ (fun s r => s.setRc_retired r _) rs s
@[simp] theorem State.releaseAll_rawStalls (s : State) (rs : List RegId) : (s.releaseAll rs).rawStalls = s.rawStalls :=
  foldl_view State.rawStalls _ (fun s r => s.setRc_rawStalls r _) rs s
@[simp] theorem State.releaseAll_mispredictions (s : State) (rs : List RegId) : (s.releaseAll rs).mispredictions = s.mispredictions :=
  foldl_view State.mispredictions _ (fun s r => s.setRc_mispredictions r _) rs s
@[simp] theorem State.releaseAll_trace (s : State) (rs : List RegId) : (s.releaseAll rs).trace = s.trace :=
  foldl_view State.trace _ (fun s r => s.setRc_trace r _) rs s
@[simp] theorem State.releaseAll_phase (s : State) (rs : List RegId) : (s.releaseAll rs).phase = s.phase :=
  foldl_view State.phase _ (fun s r => s.setRc_phase r _) rs s
@[simp] theorem State.releaseAll_outcome (s : State) (rs : List RegId) : (s.releaseAll rs).outcome = s.outcome :=
  foldl_view State.outcome _ (fun s r => s.setRc_outcome r _) rs s

/-- `writeDests` leaves a view of the state that register writes leave. -/
theorem State.writeDests_view {α : Type} (g : State → α) (h : ∀ s r v, g (State.writeReg s r v) = g s) (s : State)
    (r : InFlight) : g (s.writeDests r) = g s := by
  simp only [State.writeDests]
  split
  · exact foldl_view g _ (fun s d => h s d _) r.dests s
  · rfl

@[simp] theorem State.writeDests_rcGpr (s : State) (r : InFlight) : (s.writeDests r).rcGpr = s.rcGpr :=
  State.writeDests_view State.rcGpr State.writeReg_rcGpr s r
@[simp] theorem State.writeDests_rcFpr (s : State) (r : InFlight) : (s.writeDests r).rcFpr = s.rcFpr :=
  State.writeDests_view State.rcFpr State.writeReg_rcFpr s r
@[simp] theorem State.writeDests_rcHi (s : State) (r : InFlight) : (s.writeDests r).rcHi = s.rcHi :=
  State.writeDests_view State.rcHi State.writeReg_rcHi s r
@[simp] theorem State.writeDests_rcLo (s : State) (r : InFlight) : (s.writeDests r).rcLo = s.rcLo :=
  State.writeDests_view State.rcLo State.writeReg_rcLo s r
@[simp] theorem State.writeDests_pc (s : State) (r : InFlight) : (s.writeDests r).pc = s.pc :=
  State.writeDests_view State.pc State.writeReg_pc s r
@[simp] theorem State.writeDests_lastFetchedPC (s : State) (r : InFlight) : (s.writeDests r).lastFetchedPC = s.lastFetchedPC :=
  State.writeDests_view State.lastFetchedPC State.writeReg_lastFetchedPC s r
@[simp] theorem State.writeDests_fcsr (s : State) (r : InFlight) : (s.writeDests r).fcsr = s.fcsr :=
  State.writeDests_view State.fcsr State.writeReg_fcsr s r
@[simp] theorem State.writeDests_slotIF (s : State) (r : InFlight) : (s.writeDests r).slotIF = s.slotIF :=
  State.writeDests_view State.slotIF State.writeReg_slotIF s r
@[simp] theorem State.writeDests_slotID (s : State) (r : InFlight) : (s.writeDests r).slotID = s.slotID :=
  State.writeDests_view State.slotID State.writeReg_slotID s r
@[simp] theorem State.writeDests_slotEX (s : State) (r : InFlight) : (s.writeDests r).slotEX = s.slotEX :=
  State.writeDests_view State.slotEX State.writeReg_slotEX s r
@[simp] theorem State.writeDests_slotMEM (s : State) (r : InFlight) : (s.writeDests r).slotMEM = s.slotMEM :=
  State.writeDests_view State.slotMEM State.writeReg_slotMEM s r
@[simp] theorem State.writeDests_slotWB (s : State) (r : InFlight) : (s.writeDests r).slotWB = s.slotWB :=
  State.writeDests_view State.slotWB State.writeReg_slotWB s r
@[simp] theorem State.writeDests_pt (s : State) (r : InFlight) : (s.writeDests r).pt = s.pt :=
  State.writeDests_view State.pt State.writeReg_pt s r
@[simp] theorem State.writeDests_mem (s : State) (r : InFlight) : (s.writeDests r).mem = s.mem :=
  State.writeDests_view State.mem State.writeReg_mem s r
@[simp] theorem State.writeDests_im (s : State) (r : InFlight) : (s.writeDests r).im = s.im :=
  State.writeDests_view State.im State.writeReg_im s r
@[simp] theorem State.writeDests_hostLoaded (s : State) (r : InFlight) : (s.writeDests r).hostLoaded = s.hostLoaded :=
  State.writeDests_view State.hostLoaded State.writeReg_hostLoaded s r
@[simp] theorem State.writeDests_cfg (s : State) (r : InFlight) : (s.writeDests r).cfg = s.cfg :=
  State.writeDests_view State.cfg State.writeReg_cfg s r
@[simp] theorem State.writeDests_status (s : State) (r : InFlight) : (s.writeDests r).status = s.status :=
  State.writeDests_view State.status State.writeReg_status s r
@[simp] theorem State.writeDests_haltFetched (s : State) (r : InFlight) : (s.writeDests r).haltFetched = s.haltFetched :=
  State.writeDests_view State.haltFetched State.writeReg_haltFetched s r
@[simp] theorem State.writeDests_cycles (s : State) (r : InFlight) : (s.writeDests r).cycles = s.cycles :=
  State.writeDests_view State.cycles State.writeReg_cycles s r
@[simp] theorem State.writeDests_retired (s : State) (r : InFlight) : (s.writeDests r).retired = s.retired :=
  State.writeDests_view State.retired State.writeReg_retired s r
@[simp] theorem State.writeDests_rawStalls (s : State) (r : InFlight) : (s.writeDests r).rawStalls = s.rawStalls :=
  State.writeDests_view State.rawStalls State.writeReg_rawStalls s r
@[simp] theorem State.writeDests_mispredictions (s : State) (r : InFlight) : (s.writeDests r).mispredictions = s.mispredictions :=
  State.writeDests_view State.mispredictions State.writeReg_mispredictions s r
@[simp] theorem State.writeDests_trace (s : State) (r : InFlight) : (s.writeDests r).trace = s.trace :=
  State.writeDests_view State.trace State.writeReg_trace s r
@[simp] theorem State.writeDests_phase (s : State) (r : InFlight) : (s.writeDests r).phase = s.phase :=
  State.writeDests_view State.phase State.writeReg_phase s r
@[simp] theorem State.writeDests_outcome (s : State) (r : InFlight) : (s.writeDests r).outcome = s.outcome :=
  State.writeDests_view State.outcome State.writeReg_outcome s r

/-! ### writeFcsr -/

@[simp] theorem State.writeFcsr_gpr (s : State) (v : BitVec 32) : (s.writeFcsr v).gpr = s.gpr := rfl
@[simp] theorem State.writeFcsr_fpr (s : State) (v : BitVec 32) : (s.writeFcsr v).fpr = s.fpr := rfl
@[simp] theorem State.writeFcsr_hi (s : State) (v : BitVec 32) : (s.writeFcsr v).hi = s.hi := rfl
@[simp] theorem State.writeFcsr_lo (s : State) (v : BitVec 32) : (s.writeFcsr v).lo = s.lo := rfl
@[simp] theorem State.writeFcsr_rcGpr (s : State) (v : BitVec 32) : (s.writeFcsr v).rcGpr = s.rcGpr := rfl
@[simp] theorem State.writeFcsr_rcFpr (s : State) (v : BitVec 32) : (s.writeFcsr v).rcFpr = s.rcFpr := rfl
@[simp] theorem State.writeFcsr_rcHi (s : State) (v : BitVec 32) : (s.writeFcsr v).rcHi = s.rcHi := rfl
@[simp] theorem State.writeFcsr_rcLo (s : State) (v : BitVec 32) : (s.writeFcsr v).rcLo = s.rcLo := rfl
@[simp] theorem State.writeFcsr_pc (s : State) (v : BitVec 32) : (s.writeFcsr v).pc = s.pc := rfl
@[simp] theorem State.writeFcsr_lastFetchedPC (s : State) (v : BitVec 32) : (s.writeFcsr v).lastFetchedPC = s.lastFetchedPC := rfl
@[simp] theorem State.writeFcsr_slotIF (s : State) (v : BitVec 32) : (s.writeFcsr v).slotIF = s.slotIF := rfl
@[simp] theorem State.writeFcsr_slotID (s : State) (v : BitVec 32) : (s.writeFcsr v).slotID = s.slotID := rfl
@[simp] theorem State.writeFcsr_slotEX (s : State) (v : BitVec 32) : (s.writeFcsr v).slotEX = s.slotEX := rfl
@[simp] theorem State.writeFcsr_slotMEM (s : State) (v : BitVec 32) : (s.writeFcsr v).slotMEM = s.slotMEM := rfl
@[simp] theorem State.writeFcsr_slotWB (s : State) (v : BitVec 32) : (s.writeFcsr v).slotWB = s.slotWB := rfl
@[simp] theorem State.writeFcsr_pt (s : State) (v : BitVec 32) : (s.writeFcsr v).pt = s.pt := rfl
@[simp] theorem State.writeFcsr_mem (s : State) (v : BitVec 32) : (s.writeFcsr v).mem = s.mem := rfl
@[simp] theorem State.writeFcsr_im (s : State) (v : BitVec 32) : (s.writeFcsr v).im = s.im := rfl
@[simp] theorem State.writeFcsr_hostLoaded (s : State) (v : BitVec 32) : (s.writeFcsr v).hostLoaded = s.hostLoaded := rfl
@[simp] theorem State.writeFcsr_cfg (s : State) (v : BitVec 32) : (s.writeFcsr v).cfg = s.cfg := rfl
@[simp] theorem State.writeFcsr_status (s : State) (v : BitVec 32) : (s.writeFcsr v).status = s.status := rfl
@[simp] theorem State.writeFcsr_haltFetched (s : State) (v : BitVec 32) : (s.writeFcsr v).haltFetched = s.haltFetched := rfl
@[simp] theorem State.writeFcsr_cycles (s : State) (v : BitVec 32) : (s.writeFcsr v).cycles = s.cycles := rfl
@[simp] theorem State.writeFcsr_retired (s : State) (v : BitVec 32) : (s.writeFcsr v).retired = s.retired := rfl
@[simp] theorem State.writeFcsr_rawStalls (s : State) (v : BitVec 32) : (s.writeFcsr v).rawStalls = s.rawStalls := rfl
@[simp] theorem State.writeFcsr_mispredictions (s : State) (v : BitVec 32) : (s.writeFcsr v).mispredictions = s.mispredictions := rfl
@[simp] theorem State.writeFcsr_trace (s : State) (v : BitVec 32) : (s.writeFcsr v).trace = s.trace := rfl
@[simp] theorem State.writeFcsr_phase (s : State) (v : BitVec 32) : (s.writeFcsr v).phase = s.phase := rfl
@[simp] theorem State.writeFcsr_outcome (s : State) (v : BitVec 32) : (s.writeFcsr v).outcome = s.outcome := rfl

@[simp] theorem State.writeFcsr_fcsr (s : State) (v : BitVec 32) : (s.writeFcsr v).fcsr = v &&& fcsrMask := rfl

/-! ### trainPredictor -/

@[simp] theorem State.trainPredictor_gpr (s : State) (op : BranchOp) (pc : Word) (t : Bool) : (s.trainPredictor op pc t).gpr = s.gpr := by
  unfold State.trainPredictor; split <;> rfl
@[simp] theorem State.trainPredictor_fpr (s : State) (op : BranchOp) (pc : Word) (t : Bool) : (s.trainPredictor op pc t).fpr = s.fpr := by
  unfold State.trainPredictor; split <;> rfl
@[simp] theorem State.trainPredictor_hi (s : State) (op : BranchOp) (pc : Word) (t : Bool) : (s.trainPredictor op pc t).hi = s.hi := by
  unfold State.trainPredictor; split <;> rfl
@[simp] theorem State.trainPredictor_lo (s : State) (op : BranchOp) (pc : Word) (t : Bool) : (s.trainPredictor op pc t).lo = s.lo := by
  unfold State.trainPredictor; split <;> rfl
@[simp] theorem State.trainPredictor_rcGpr (s : State) (op : BranchOp) (pc : Word) (t : Bool) : (s.trainPredictor op pc t).rcGpr = s.rcGpr := by
  unfold State.trainPredictor; split <;> rfl
@[simp] theorem State.trainPredictor_rcFpr (s : State) (op : BranchOp) (pc : Word) (t : Bool) : (s.trainPredictor op pc t).rcFpr = s.rcFpr := by
  unfold State.trainPredictor; split <;> rfl
@[simp] theorem State.trainPredictor_rcHi (s : State) (op : BranchOp) (pc : Word) (t : Bool) : (s.trainPredictor op pc t).rcHi = s.rcHi := by
  unfold State.trainPredictor; split <;> rfl
@[simp] theorem State.trainPredictor_rcLo (s : State) (op : BranchOp) (pc : Word) (t : Bool) : (s.trainPredictor op pc t).rcLo = s.rcLo := by
  unfold State.trainPredictor; split <;> rfl
@[simp] theorem State.trainPredictor_pc (s : State) (op : BranchOp) (pc : Word) (t : Bool) : (s.trainPredictor op pc t).pc = s.pc := by
  unfold State.trainPredictor; split <;> rfl
@[simp] theorem State.trainPredictor_lastFetchedPC (s : State) (op : BranchOp) (pc : Word) (t : Bool) : (s.trainPredictor op pc t).lastFetchedPC = s.lastFetchedPC := by
  unfold State.trainPredictor; split <;> rfl
@[simp] theorem State.trainPredictor_fcsr (s : State) (op : BranchOp) (pc : Word) (t : Bool) : (s.trainPredictor op pc t).fcsr = s.fcsr := by
  unfold State.trainPredictor; split <;> rfl
@[simp] theorem State.trainPredictor_slotIF (s : State) (op : BranchOp) (pc : Word) (t : Bool) : (s.trainPredictor op pc t).slotIF = s.slotIF := by
  unfold State.trainPredictor; split <;> rfl
@[simp] theorem State.trainPredictor_slotID (s : State) (op : BranchOp) (pc : Word) (t : Bool) : (s.trainPredictor op pc t).slotID = s.slotID := by
  unfold State.trainPredictor; split <;> rfl
@[simp] theorem State.trainPredictor_slotEX (s : State) (op : BranchOp) (pc : Word) (t : Bool) : (s.trainPredictor op pc t).slotEX = s.slotEX := by
  unfold State.trainPredictor; split <;> rfl
@[simp] theorem State.trainPredictor_slotMEM (s : State) (op : BranchOp) (pc : Word) (t : Bool) : (s.trainPredictor op pc t).slotMEM = s.slotMEM := by
  unfold State.trainPredictor; split <;> rfl
@[simp] theorem State.trainPredictor_slotWB (s : State) (op : BranchOp) (pc : Word) (t : Bool) : (s.trainPredictor op pc t).slotWB = s.slotWB := by
  unfold State.trainPredictor; split <;> rfl
@[simp] theorem State.trainPredictor_mem (s : State) (op : BranchOp) (pc : Word) (t : Bool) : (s.trainPredictor op pc t).mem = s.mem := by
  unfold State.trainPredictor; split <;> rfl
@[simp] theorem State.trainPredictor_im (s : State) (op : BranchOp) (pc : Word) (t : Bool) : (s.trainPredictor op pc t).im = s.im := by
  unfold State.trainPredictor; split <;> rfl
@[simp] theorem State.trainPredictor_hostLoaded (s : State) (op : BranchOp) (pc : Word) (t : Bool) : (s.trainPredictor op pc t).hostLoaded = s.hostLoaded := by
  unfold State.trainPredictor; split <;> rfl
@[simp] theorem State.trainPredictor_cfg (s : State) (op : BranchOp) (pc : Word) (t : Bool) : (s.trainPredictor op pc t).cfg = s.cfg := by
  unfold State.trainPredictor; split <;> rfl
@[simp] theorem State.trainPredictor_status (s : State) (op : BranchOp) (pc : Word) (t : Bool) : (s.trainPredictor op pc t).status = s.status := by
  unfold State.trainPredictor; split <;> rfl
@[simp] theorem State.trainPredictor_haltFetched (s : State) (op : BranchOp) (pc : Word) (t : Bool) : (s.trainPredictor op pc t).haltFetched = s.haltFetched := by
  unfold State.trainPredictor; split <;> rfl
@[simp] theorem State.trainPredictor_cycles (s : State) (op : BranchOp) (pc : Word) (t : Bool) : (s.trainPredictor op pc t).cycles = s.cycles := by
  unfold State.trainPredictor; split <;> rfl
@[simp] theorem State.trainPredictor_retired (s : State) (op : BranchOp) (pc : Word) (t : Bool) : (s.trainPredictor op pc t).retired = s.retired := by
  unfold State.trainPredictor; split <;> rfl
@[simp] theorem State.trainPredictor_rawStalls (s : State) (op : BranchOp) (pc : Word) (t : Bool) : (s.trainPredictor op pc t).rawStalls = s.rawStalls := by
  unfold State.trainPredictor; split <;> rfl
@[simp] theorem State.trainPredictor_mispredictions (s : State) (op : BranchOp) (pc : Word) (t : Bool) : (s.trainPredictor op pc t).mispredictions = s.mispredictions := by
  unfold State.trainPredictor; split <;> rfl
@[simp] theorem State.trainPredictor_trace (s : State) (op : BranchOp) (pc : Word) (t : Bool) : (s.trainPredictor op pc t).trace = s.trace := by
  unfold State.trainPredictor; split <;> rfl
@[simp] theorem State.trainPredictor_phase (s : State) (op : BranchOp) (pc : Word) (t : Bool) : (s.trainPredictor op pc t).phase = s.phase := by
  unfold State.trainPredictor; split <;> rfl
@[simp] theorem State.trainPredictor_outcome (s : State) (op : BranchOp) (pc : Word) (t : Bool) : (s.trainPredictor op pc t).outcome = s.outcome := by
  unfold State.trainPredictor; split <;> rfl

/-! ### flushID -/

@[simp] theorem State.flushID_gpr (s : State) : (s.flushID).gpr = s.gpr := by
  unfold State.flushID; split <;> simp
@[simp] theorem State.flushID_fpr (s : State) : (s.flushID).fpr = s.fpr := by
  unfold State.flushID; split <;> simp
@[simp] theorem State.flushID_hi (s : State) : (s.flushID).hi = s.hi := by
  unfold State.flushID; split <;> simp
@[simp] theorem State.flushID_lo (s : State) : (s.flushID).lo = s.lo := by
  unfold State.flushID; split <;> simp
@[simp] theorem State.flushID_pc (s : State) : (s.flushID).pc = s.pc := by
  unfold State.flushID; split <;> simp
@[simp] theorem State.flushID_lastFetchedPC (s : State) : (s.flushID).lastFetchedPC = s.lastFetchedPC := by
  unfold State.flushID; split <;> simp
@[simp] theorem State.flushID_fcsr (s : State) : (s.flushID).fcsr = s.fcsr := by
  unfold State.flushID; split <;> simp
@[simp] theorem State.flushID_slotIF (s : State) : (s.flushID).slotIF = s.slotIF := by
  unfold State.flushID; split <;> simp
@[simp] theorem State.flushID_slotEX (s : State) : (s.flushID).slotEX = s.slotEX := by
  unfold State.flushID; split <;> simp
@[simp] theorem State.flushID_slotMEM (s : State) : (s.flushID).slotMEM = s.slotMEM := by
  unfold State.flushID; split <;> simp
@[simp] theorem State.flushID_slotWB (s : State) : (s.flushID).slotWB = s.slotWB := by
  unfold State.flushID; split <;> simp
@[simp] theorem State.flushID_pt (s : State) : (s.flushID).pt = s.pt := by
  unfold State.flushID; split <;> simp
@[simp] theorem State.flushID_mem (s : State) : (s.flushID).mem = s.mem := by
  unfold State.flushID; split <;> simp
@[simp] theorem State.flushID_im (s : State) : (s.flushID).im = s.im := by
  unfold State.flushID; split <;> simp
@[simp] theorem State.flushID_hostLoaded (s : State) : (s.flushID).hostLoaded = s.hostLoaded := by
  unfold State.flushID; split <;> simp
@[simp] theorem State.flushID_cfg (s : State) : (s.flushID).cfg = s.cfg := by
  unfold State.flushID; split <;> simp
@[simp] theorem State.flushID_status (s : State) : (s.flushID).status = s.status := by
  unfold State.flushID; split <;> simp
@[simp] theorem State.flushID_cycles (s : State) : (s.flushID).cycles = s.cycles := by
  unfold State.flushID; split <;> simp
@[simp] theorem State.flushID_retired (s : State) : (s.flushID).retired = s.retired := by
  unfold State.flushID; split <;> simp
@[simp] theorem State.flushID_rawStalls (s : State) : (s.flushID).rawStalls = s.rawStalls := by
  unfold State.flushID; split <;> simp
@[simp] theorem State.flushID_mispredictions (s : State) : (s.flushID).mispredictions = s.mispredictions := by
  unfold State.flushID; split <;> simp
@[simp] theorem State.flushID_trace (s : State) : (s.flushID).trace = s.trace := by
  unfold State.flushID; split <;> simp
@[simp] theorem State.flushID_phase (s : State) : (s.flushID).phase = s.phase := by
  unfold State.flushID; split <;> simp
@[simp] theorem State.flushID_outcome (s : State) : (s.flushID).outcome = s.outcome := by
  unfold State.flushID; split <;> simp

@[simp] theorem State.flushID_slotID (s : State) : s.flushID.slotID = none := by
  unfold State.flushID; split <;> simp_all

/-! ### stop -/

@[simp] theorem State.stop_gpr (s : State) (st : Status) : (s.stop st).gpr = s.gpr := rfl
@[simp] theorem State.stop_fpr (s : State) (st : Status) : (s.stop st).fpr = s.fpr := rfl
@[simp] theorem State.stop_hi (s : State) (st : Status) : (s.stop st).hi = s.hi := rfl
@[simp] theorem State.stop_lo (s : State) (st : Status) : (s.stop st).lo = s.lo := rfl
@[simp] theorem State.stop_rcGpr (s : State) (st : Status) : (s.stop st).rcGpr = s.rcGpr := rfl
@[simp] theorem State.stop_rcFpr (s : State) (st : Status) : (s.stop st).rcFpr = s.rcFpr := rfl
@[simp] theorem State.stop_rcHi (s : State) (st : Status) : (s.stop st).rcHi = s.rcHi := rfl
@[simp] theorem State.stop_rcLo (s : State) (st : Status) : (s.stop st).rcLo = s.rcLo := rfl
@[simp] theorem State.stop_pc (s : State) (st : Status) : (s.stop st).pc = s.pc := rfl
@[simp] theorem State.stop_lastFetchedPC (s : State) (st : Status) : (s.stop st).lastFetchedPC = s.lastFetchedPC := rfl
@[simp] theorem State.stop_fcsr (s : State) (st : Status) : (s.stop st).fcsr = s.fcsr := rfl
@[simp] theorem State.stop_slotIF (s : State) (st : Status) : (s.stop st).slotIF = s.slotIF := rfl
@[simp] theorem State.stop_slotID (s : State) (st : Status) : (s.stop st).slotID = s.slotID := rfl
@[simp] theorem State.stop_slotEX (s : State) (st : Status) : (s.stop st).slotEX = s.slotEX := rfl
@[simp] theorem State.stop_slotMEM (s : State) (st : Status) : (s.stop st).slotMEM = s.slotMEM := rfl
@[simp] theorem State.stop_slotWB (s : State) (st : Status) : (s.stop st).slotWB = s.slotWB := rfl
@[simp] theorem State.stop_pt (s : State) (st : Status) : (s.stop st).pt = s.pt := rfl
@[simp] theorem State.stop_mem (s : State) (st : Status) : (s.stop st).mem = s.mem := rfl
@[simp] theorem State.stop_im (s : State) (st : Status) : (s.stop st).im = s.im := rfl
@[simp] theorem State.stop_hostLoaded (s : State) (st : Status) : (s.stop st).hostLoaded = s.hostLoaded := rfl
@[simp] theorem State.stop_cfg (s : State) (st : Status) : (s.stop st).cfg = s.cfg := rfl
@[simp] theorem State.stop_haltFetched (s : State) (st : Status) : (s.stop st).haltFetched = s.haltFetched := rfl
@[simp] theorem State.stop_retired (s : State) (st : Status) : (s.stop st).retired = s.retired := rfl
@[simp] theorem State.stop_rawStalls (s : State) (st : Status) : (s.stop st).rawStalls = s.rawStalls := rfl
@[simp] theorem State.stop_mispredictions (s : State) (st : Status) : (s.stop st).mispredictions = s.mispredictions := rfl
@[simp] theorem State.stop_trace (s : State) (st : Status) : (s.stop st).trace = s.trace := rfl

@[simp] theorem State.stop_status (s : State) (st : Status) : (s.stop st).status = st := rfl
@[simp] theorem State.stop_cycles (s : State) (st : Status) : (s.stop st).cycles = s.cycles + 1 := rfl
@[simp] theorem State.stop_phase (s : State) (st : Status) : (s.stop st).phase = .IF := rfl
@[simp] theorem State.stop_outcome (s : State) (st : Status) : (s.stop st).outcome = .ok := rfl

/-! ### advance -/

@[simp] theorem State.advance_gpr (s : State) (stall : Bool) : (s.advance stall).gpr = s.gpr := rfl
@[simp] theorem State.advance_fpr (s : State) (stall : Bool) : (s.advance stall).fpr = s.fpr := rfl
@[simp] theorem State.advance_hi (s : State) (stall : Bool) : (s.advance stall).hi = s.hi := rfl
@[simp] theorem State.advance_lo (s : State) (stall : Bool) : (s.advance stall).lo = s.lo := rfl
@[simp] theorem State.advance_rcGpr (s : State) (stall : Bool) : (s.advance stall).rcGpr = s.rcGpr := rfl
@[simp] theorem State.advance_rcFpr (s : State) (stall : Bool) : (s.advance stall).rcFpr = s.rcFpr := rfl
@[simp] theorem State.advance_rcHi (s : State) (stall : Bool) : (s.advance stall).rcHi = s.rcHi := rfl
@[simp] theorem State.advance_rcLo (s : State) (stall : Bool) : (s.advance stall).rcLo = s.rcLo := rfl
@[simp] theorem State.advance_pc (s : State) (stall : Bool) : (s.advance stall).pc = s.pc := rfl
@[simp] theorem State.advance_lastFetchedPC (s : State) (stall : Bool) : (s.advance stall).lastFetchedPC = s.lastFetchedPC := rfl
@[simp] theorem State.advance_fcsr (s : State) (stall : Bool) : (s.advance stall).fcsr = s.fcsr := rfl
@[simp] theorem State.advance_pt (s : State) (stall : Bool) : (s.advance stall).pt = s.pt := rfl
@[simp] theorem State.advance_mem (s : State) (stall : Bool) : (s.advance stall).mem = s.mem := rfl
@[simp] theorem State.advance_im (s : State) (stall : Bool) : (s.advance stall).im = s.im := rfl
@[simp] theorem State.advance_hostLoaded (s : State) (stall : Bool) : (s.advance stall).hostLoaded = s.hostLoaded := rfl
@[simp] theorem State.advance_cfg (s : State) (stall : Bool) : (s.advance stall).cfg = s.cfg := rfl
@[simp] theorem State.advance_status (s : State) (stall : Bool) : (s.advance stall).status = s.status := rfl
@[simp] theorem State.advance_haltFetched (s : State) (stall : Bool) : (s.advance stall).haltFetched = s.haltFetched := rfl
@[simp] theorem State.advance_cycles (s : State) (stall : Bool) : (s.advance stall).cycles = s.cycles := rfl
@[simp] theorem State.advance_retired (s : State) (stall : Bool) : (s.advance stall).retired = s.retired := rfl
@[simp] theorem State.advance_rawStalls (s : State) (stall : Bool) : (s.advance stall).rawStalls = s.rawStalls := rfl
@[simp] theorem State.advance_mispredictions (s : State) (stall : Bool) : (s.advance stall).mispredictions = s.mispredictions := rfl
@[simp] theorem State.advance_trace (s : State) (stall : Bool) : (s.advance stall).trace = s.trace := rfl
@[simp] theorem State.advance_phase (s : State) (stall : Bool) : (s.advance stall).phase = s.phase := rfl
@[simp] theorem State.advance_outcome (s : State) (stall : Bool) : (s.advance stall).outcome = s.outcome := rfl

@[simp] theorem State.advance_slotIF (s : State) (stall : Bool) : (s.advance stall).slotIF = none := rfl
@[simp] theorem State.advance_slotID (s : State) (stall : Bool) :
    (s.advance stall).slotID = if stall then s.slotID else s.slotIF := rfl
@[simp] theorem State.advance_slotEX (s : State) (stall : Bool) :
    (s.advance stall).slotEX = if stall then none else s.slotID := rfl
@[simp] theorem State.advance_slotMEM (s : State) (stall : Bool) : (s.advance stall).slotMEM = s.slotEX := rfl
@[simp] theorem State.advance_slotWB (s : State) (stall : Bool) : (s.advance stall).slotWB = s.slotMEM := rfl

/-! ### counters and PC -/

@[simp] theorem State.countRetired_gpr (s : State) : (s.countRetired).gpr = s.gpr := rfl
@[simp] theorem State.countRetired_fpr (s : State) : (s.countRetired).fpr = s.fpr := rfl
@[simp] theorem State.countRetired_hi (s : State) : (s.countRetired).hi = s.hi := rfl
@[simp] theorem State.countRetired_lo (s : State) : (s.countRetired).lo = s.lo := rfl
@[simp] theorem State.countRetired_rcGpr (s : State) : (s.countRetired).rcGpr = s.rcGpr := rfl
@[simp] theorem State.countRetired_rcFpr (s : State) : (s.countRetired).rcFpr = s.rcFpr := rfl
@[simp] theorem State.countRetired_rcHi (s : State) : (s.countRetired).rcHi = s.rcHi := rfl
@[simp] theorem State.countRetired_rcLo (s : State) : (s.countRetired).rcLo = s.rcLo := rfl
@[simp] theorem State.countRetired_pc (s : State) : (s.countRetired).pc = s.pc := rfl
@[simp] theorem State.countRetired_lastFetchedPC (s : State) : (s.countRetired).lastFetchedPC = s.lastFetchedPC := rfl
@[simp] theorem State.countRetired_fcsr (s : State) : (s.countRetired).fcsr = s.fcsr := rfl
@[simp] theorem State.countRetired_slotIF (s : State) : (s.countRetired).slotIF = s.slotIF := rfl
@[simp] theorem State.countRetired_slotID (s : State) : (s.countRetired).slotID = s.slotID := rfl
@[simp] theorem State.countRetired_slotEX (s : State) : (s.countRetired).slotEX = s.slotEX := rfl
@[simp] theorem State.countRetired_slotMEM (s : State) : (s.countRetired).slotMEM = s.slotMEM := rfl
@[simp] theorem State.countRetired_slotWB (s : State) : (s.countRetired).slotWB = s.slotWB := rfl
@[simp] theorem State.countRetired_pt (s : State) : (s.countRetired).pt = s.pt := rfl
@[simp] theorem State.countRetired_mem (s : State) : (s.countRetired).mem = s.mem := rfl
@[simp] theorem State.countRetired_im (s : State) : (s.countRetired).im = s.im := rfl
@[simp] theorem State.countRetired_hostLoaded (s : State) : (s.countRetired).hostLoaded = s.hostLoaded := rfl
@[simp] theorem State.countRetired_cfg (s : State) : (s.countRetired).cfg = s.cfg := rfl
@[simp] theorem State.countRetired_status (s : State) : (s.countRetired).status = s.status := rfl
@[simp] theorem State.countRetired_haltFetched (s : State) : (s.countRetired).haltFetched = s.haltFetched := rfl
@[simp] theorem State.countRetired_cycles (s : State) : (s.countRetired).cycles = s.cycles := rfl
@[simp] theorem State.countRetired_rawStalls (s : State) : (s.countRetired).rawStalls = s.rawStalls := rfl
@[simp] theorem State.countRetired_mispredictions (s : State) : (s.countRetired).mispredictions = s.mispredictions := rfl
@[simp] theorem State.countRetired_trace (s : State) : (s.countRetired).trace = s.trace := rfl
@[simp] theorem State.countRetired_phase (s : State) : (s.countRetired).phase = s.phase := rfl
@[simp] theorem State.countRetired_outcome (s : State) : (s.countRetired).outcome = s.outcome := rfl

@[simp] theorem State.countRetired_retired (s : State) : s.countRetired.retired = s.retired + 1 := rfl

@[simp] theorem State.countStall_gpr (s : State) : (s.countStall).gpr = s.gpr := rfl
@[simp] theorem State.countStall_fpr (s : State) : (s.countStall).fpr = s.fpr := rfl
@[simp] theorem State.countStall_hi (s : State) : (s.countStall).hi = s.hi := rfl
@[simp] theorem State.countStall_lo (s : State) : (s.countStall).lo = s.lo := rfl
@[simp] theorem State.countStall_rcGpr (s : State) : (s.countStall).rcGpr = s.rcGpr := rfl
@[simp] theorem State.countStall_rcFpr (s : State) : (s.countStall).rcFpr = s.rcFpr := rfl
@[simp] theorem State.countStall_rcHi (s : State) : (s.countStall).rcHi = s.rcHi := rfl
@[simp] theorem State.countStall_rcLo (s : State) : (s.countStall).rcLo = s.rcLo := rfl
@[simp] theorem State.countStall_pc (s : State) : (s.countStall).pc = s.pc := rfl
@[simp] theorem State.countStall_lastFetchedPC (s : State) : (s.countStall).lastFetchedPC = s.lastFetchedPC := rfl
@[simp] theorem State.countStall_fcsr (s : State) : (s.countStall).fcsr = s.fcsr := rfl
@[simp] theorem State.countStall_slotIF (s : State) : (s.countStall).slotIF = s.slotIF := rfl
@[simp] theorem State.countStall_slotID (s : State) : (s.countStall).slotID = s.slotID := rfl
@[simp] theorem State.countStall_slotEX (s : State) : (s.countStall).slotEX = s.slotEX := rfl
@[simp] theorem State.countStall_slotMEM (s : State) : (s.countStall).slotMEM = s.slotMEM := rfl
@[simp] theorem State.countStall_slotWB (s : State) : (s.countStall).slotWB = s.slotWB := rfl
@[simp] theorem State.countStall_pt (s : State) : (s.countStall).pt = s.pt := rfl
@[simp] theorem State.countStall_mem (s : State) : (s.countStall).mem = s.mem := rfl
@[simp] theorem State.countStall_im (s : State) : (s.countStall).im = s.im := rfl
@[simp] theorem State.countStall_hostLoaded (s : State) : (s.countStall).hostLoaded = s.hostLoaded := rfl
@[simp] theorem State.countStall_cfg (s : State) : (s.countStall).cfg = s.cfg := rfl
@[simp] theorem State.countStall_status (s : State) : (s.countStall).status = s.status := rfl
@[simp] theorem State.countStall_haltFetched (s : State) : (s.countStall).haltFetched = s.haltFetched := rfl
@[simp] theorem State.countStall_cycles (s : State) : (s.countStall).cycles = s.cycles := rfl
@[simp] theorem State.countStall_retired (s : State) : (s.countStall).retired = s.retired := rfl
@[simp] theorem State.countStall_mispredictions (s : State) : (s.countStall).mispredictions = s.mispredictions := rfl
@[simp] theorem State.countStall_trace (s : State) : (s.countStall).trace = s.trace := rfl
@[simp] theorem State.countStall_phase (s : State) : (s.countStall).phase = s.phase := rfl
@[simp] theorem State.countStall_outcome (s : State) : (s.countStall).outcome = s.outcome := rfl

@[simp] theorem State.countStall_rawStalls (s : State) : s.countStall.rawStalls = s.rawStalls + 1 := rfl

@[simp] theorem State.countMisprediction_gpr (s : State) : (s.countMisprediction).gpr = s.gpr := rfl
@[simp] theorem State.countMisprediction_fpr (s : State) : (s.countMisprediction).fpr = s.fpr := rfl
@[simp] theorem State.countMisprediction_hi (s : State) : (s.countMisprediction).hi = s.hi := rfl
@[simp] theorem State.countMisprediction_lo (s : State) : (s.countMisprediction).lo = s.lo := rfl
@[simp] theorem State.countMisprediction_rcGpr (s : State) : (s.countMisprediction).rcGpr = s.rcGpr := rfl
@[simp] theorem State.countMisprediction_rcFpr (s : State) : (s.countMisprediction).rcFpr = s.rcFpr := rfl
@[simp] theorem State.countMisprediction_rcHi (s : State) : (s.countMisprediction).rcHi = s.rcHi := rfl
@[simp] theorem State.countMisprediction_rcLo (s : State) : (s.countMisprediction).rcLo = s.rcLo := rfl
@[simp] theorem State.countMisprediction_pc (s : State) : (s.countMisprediction).pc = s.pc := rfl
@[simp] theorem State.countMisprediction_lastFetchedPC (s : State) : (s.countMisprediction).lastFetchedPC = s.lastFetchedPC := rfl
@[simp] theorem State.countMisprediction_fcsr (s : State) : (s.countMisprediction).fcsr = s.fcsr := rfl
@[simp] theorem State.countMisprediction_slotIF (s : State) : (s.countMisprediction).slotIF = s.slotIF := rfl
@[simp] theorem State.countMisprediction_slotID (s : State) : (s.countMisprediction).slotID = s.slotID := rfl
@[simp] theorem State.countMisprediction_slotEX (s : State) : (s.countMisprediction).slotEX = s.slotEX := rfl
@[simp] theorem State.countMisprediction_slotMEM (s : State) : (s.countMisprediction).slotMEM = s.slotMEM := rfl
@[simp] theorem State.countMisprediction_slotWB (s : State) : (s.countMisprediction).slotWB = s.slotWB := rfl
@[simp] theorem State.countMisprediction_pt (s : State) : (s.countMisprediction).pt = s.pt := rfl
@[simp] theorem State.countMisprediction_mem (s : State) : (s.countMisprediction).mem = s.mem := rfl
@[simp] theorem State.countMisprediction_im (s : State) : (s.countMisprediction).im = s.im := rfl
@[simp] theorem State.countMisprediction_hostLoaded (s : State) : (s.countMisprediction).hostLoaded = s.hostLoaded := rfl
@[simp] theorem State.countMisprediction_cfg (s : State) : (s.countMisprediction).cfg = s.cfg := rfl
@[simp] theorem State.countMisprediction_status (s : State) : (s.countMisprediction).status = s.status := rfl
@[simp] theorem State.countMisprediction_haltFetched (s : State) : (s.countMisprediction).haltFetched = s.haltFetched := rfl
@[simp] theorem State.countMisprediction_cycles (s : State) : (s.countMisprediction).cycles = s.cycles := rfl
@[simp] theorem State.countMisprediction_retired (s : State) : (s.countMisprediction).retired = s.retired := rfl
@[simp] theorem State.countMisprediction_rawStalls (s : State) : (s.countMisprediction).rawStalls = s.rawStalls := rfl
@[simp] theorem State.countMisprediction_trace (s : State) : (s.countMisprediction).trace = s.trace := rfl
@[simp] theorem State.countMisprediction_phase (s : State) : (s.countMisprediction).phase = s.phase := rfl
@[simp] theorem State.countMisprediction_outcome (s : State) : (s.countMisprediction).outcome = s.outcome := rfl

@[simp] theorem State.countMisprediction_mispredictions (s : State) : s.countMisprediction.mispredictions = s.mispredictions + 1 := rfl

@[simp] theorem State.setPc_gpr (s : State) (v : Word) : (s.setPc v).gpr = s.gpr := rfl
@[simp] theorem State.setPc_fpr (s : State) (v : Word) : (s.setPc v).fpr = s.fpr := rfl
@[simp] theorem State.setPc_hi (s : State) (v : Word) : (s.setPc v).hi = s.hi := rfl
@[simp] theorem State.setPc_lo (s : State) (v : Word) : (s.setPc v).lo = s.lo := rfl
@[simp] theorem State.setPc_rcGpr (s : State) (v : Word) : (s.setPc v).rcGpr = s.rcGpr := rfl
@[simp] theorem State.setPc_rcFpr (s : State) (v : Word) : (s.setPc v).rcFpr = s.rcFpr := rfl
@[simp] theorem State.setPc_rcHi (s : State) (v : Word) : (s.setPc v).rcHi = s.rcHi := rfl
@[simp] theorem State.setPc_rcLo (s : State) (v : Word) : (s.setPc v).rcLo = s.rcLo := rfl
@[simp] theorem State.setPc_lastFetchedPC (s : State) (v : Word) : (s.setPc v).lastFetchedPC = s.lastFetchedPC := rfl
@[simp] theorem State.setPc_fcsr (s : State) (v : Word) : (s.setPc v).fcsr = s.fcsr := rfl
@[simp] theorem State.setPc_slotIF (s : State) (v : Word) : (s.setPc v).slotIF = s.slotIF := rfl
@[simp] theorem State.setPc_slotID (s : State) (v : Word) : (s.setPc v).slotID = s.slotID := rfl
@[simp] theorem State.setPc_slotEX (s : State) (v : Word) : (s.setPc v).slotEX = s.slotEX := rfl
@[simp] theorem State.setPc_slotMEM (s : State) (v : Word) : (s.setPc v).slotMEM = s.slotMEM := rfl
@[simp] theorem State.setPc_slotWB (s : State) (v : Word) : (s.setPc v).slotWB = s.slotWB := rfl
@[simp] theorem State.setPc_pt (s : State) (v : Word) : (s.setPc v).pt = s.pt := rfl
@[simp] theorem State.setPc_mem (s : State) (v : Word) : (s.setPc v).mem = s.mem := rfl
@[simp] theorem State.setPc_im (s : State) (v : Word) : (s.setPc v).im = s.im := rfl
@[simp] theorem State.setPc_hostLoaded (s : State) (v : Word) : (s.setPc v).hostLoaded = s.hostLoaded := rfl
@[simp] theorem State.setPc_cfg (s : State) (v : Word) : (s.setPc v).cfg = s.cfg := rfl
@[simp] theorem State.setPc_status (s : State) (v : Word) : (s.setPc v).status = s.status := rfl
@[simp] theorem State.setPc_haltFetched (s : State) (v : Word) : (s.setPc v).haltFetched = s.haltFetched := rfl
@[simp] theorem State.setPc_cycles (s : State) (v : Word) : (s.setPc v).cycles = s.cycles := rfl
@[simp] theorem State.setPc_retired (s : State) (v : Word) : (s.setPc v).retired = s.retired := rfl
@[simp] theorem State.setPc_rawStalls (s : State) (v : Word) : (s.setPc v).rawStalls = s.rawStalls := rfl
@[simp] theorem State.setPc_mispredictions (s : State) (v : Word) : (s.setPc v).mispredictions = s.mispredictions := rfl
@[simp] theorem State.setPc_trace (s : State) (v : Word) : (s.setPc v).trace = s.trace := rfl
@[simp] theorem State.setPc_phase (s : State) (v : Word) : (s.setPc v).phase = s.phase := rfl
@[simp] theorem State.setPc_outcome (s : State) (v : Word) : (s.setPc v).outcome = s.outcome := rfl

@[simp] theorem State.setPc_pc (s : State) (v : Word) : (s.setPc v).pc = v := rfl

/-! ### fetched and close -/

@[simp] theorem State.fetched_gpr (s : State) : (s.fetched).gpr = s.gpr := rfl
@[simp] theorem State.fetched_fpr (s : State) : (s.fetched).fpr = s.fpr := rfl
@[simp] theorem State.fetched_hi (s : State) : (s.fetched).hi = s.hi := rfl
@[simp] theorem State.fetched_lo (s : State) : (s.fetched).lo = s.lo := rfl
@[simp] theorem State.fetched_rcGpr (s : State) : (s.fetched).rcGpr = s.rcGpr := rfl
@[simp] theorem State.fetched_rcFpr (s : State) : (s.fetched).rcFpr = s.rcFpr := rfl
@[simp] theorem State.fetched_rcHi (s : State) : (s.fetched).rcHi = s.rcHi := rfl
@[simp] theorem State.fetched_rcLo (s : State) : (s.fetched).rcLo = s.rcLo := rfl
@[simp] theorem State.fetched_fcsr (s : State) : (s.fetched).fcsr = s.fcsr := rfl
@[simp] theorem State.fetched_slotID (s : State) : (s.fetched).slotID = s.slotID := rfl
@[simp] theorem State.fetched_slotEX (s : State) : (s.fetched).slotEX = s.slotEX := rfl
@[simp] theorem State.fetched_slotMEM (s : State) : (s.fetched).slotMEM = s.slotMEM := rfl
@[simp] theorem State.fetched_slotWB (s : State) : (s.fetched).slotWB = s.slotWB := rfl
@[simp] theorem State.fetched_pt (s : State) : (s.fetched).pt = s.pt := rfl
@[simp] theorem State.fetched_mem (s : State) : (s.fetched).mem = s.mem := rfl
@[simp] theorem State.fetched_im (s : State) : (s.fetched).im = s.im := rfl
@[simp] theorem State.fetched_hostLoaded (s : State) : (s.fetched).hostLoaded = s.hostLoaded := rfl
@[simp] theorem State.fetched_cfg (s : State) : (s.fetched).cfg = s.cfg := rfl
@[simp] theorem State.fetched_status (s : State) : (s.fetched).status = s.status := rfl
@[simp] theorem State.fetched_haltFetched (s : State) : (s.fetched).haltFetched = s.haltFetched := rfl
@[simp] theorem State.fetched_cycles (s : State) : (s.fetched).cycles = s.cycles := rfl
@[simp] theorem State.fetched_retired (s : State) : (s.fetched).retired = s.retired := rfl
@[simp] theorem State.fetched_rawStalls (s : State) : (s.fetched).rawStalls = s.rawStalls := rfl
@[simp] theorem State.fetched_mispredictions (s : State) : (s.fetched).mispredictions = s.mispredictions := rfl

@[simp] theorem State.fetched_trace (s : State) : s.fetched.trace = s.trace ++ [.fetch s.pc] := rfl
@[simp] theorem State.fetched_lastFetchedPC (s : State) : s.fetched.lastFetchedPC = s.pc := rfl
@[simp] theorem State.fetched_slotIF (s : State) : s.fetched.slotIF = some (s.fetchRecord s.pc) := rfl
@[simp] theorem State.fetched_pc (s : State) : s.fetched.pc = s.pc + 4 := rfl
@[simp] theorem State.fetched_phase (s : State) : s.fetched.phase = .IF := rfl
@[simp] theorem State.fetched_outcome (s : State) : s.fetched.outcome = .ok := rfl

@[simp] theorem State.close_gpr (s : State) : (s.close).gpr = s.gpr := rfl
@[simp] theorem State.close_fpr (s : State) : (s.close).fpr = s.fpr := rfl
@[simp] theorem State.close_hi (s : State) : (s.close).hi = s.hi := rfl
@[simp] theorem State.close_lo (s : State) : (s.close).lo = s.lo := rfl
@[simp] theorem State.close_rcGpr (s : State) : (s.close).rcGpr = s.rcGpr := rfl
@[simp] theorem State.close_rcFpr (s : State) : (s.close).rcFpr = s.rcFpr := rfl
@[simp] theorem State.close_rcHi (s : State) : (s.close).rcHi = s.rcHi := rfl
@[simp] theorem State.close_rcLo (s : State) : (s.close).rcLo = s.rcLo := rfl
@[simp] theorem State.close_pc (s : State) : (s.close).pc = s.pc := rfl
@[simp] theorem State.close_lastFetchedPC (s : State) : (s.close).lastFetchedPC = s.lastFetchedPC := rfl
@[simp] theorem State.close_fcsr (s : State) : (s.close).fcsr = s.fcsr := rfl
@[simp] theorem State.close_slotIF (s : State) : (s.close).slotIF = s.slotIF := rfl
@[simp] theorem State.close_slotID (s : State) : (s.close).slotID = s.slotID := rfl
@[simp] theorem State.close_slotEX (s : State) : (s.close).slotEX = s.slotEX := rfl
@[simp] theorem State.close_slotMEM (s : State) : (s.close).slotMEM = s.slotMEM := rfl
@[simp] theorem State.close_slotWB (s : State) : (s.close).slotWB = s.slotWB := rfl
@[simp] theorem State.close_pt (s : State) : (s.close).pt = s.pt := rfl
@[simp] theorem State.close_mem (s : State) : (s.close).mem = s.mem := rfl
@[simp] theorem State.close_im (s : State) : (s.close).im = s.im := rfl
@[simp] theorem State.close_hostLoaded (s : State) : (s.close).hostLoaded = s.hostLoaded := rfl
@[simp] theorem State.close_cfg (s : State) : (s.close).cfg = s.cfg := rfl
@[simp] theorem State.close_haltFetched (s : State) : (s.close).haltFetched = s.haltFetched := rfl
@[simp] theorem State.close_retired (s : State) : (s.close).retired = s.retired := rfl
@[simp] theorem State.close_rawStalls (s : State) : (s.close).rawStalls = s.rawStalls := rfl
@[simp] theorem State.close_mispredictions (s : State) : (s.close).mispredictions = s.mispredictions := rfl
@[simp] theorem State.close_trace (s : State) : (s.close).trace = s.trace := rfl

@[simp] theorem State.close_cycles (s : State) : s.close.cycles = s.cycles + 1 := rfl
@[simp] theorem State.close_status (s : State) :
    s.close.status = if s.haltFetched && s.drained then .terminated else s.status := rfl
@[simp] theorem State.close_phase (s : State) : s.close.phase = .IF := rfl
@[simp] theorem State.close_outcome (s : State) : s.close.outcome = .ok := rfl

/-! ### Views: registers and counts read alike where their fields are left -/

/-- A register reads alike in states with the same register files, HI and LO. -/
theorem State.readReg_congr {s t : State} (hg : s.gpr = t.gpr) (hf : s.fpr = t.fpr) (hh : s.hi = t.hi)
    (hl : s.lo = t.lo) (q : RegId) : s.readReg q = t.readReg q := by
  cases q <;> simp [State.readReg, hg, hf, hh, hl]

/-- A count reads alike in states with the same counts. -/
theorem State.rc_congr {s t : State} (hg : s.rcGpr = t.rcGpr) (hf : s.rcFpr = t.rcFpr) (hh : s.rcHi = t.rcHi)
    (hl : s.rcLo = t.rcLo) (q : RegId) : s.rc q = t.rc q := by
  cases q <;> simp [State.rc, hg, hf, hh, hl]

@[simp] theorem State.readReg_done (s : State) (o : StageOutcome) (q : RegId) :
    (s.done o).readReg q = s.readReg q := State.readReg_congr (by simp) (by simp) (by simp) (by simp) q
@[simp] theorem State.rc_done (s : State) (o : StageOutcome) (q : RegId) :
    (s.done o).rc q = s.rc q := State.rc_congr (by simp) (by simp) (by simp) (by simp) q
@[simp] theorem State.readReg_enter (s : State) (st : Stage) (q : RegId) :
    (s.enter st).readReg q = s.readReg q := State.readReg_congr (by simp) (by simp) (by simp) (by simp) q
@[simp] theorem State.rc_enter (s : State) (st : Stage) (q : RegId) :
    (s.enter st).rc q = s.rc q := State.rc_congr (by simp) (by simp) (by simp) (by simp) q
@[simp] theorem State.readReg_setSlot (s : State) (st : Stage) (o : Option InFlight) (q : RegId) :
    (s.setSlot st o).readReg q = s.readReg q := State.readReg_congr (by simp) (by simp) (by simp) (by simp) q
@[simp] theorem State.rc_setSlot (s : State) (st : Stage) (o : Option InFlight) (q : RegId) :
    (s.setSlot st o).rc q = s.rc q := State.rc_congr (by simp) (by simp) (by simp) (by simp) q
@[simp] theorem State.readReg_setRc (s : State) (r : RegId) (k : Nat) (q : RegId) :
    (s.setRc r k).readReg q = s.readReg q := State.readReg_congr (by simp) (by simp) (by simp) (by simp) q
@[simp] theorem State.readReg_acquireAll (s : State) (rs : List RegId) (q : RegId) :
    (s.acquireAll rs).readReg q = s.readReg q := State.readReg_congr (by simp) (by simp) (by simp) (by simp) q
@[simp] theorem State.readReg_releaseAll (s : State) (rs : List RegId) (q : RegId) :
    (s.releaseAll rs).readReg q = s.readReg q := State.readReg_congr (by simp) (by simp) (by simp) (by simp) q
@[simp] theorem State.rc_writeReg (s : State) (r : RegId) (v : Word) (q : RegId) :
    (s.writeReg r v).rc q = s.rc q := State.rc_congr (by simp) (by simp) (by simp) (by simp) q
@[simp] theorem State.rc_writeDests (s : State) (r : InFlight) (q : RegId) :
    (s.writeDests r).rc q = s.rc q := State.rc_congr (by simp) (by simp) (by simp) (by simp) q
@[simp] theorem State.readReg_writeFcsr (s : State) (v : BitVec 32) (q : RegId) :
    (s.writeFcsr v).readReg q = s.readReg q := State.readReg_congr (by simp) (by simp) (by simp) (by simp) q
@[simp] theorem State.rc_writeFcsr (s : State) (v : BitVec 32) (q : RegId) :
    (s.writeFcsr v).rc q = s.rc q := State.rc_congr (by simp) (by simp) (by simp) (by simp) q
@[simp] theorem State.readReg_trainPredictor (s : State) (op : BranchOp) (pc : Word) (t : Bool) (q : RegId) :
    (s.trainPredictor op pc t).readReg q = s.readReg q := State.readReg_congr (by simp) (by simp) (by simp) (by simp) q
@[simp] theorem State.rc_trainPredictor (s : State) (op : BranchOp) (pc : Word) (t : Bool) (q : RegId) :
    (s.trainPredictor op pc t).rc q = s.rc q := State.rc_congr (by simp) (by simp) (by simp) (by simp) q
@[simp] theorem State.readReg_flushID (s : State) (q : RegId) :
    (s.flushID).readReg q = s.readReg q := State.readReg_congr (by simp) (by simp) (by simp) (by simp) q
@[simp] theorem State.readReg_stop (s : State) (st : Status) (q : RegId) :
    (s.stop st).readReg q = s.readReg q := State.readReg_congr (by simp) (by simp) (by simp) (by simp) q
@[simp] theorem State.rc_stop (s : State) (st : Status) (q : RegId) :
    (s.stop st).rc q = s.rc q := State.rc_congr (by simp) (by simp) (by simp) (by simp) q
@[simp] theorem State.readReg_advance (s : State) (stall : Bool) (q : RegId) :
    (s.advance stall).readReg q = s.readReg q := State.readReg_congr (by simp) (by simp) (by simp) (by simp) q
@[simp] theorem State.rc_advance (s : State) (stall : Bool) (q : RegId) :
    (s.advance stall).rc q = s.rc q := State.rc_congr (by simp) (by simp) (by simp) (by simp) q
@[simp] theorem State.readReg_countRetired (s : State) (q : RegId) :
    (s.countRetired).readReg q = s.readReg q := State.readReg_congr (by simp) (by simp) (by simp) (by simp) q
@[simp] theorem State.rc_countRetired (s : State) (q : RegId) :
    (s.countRetired).rc q = s.rc q := State.rc_congr (by simp) (by simp) (by simp) (by simp) q
@[simp] theorem State.readReg_countStall (s : State) (q : RegId) :
    (s.countStall).readReg q = s.readReg q := State.readReg_congr (by simp) (by simp) (by simp) (by simp) q
@[simp] theorem State.rc_countStall (s : State) (q : RegId) :
    (s.countStall).rc q = s.rc q := State.rc_congr (by simp) (by simp) (by simp) (by simp) q
@[simp] theorem State.readReg_countMisprediction (s : State) (q : RegId) :
    (s.countMisprediction).readReg q = s.readReg q := State.readReg_congr (by simp) (by simp) (by simp) (by simp) q
@[simp] theorem State.rc_countMisprediction (s : State) (q : RegId) :
    (s.countMisprediction).rc q = s.rc q := State.rc_congr (by simp) (by simp) (by simp) (by simp) q
@[simp] theorem State.readReg_setPc (s : State) (v : Word) (q : RegId) :
    (s.setPc v).readReg q = s.readReg q := State.readReg_congr (by simp) (by simp) (by simp) (by simp) q
@[simp] theorem State.rc_setPc (s : State) (v : Word) (q : RegId) :
    (s.setPc v).rc q = s.rc q := State.rc_congr (by simp) (by simp) (by simp) (by simp) q
@[simp] theorem State.readReg_fetched (s : State) (q : RegId) :
    (s.fetched).readReg q = s.readReg q := State.readReg_congr (by simp) (by simp) (by simp) (by simp) q
@[simp] theorem State.rc_fetched (s : State) (q : RegId) :
    (s.fetched).rc q = s.rc q := State.rc_congr (by simp) (by simp) (by simp) (by simp) q
@[simp] theorem State.readReg_close (s : State) (q : RegId) :
    (s.close).readReg q = s.readReg q := State.readReg_congr (by simp) (by simp) (by simp) (by simp) q
@[simp] theorem State.rc_close (s : State) (q : RegId) :
    (s.close).rc q = s.rc q := State.rc_congr (by simp) (by simp) (by simp) (by simp) q

end Sys2Proof.Machine
end

