-- ==== Sys2Proof/Laws/Registers.lean ====
section
/-! SUPPORT. Registers and reservation counts: what a read gives after each named update. -/

namespace Sys2Proof.Machine

/-! ### Reads after writes -/

@[simp] theorem State.readReg_zero (s : State) : s.readReg (.gpr 0) = 0 := rfl

@[simp] theorem State.rc_zero (s : State) : s.rc (.gpr 0) = 0 := rfl

/-- A register reads as written; GPR 0 reads 0 whatever is written to it (R31, R32). -/
theorem State.readReg_writeReg (s : State) (r q : RegId) (v : Word) :
    (s.writeReg r v).readReg q = if q = r ∧ r ≠ .gpr 0 then v else s.readReg q := by
  cases r with
  | gpr n =>
    by_cases hn : n = 0
    · simp [State.writeReg, hn]
    · cases q with
      | gpr m =>
        by_cases hm : m = n
        · subst hm; simp [State.writeReg, State.readReg, hn]
        · have : n.val ≠ m.val := fun h => hm (Fin.ext h.symm)
          simp [State.writeReg, State.readReg, hn, hm, Vector.getElem_set_ne, this]
      | fpr m => simp [State.writeReg, State.readReg, hn]
      | hi => simp [State.writeReg, State.readReg, hn]
      | lo => simp [State.writeReg, State.readReg, hn]
  | fpr n =>
    cases q with
    | fpr m =>
      by_cases hm : m = n
      · subst hm; simp [State.writeReg, State.readReg]
      · have : n.val ≠ m.val := fun h => hm (Fin.ext h.symm)
        simp [State.writeReg, State.readReg, hm, Vector.getElem_set_ne, this]
    | gpr m => simp [State.writeReg, State.readReg]
    | hi => simp [State.writeReg, State.readReg]
    | lo => simp [State.writeReg, State.readReg]
  | hi => cases q <;> simp [State.writeReg, State.readReg]
  | lo => cases q <;> simp [State.writeReg, State.readReg]

/-- A count reads as set; that of GPR 0 is always 0 (R36). -/
theorem State.rc_setRc (s : State) (r q : RegId) (k : Nat) :
    (s.setRc r k).rc q = if q = r ∧ r ≠ .gpr 0 then k else s.rc q := by
  cases r with
  | gpr n =>
    by_cases hn : n = 0
    · simp [State.setRc, hn]
    · cases q with
      | gpr m =>
        by_cases hm : m = n
        · subst hm; simp [State.setRc, State.rc, hn]
        · have : n.val ≠ m.val := fun h => hm (Fin.ext h.symm)
          simp [State.setRc, State.rc, hn, hm, Vector.getElem_set_ne, this]
      | fpr m => simp [State.setRc, State.rc, hn]
      | hi => simp [State.setRc, State.rc, hn]
      | lo => simp [State.setRc, State.rc, hn]
  | fpr n =>
    cases q with
    | fpr m =>
      by_cases hm : m = n
      · subst hm; simp [State.setRc, State.rc]
      · have : n.val ≠ m.val := fun h => hm (Fin.ext h.symm)
        simp [State.setRc, State.rc, hm, Vector.getElem_set_ne, this]
    | gpr m => simp [State.setRc, State.rc]
    | hi => simp [State.setRc, State.rc]
    | lo => simp [State.setRc, State.rc]
  | hi => cases q <;> simp [State.setRc, State.rc]
  | lo => cases q <;> simp [State.setRc, State.rc]

/-! ### Acquire, release and write of a list -/

/-- `acquireAll` adds to a register's count how often the list names it; GPR 0 is never counted (R37). -/
theorem State.rc_acquireAll (rs : List RegId) : ∀ (s : State) (q : RegId),
    (s.acquireAll rs).rc q = if q = .gpr 0 then 0 else s.rc q + rs.count q := by
  induction rs with
  | nil => intro s q; by_cases h : q = .gpr 0 <;> simp [State.acquireAll, h]
  | cons r rest ih =>
    intro s q
    have hstep : s.acquireAll (r :: rest) = (s.acquireWrite r).acquireAll rest := rfl
    rw [hstep, ih]
    by_cases hq : q = .gpr 0
    · simp [hq]
    · rw [if_neg hq, if_neg hq, State.acquireWrite, State.rc_setRc]
      by_cases hr : q = r
      · subst hr; simp [hq]; omega
      · have hr' : ¬ r = q := fun h => hr h.symm
        simp [hr, hr']

/-- `releaseAll` takes from a register's count how often the list names it; GPR 0 is never counted (R38). -/
theorem State.rc_releaseAll (rs : List RegId) : ∀ (s : State) (q : RegId),
    (s.releaseAll rs).rc q = if q = .gpr 0 then 0 else s.rc q - rs.count q := by
  induction rs with
  | nil => intro s q; by_cases h : q = .gpr 0 <;> simp [State.releaseAll, h]
  | cons r rest ih =>
    intro s q
    have hstep : s.releaseAll (r :: rest) = (s.releaseWrite r).releaseAll rest := rfl
    rw [hstep, ih]
    by_cases hq : q = .gpr 0
    · simp [hq]
    · rw [if_neg hq, if_neg hq, State.releaseWrite, State.rc_setRc]
      by_cases hr : q = r
      · subst hr; simp [hq]; omega
      · have hr' : ¬ r = q := fun h => hr h.symm
        simp [hr, hr']

/-- Writing each register of a list from a table of values: a listed register other than GPR 0 reads as its value. -/
theorem State.readReg_writeAll (val : RegId → Word) (ds : List RegId) : ∀ (s : State) (q : RegId),
    (ds.foldl (fun t d => t.writeReg d (val d)) s).readReg q =
      if q ∈ ds ∧ q ≠ .gpr 0 then val q else s.readReg q := by
  induction ds with
  | nil => intro s q; simp
  | cons d rest ih =>
    intro s q
    rw [List.foldl_cons, ih, State.readReg_writeReg]
    by_cases hq : q = d
    · subst hq; by_cases h0 : q = .gpr 0 <;> simp [h0]
    · simp [hq]

/-- WB's register writes (R215): with `writeEnable`, each register of `dests` but GPR 0 reads as its value. -/
theorem State.readReg_writeDests (s : State) (r : InFlight) (q : RegId) :
    (s.writeDests r).readReg q =
      if r.writeEnable ∧ q ∈ r.dests ∧ q ≠ .gpr 0 then wbValue r q else s.readReg q := by
  simp only [State.writeDests]
  split
  · rename_i h; rw [State.readReg_writeAll]; simp [h]
  · rename_i h; simp [h]

/-! ### The flush of ID (R222) -/

theorem State.flushID_of_none {s : State} (h : s.slotID = none) : s.flushID = s := by
  simp only [State.flushID, h]

theorem State.flushID_haltFetched {s : State} {r : InFlight} (h : s.slotID = some r) :
    s.flushID.haltFetched = if r.op = .instr .halt then false else s.haltFetched := by
  simp only [State.flushID, h, State.releaseAll_haltFetched]

theorem State.rc_flushID {s : State} {r : InFlight} (h : s.slotID = some r) (q : RegId) :
    s.flushID.rc q = if q = .gpr 0 then 0 else s.rc q - r.dests.count q := by
  rw [← State.rc_releaseAll]
  apply State.rc_congr <;> simp only [State.flushID, h]

end Sys2Proof.Machine
end

