-- ==== Sys2Proof/Laws/Exec.lean ====
section
/-! SUPPORT. What `exec` answers in each stage, once for all instructions: the inversion lemmas that later proofs cite. -/

namespace Sys2Proof.Machine

/-! ### `runStages` by stage -/

theorem runStages_bubble {f : StageFns} {s : State} (h : s.slot s.phase = none) :
    runStages f s = .next (s.done .ok) := by
  simp only [runStages, h]

theorem runStages_if {f : StageFns} {s : State} {r : InFlight} (hp : s.phase = .IF) (hs : s.slotIF = some r) :
    runStages f s = .next (f.onIF r s) := by
  simp [runStages, State.slot, hp, hs]

theorem runStages_id {f : StageFns} {s : State} {r : InFlight} (hp : s.phase = .ID) (hs : s.slotID = some r) :
    runStages f s = .next (idStage f.operands f.dests f.idOutcome r s) := by
  simp [runStages, State.slot, hp, hs]

theorem runStages_ex {f : StageFns} {s : State} {r : InFlight} (hp : s.phase = .EX) (hs : s.slotEX = some r) :
    runStages f s = .next (f.onEX r s) := by
  simp [runStages, State.slot, hp, hs]

theorem runStages_mem {f : StageFns} {s : State} {r : InFlight} (hp : s.phase = .MEM) (hs : s.slotMEM = some r) :
    runStages f s = .next (f.onMEM r s) := by
  simp [runStages, State.slot, hp, hs]

theorem runStages_load {b : RegNum} {o : BitVec 16} {d : RegId} {n : Nat} {ext : Word → Word} {s : State} {r : InFlight}
    (hp : s.phase = .MEM) (hs : s.slotMEM = some r) :
    runStages (loadFns b o d n ext) s = .next (memLoad n ext r s) :=
  runStages_mem hp hs

theorem runStages_store {o : Operands} {offset : BitVec 16} {n : Nat} {s : State} {r : InFlight}
    (hp : s.phase = .MEM) (hs : s.slotMEM = some r) : runStages (storeFns o offset n) s = .next (memStore n r s) :=
  runStages_mem hp hs

theorem runStages_wb {f : StageFns} {s : State} {r : InFlight} (hp : s.phase = .WB) (hs : s.slotWB = some r) :
    runStages f s = .next (wbStage r s) := by
  simp [runStages, State.slot, hp, hs]

/-! ### `exec` by stage -/

/-- On a bubble nothing is done (R227). -/
theorem exec_bubble (i : Instr) {s : State} (h : s.slot s.phase = none) : exec i s = .next (s.done .ok) := by
  cases i <;> exact runStages_bubble h

/-- ID of every instruction, from the tables of its sources and destinations (R212). -/
theorem exec_id (i : Instr) {s : State} {r : InFlight} (hp : s.phase = .ID) (hs : s.slotID = some r) :
    exec i s = .next (idStage i.operands i.dests i.idOutcome r s) := by
  cases i <;> exact runStages_id hp hs

/-- WB of every instruction (R215). -/
theorem exec_wb (i : Instr) {s : State} {r : InFlight} (hp : s.phase = .WB) (hs : s.slotWB = some r) :
    exec i s = .next (wbStage r s) := by
  cases i <;> exact runStages_wb hp hs

/-- IF of a predicted branch (R262). -/
theorem exec_if_branch (i : Instr) {s : State} {r : InFlight} {op : BranchOp} {offset : BitVec 16}
    (hp : s.phase = .IF) (hs : s.slotIF = some r) (hb : i.branch? = some (op, offset)) :
    exec i s = .next (predictAtIF op offset r s) := by
  cases i <;> cases hb <;> exact runStages_if hp hs

/-- IF of HALT (R490). -/
theorem exec_if_halt {s : State} {r : InFlight} (hp : s.phase = .IF) (hs : s.slotIF = some r) :
    exec .halt s = .next { s with haltFetched := true, outcome := .ok } :=
  runStages_if hp hs

/-- IF of every other instruction does nothing of its own. -/
theorem exec_if_other (i : Instr) {s : State} {r : InFlight} (hp : s.phase = .IF) (hs : s.slotIF = some r)
    (hb : i.branch? = none) (hh : i ≠ .halt) : exec i s = .next (s.done .ok) := by
  cases i <;> first | exact absurd rfl hh | exact runStages_if hp hs | exact nomatch hb

/-- MEM of a store (R371). -/
theorem exec_mem_store (i : Instr) {s : State} {r : InFlight} {n : Nat} (hp : s.phase = .MEM)
    (hs : s.slotMEM = some r) (ha : i.access? = some n) (hi : i.isStore = true) : exec i s = .next (memStore n r s) := by
  cases i <;> first | (cases ha; exact runStages_store hp hs) | exact absurd (show false = true from hi) Bool.false_ne_true

/-- MEM of a load (R370). -/
theorem exec_mem_load (i : Instr) {s : State} {r : InFlight} {n : Nat} (hp : s.phase = .MEM)
    (hs : s.slotMEM = some r) (ha : i.access? = some n) (hi : i.isStore = false) :
    ∃ ext, exec i s = .next (memLoad n ext r s) := by
  cases i <;> first | (cases ha; exact ⟨_, runStages_load hp hs⟩) | exact absurd (show true = false from hi) (by decide) | exact nomatch ha

/-- "For every other instruction, MEM does nothing and returns Ok" (R213). -/
theorem exec_mem_other (i : Instr) {s : State} {r : InFlight} (hp : s.phase = .MEM) (hs : s.slotMEM = some r)
    (ha : i.access? = none) : exec i s = .next (s.done .ok) := by
  cases i <;> first | exact runStages_mem hp hs | exact nomatch ha

/-! ### EX: one inversion for all instructions -/

/-- What EX may do to the rest of the state (R210, R214): it writes its own record's latches `result`, `resultHi`, `writeEnable`
and `ea`, the FCSR and PT; it never answers RAW or Break. -/
structure ExEffect (r : InFlight) (s t : State) : Prop where
  frame : t = { s with slotEX := t.slotEX, fcsr := t.fcsr, pt := t.pt, outcome := t.outcome }
  record : ∃ v h w e, t.slotEX = some { r with result := v, resultHi := h, writeEnable := w, ea := e }
  notRaw : t.outcome ≠ .raw
  notBreak : t.outcome ≠ .fault .breakpoint

theorem exEffect_done {r : InFlight} {s : State} (hs : s.slotEX = some r) {o : StageOutcome} (h1 : o ≠ .raw)
    (h2 : o ≠ .fault .breakpoint) : ExEffect r s (s.done o) :=
  ⟨rfl, ⟨r.result, r.resultHi, r.writeEnable, r.ea, hs⟩, h1, h2⟩

theorem exEffect_value {r : InFlight} {s : State} (f : InFlight → Word) : ExEffect r s (exValue f r s) :=
  ⟨rfl, ⟨_, _, _, _, rfl⟩, by simp [exValue], by simp [exValue]⟩

theorem exEffect_checked {r : InFlight} {s : State} (hs : s.slotEX = some r) (f : InFlight → Except FaultKind Word)
    (hf : f r ≠ .error .breakpoint) : ExEffect r s (exChecked f r s) := by
  unfold exChecked
  split
  · rename_i k hk
    exact exEffect_done hs (by simp) (by intro h; cases h; exact hf hk)
  · exact ⟨rfl, ⟨_, _, _, _, rfl⟩, by simp, by simp⟩

theorem exEffect_hiLo {r : InFlight} {s : State} (hs : s.slotEX = some r)
    (f : InFlight → Except FaultKind (Word × Word)) (hf : f r ≠ .error .breakpoint) :
    ExEffect r s (exHiLo f r s) := by
  unfold exHiLo
  split
  · rename_i k hk
    exact exEffect_done hs (by simp) (by intro h; cases h; exact hf hk)
  · exact ⟨rfl, ⟨_, _, _, _, rfl⟩, by simp, by simp⟩

theorem exEffect_move {r : InFlight} {s : State} (c : InFlight → State → Bool) : ExEffect r s (exMove c r s) :=
  ⟨rfl, ⟨_, _, _, _, rfl⟩, by simp [exMove], by simp [exMove]⟩

theorem exEffect_address {r : InFlight} {s : State} (offset : BitVec 16) : ExEffect r s (exAddress offset r s) :=
  ⟨rfl, ⟨_, _, _, _, rfl⟩, by simp [exAddress], by simp [exAddress]⟩

theorem branchOutcome_ok_or (r : InFlight) (offset : BitVec 16) (taken : Bool) :
    branchOutcome r offset taken = .ok ∨ ∃ pc, branchOutcome r offset taken = .misprediction pc := by
  unfold branchOutcome
  split
  · exact .inr ⟨_, rfl⟩
  · split
    · exact .inr ⟨_, rfl⟩
    · exact .inl rfl

theorem exEffect_branch {r : InFlight} {s : State} (hs : s.slotEX = some r) (op : BranchOp) (offset : BitVec 16)
    (c : InFlight → State → Bool) : ExEffect r s (exBranch op offset c r s) := by
  refine ⟨?_, ⟨r.result, r.resultHi, r.writeEnable, r.ea, by simpa [exBranch] using hs⟩, ?_, ?_⟩
  · simp only [exBranch, State.trainPredictor]; split <;> rfl
  · rcases branchOutcome_ok_or r offset (c r s) with h | ⟨pc, h⟩ <;> simp [exBranch, h]
  · rcases branchOutcome_ok_or r offset (c r s) with h | ⟨pc, h⟩ <;> simp [exBranch, h]

theorem exEffect_jumpLink {r : InFlight} {s : State} (f : InFlight → Word) : ExEffect r s (exJumpLink f r s) :=
  ⟨rfl, ⟨_, _, _, _, rfl⟩, by simp [exJumpLink], by simp [exJumpLink]⟩

theorem exEffect_fp {r : InFlight} {s : State} (hs : s.slotEX = some r) (f : BitVec 32 → Word → Word → FpOut)
    (hf : (f (clearCause s.readFcsr) r.a r.b).value ≠ .error .breakpoint) : ExEffect r s (exFp f r s) := by
  unfold exFp
  simp only
  split
  · rename_i k hk
    exact ⟨rfl, ⟨r.result, r.resultHi, r.writeEnable, r.ea, hs⟩, by simp, by simp; intro h; exact hf (h ▸ hk)⟩
  · exact ⟨rfl, ⟨_, _, _, _, rfl⟩, by simp, by simp⟩

theorem exEffect_writeFcsr {r : InFlight} {s : State} (hs : s.slotEX = some r) (v : BitVec 32) :
    ExEffect r s ((s.writeFcsr v).done .ok) :=
  ⟨rfl, ⟨r.result, r.resultHi, r.writeEnable, r.ea, hs⟩, by simp, by simp⟩

/-! Which faults the EX functions can answer. -/

theorem narrow64_error {s : Int} {k : FaultKind} (h : narrow64 s = .error k) : k = .integerOverflow := by
  unfold narrow64 at h; split at h <;> cases h; rfl

theorem narrow32_error {s : Int} {k : FaultKind} (h : narrow32 s = .error k) : k = .integerOverflow := by
  unfold narrow32 at h; split at h <;> cases h; rfl

theorem signal_error {f : BitVec 32} {c : FpClass} {d : Word} {k : FaultKind} (h : (signal f c d).value = .error k) :
    c.fault = some k := by
  unfold signal at h
  simp only at h
  split at h
  · rename_i k' hk _; cases h; exact hk
  · cases h

/-- The four FP faults (R504 codes 5 to 8). -/
def FaultKind.isFp (k : FaultKind) : Prop := ∃ c : FpClass, c.fault = some k

theorem FaultKind.isFp_ne_break {k : FaultKind} (h : k.isFp) : k ≠ .breakpoint := by
  rintro rfl; obtain ⟨c, hc⟩ := h; cases c <;> cases hc

theorem signal_isFp {f : BitVec 32} {c : FpClass} {d : Word} {k : FaultKind} (h : (signal f c d).value = .error k) :
    k.isFp := ⟨c, signal_error h⟩

theorem Signals.isFp {f : BitVec 32} {out : FpOut} {k : FaultKind} (h : Signals f out) (hk : out.value = .error k) :
    k.isFp := by
  cases h with
  | quiet v h => subst h; cases hk
  | raises c d _ h => subst h; exact signal_isFp hk

theorem divHiLo_error {x y : Word} {k : FaultKind} :
    (ddivHiLo x y = .error k ∨ ddivuHiLo x y = .error k ∨ divHiLo x y = .error k ∨ divuHiLo x y = .error k) →
      k = .divideByZero := by
  rintro (h | h | h | h)
  · unfold ddivHiLo at h; split at h; cases h; rfl; split at h <;> cases h
  · unfold ddivuHiLo at h; split at h <;> cases h; rfl
  · unfold divHiLo at h; simp only at h; split at h; cases h; rfl; split at h <;> cases h
  · unfold divuHiLo at h; simp only at h; split at h <;> cases h; rfl

/-- EX of every instruction answers a next state with no more than `ExEffect`. -/
theorem exec_ex (i : Instr) {s : State} {r : InFlight} (hp : s.phase = .EX) (hs : s.slotEX = some r) :
    ∃ t, exec i s = .next t ∧ ExEffect r s t := by
  have key : ∀ (f : StageFns), exec i s = runStages f s → ExEffect r s (f.onEX r s) →
      ∃ t, exec i s = .next t ∧ ExEffect r s t :=
    fun f h h' => ⟨_, h.trans (runStages_ex hp hs), h'⟩
  have h64 : ∀ x, narrow64 x ≠ .error .breakpoint := fun x h => by cases narrow64_error h
  have h32 : ∀ x, narrow32 x ≠ .error .breakpoint := fun x h => by cases narrow32_error h
  have hd : ∀ x y, ddivHiLo x y ≠ .error .breakpoint ∧ ddivuHiLo x y ≠ .error .breakpoint ∧
      divHiLo x y ≠ .error .breakpoint ∧ divuHiLo x y ≠ .error .breakpoint := fun x y =>
    ⟨fun h => FaultKind.noConfusion (divHiLo_error (.inl h)),
      fun h => FaultKind.noConfusion (divHiLo_error (x := x) (y := y) (.inr (.inl h))),
      fun h => FaultKind.noConfusion (divHiLo_error (x := x) (y := y) (.inr (.inr (.inl h)))),
      fun h => FaultKind.noConfusion (divHiLo_error (x := x) (y := y) (.inr (.inr (.inr h))))⟩
  cases i with
  | dadd | dsub | daddi => exact key _ rfl (by dsimp only [aluTrapFns]; exact exEffect_checked hs _ (h64 _))
  | add | sub | addi => exact key _ rfl (by dsimp only [aluTrapFns]; exact exEffect_checked hs _ (h32 _))
  | dmult | dmultu | mult | multu => exact key _ rfl (by dsimp only [hiLoFns]; exact exEffect_hiLo hs _ (by simp))
  | ddiv => exact key _ rfl (by dsimp only [hiLoFns]; exact exEffect_hiLo hs _ (hd _ _).1)
  | ddivu => exact key _ rfl (by dsimp only [hiLoFns]; exact exEffect_hiLo hs _ (hd _ _).2.1)
  | div => exact key _ rfl (by dsimp only [hiLoFns]; exact exEffect_hiLo hs _ (hd _ _).2.2.1)
  | divu => exact key _ rfl (by dsimp only [hiLoFns]; exact exEffect_hiLo hs _ (hd _ _).2.2.2)
  | movz | movn | movzD | movnD | movfD | movtD => exact key _ rfl (by dsimp only [moveFns]; exact exEffect_move _)
  | lb | lbu | lh | lhu | lw | lwu | ld | sb | sh | sw | sd | lwc1 | ldc1 | swc1 | sdc1 =>
    exact key _ rfl (by dsimp only [loadFns, storeFns]; exact exEffect_address _)
  | beq | bne | beqz | bnez | bgez | bc1f | bc1t => exact key _ rfl (by dsimp only [branchFns]; exact exEffect_branch hs _ _ _)
  | j | jr => exact key _ rfl (by dsimp only [idle]; exact exEffect_done hs (by simp) (by simp))
  | jal | jalr => exact key _ rfl (by dsimp only ; exact exEffect_jumpLink _)
  | addD => exact key _ rfl (by dsimp only [fpArithFns]; exact exEffect_fp hs _ fun h => FaultKind.isFp_ne_break ((fpAdd_signals _ _ _).isFp h) rfl)
  | subD => exact key _ rfl (by dsimp only [fpArithFns]; exact exEffect_fp hs _ fun h => FaultKind.isFp_ne_break ((fpSub_signals _ _ _).isFp h) rfl)
  | mulD => exact key _ rfl (by dsimp only [fpArithFns]; exact exEffect_fp hs _ fun h => FaultKind.isFp_ne_break ((fpMul_signals _ _ _).isFp h) rfl)
  | divD => exact key _ rfl (by dsimp only [fpArithFns]; exact exEffect_fp hs _ fun h => FaultKind.isFp_ne_break ((fpDiv_signals _ _ _).isFp h) rfl)
  | cEqD | cLtD | cUnD | ctc1 => exact key _ rfl (by dsimp only [fpCompareFns]; exact exEffect_writeFcsr hs _)
  | cvtLD | cvtWD | cvtDL | cvtDW | cfc1 => exact key _ rfl ⟨rfl, ⟨_, _, _, _, rfl⟩, by simp [convertFns, exConvert, exCfc1],
      by simp [convertFns, exConvert, exCfc1]⟩
  | halt | nop | brk => exact key _ rfl (by dsimp only [idle]; exact exEffect_done hs (by simp) (by simp))
  | _ => exact key _ rfl (by dsimp only [aluFns]; exact exEffect_value _)

/-- Every instruction's meaning answers a next state in every stage: it never refuses and never faults. -/
theorem exec_next (i : Instr) (s : State) : ∃ t, exec i s = .next t := by
  have : ∀ f : StageFns, ∃ t, runStages f s = .next t := by
    intro f
    unfold runStages
    split
    · exact ⟨_, rfl⟩
    · split <;> exact ⟨_, rfl⟩
  cases i <;> exact this _

end Sys2Proof.Machine
end

