-- ==== Sys2Proof/Laws/Sparse.lean ====
section
/-! SUPPORT. Sparse lists: read after write, and that a write keeps the canonical form. -/

namespace Sys2Proof.Machine

/-- A key below every listed key reads as the default. -/
theorem Sparse.get_of_lt {β : Type} {d : β} {m : List (Nat × β)} {a : Nat} (h : ∀ p ∈ m, a < p.1) : Sparse.get d m a = d := by
  induction m with
  | nil => rfl
  | cons p rest ih =>
    obtain ⟨k, v⟩ := p
    have hk : k ≠ a := by have := h (k, v) List.mem_cons_self; simp only at this; omega
    rw [Sparse.get, if_neg hk]
    exact ih fun q hq => h q (List.mem_cons_of_mem _ hq)

variable {β : Type} [DecidableEq β] {d : β}

/-- A write leaves every other key as it was. -/
theorem Sparse.get_set_other (m : List (Nat × β)) {a b : Nat} (v : β) (h : b ≠ a) :
    Sparse.get d (Sparse.set d m a v) b = Sparse.get d m b := by
  induction m with
  | nil => simp only [Sparse.set]; split <;> simp [Sparse.get, h.symm]
  | cons p rest ih =>
    obtain ⟨k, w⟩ := p
    simp only [Sparse.set]
    split
    · split <;> simp [Sparse.get, h.symm]
    · split
      · rename_i hak
        split <;> simp [Sparse.get, ← hak, h.symm]
      · simp only [Sparse.get, ih]

/-- A key reads as what was written to it. -/
theorem Sparse.get_set_same {m : List (Nat × β)} (hm : Sparse.wf d m) (a : Nat) (v : β) :
    Sparse.get d (Sparse.set d m a v) a = v := by
  induction m with
  | nil => simp only [Sparse.set]; split <;> simp_all [Sparse.get]
  | cons p rest ih =>
    obtain ⟨k, w⟩ := p
    have hrest : ∀ q ∈ rest, k < q.1 := fun q hq => (List.pairwise_cons.mp hm.1).1 q hq
    simp only [Sparse.set]
    split
    · split
      · rename_i hv
        rw [hv]
        refine Sparse.get_of_lt fun q hq => ?_
        rcases List.mem_cons.mp hq with rfl | hq
        · assumption
        · have := hrest q hq; omega
      · simp [Sparse.get]
    · split
      · rename_i hak
        split
        · rename_i hv
          rw [hv]
          exact Sparse.get_of_lt fun q hq => hak ▸ hrest q hq
        · simp [Sparse.get]
      · rename_i hlt hne
        rw [Sparse.get, if_neg (fun h => hne h.symm)]
        exact ih ⟨(List.pairwise_cons.mp hm.1).2, fun q hq => hm.2 q (List.mem_cons_of_mem _ hq)⟩

/-- The keys after a write are the old ones and the one written. -/
theorem Sparse.mem_set {m : List (Nat × β)} {a : Nat} {v : β} {p : Nat × β} (h : p ∈ Sparse.set d m a v) :
    p ∈ m ∨ p = (a, v) := by
  induction m with
  | nil => simp only [Sparse.set] at h; split at h <;> simp_all
  | cons q rest ih =>
    obtain ⟨k, w⟩ := q
    simp only [Sparse.set] at h
    split at h
    · split at h <;> simp_all; tauto
    · split at h
      · split at h <;> simp_all; tauto
      · rcases List.mem_cons.mp h with rfl | h
        · simp
        · rcases ih h with h | h
          · exact .inl (List.mem_cons_of_mem _ h)
          · exact .inr h

/-- A write keeps the canonical form. -/
theorem Sparse.set_wf {m : List (Nat × β)} (hm : Sparse.wf d m) (a : Nat) (v : β) :
    Sparse.wf d (Sparse.set d m a v) := by
  induction m with
  | nil => simp only [Sparse.set]; split <;> simp_all [Sparse.wf]
  | cons p rest ih =>
    obtain ⟨k, w⟩ := p
    have hrest : ∀ q ∈ rest, k < q.1 := fun q hq => (List.pairwise_cons.mp hm.1).1 q hq
    have hw : Sparse.wf d rest :=
      ⟨(List.pairwise_cons.mp hm.1).2, fun q hq => hm.2 q (List.mem_cons_of_mem _ hq)⟩
    simp only [Sparse.set]
    split
    · split
      · exact hm
      · rename_i hlt hv
        refine ⟨List.pairwise_cons.mpr ⟨fun q hq => ?_, hm.1⟩, fun q hq => ?_⟩
        · rcases List.mem_cons.mp hq with rfl | hq
          · exact hlt
          · have := hrest q hq; simp only; omega
        · rcases List.mem_cons.mp hq with rfl | hq
          · exact hv
          · exact hm.2 q hq
    · split
      · rename_i hak
        split
        · exact hw
        · rename_i hv
          refine ⟨List.pairwise_cons.mpr ⟨fun q hq => hak ▸ hrest q hq, hw.1⟩, fun q hq => ?_⟩
          rcases List.mem_cons.mp hq with rfl | hq
          · exact hv
          · exact hw.2 q hq
      · rename_i hlt hne
        refine ⟨List.pairwise_cons.mpr ⟨fun q hq => ?_, (ih hw).1⟩, fun q hq => ?_⟩
        · rcases Sparse.mem_set hq with hq | rfl
          · exact hrest q hq
          · simp only; omega
        · rcases List.mem_cons.mp hq with rfl | hq
          · exact hm.2 _ List.mem_cons_self
          · exact (ih hw).2 q hq

omit [DecidableEq β] in
/-- Canonical lists that read alike are the same list. -/
theorem Sparse.ext {m n : List (Nat × β)} (hm : Sparse.wf d m) (hn : Sparse.wf d n)
    (h : ∀ a, Sparse.get d m a = Sparse.get d n a) : m = n := by
  induction m generalizing n with
  | nil =>
    cases n with
    | nil => rfl
    | cons q _ =>
      have := h q.1
      simp [Sparse.get] at this
      exact absurd this.symm (hn.2 q List.mem_cons_self)
  | cons p rest ih =>
    cases n with
    | nil =>
      have := h p.1
      simp [Sparse.get] at this
      exact absurd this (hm.2 p List.mem_cons_self)
    | cons q rest' =>
      obtain ⟨k, v⟩ := p
      obtain ⟨k', v'⟩ := q
      have hk : ∀ x ∈ rest, k < x.1 := fun x hx => (List.pairwise_cons.mp hm.1).1 x hx
      have hk' : ∀ x ∈ rest', k' < x.1 := fun x hx => (List.pairwise_cons.mp hn.1).1 x hx
      have hv : v ≠ d := hm.2 _ List.mem_cons_self
      have hv' : v' ≠ d := hn.2 _ List.mem_cons_self
      have hkk : k = k' := by
        rcases Nat.lt_trichotomy k k' with hlt | heq | hlt
        · have h1 := h k
          rw [Sparse.get_of_lt (m := (k', v') :: rest')] at h1
          · simp [Sparse.get] at h1; exact absurd h1 hv
          · intro x hx
            rcases List.mem_cons.mp hx with rfl | hx
            · exact hlt
            · have := hk' x hx; omega
        · exact heq
        · have h1 := h k'
          rw [Sparse.get_of_lt (m := (k, v) :: rest)] at h1
          · simp [Sparse.get] at h1; exact absurd h1.symm hv'
          · intro x hx
            rcases List.mem_cons.mp hx with rfl | hx
            · exact hlt
            · have := hk x hx; omega
      subst hkk
      have hvv : v = v' := by simpa [Sparse.get] using h k
      subst hvv
      have := ih ⟨(List.pairwise_cons.mp hm.1).2, fun x hx => hm.2 x (List.mem_cons_of_mem _ hx)⟩
        ⟨(List.pairwise_cons.mp hn.1).2, fun x hx => hn.2 x (List.mem_cons_of_mem _ hx)⟩ (fun a => by
          by_cases ha : k = a
          · subst ha; rw [Sparse.get_of_lt hk, Sparse.get_of_lt hk']
          · simpa [Sparse.get, ha] using h a)
      rw [this]

/-! ### Data memory and the predictor table -/

theorem Memory.read_write_same {m : Memory} (hm : Memory.wf m) (a : Nat) (v : Byte) : (m.write a v).read a = v :=
  Sparse.get_set_same hm a v

theorem Memory.read_write_other (m : Memory) {a b : Nat} (v : Byte) (h : b ≠ a) : (m.write a v).read b = m.read b :=
  Sparse.get_set_other m v h

theorem Memory.write_wf {m : Memory} (hm : Memory.wf m) (a : Nat) (v : Byte) : Memory.wf (m.write a v) :=
  Sparse.set_wf hm a v

@[simp] theorem Memory.read_nil (a : Nat) : Memory.read [] a = 0 := rfl

theorem Memory.nil_wf : Memory.wf [] := by simp [Memory.wf, Sparse.wf]

theorem PredTable.read_write_same {t : PredTable} (ht : PredTable.wf t) (i : Nat) (v : BitVec 2) :
    (t.write i v).read i = v :=
  Sparse.get_set_same ht.1 i v

theorem PredTable.read_write_other (t : PredTable) {i j : Nat} (v : BitVec 2) (h : j ≠ i) :
    (t.write i v).read j = t.read j :=
  Sparse.get_set_other t v h

theorem PredTable.write_wf {t : PredTable} (ht : PredTable.wf t) {i : Nat} (hi : i < 4096) (v : BitVec 2) :
    PredTable.wf (t.write i v) := by
  refine ⟨Sparse.set_wf ht.1 i v, fun p hp => ?_⟩
  rcases Sparse.mem_set hp with h | rfl
  · exact ht.2 p h
  · exact hi

@[simp] theorem PredTable.read_nil (i : Nat) : PredTable.read [] i = 1 := rfl

theorem PredTable.nil_wf : PredTable.wf [] := by simp [PredTable.wf, Sparse.wf]

end Sys2Proof.Machine
end

