-- ==== Sys2Proof/Laws/Memory.lean ====
section
/-! SUPPORT. Data memory: what a load reads and what a store changes, under either byte order. -/

namespace Sys2Proof.Machine

/-! ### Numbers and their bytes -/

theorem byteOf_toNat (v : Word) (j : Nat) : (byteOf v j).toNat = v.toNat / 2 ^ (8 * j) % 256 := by
  simp [byteOf, BitVec.extractLsb'_toNat, Nat.shiftRight_eq_div_pow]

theorem numberOfBytes_big (bs : List Byte) : numberOfBytes .big bs = numberOfBytes .little bs.reverse := by
  simp [numberOfBytes, List.foldr_reverse]

theorem bytesOfNumber_big (n : Nat) (v : Word) : bytesOfNumber .big n v = (bytesOfNumber .little n v).reverse := by
  simp only [bytesOfNumber]
  apply List.ext_getElem
  · simp
  · intro i h1 h2
    simp [List.getElem_reverse]

@[simp] theorem bytesOfNumber_length (order : ByteOrder) (n : Nat) (v : Word) :
    (bytesOfNumber order n v).length = n := by
  cases order <;> simp [bytesOfNumber]

theorem numberOfBytes_little_append (bs : List Byte) (b : Byte) :
    numberOfBytes .little (bs ++ [b]) = numberOfBytes .little bs + b.toNat * 256 ^ bs.length := by
  induction bs with
  | nil => simp [numberOfBytes]
  | cons c cs ih =>
    simp only [numberOfBytes, List.cons_append, List.foldr_cons, List.length_cons] at ih ⊢
    rw [ih]; ring

theorem numberOfBytes_lt (order : ByteOrder) (bs : List Byte) : numberOfBytes order bs < 256 ^ bs.length := by
  have little : ∀ bs : List Byte, numberOfBytes .little bs < 256 ^ bs.length := by
    intro bs
    induction bs with
    | nil => simp [numberOfBytes]
    | cons c cs ih =>
      simp only [numberOfBytes, List.foldr_cons, List.length_cons] at ih ⊢
      have := c.isLt
      rw [pow_succ]; omega
  cases order with
  | little => exact little bs
  | big => rw [numberOfBytes_big, ← List.length_reverse]; exact little _

/-- The number of the low n bytes of a value is its low 8n bits. -/
theorem numberOfBytes_bytesOfNumber (order : ByteOrder) (n : Nat) (v : Word) :
    numberOfBytes order (bytesOfNumber order n v) = v.toNat % 2 ^ (8 * n) := by
  have little : ∀ n, numberOfBytes .little (bytesOfNumber .little n v) = v.toNat % 2 ^ (8 * n) := by
    intro n
    induction n with
    | zero => simp [numberOfBytes, bytesOfNumber, Nat.mod_one]
    | succ n ih =>
      have hs : bytesOfNumber .little (n + 1) v = bytesOfNumber .little n v ++ [byteOf v n] := by
        simp [bytesOfNumber, List.range_succ]
      have h2 : (2 : Nat) ^ (8 * (n + 1)) = 2 ^ (8 * n) * 256 := by rw [Nat.mul_succ, pow_add]; rfl
      have h3 : (256 : Nat) ^ n = 2 ^ (8 * n) := by rw [pow_mul]; rfl
      rw [hs, numberOfBytes_little_append, ih, byteOf_toNat, bytesOfNumber_length, h2, h3,
        Nat.mod_mul, Nat.mul_comm (2 ^ (8 * n))]
  cases order with
  | little => exact little n
  | big => rw [bytesOfNumber_big, numberOfBytes_big, List.reverse_reverse]; exact little n

/-! ### Where the bytes of a cell lie (R82) -/

/-- The bytes of a cell are listed within that cell. -/
theorem laneOf_div (order : ByteOrder) (a : Nat) : laneOf order a / 8 = a / 8 := by
  cases order <;> simp only [laneOf]; omega

theorem laneOf_injective (order : ByteOrder) {a b : Nat} (h : laneOf order a = laneOf order b) : a = b := by
  cases order <;> simp only [laneOf] at h <;> omega

theorem laneOf_lt (order : ByteOrder) {a bound : Nat} (hb : bound % 8 = 0) (h : a < bound) : laneOf order a < bound := by
  have := laneOf_div order a; omega

theorem Memory.byteAt_setByte_same {m : Memory} (h : Memory.wf m) (order : ByteOrder) (a : Nat) (b : Byte) :
    (m.setByte order a b).byteAt order a = b :=
  Memory.read_write_same h _ b

theorem Memory.byteAt_setByte_other (m : Memory) (order : ByteOrder) {a x : Nat} (b : Byte) (h : x ≠ a) :
    (m.setByte order a b).byteAt order x = m.byteAt order x :=
  Memory.read_write_other m b fun e => h (laneOf_injective order e)

theorem Memory.setByte_wf {m : Memory} (h : Memory.wf m) (order : ByteOrder) (a : Nat) (b : Byte) :
    Memory.wf (m.setByte order a b) :=
  Memory.write_wf h _ b

/-- Canonical memories whose bytes agree in one byte order are the same. -/
theorem Memory.ext_byteAt {m n : Memory} (hm : Memory.wf m) (hn : Memory.wf n) (order : ByteOrder)
    (h : ∀ a, m.byteAt order a = n.byteAt order a) : m = n := by
  refine Sparse.ext hm hn fun a => ?_
  have key : ∀ order a, ∃ b, laneOf order b = a := by
    intro order a
    refine ⟨laneOf order a, ?_⟩
    cases order <;> simp only [laneOf]; omega
  obtain ⟨b, rfl⟩ := key order a
  exact h b

/-! ### Stores -/

/-- Bytes outside a run of written bytes read as before. -/
theorem Memory.byteAt_writeBytes_outside (order : ByteOrder) (bs : List Byte) : ∀ (m : Memory) (a x : Nat),
    x < a ∨ a + bs.length ≤ x → (m.writeBytes order a bs).byteAt order x = m.byteAt order x := by
  induction bs with
  | nil => intros; rfl
  | cons b rest ih =>
    intro m a x h
    simp only [List.length_cons] at h
    rw [Memory.writeBytes, ih _ _ _ (by omega), Memory.byteAt_setByte_other _ _ _ (by omega)]

theorem Memory.writeBytes_wf (order : ByteOrder) (bs : List Byte) : ∀ {m : Memory}, Memory.wf m → ∀ a,
    Memory.wf (m.writeBytes order a bs) := by
  induction bs with
  | nil => intro m h _; exact h
  | cons b rest ih => intro m h a; exact ih (Memory.setByte_wf h order a b) _

/-- The bytes of a run of written bytes read as written. -/
theorem Memory.readBytes_writeBytes (order : ByteOrder) (bs : List Byte) : ∀ {m : Memory}, Memory.wf m → ∀ a,
    (m.writeBytes order a bs).readBytes order a bs.length = bs := by
  induction bs with
  | nil => intros; rfl
  | cons b rest ih =>
    intro m h a
    have h1 := ih (Memory.setByte_wf h order a b) (a + 1)
    simp only [Memory.readBytes, List.length_cons, List.range_succ_eq_map, List.map_cons, List.map_map,
      Memory.writeBytes] at h1 ⊢
    refine List.cons_eq_cons.mpr ⟨?_, ?_⟩
    · rw [Memory.byteAt_writeBytes_outside _ _ _ _ _ (by omega)]
      exact Memory.byteAt_setByte_same h order a b
    · conv_rhs => rw [← h1]
      apply List.map_congr_left
      intro j _
      simp only [Function.comp]
      congr 1; omega

/-- Every listed byte after a run of writes was listed before or lies in the run. -/
theorem Memory.mem_writeBytes (order : ByteOrder) (bs : List Byte) : ∀ {m : Memory} {a : Nat} {p : Host.Cell},
    p ∈ m.writeBytes order a bs → p ∈ m ∨ ∃ x, a ≤ x ∧ x < a + bs.length ∧ p.1 = laneOf order x := by
  induction bs with
  | nil => intro m a p h; exact .inl h
  | cons b rest ih =>
    intro m a p h
    simp only [List.length_cons]
    rcases ih h with h | h
    · rcases Sparse.mem_set h with h | rfl
      · exact .inl h
      · exact .inr ⟨a, le_refl _, by omega, rfl⟩
    · obtain ⟨x, h1, h2, h3⟩ := h
      exact .inr ⟨x, by omega, by omega, h3⟩

/-- A store changes no byte outside the bytes stored. -/
theorem Memory.byteAt_store_outside (m : Memory) (order : ByteOrder) (a n : Nat) (v : Word) (x : Nat)
    (h : x < a ∨ a + n ≤ x) : (m.store order a n v).byteAt order x = m.byteAt order x :=
  Memory.byteAt_writeBytes_outside order _ m a x (by rwa [bytesOfNumber_length])

theorem Memory.store_wf {m : Memory} (h : Memory.wf m) (order : ByteOrder) (a n : Nat) (v : Word) :
    Memory.wf (m.store order a n v) :=
  Memory.writeBytes_wf order _ h a

/-- A store lists no byte beyond a bound that the bytes stored stay within. -/
theorem Memory.store_bound {m : Memory} {bound : Nat} (h : ∀ p ∈ m, p.1 < bound) (order : ByteOrder) (a n : Nat)
    (v : Word) (hb : a + n ≤ bound) (h8 : bound % 8 = 0) : ∀ p ∈ m.store order a n v, p.1 < bound := by
  intro p hp
  rcases Memory.mem_writeBytes order _ hp with hp | ⟨x, _, hx, hp⟩
  · exact h p hp
  · rw [bytesOfNumber_length] at hx
    rw [hp]; exact laneOf_lt order h8 (by omega)

/-- A load of the bytes just stored gives the low 8n bits of the value stored, under either byte order. -/
theorem Memory.load_store_same {m : Memory} (h : Memory.wf m) (order : ByteOrder) (a n : Nat) (v : Word) :
    (m.store order a n v).load order a n = BitVec.ofNat 64 (v.toNat % 2 ^ (8 * n)) := by
  have hr := Memory.readBytes_writeBytes order (bytesOfNumber order n v) h a
  rw [bytesOfNumber_length] at hr
  rw [Memory.load, Memory.store, hr, numberOfBytes_bytesOfNumber]

/-- A load depends only on the bytes loaded. -/
theorem Memory.load_congr {m m' : Memory} (order : ByteOrder) (a n : Nat)
    (h : ∀ j, j < n → m.byteAt order (a + j) = m'.byteAt order (a + j)) : m.load order a n = m'.load order a n := by
  have : m.readBytes order a n = m'.readBytes order a n := by
    simp only [Memory.readBytes]
    exact List.map_congr_left fun j hj => h j (List.mem_range.mp hj)
  rw [Memory.load, Memory.load, this]

/-- A load of other bytes is not changed by a store. -/
theorem Memory.load_store_other (m : Memory) (order : ByteOrder) (a n b k : Nat) (v : Word)
    (h : b + k ≤ a ∨ a + n ≤ b) : (m.store order a n v).load order b k = m.load order b k :=
  Memory.load_congr order b k fun j hj => Memory.byteAt_store_outside m order a n v _ (by omega)

/-! ### Loads of part of a wider load -/

/-- The bytes of a cell, or fewer, make a number below 2^64. -/
theorem Memory.numberOfBytes_readBytes_lt (order) (m : Memory) (a n : Nat) (h : n ≤ 8) : numberOfBytes order (m.readBytes order a n) < 2^64 := by
  have := numberOfBytes_lt order (m.readBytes order a n)
  simp only [Memory.readBytes, List.length_map, List.length_range] at this
  exact this.trans_le ((Nat.pow_le_pow_right (by norm_num) h).trans (by norm_num))

/-- A load is the number its bytes make. -/
theorem Memory.load_toNat (order) (m : Memory) (a n : Nat) (h : n ≤ 8) : (m.load order a n).toNat = numberOfBytes order (m.readBytes order a n) := by
  rw [Memory.load, BitVec.toNat_ofNat, Nat.mod_eq_of_lt (Memory.numberOfBytes_readBytes_lt order m a n h)]

/-- The number of two runs of bytes, the first of less weight. -/
theorem numberOfBytes_little_append_list (bs cs : List Byte) : numberOfBytes .little (bs ++ cs) = numberOfBytes .little bs + 256 ^ bs.length * numberOfBytes .little cs := by
  induction bs with
  | nil => simp [numberOfBytes]
  | cons b rest ih => simp only [numberOfBytes, List.cons_append, List.foldr_cons, List.length_cons] at ih ⊢; rw [ih]; ring

/-- The number of two runs of bytes, the first of more weight. -/
theorem numberOfBytes_big_append (bs cs : List Byte) : numberOfBytes .big (bs ++ cs) = numberOfBytes .big cs + 256 ^ cs.length * numberOfBytes .big bs := by
  simp only [numberOfBytes_big, List.reverse_append, numberOfBytes_little_append_list, List.length_reverse]

/-- A run of bytes is read in two parts. -/
theorem Memory.readBytes_add (m : Memory) (order : ByteOrder) (a j k : Nat) :
    m.readBytes order a (j + k) = m.readBytes order a j ++ m.readBytes order (a + j) k := by
  simp only [Memory.readBytes, List.range_add, List.map_append, List.map_map]
  congr 1; apply List.map_congr_left; intro x _; simp [Nat.add_assoc]

theorem Memory.readBytes_length (m : Memory) (order : ByteOrder) (a j : Nat) : (m.readBytes order a j).length = j := by simp [Memory.readBytes]

/-- A load of bytes within a wider load, least significant byte first (R84). -/
theorem Memory.load_little_within (m : Memory) (a k n w : Nat) (h : k + n ≤ w) (hw : w ≤ 8) :
    (m.load .little (a + k) n).toNat = (m.load .little a w).toNat / 2 ^ (8 * k) % 2 ^ (8 * n) := by
  obtain ⟨l, rfl⟩ := Nat.exists_eq_add_of_le h
  rw [Memory.load_toNat _ _ _ _ (by omega), Memory.load_toNat _ _ _ _ hw, Memory.readBytes_add, Memory.readBytes_add, numberOfBytes_little_append_list, numberOfBytes_little_append_list]
  simp only [List.length_append, Memory.readBytes_length]
  have hlt1 := numberOfBytes_lt .little (m.readBytes .little a k)
  have hlt2 := numberOfBytes_lt .little (m.readBytes .little (a+k) n)
  rw [Memory.readBytes_length] at hlt1 hlt2
  rw [show (2:Nat)^(8*k) = 256^k by rw [pow_mul]; rfl, show (2:Nat)^(8*n) = 256^n by rw [pow_mul]; rfl]
  rw [pow_add, Nat.add_assoc, Nat.mul_assoc, ← Nat.mul_add, Nat.add_mul_div_left _ _ (by positivity), Nat.div_eq_of_lt hlt1, Nat.zero_add, Nat.add_mul_mod_self_left, Nat.mod_eq_of_lt hlt2]

/-- A load of bytes within a wider load, most significant byte first. -/
theorem Memory.load_big_within (m : Memory) (a k n w : Nat) (h : k + n ≤ w) (hw : w ≤ 8) :
    (m.load .big (a + k) n).toNat = (m.load .big a w).toNat / 2 ^ (8 * (w - k - n)) % 2 ^ (8 * n) := by
  obtain ⟨l, rfl⟩ := Nat.exists_eq_add_of_le h
  rw [Memory.load_toNat _ _ _ _ (by omega), Memory.load_toNat _ _ _ _ hw, Memory.readBytes_add, Memory.readBytes_add, numberOfBytes_big_append, numberOfBytes_big_append]
  simp only [Memory.readBytes_length, show k + n + l - k - n = l by omega]
  have hlt1 := numberOfBytes_lt .big (m.readBytes .big (a+(k+n)) l)
  have hlt2 := numberOfBytes_lt .big (m.readBytes .big (a+k) n)
  rw [Memory.readBytes_length] at hlt1 hlt2
  rw [show (2:Nat)^(8*l) = 256^l by rw [pow_mul]; rfl, show (2:Nat)^(8*n) = 256^n by rw [pow_mul]; rfl]
  rw [Nat.add_mul_div_left _ _ (by positivity), Nat.div_eq_of_lt hlt1, Nat.zero_add, Nat.add_mul_mod_self_left, Nat.mod_eq_of_lt hlt2]

/-- Bit j of a load, in the byte that holds it. -/
theorem Memory.getLsbD_load_little (m : Memory) (a w j : Nat) (hw : w ≤ 8) (hj : j < 8 * w) :
    (m.load .little a w).getLsbD j = (m.byteAt .little (a + j / 8)).getLsbD (j % 8) := by
  have h := Memory.load_little_within m a (j/8) 1 w (by omega) hw
  have h1 : (m.load .little (a + j/8) 1).toNat = (m.byteAt .little (a + j / 8)).toNat := by
    rw [Memory.load_toNat _ _ _ _ (by norm_num)]; simp [Memory.readBytes, numberOfBytes, List.range, List.range.loop]
  rw [h1] at h
  rw [BitVec.getLsbD, BitVec.getLsbD, h, Nat.testBit_mod_two_pow, Nat.testBit_div_two_pow]
  simp [show j % 8 < 8 from Nat.mod_lt _ (by norm_num)]; congr 1; omega

/-- Bit j of a load, in the byte that holds it. -/
theorem Memory.getLsbD_load_big (m : Memory) (a w j : Nat) (hw : w ≤ 8) (hj : j < 8 * w) :
    (m.load .big a w).getLsbD j = (m.byteAt .big (a + (w - 1 - j / 8))).getLsbD (j % 8) := by
  have h := Memory.load_big_within m a (w - 1 - j/8) 1 w (by omega) hw
  have h1 : (m.load .big (a + (w - 1 - j / 8)) 1).toNat = (m.byteAt .big (a + (w - 1 - j / 8))).toNat := by
    rw [Memory.load_toNat _ _ _ _ (by norm_num)]; simp [Memory.readBytes, numberOfBytes, List.range, List.range.loop]
  rw [h1] at h
  rw [BitVec.getLsbD, BitVec.getLsbD, h, Nat.testBit_mod_two_pow, Nat.testBit_div_two_pow]
  simp [show j % 8 < 8 from Nat.mod_lt _ (by norm_num)]; congr 1; omega

/-- Every byte after a store. -/
theorem Memory.byteAt_store {m : Memory} (h : Memory.wf m) (order : ByteOrder) (a n : Nat) (v : Word) (x : Nat) :
    (m.store order a n v).byteAt order x = if a ≤ x ∧ x < a + n then
      (match order with
        | .big => byteOf v (a + n - 1 - x)
        | .little => byteOf v (x - a)) else m.byteAt order x := by
  split
  · rename_i hx
    have hr := Memory.readBytes_writeBytes order (bytesOfNumber order n v) h a
    rw [bytesOfNumber_length] at hr
    have h2 := congrArg (fun l => l[x - a]?) hr
    simp only [Memory.readBytes] at h2
    rw [List.getElem?_map, List.getElem?_range (by omega)] at h2
    simp only [Option.map_some, show a + (x - a) = x by omega] at h2
    cases order with
    | little =>
      simp only [bytesOfNumber] at h2
      rw [List.getElem?_map, List.getElem?_range (by omega)] at h2
      simpa [Memory.store, bytesOfNumber] using h2
    | big =>
      simp only [bytesOfNumber] at h2
      rw [List.getElem?_map, List.getElem?_range (by omega)] at h2
      rw [show a + n - 1 - x = n - 1 - (x - a) by omega]
      simpa [Memory.store, bytesOfNumber] using h2
  · exact Memory.byteAt_store_outside m order a n v x (by omega)

/-! ### Cells and doublewords (R80, R86) -/

/-- The bytes of a cell read for Big are those read for Little in the other order. -/
theorem Memory.readBytes_big_double (m : Memory) {a : Nat} (h : a % 8 = 0) :
    m.readBytes .big a 8 = (m.readBytes .little a 8).reverse := by
  have key : ∀ j, j < 8 → m.byteAt .big (a + j) = m.byteAt .little (a + (7 - j)) := fun j hj => by
    simp only [Memory.byteAt, laneOf]; congr 1; omega
  have h0 := key 0 (by norm_num)
  rw [Nat.add_zero] at h0
  simp [Memory.readBytes, List.range_succ, key, h0]

/-- A doubleword read is the cell, under either byte order (R86). -/
theorem Memory.load_double (m : Memory) (order : ByteOrder) {a : Nat} (h : a % 8 = 0) : m.load order a 8 = m.cell a := by
  cases order with
  | little => rfl
  | big =>
    rw [Memory.cell, Memory.load, Memory.load, numberOfBytes_big, Memory.readBytes_big_double m h, List.reverse_reverse]

/-- The cell after a doubleword store of either byte order is the value stored (R86). -/
theorem Memory.cell_store_double {m : Memory} (hm : Memory.wf m) (order : ByteOrder) {a : Nat} (h : a % 8 = 0) (v : Word) :
    (m.store order a 8 v).cell a = v := by
  rw [← Memory.load_double _ order h, Memory.load_store_same hm]
  apply BitVec.eq_of_toNat_eq
  simpa using v.isLt

/-- A store leaves every other cell as it was. -/
theorem Memory.cell_store_other (m : Memory) (order : ByteOrder) {a n c : Nat} (v : Word) (hc : c % 8 = 0)
    (h : c + 8 ≤ a ∨ a + n ≤ c) : (m.store order a n v).cell c = m.cell c := by
  rw [← Memory.load_double _ order hc, ← Memory.load_double _ order hc, Memory.load_store_other _ _ _ _ _ _ _ h]

/-- The byte at a data address is the byte of its cell that R82 names. -/
theorem Memory.byteAt_eq_cell (m : Memory) (order : ByteOrder) (a : Nat) :
    m.byteAt order a = (m.cell (a - a % 8)).extractLsb' (match order with | .big => 56 - 8 * (a % 8) | .little => 8 * (a % 8)) 8 := by
  have key : ∀ k, k < 8 → m.byteAt .little (a - a % 8 + k) = (m.cell (a - a % 8)).extractLsb' (8 * k) 8 := by
    intro k hk
    apply BitVec.eq_of_getLsbD_eq
    intro i hi
    rw [BitVec.getLsbD_extractLsb', Memory.cell, Memory.getLsbD_load_little m _ 8 _ (le_refl _) (by omega)]
    simp only [hi, decide_true, Bool.true_and]
    congr 2 <;> omega
  cases order with
  | little =>
    have h := key (a % 8) (by omega)
    rwa [show a - a % 8 + a % 8 = a by omega] at h
  | big =>
    have h := key (7 - a % 8) (by omega)
    rw [show 8 * (7 - a % 8) = 56 - 8 * (a % 8) by omega] at h
    exact h

/-- A doubleword store of either byte order sets the cell (R86). -/
theorem Memory.store_double {m : Memory} (hm : Memory.wf m) (order : ByteOrder) {a : Nat} (h : a % 8 = 0) (v : Word) :
    m.store order a 8 v = m.setCell a v := by
  refine Memory.ext_byteAt (Memory.store_wf hm _ _ _ _) (Memory.store_wf hm _ _ _ _) .little fun x => ?_
  rw [Memory.byteAt_eq_cell, Memory.byteAt_eq_cell]
  by_cases hx : x - x % 8 = a
  · rw [hx, Memory.cell_store_double hm order h]
    exact congrArg _ (Memory.cell_store_double hm .little h v).symm
  · rw [Memory.cell_store_other m order v (by omega) (by omega)]
    exact congrArg _ (Memory.cell_store_other m .little v (by omega) (by omega)).symm

/-! ### What the host does to data memory -/

/-- The list with the entries of some keys only, read at a key. -/
theorem Sparse.get_filter {β : Type} (d : β) (keep : Nat → Bool) (m : List (Nat × β)) (a : Nat) :
    Sparse.get d (m.filter (fun p => keep p.1)) a = if keep a then Sparse.get d m a else d := by
  induction m with
  | nil => simp [Sparse.get]
  | cons p rest ih =>
    obtain ⟨k, v⟩ := p
    by_cases hk : keep k = true <;> by_cases ha : k = a <;> simp_all [Sparse.get]

theorem Sparse.filter_wf {β : Type} {d : β} {m : List (Nat × β)} (h : Sparse.wf d m) (keep : Nat × β → Bool) :
    Sparse.wf d (m.filter keep) :=
  ⟨h.1.filter _, fun p hp => h.2 p (List.mem_filter.mp hp).1⟩

/-- Cells that list the same bytes are equal. -/
theorem Memory.cell_congr {m n : Memory} {a : Nat} (h : ∀ j, j < 8 → m.read (a + j) = n.read (a + j)) :
    m.cell a = n.cell a :=
  Memory.load_congr .little a 8 h

end Sys2Proof.Machine
end

