-- ==== Sys2Proof/Laws/Alone.lean ====
section
/-! SUPPORT. One instruction taken alone from ID to WB: what each stage hands to the next, for statements about a whole instruction. -/

namespace Sys2Proof.Machine

/-- The two states read alike: registers, memory, FCSR, PT and configuration. -/
structure Alike (s t : State) : Prop where
  regs : ∀ q, t.readReg q = s.readReg q
  mem : t.mem = s.mem
  fcsr : t.fcsr = s.fcsr
  pt : t.pt = s.pt
  cfg : t.cfg = s.cfg

theorem Alike.trans {s t u : State} (h : Alike s t) (k : Alike t u) : Alike s u :=
  ⟨fun q => (k.regs q).trans (h.regs q), k.mem.trans h.mem, k.fcsr.trans h.fcsr, k.pt.trans h.pt, k.cfg.trans h.cfg⟩

theorem alike_of {s t : State} (h1 : t.gpr = s.gpr) (h2 : t.fpr = s.fpr) (h3 : t.hi = s.hi) (h4 : t.lo = s.lo)
    (h5 : t.mem = s.mem) (h6 : t.fcsr = s.fcsr) (h7 : t.pt = s.pt) (h8 : t.cfg = s.cfg) : Alike s t :=
  ⟨State.readReg_congr h1 h2 h3 h4, h5, h6, h7, h8⟩

theorem alike_advance (s : State) (st : Stage) : Alike s ((s.advance false).enter st) :=
  alike_of rfl rfl rfl rfl rfl rfl rfl rfl

/-- ID of an instruction alone, no source reserved: its record is latched and the state reads alike. -/
theorem alone_id (i : Instr) (s : State) (r : InFlight) (hz : ∀ q ∈ i.operands.srcs, s.rc q = 0) :
    ∃ s1, exec i ((s.setSlot .ID (some r)).enter .ID) = .next s1 ∧
      s1.slotID = some (s.latched i.operands i.dests r) ∧ Alike s s1 := by
  rw [exec_id i (r := r) (by simp) (by simp)]
  have hz' : ((s.setSlot .ID (some r)).enter .ID).rawHazard i.operands.srcs = false := by
    simpa [State.rawHazard] using hz
  refine ⟨_, rfl, ?_, ?_⟩
  · rw [idStage, hz', if_neg (by decide)]; rfl
  · rw [idStage, hz', if_neg (by decide)]
    apply alike_of <;> simp

/-- WB of an instruction alone: its record's destinations are written and the rest reads alike (R215). -/
theorem alone_wb (i : Instr) {u : State} {r : InFlight} (hr : u.slotMEM = some r) :
    ∃ t, exec i ((u.advance false).enter .WB) = .next t ∧ t.mem = u.mem ∧ t.fcsr = u.fcsr ∧ t.pt = u.pt ∧
      t.cfg = u.cfg ∧
      ∀ q, t.readReg q = if r.writeEnable ∧ q ∈ r.dests ∧ q ≠ .gpr 0 then wbValue r q else u.readReg q := by
  rw [exec_wb i (r := r) (by simp) (by simpa [State.advance] using hr)]
  refine ⟨_, rfl, by simp [wbStage, State.advance], by simp [wbStage, State.advance], by simp [wbStage, State.advance],
    by simp [wbStage, State.advance], fun q => ?_⟩
  have h1 : (wbStage r ((u.advance false).enter .WB)).readReg q = (((u.advance false).enter .WB).writeDests r).readReg q := by
    apply State.readReg_congr <;> simp [wbStage]
  rw [h1, State.readReg_writeDests, (alike_advance u .WB).regs]

/-- An instruction alone, from what its EX and MEM do to the record that ID latched (R212 to R215). -/
theorem alone_run (i : Instr) (s : State) (r r2 r3 : InFlight) (m : Memory)
    (hz : ∀ q ∈ i.operands.srcs, s.rc q = 0)
    (hex : ∀ u : State, u.phase = .EX → u.slotEX = some (s.latched i.operands i.dests r) → Alike s u →
      ∃ v, exec i u = .next v ∧ v.slotEX = some r2 ∧ Alike s v)
    (hmem : ∀ u : State, u.phase = .MEM → u.slotMEM = some r2 → Alike s u →
      ∃ v, exec i u = .next v ∧ v.slotMEM = some r3 ∧ Alike { s with mem := m } v) :
    ∃ t, runAlone i r s = .next t ∧ t.mem = m ∧ t.fcsr = s.fcsr ∧ t.pt = s.pt ∧ t.cfg = s.cfg ∧
      ∀ q, t.readReg q = if r3.writeEnable ∧ q ∈ r3.dests ∧ q ≠ .gpr 0 then wbValue r3 q else s.readReg q := by
  obtain ⟨s1, e1, l1, a1⟩ := alone_id i s r hz
  obtain ⟨s2, e2, l2, a2⟩ := hex ((s1.advance false).enter .EX) rfl (by simpa [State.advance] using l1)
    (a1.trans (alike_advance s1 .EX))
  obtain ⟨s3, e3, l3, a3⟩ := hmem ((s2.advance false).enter .MEM) rfl (by simpa [State.advance] using l2)
    (a2.trans (alike_advance s2 .MEM))
  obtain ⟨t, e4, h1, h2, h3, h4, h5⟩ := alone_wb i l3
  refine ⟨t, ?_, h1.trans a3.mem, h2.trans a3.fcsr, h3.trans a3.pt, h4.trans a3.cfg, fun q => ?_⟩
  · simp only [runAlone, e1, andThen, e2, e3, e4]
  · rw [h5, a3.regs]
    rfl

end Sys2Proof.Machine
end

