-- ==== Sys2Proof/Laws/Steps.lean ====
section
/-! SUPPORT. What each step of a cycle (R211) can do, said once: an inversion lemma for each of the seven steps, and one for the whole cycle. -/

namespace Sys2Proof.Machine

/-- What no stage but IF changes in a record, its destinations apart. -/
def InFlight.tag (r : InFlight) : InstrWord × Op × Word × Bool × List RegId :=
  (r.word, r.op, r.fetchedPC, r.predictedTaken, r.dests)

/-! ### Calling a stage -/

theorem callStage_bubble {st : Stage} {s : State} (h : s.slot st = none) : callStage st s = .next (s.enter st) := by
  simp only [callStage, h]

theorem callStage_instr {st : Stage} {s : State} {r : InFlight} {i : Instr} (h : s.slot st = some r)
    (hi : r.op = .instr i) : callStage st s = exec i (s.enter st) := by
  simp only [callStage, h, hi]

theorem callStage_poison {st : Stage} {s : State} {r : InFlight} {k : FaultKind} (h : s.slot st = some r)
    (hk : r.op = .poison k) (hst : st ≠ .ID) : callStage st s = .next (s.enter st) := by
  simp only [callStage, h, hk, hst, if_false]

theorem callStage_poison_id {s : State} {r : InFlight} {k : FaultKind} (h : s.slotID = some r)
    (hk : r.op = .poison k) : callStage .ID s = .next ((s.enter .ID).done (.fault k)) := by
  have h' : s.slot .ID = some r := h
  simp only [callStage, h', hk, if_true]

theorem isPoison_of_instr {r : InFlight} {i : Instr} (h : r.op = .instr i) : r.isPoison = false := by
  simp [InFlight.isPoison, h]

theorem isPoison_of_poison {r : InFlight} {k : FaultKind} (h : r.op = .poison k) : r.isPoison = true := by
  simp [InFlight.isPoison, h]

/-! ### Step 1: WB -/

/-- The state after its WB occupant has written and released its registers (R215): a poison entry writes none. -/
def State.afterWb (s : State) : State :=
  match s.slotWB with
  | none => s
  | some r => if r.isPoison then s else (s.writeDests r).releaseAll r.dests

/-- Step 1 writes the registers and counts of the WB occupant, counts it as retired, and leaves all else. -/
structure WbEffect (s t : State) : Prop where
  frame : t = { s with
    gpr := t.gpr, fpr := t.fpr, hi := t.hi, lo := t.lo, rcGpr := t.rcGpr, rcFpr := t.rcFpr, rcHi := t.rcHi
    rcLo := t.rcLo, retired := t.retired, phase := .WB, outcome := .ok }
  retired : t.retired = s.retired + if s.slotWB.isSome then 1 else 0
  regs : ∀ q, t.readReg q = s.afterWb.readReg q
  counts : ∀ q, t.rc q = s.afterWb.rc q

theorem wbStep_effect (s : State) : ∃ t, wbStep s = .next t ∧ WbEffect s t := by
  unfold wbStep
  cases h : s.slotWB with
  | none =>
    rw [callStage_bubble (st := .WB) h]
    refine ⟨_, rfl, by apply State.ext <;> simp, by simp [h], fun q => ?_, fun q => ?_⟩ <;> simp [State.afterWb, h]
  | some r =>
    cases ho : r.op with
    | poison k =>
      rw [callStage_poison (st := .WB) h ho (by simp)]
      refine ⟨_, rfl, by apply State.ext <;> simp, by simp [h], fun q => ?_, fun q => ?_⟩ <;>
        simp [State.afterWb, h, isPoison_of_poison ho]
    | instr i =>
      rw [callStage_instr (st := .WB) h ho, exec_wb i (r := r) (State.enter_phase _ _) (by simpa using h)]
      refine ⟨_, rfl, ?_, by simp [h, wbStage], fun q => ?_, fun q => ?_⟩
      · apply State.ext <;> simp [wbStage]
      · simp [State.afterWb, h, isPoison_of_instr ho, wbStage, State.readReg_writeDests]
      · simp [State.afterWb, h, isPoison_of_instr ho, wbStage, State.rc_releaseAll]

/-! ### Step 2: MEM -/

/-- Step 2 where no fault is raised: only a load's latch, a store's bytes and the trace change. -/
structure MemEffect (s t : State) : Prop where
  frame : t = { s with slotMEM := t.slotMEM, mem := t.mem, trace := t.trace, phase := .MEM, outcome := .ok }
  tags : t.slotMEM.map InFlight.tag = s.slotMEM.map InFlight.tag
  access : (t.mem = s.mem ∧ t.trace = s.trace) ∨
    ∃ r i n, s.slotMEM = some r ∧ r.op = .instr i ∧ i.access? = some n ∧ s.accessFault r.ea n = none ∧
      t.trace = s.trace ++ [.dataAccess r.ea n] ∧
      t.mem = if i.isStore then s.mem.store s.cfg.byteOrder r.ea.toNat n r.b else s.mem

/-- Step 2 where an access faults: the run stops (R213, R226). -/
def MemStops (s t : State) : Prop :=
  ∃ r i n k, s.slotMEM = some r ∧ r.op = .instr i ∧ i.access? = some n ∧ s.accessFault r.ea n = some k ∧
    t = s.stop (.faulted k .MEM r.fetchedPC)

theorem enter_accessFault (s : State) (st : Stage) (ea : Word) (n : Nat) :
    (s.enter st).accessFault ea n = s.accessFault ea n := rfl

theorem fetchedPCOf_eq {s : State} {st : Stage} {r : InFlight} (h : s.slot st = some r) :
    s.fetchedPCOf st = r.fetchedPC := by
  simp [State.fetchedPCOf, h]

theorem enter_done_stop (s : State) (st : Stage) (o : StageOutcome) (x : Status) :
    ((s.enter st).done o).stop x = s.stop x := by
  apply State.ext <;> simp

theorem memStep_effect (s : State) : ∃ t, memStep s = .next t ∧ (MemEffect s t ∨ MemStops s t) := by
  unfold memStep
  cases h : s.slotMEM with
  | none =>
    rw [callStage_bubble (st := .MEM) h]
    exact ⟨_, rfl, .inl ⟨by apply State.ext <;> simp, by simp, .inl (by simp)⟩⟩
  | some r =>
    have hslot : s.slot .MEM = some r := h
    cases ho : r.op with
    | poison k =>
      rw [callStage_poison (st := .MEM) h ho (by simp)]
      exact ⟨_, rfl, .inl ⟨by apply State.ext <;> simp, by simp, .inl (by simp)⟩⟩
    | instr i =>
      rw [callStage_instr (st := .MEM) h ho, fetchedPCOf_eq hslot]
      have hs : (s.enter .MEM).slotMEM = some r := by simpa using h
      cases ha : i.access? with
      | none =>
        rw [exec_mem_other i (State.enter_phase _ _) hs ha]
        exact ⟨_, rfl, .inl ⟨by apply State.ext <;> simp, by simp, .inl (by simp)⟩⟩
      | some n =>
        cases hi : i.isStore with
        | true =>
          rw [exec_mem_store i (State.enter_phase _ _) hs ha hi, memStore, enter_accessFault]
          cases hf : s.accessFault r.ea n with
          | some k =>
            exact ⟨_, rfl, .inr ⟨r, i, n, k, h, ho, ha, hf, enter_done_stop _ _ _ _⟩⟩
          | none =>
            refine ⟨_, rfl, .inl ⟨by apply State.ext <;> simp, by simp, .inr ⟨r, i, n, h, ho, ha, hf, by simp, ?_⟩⟩⟩
            simp [hi]
        | false =>
          obtain ⟨ext, he⟩ := exec_mem_load i (State.enter_phase s .MEM) hs ha hi
          rw [he, memLoad, enter_accessFault]
          cases hf : s.accessFault r.ea n with
          | some k =>
            exact ⟨_, rfl, .inr ⟨r, i, n, k, h, ho, ha, hf, enter_done_stop _ _ _ _⟩⟩
          | none =>
            refine ⟨_, rfl, .inl ⟨by apply State.ext <;> simp, by simp [h, InFlight.tag],
              .inr ⟨r, i, n, h, ho, ha, hf, by simp, ?_⟩⟩⟩
            simp [hi]

/-! ### Step 3: EX -/

/-- Step 3: EX leaves `u`, then the executor reacts to its outcome (R221, R226). -/
structure ExStepEffect (s u t : State) : Prop where
  frame : u = { s with slotEX := u.slotEX, fcsr := u.fcsr, pt := u.pt, phase := .EX, outcome := u.outcome }
  tags : u.slotEX.map InFlight.tag = s.slotEX.map InFlight.tag
  called : (∀ r i, s.slotEX = some r → r.op = .instr i → exec i (s.enter .EX) = .next u) ∧
    ((∀ r i, s.slotEX = some r → r.op ≠ .instr i) → u = s.enter .EX)
  reaction : (u.outcome = .ok ∧ t = u) ∨
    (∃ target, u.outcome = .misprediction target ∧ t = (u.setPc target).flushID.countMisprediction) ∨
    (∃ target, u.outcome = .jump target ∧ t = (u.setPc target).flushID) ∨
    (∃ k, k ≠ .breakpoint ∧ u.outcome = .fault k ∧ t = u.stop (.faulted k .EX (s.fetchedPCOf .EX)))

theorem exStep_effect (s : State) : ∃ u t, exStep s = .next t ∧ ExStepEffect s u t := by
  unfold exStep
  cases h : s.slotEX with
  | none =>
    rw [callStage_bubble (st := .EX) h]
    exact ⟨_, _, rfl, ⟨by apply State.ext <;> simp, by simp, ⟨by simp [h], fun _ => rfl⟩, .inl (by simp)⟩⟩
  | some r =>
    cases ho : r.op with
    | poison k =>
      rw [callStage_poison (st := .EX) h ho (by simp)]
      exact ⟨_, _, rfl, ⟨by apply State.ext <;> simp, by simp, ⟨fun r' i hr hi => by simp_all, fun _ => rfl⟩,
        .inl (by simp)⟩⟩
    | instr i =>
      rw [callStage_instr (st := .EX) h ho]
      obtain ⟨u, hu, he⟩ := exec_ex i (State.enter_phase s .EX) (r := r) (by simpa using h)
      rw [hu]
      have hframe : u = { s with slotEX := u.slotEX, fcsr := u.fcsr, pt := u.pt, phase := .EX, outcome := u.outcome } := by
        rw [he.frame]; apply State.ext <;> simp
      have htags : u.slotEX.map InFlight.tag = s.slotEX.map InFlight.tag := by
        obtain ⟨v, w, x, y, hr⟩ := he.record
        rw [hr, h]; rfl
      have hcalled : (∀ r' i', s.slotEX = some r' → r'.op = .instr i' → exec i' (s.enter .EX) = .next u) ∧
          ((∀ r' i', s.slotEX = some r' → r'.op ≠ .instr i') → u = s.enter .EX) := by
        refine ⟨fun r' i' hr' hi' => ?_, fun hn => absurd ho (hn r i h)⟩
        rw [h] at hr'; cases hr'; rw [ho] at hi'; cases hi'; exact hu
      cases hout : u.outcome with
      | ok => exact ⟨u, u, by simp [andThen, hout], ⟨hframe, htags, hcalled, .inl ⟨hout, rfl⟩⟩⟩
      | raw => exact absurd hout he.notRaw
      | misprediction pc =>
        exact ⟨u, _, by simp only [andThen, hout], ⟨hframe, htags, hcalled, .inr (.inl ⟨pc, hout, rfl⟩)⟩⟩
      | jump pc =>
        exact ⟨u, _, by simp only [andThen, hout], ⟨hframe, htags, hcalled, .inr (.inr (.inl ⟨pc, hout, rfl⟩))⟩⟩
      | fault k =>
        exact ⟨u, _, by simp only [andThen, hout], ⟨hframe, htags, hcalled,
          .inr (.inr (.inr ⟨k, fun hk => he.notBreak (hk ▸ hout), hout, rfl⟩))⟩⟩

/-! ### Step 4: ID -/

/-- Step 4 by what the ID slot holds. -/
inductive IdEffect (s : State) : State → Prop
  | bubble (h : s.slotID = none) : IdEffect s (s.enter .ID)
  | stall (r : InFlight) (i : Instr) (h : s.slotID = some r) (hi : r.op = .instr i)
      (hz : s.rawHazard i.operands.srcs = true) : IdEffect s ((s.enter .ID).done .raw).countStall
  | read (r : InFlight) (i : Instr) (h : s.slotID = some r) (hi : r.op = .instr i)
      (hz : s.rawHazard i.operands.srcs = false) (hb : i.idOutcome = .ok) :
      IdEffect s ((((s.enter .ID).acquireAll i.dests).setSlot .ID
        (some ((s.enter .ID).latched i.operands i.dests r))).done .ok)
  | breaks (r : InFlight) (i : Instr) (h : s.slotID = some r) (hi : r.op = .instr i)
      (hz : s.rawHazard i.operands.srcs = false) (hb : i.idOutcome = .fault .breakpoint) :
      IdEffect s (((((s.enter .ID).acquireAll i.dests).setSlot .ID
        (some ((s.enter .ID).latched i.operands i.dests r))).done (.fault .breakpoint)).stop
          (.stoppedBreak r.fetchedPC))
  | poisoned (r : InFlight) (k : FaultKind) (h : s.slotID = some r) (hk : r.op = .poison k) :
      IdEffect s (s.stop (if k = .breakpoint then .stoppedBreak r.fetchedPC else .faulted k .ID r.fetchedPC))

theorem enter_rawHazard (s : State) (st : Stage) (rs : List RegId) : (s.enter st).rawHazard rs = s.rawHazard rs := by
  simp [State.rawHazard]

theorem idOutcome_cases (i : Instr) : i.idOutcome = .ok ∨ i.idOutcome = .fault .breakpoint := by
  cases i <;> first | exact .inl rfl | exact .inr rfl

theorem idStep_effect (s : State) : ∃ t, idStep s = .next t ∧ IdEffect s t := by
  unfold idStep
  cases h : s.slotID with
  | none =>
    rw [callStage_bubble (st := .ID) h]
    exact ⟨_, rfl, .bubble h⟩
  | some r =>
    have hslot : s.slot .ID = some r := h
    cases ho : r.op with
    | poison k =>
      rw [callStage_poison_id h ho, fetchedPCOf_eq hslot]
      refine ⟨_, ?_, .poisoned r k h ho⟩
      rw [← enter_done_stop s .ID (.fault k)]
      by_cases hk : k = .breakpoint
      · subst hk; rfl
      · simp only [andThen, State.done_outcome, if_neg hk]
    | instr i =>
      rw [callStage_instr (st := .ID) h ho, exec_id i (r := r) (State.enter_phase _ _) (by simpa using h),
        fetchedPCOf_eq hslot, idStage, enter_rawHazard]
      cases hz : s.rawHazard i.operands.srcs with
      | true => exact ⟨_, rfl, .stall r i h ho hz⟩
      | false =>
        rcases idOutcome_cases i with hb | hb
        · exact ⟨_, by simp [andThen, hb], .read r i h ho hz hb⟩
        · exact ⟨_, by simp [andThen, hb], .breaks r i h ho hz hb⟩

/-! ### Step 5: IF -/

/-- The state after IF's fetch, with what the fetched instruction does in its own IF (R217, R224, R262). -/
inductive IfEffect (s : State) : State → Prop
  | stalled (h : s.outcome = .raw) : IfEffect s s
  | halted (h : s.outcome ≠ .raw) (hh : s.haltFetched = true) : IfEffect s s
  | poison (h : s.outcome ≠ .raw) (hh : s.haltFetched = false) (k : FaultKind)
      (hk : (s.fetchRecord s.pc).op = .poison k) : IfEffect s s.fetched
  | halt (h : s.outcome ≠ .raw) (hh : s.haltFetched = false) (hi : (s.fetchRecord s.pc).op = .instr .halt) :
      IfEffect s { s.fetched with haltFetched := true, outcome := .ok }
  | branch (h : s.outcome ≠ .raw) (hh : s.haltFetched = false) (i : Instr) (op : BranchOp) (offset : BitVec 16)
      (hi : (s.fetchRecord s.pc).op = .instr i) (hb : i.branch? = some (op, offset)) :
      IfEffect s (predictAtIF op offset (s.fetchRecord s.pc) s.fetched)
  | other (h : s.outcome ≠ .raw) (hh : s.haltFetched = false) (i : Instr)
      (hi : (s.fetchRecord s.pc).op = .instr i) (hb : i.branch? = none) (hn : i ≠ .halt) : IfEffect s s.fetched

theorem ifStep_effect (s : State) : ∃ t, ifStep s = .next t ∧ IfEffect s t := by
  unfold ifStep
  by_cases h : s.outcome = .raw
  · exact ⟨s, if_pos h, .stalled h⟩
  · rw [if_neg h]
    cases hh : s.haltFetched with
    | true => exact ⟨s, if_pos rfl, .halted h hh⟩
    | false =>
      simp only [Bool.false_eq_true, if_false, ifFetch]
      cases ho : (s.fetchRecord s.pc).op with
      | poison k => exact ⟨_, rfl, .poison h hh k ho⟩
      | instr i =>
        cases hb : i.branch? with
        | some p =>
          exact ⟨_, exec_if_branch i rfl (State.fetched_slotIF s) hb, .branch h hh i p.1 p.2 ho hb⟩
        | none =>
          by_cases hn : i = .halt
          · subst hn; exact ⟨_, exec_if_halt rfl (State.fetched_slotIF s), .halt h hh ho⟩
          · exact ⟨_, exec_if_other i rfl (State.fetched_slotIF s) hb hn, .other h hh i ho hb hn⟩

/-! ### The whole cycle -/

/-- How a cycle that answers a next state went: through all seven steps, or stopped in MEM, EX or ID. -/
inductive CycleEffect (s : State) : State → Prop
  | memStop (a b : State) (ha : WbEffect s a) (hb : MemStops a b) : CycleEffect s b
  | exStop (a b u c : State) (ha : WbEffect s a) (hb : MemEffect a b) (hc : ExStepEffect b u c)
      (hstop : ∃ k, u.outcome = .fault k ∧ c = u.stop (.faulted k .EX (b.fetchedPCOf .EX))) : CycleEffect s c
  | idStop (a b u c d : State) (ha : WbEffect s a) (hb : MemEffect a b) (hc : ExStepEffect b u c)
      (hrun : c.status = .running) (hd : IdEffect c d) (hstop : d.status ≠ .running) : CycleEffect s d
  | full (a b u c d e : State) (ha : WbEffect s a) (hb : MemEffect a b) (hc : ExStepEffect b u c)
      (hrun : c.status = .running) (hd : IdEffect c d) (hrun' : d.status = .running) (he : IfEffect d e) :
      CycleEffect s (endOfCycle e)

theorem IfEffect.status {s t : State} (h : IfEffect s t) : t.status = s.status := by
  cases h <;> rfl

theorem whileRunning_running {f : State → Result} {s : State} (h : s.status = .running) : whileRunning f s = f s := by
  simp [whileRunning, h]

theorem whileRunning_stopped {f : State → Result} {s : State} (h : s.status ≠ .running) :
    whileRunning f s = .next s := by
  unfold whileRunning; split
  · exact absurd ‹_› h
  · rfl

/-- A step runs only a Running state, always answers a next state there, and `CycleEffect` says what it can be. -/
theorem step_effect {s : State} (hs : s.status = .running) : ∃ t, step s = .next t ∧ CycleEffect s t := by
  have hcyc : step s = cycle s := by simp [step, runCycle, hs]
  rw [hcyc, cycle]
  obtain ⟨a, hwa, ha⟩ := wbStep_effect s
  obtain ⟨b, hmb, hb⟩ := memStep_effect a
  have hsa : a.status = .running := by rw [ha.frame]; exact hs
  simp only [hwa, hmb, andThen]
  rcases hb with hb | hb
  · have hsb : b.status = .running := by rw [hb.frame]; exact hsa
    obtain ⟨u, c, hxc, hc⟩ := exStep_effect b
    have hsu : u.status = .running := by rw [hc.frame]; exact hsb
    rw [whileRunning_running hsb, hxc]
    simp only
    by_cases hrun : c.status = .running
    · obtain ⟨d, hdd, hd⟩ := idStep_effect c
      rw [whileRunning_running hrun, hdd]
      simp only
      by_cases hrun' : d.status = .running
      · obtain ⟨e, hee, he⟩ := ifStep_effect d
        rw [whileRunning_running hrun', hee]
        simp only
        rw [whileRunning_running (he.status.trans hrun')]
        exact ⟨_, rfl, .full a b u c d e ha hb hc hrun hd hrun' he⟩
      · rw [whileRunning_stopped hrun']
        simp only
        rw [whileRunning_stopped hrun']
        exact ⟨_, rfl, .idStop a b u c d ha hb hc hrun hd hrun'⟩
    · rw [whileRunning_stopped hrun]
      simp only
      rw [whileRunning_stopped hrun]
      simp only
      rw [whileRunning_stopped hrun]
      refine ⟨_, rfl, .exStop a b u c ha hb hc ?_⟩
      rcases hc.reaction with ⟨_, h⟩ | ⟨_, _, h⟩ | ⟨_, _, h⟩ | ⟨k, _, hk, h⟩
      · exact absurd (h ▸ hsu) hrun
      · exact absurd (by rw [h]; simpa using hsu) hrun
      · exact absurd (by rw [h]; simpa using hsu) hrun
      · exact ⟨k, hk, h⟩
  · have hsb : b.status ≠ .running := by
      obtain ⟨r, i, n, k, _, _, _, _, h⟩ := hb; rw [h]; simp
    rw [whileRunning_stopped hsb]
    simp only
    rw [whileRunning_stopped hsb]
    simp only
    rw [whileRunning_stopped hsb]
    simp only
    rw [whileRunning_stopped hsb]
    exact ⟨_, rfl, .memStop a b ha hb⟩

/-- A run that is over takes no further step (R52). -/
theorem step_of_not_running {s : State} (hs : s.status ≠ .running) : ∃ f, step s = .fault f := by
  unfold step runCycle
  split
  · exact absurd ‹_› hs
  all_goals exact ⟨_, rfl⟩

/-- What a step that answers a next state did. -/
theorem step_cases {s t : State} (h : step s = .next t) : s.status = .running ∧ CycleEffect s t := by
  by_cases hs : s.status = .running
  · obtain ⟨t', ht', he⟩ := step_effect hs
    rw [h] at ht'; cases ht'; exact ⟨hs, he⟩
  · obtain ⟨f, hf⟩ := step_of_not_running hs
    rw [h] at hf; cases hf

end Sys2Proof.Machine
end

