-- ==== Sys2Proof/Laws/Cycle.lean ====
section
/-! SUPPORT. What each of the seven steps of a cycle keeps, read off the inversion lemmas of Laws/Steps. -/

namespace Sys2Proof.Machine

/-- The parts of the state that no step of a cycle but the named few changes. -/
structure Keeps (s t : State) : Prop where
  cfg : t.cfg = s.cfg
  im : t.im = s.im
  hostLoaded : t.hostLoaded = s.hostLoaded

theorem WbEffect.keeps {s t : State} (h : WbEffect s t) : Keeps s t := by
  constructor <;> (rw [h.frame])

/-- Step 1 keeps the rest of the machine. -/
theorem WbEffect.rest {s t : State} (h : WbEffect s t) :
    t.pc = s.pc ∧ t.lastFetchedPC = s.lastFetchedPC ∧ t.fcsr = s.fcsr ∧ t.pt = s.pt ∧ t.mem = s.mem ∧
    t.slotIF = s.slotIF ∧ t.slotID = s.slotID ∧ t.slotEX = s.slotEX ∧ t.slotMEM = s.slotMEM ∧ t.slotWB = s.slotWB ∧
    t.status = s.status ∧ t.haltFetched = s.haltFetched ∧ t.cycles = s.cycles ∧ t.rawStalls = s.rawStalls ∧
    t.mispredictions = s.mispredictions ∧ t.trace = s.trace := by
  rw [h.frame]; simp

theorem MemEffect.keeps {s t : State} (h : MemEffect s t) : Keeps s t := by
  constructor <;> (rw [h.frame])

/-- Step 2 keeps the rest of the machine. -/
theorem MemEffect.rest {s t : State} (h : MemEffect s t) :
    t.pc = s.pc ∧ t.lastFetchedPC = s.lastFetchedPC ∧ t.fcsr = s.fcsr ∧ t.pt = s.pt ∧
    t.slotIF = s.slotIF ∧ t.slotID = s.slotID ∧ t.slotEX = s.slotEX ∧ t.slotWB = s.slotWB ∧
    t.status = s.status ∧ t.haltFetched = s.haltFetched ∧ t.cycles = s.cycles ∧ t.retired = s.retired ∧
    t.rawStalls = s.rawStalls ∧ t.mispredictions = s.mispredictions := by
  rw [h.frame]; simp

theorem MemEffect.readReg {s t : State} (h : MemEffect s t) (q : RegId) : t.readReg q = s.readReg q :=
  State.readReg_congr (by rw [h.frame]) (by rw [h.frame]) (by rw [h.frame]) (by rw [h.frame]) q

theorem MemEffect.rc {s t : State} (h : MemEffect s t) (q : RegId) : t.rc q = s.rc q :=
  State.rc_congr (by rw [h.frame]) (by rw [h.frame]) (by rw [h.frame]) (by rw [h.frame]) q

/-- A step-2 stop changes only the status, the cycle count and the model's own fields. -/
theorem MemStops.rest {s t : State} (h : MemStops s t) : ∃ k pc, t = s.stop (.faulted k .MEM pc) := by
  obtain ⟨r, i, n, k, _, _, _, _, h⟩ := h
  exact ⟨k, r.fetchedPC, h⟩

theorem ExStepEffect.keeps {s u t : State} (h : ExStepEffect s u t) : Keeps s t := by
  rcases h.reaction with ⟨_, ht⟩ | ⟨_, _, ht⟩ | ⟨_, _, ht⟩ | ⟨_, _, _, ht⟩ <;> subst ht <;>
    constructor <;> rw [h.frame] <;> simp

/-- Step 3 keeps the rest of the machine. -/
theorem ExStepEffect.rest {s u t : State} (h : ExStepEffect s u t) :
    t.lastFetchedPC = s.lastFetchedPC ∧ t.fcsr = u.fcsr ∧ t.pt = u.pt ∧ t.mem = s.mem ∧ t.slotIF = s.slotIF ∧
    t.slotEX = u.slotEX ∧ t.slotMEM = s.slotMEM ∧ t.slotWB = s.slotWB ∧ t.retired = s.retired ∧
    t.rawStalls = s.rawStalls ∧ t.trace = s.trace := by
  rcases h.reaction with ⟨_, ht⟩ | ⟨_, _, ht⟩ | ⟨_, _, ht⟩ | ⟨_, _, _, ht⟩ <;> subst ht <;>
    rw [h.frame] <;> simp

theorem ExStepEffect.readReg {s u t : State} (h : ExStepEffect s u t) (q : RegId) : t.readReg q = s.readReg q := by
  rcases h.reaction with ⟨_, ht⟩ | ⟨_, _, ht⟩ | ⟨_, _, ht⟩ | ⟨_, _, _, ht⟩ <;> subst ht <;>
    (apply State.readReg_congr <;> rw [h.frame] <;> simp)

/-- Step 3 counts at most one misprediction (R54). -/
theorem ExStepEffect.mispredictions {s u t : State} (h : ExStepEffect s u t) :
    s.mispredictions ≤ t.mispredictions ∧ t.mispredictions ≤ s.mispredictions + 1 := by
  rcases h.reaction with ⟨_, ht⟩ | ⟨_, _, ht⟩ | ⟨_, _, ht⟩ | ⟨_, _, _, ht⟩ <;> subst ht <;>
    rw [h.frame] <;> simp

/-- Where step 3 leaves the run Running, the cycle count and the status are as they were. -/
theorem ExStepEffect.running {s u t : State} (h : ExStepEffect s u t) (ht : t.status = .running) :
    t.cycles = s.cycles ∧ t.status = s.status := by
  rcases h.reaction with ⟨_, e⟩ | ⟨_, _, e⟩ | ⟨_, _, e⟩ | ⟨_, _, _, e⟩
  · subst e; rw [h.frame]; simp
  · subst e; rw [h.frame]; simp
  · subst e; rw [h.frame]; simp
  · subst e; simp at ht

theorem IdEffect.keeps {s t : State} (h : IdEffect s t) : Keeps s t := by
  cases h <;> constructor <;> simp

/-- Step 4 keeps the rest of the machine. -/
theorem IdEffect.rest {s t : State} (h : IdEffect s t) :
    t.pc = s.pc ∧ t.lastFetchedPC = s.lastFetchedPC ∧ t.fcsr = s.fcsr ∧ t.pt = s.pt ∧ t.mem = s.mem ∧
    t.slotIF = s.slotIF ∧ t.slotEX = s.slotEX ∧ t.slotMEM = s.slotMEM ∧ t.slotWB = s.slotWB ∧
    t.haltFetched = s.haltFetched ∧ t.retired = s.retired ∧ t.mispredictions = s.mispredictions ∧
    t.trace = s.trace := by
  cases h <;> simp

theorem IdEffect.readReg {s t : State} (h : IdEffect s t) (q : RegId) : t.readReg q = s.readReg q := by
  cases h <;> apply State.readReg_congr <;> simp

/-- Where step 4 leaves the run Running, the cycle count and the status are as they were. -/
theorem IdEffect.running {s t : State} (h : IdEffect s t) (ht : t.status = .running) :
    t.cycles = s.cycles ∧ t.status = s.status := by
  cases h with
  | bubble h => simp
  | stall r i h => simp
  | read r i h => simp
  | breaks r i h => simp at ht
  | poisoned r k h hk => simp only [State.stop_status] at ht; split at ht <;> cases ht

/-- Step 4 counts a stall exactly when ID answers RAW (R54). -/
theorem IdEffect.rawStalls {s t : State} (h : IdEffect s t) :
    (t.outcome = .raw → t.rawStalls = s.rawStalls + 1 ∧ t.slotID = s.slotID) ∧
    (t.outcome ≠ .raw → t.rawStalls = s.rawStalls) := by
  cases h <;> simp

theorem IfEffect.keeps {s t : State} (h : IfEffect s t) : Keeps s t := by
  cases h <;> constructor <;> simp [State.fetched, predictAtIF]

/-- Step 5 keeps the rest of the machine. -/
theorem IfEffect.rest {s t : State} (h : IfEffect s t) :
    t.fcsr = s.fcsr ∧ t.pt = s.pt ∧ t.mem = s.mem ∧ t.slotID = s.slotID ∧ t.slotEX = s.slotEX ∧
    t.slotMEM = s.slotMEM ∧ t.slotWB = s.slotWB ∧ t.status = s.status ∧ t.cycles = s.cycles ∧
    t.retired = s.retired ∧ t.rawStalls = s.rawStalls ∧ t.mispredictions = s.mispredictions := by
  cases h <;> simp [State.fetched, predictAtIF]

theorem IfEffect.readReg {s t : State} (h : IfEffect s t) (q : RegId) : t.readReg q = s.readReg q := by
  cases h <;> apply State.readReg_congr <;> simp [State.fetched, predictAtIF]

theorem IfEffect.rc {s t : State} (h : IfEffect s t) (q : RegId) : t.rc q = s.rc q := by
  cases h <;> apply State.rc_congr <;> simp [State.fetched, predictAtIF]

/-- Step 5 keeps a RAW outcome, and never makes one. -/
theorem IfEffect.outcome {s t : State} (h : IfEffect s t) : t.outcome = .raw ↔ s.outcome = .raw := by
  cases h with
  | stalled h => simp
  | halted h => simp
  | poison h => simp [h, State.fetched]
  | halt h => simp [h]
  | branch h => simp [h, predictAtIF]
  | other h => simp [h, State.fetched]

theorem endOfCycle_keeps (s : State) : Keeps s (endOfCycle s) := by
  constructor <;> simp [endOfCycle]

/-- Steps 6 and 7 keep the rest of the machine. -/
theorem endOfCycle_rest (s : State) :
    (endOfCycle s).pc = s.pc ∧ (endOfCycle s).lastFetchedPC = s.lastFetchedPC ∧ (endOfCycle s).fcsr = s.fcsr ∧
    (endOfCycle s).pt = s.pt ∧ (endOfCycle s).mem = s.mem ∧ (endOfCycle s).haltFetched = s.haltFetched ∧
    (endOfCycle s).cycles = s.cycles + 1 ∧ (endOfCycle s).retired = s.retired ∧
    (endOfCycle s).rawStalls = s.rawStalls ∧ (endOfCycle s).mispredictions = s.mispredictions ∧
    (endOfCycle s).trace = s.trace := by
  simp [endOfCycle]

theorem endOfCycle_readReg (s : State) (q : RegId) : (endOfCycle s).readReg q = s.readReg q := by
  apply State.readReg_congr <;> simp [endOfCycle]

theorem endOfCycle_rc (s : State) (q : RegId) : (endOfCycle s).rc q = s.rc q := by
  apply State.rc_congr <;> simp [endOfCycle]

theorem Keeps.trans {a b c : State} (h : Keeps a b) (k : Keeps b c) : Keeps a c :=
  ⟨k.cfg.trans h.cfg, k.im.trans h.im, k.hostLoaded.trans h.hostLoaded⟩

/-- No step changes the configuration or instruction memory (R51, R93). -/
theorem step_keeps {s t : State} (h : step s = .next t) : Keeps s t := by
  obtain ⟨hs, he⟩ := step_cases h
  cases he with
  | memStop a b ha hb => obtain ⟨k, pc, rfl⟩ := hb.rest; exact ha.keeps.trans ⟨rfl, rfl, rfl⟩
  | exStop a b u c ha hb hc hstop => exact ha.keeps.trans (hb.keeps.trans hc.keeps)
  | idStop a b u c d ha hb hc hrun hd hstop => exact ha.keeps.trans (hb.keeps.trans (hc.keeps.trans hd.keeps))
  | full a b u c d e ha hb hc hrun hd hrun' he =>
    exact ha.keeps.trans (hb.keeps.trans (hc.keeps.trans (hd.keeps.trans (he.keeps.trans (endOfCycle_keeps e)))))

/-- The FCSR and PT after a step are those the EX of the EX occupant left, in a state with the FCSR, PT, EX slot and configuration
the cycle began with; or as before, where MEM stopped the run. -/
theorem step_ex {s t : State} (h : step s = .next t) :
    (t.fcsr = s.fcsr ∧ t.pt = s.pt) ∨ ∃ b u : State, b.fcsr = s.fcsr ∧ b.pt = s.pt ∧ b.slotEX = s.slotEX ∧
      b.cfg = s.cfg ∧ t.fcsr = u.fcsr ∧ t.pt = u.pt ∧
      (∀ r i, s.slotEX = some r → r.op = .instr i → exec i (b.enter .EX) = .next u) ∧
      ((∀ r i, s.slotEX = some r → r.op ≠ .instr i) → u = b.enter .EX) := by
  obtain ⟨hs, he⟩ := step_cases h
  cases he with
  | memStop a b ha hb => obtain ⟨k, pc, rfl⟩ := hb.rest; left; simp [ha.rest]
  | exStop a b u c ha hb hc hstop =>
    have h1 := ha.rest; have h2 := hb.rest; have h3 := hc.rest; have h4 := ha.keeps; have h5 := hb.keeps
    have h6 := hc.called
    refine .inr ⟨b, u, by simp [h2, h1], by simp [h2, h1], by simp [h2, h1], by rw [h5.cfg, h4.cfg], h3.2.1, h3.2.2.1, ?_⟩
    simpa [h2, h1] using h6
  | idStop a b u c d ha hb hc hrun hd hstop =>
    have h1 := ha.rest; have h2 := hb.rest; have h3 := hc.rest; have h4 := ha.keeps; have h5 := hb.keeps
    have h6 := hc.called; have h7 := hd.rest
    refine .inr ⟨b, u, by simp [h2, h1], by simp [h2, h1], by simp [h2, h1],
      by rw [h5.cfg, h4.cfg], by simp [h7, h3], by simp [h7, h3], ?_⟩
    simpa [h2, h1] using h6
  | full a b u c d e ha hb hc hrun hd hrun' he =>
    have h1 := ha.rest; have h2 := hb.rest; have h3 := hc.rest; have h4 := ha.keeps; have h5 := hb.keeps
    have h6 := hc.called; have h7 := hd.rest; have h8 := he.rest; have h9 := endOfCycle_rest e
    refine .inr ⟨b, u, by simp [h2, h1], by simp [h2, h1], by simp [h2, h1],
      by rw [h5.cfg, h4.cfg], by simp [h9, h8, h7, h3], by simp [h9, h8, h7, h3], ?_⟩
    simpa [h2, h1] using h6
/-- Data memory after a step is as before, or has the store of the MEM occupant. -/
theorem step_mem {s t : State} (h : step s = .next t) : t.mem = s.mem ∨
    ∃ r i n, s.slotMEM = some r ∧ r.op = .instr i ∧ i.access? = some n ∧ i.isStore = true ∧
      s.accessFault r.ea n = none ∧ t.mem = s.mem.store s.cfg.byteOrder r.ea.toNat n r.b := by
  obtain ⟨hs, he⟩ := step_cases h
  have key : ∀ a b, WbEffect s a → MemEffect a b → b.mem = s.mem ∨
      ∃ r i n, s.slotMEM = some r ∧ r.op = .instr i ∧ i.access? = some n ∧ i.isStore = true ∧
        s.accessFault r.ea n = none ∧ b.mem = s.mem.store s.cfg.byteOrder r.ea.toNat n r.b := by
    intro a b ha hb
    have h1 := ha.rest; have h2 := ha.keeps
    rcases hb.access with ⟨h, _⟩ | ⟨r, i, n, hr, hi, hn, hf, _, hm⟩
    · left; rw [h]; simp [h1]
    · cases hst : i.isStore with
      | true =>
        refine .inr ⟨r, i, n, by rw [← hr]; simp [h1], hi, hn, hst, ?_, ?_⟩
        · simpa [State.accessFault, h2.cfg] using hf
        · rw [hm, hst]; simp [h1, h2.cfg]
      | false => left; rw [hm, hst]; simp [h1]
  cases he with
  | memStop a b ha hb => obtain ⟨k, pc, rfl⟩ := hb.rest; left; simp [ha.rest]
  | exStop a b u c ha hb hc hstop => rw [hc.rest.2.2.2.1]; exact key a b ha hb
  | idStop a b u c d ha hb hc hrun hd hstop => rw [hd.rest.2.2.2.2.1, hc.rest.2.2.2.1]; exact key a b ha hb
  | full a b u c d e ha hb hc hrun hd hrun' he =>
    rw [(endOfCycle_rest e).2.2.2.2.1, he.rest.2.2.1, hd.rest.2.2.2.2.1, hc.rest.2.2.2.1]; exact key a b ha hb

/-! ### Steps on bubbles (R227) -/

theorem wbStep_bubble {s : State} (h : s.slotWB = none) : wbStep s = .next (s.enter .WB) := by
  unfold wbStep; rw [callStage_bubble (st := .WB) h, h]; rfl

theorem memStep_bubble {s : State} (h : s.slotMEM = none) : memStep s = .next (s.enter .MEM) := by
  unfold memStep; rw [callStage_bubble (st := .MEM) h]; rfl

theorem exStep_bubble {s : State} (h : s.slotEX = none) : exStep s = .next (s.enter .EX) := by
  unfold exStep; rw [callStage_bubble (st := .EX) h]; rfl

theorem idStep_bubble {s : State} (h : s.slotID = none) : idStep s = .next (s.enter .ID) := by
  unfold idStep; rw [callStage_bubble (st := .ID) h]; rfl

/-! ### A cycle put together from its steps -/

/-- A Running state's step is its first three steps, then the other four. -/
theorem step_beforeID {s : State} (hs : s.status = .running) :
    step s = andThen (beforeID s) fun s => andThen (whileRunning idStep s) fun s =>
      andThen (whileRunning ifStep s) fun s => whileRunning (fun s => .next (endOfCycle s)) s := by
  simp only [step, runCycle, hs, cycle, beforeID, andThen]
  cases wbStep s <;> simp only
  cases memStep _ <;> simp only

theorem beforeID_of {s a b c : State} (ha : wbStep s = .next a) (hb : memStep a = .next b) (hrun : b.status = .running)
    (hc : exStep b = .next c) : beforeID s = .next c := by
  simp only [beforeID, ha, hb, andThen, whileRunning_running hrun, hc]

/-- A cycle that runs all its steps. -/
theorem step_full {s c d e : State} (hs : s.status = .running) (hc : beforeID s = .next c) (hrun : c.status = .running)
    (hd : idStep c = .next d) (hrun' : d.status = .running) (he : ifStep d = .next e) :
    step s = .next (endOfCycle e) := by
  obtain ⟨e', he', heff⟩ := ifStep_effect d
  rw [he] at he'; cases he'
  rw [step_beforeID hs, hc]
  simp only [andThen, whileRunning_running hrun, hd, whileRunning_running hrun', he,
    whileRunning_running (heff.status.trans hrun')]

/-- A cycle stopped in one of its first three steps. -/
theorem step_stopped {s c : State} (hs : s.status = .running) (hc : beforeID s = .next c) (hstop : c.status ≠ .running) :
    step s = .next c := by
  rw [step_beforeID hs, hc]
  simp only [andThen, whileRunning_stopped hstop]

/-- A cycle stopped in ID. -/
theorem step_stopped_id {s c d : State} (hs : s.status = .running) (hc : beforeID s = .next c)
    (hrun : c.status = .running) (hd : idStep c = .next d) (hstop : d.status ≠ .running) : step s = .next d := by
  rw [step_beforeID hs, hc]
  simp only [andThen, whileRunning_running hrun, hd, whileRunning_stopped hstop]

/-- A cycle stopped in MEM. -/
theorem beforeID_stopped {s a b : State} (ha : wbStep s = .next a) (hb : memStep a = .next b)
    (hstop : b.status ≠ .running) : beforeID s = .next b := by
  simp only [beforeID, ha, hb, andThen, whileRunning_stopped hstop]

/-- Only the last stage entered counts. -/
@[simp] theorem State.enter_enter (s : State) (a b : Stage) : (s.enter a).enter b = s.enter b := rfl

@[simp] theorem State.fetched_enter (s : State) (a : Stage) : (s.enter a).fetched = s.fetched := rfl

@[simp] theorem State.fetchRecord_enter (s : State) (a : Stage) (pc : Word) :
    (s.enter a).fetchRecord pc = s.fetchRecord pc := rfl

/-- Step 5 where it fetches an admitted instruction is that instruction's `exec`. -/
theorem ifStep_instr {s : State} {i : Instr} (h1 : s.outcome ≠ .raw) (h2 : s.haltFetched = false)
    (hi : (s.fetchRecord s.pc).op = .instr i) : ifStep s = exec i s.fetched := by
  simp only [ifStep, if_neg h1, h2, Bool.false_eq_true, if_false, ifFetch, hi]

/-- The first three steps of a cycle with nothing in WB, MEM and EX. -/
theorem beforeID_bubbles {s : State} (hs : s.status = .running) (hw : s.slotWB = none) (hm : s.slotMEM = none)
    (hx : s.slotEX = none) : beforeID s = .next (s.enter .EX) := by
  have h1 : memStep (s.enter .WB) = .next (s.enter .MEM) := memStep_bubble hm
  have h2 : exStep (s.enter .MEM) = .next (s.enter .EX) := exStep_bubble hx
  exact beforeID_of (wbStep_bubble hw) h1 hs h2

end Sys2Proof.Machine
end

