-- ==== Sys2Proof/Laws/Encoding.lean ====
section
/-! SUPPORT. The fields of a word in each format (R111, R113): what each field reads of a word built in a format, and that its fields rebuild a word. -/

namespace Sys2Proof

/-! ### Register and condition-code fields -/

@[simp] theorem regOf_regBits (r : RegNum) : regOf (regBits r) = r := rfl

@[simp] theorem regBits_regOf (f : BitVec 5) : regBits (regOf f) = f := rfl

@[simp] theorem ccOf_ccBits (cc : CcNum) (t : BitVec 2) : ccOf (ccBits cc t) = cc := by
  revert cc t; decide

@[simp] theorem ccTail_ccBits (cc : CcNum) (t : BitVec 2) : ccTail (ccBits cc t) = t := by
  revert cc t; decide

@[simp] theorem ccBits_ccOf (f : BitVec 5) : ccBits (ccOf f) (ccTail f) = f := by
  revert f; decide

@[simp] theorem regBits_zero : regBits 0 = 0 := rfl

@[simp] theorem regBits_eq_zero (r : RegNum) : regBits r = 0 ↔ r = 0 := by
  revert r; decide

/-! ### R and FR format -/

section rWord
variable (op : BitVec 6) (rs rt rd sa : BitVec 5) (funct : BitVec 6)

theorem rWord_toNat : (rWord op rs rt rd sa funct).toNat =
    op.toNat * 2 ^ 26 + rs.toNat * 2 ^ 21 + rt.toNat * 2 ^ 16 + rd.toNat * 2 ^ 11 + sa.toNat * 2 ^ 6 + funct.toNat := by
  have h0 := op.isLt; have h1 := rs.isLt; have h2 := rt.isLt; have h3 := rd.isLt; have h4 := sa.isLt
  have h5 := funct.isLt
  simp only [rWord, BitVec.toNat_append]
  rw [← Nat.shiftLeft_add_eq_or_of_lt h1, ← Nat.shiftLeft_add_eq_or_of_lt h2, ← Nat.shiftLeft_add_eq_or_of_lt h3,
    ← Nat.shiftLeft_add_eq_or_of_lt h4, ← Nat.shiftLeft_add_eq_or_of_lt h5]
  simp only [Nat.shiftLeft_eq]
  omega

@[simp] theorem fOp_rWord : fOp (rWord op rs rt rd sa funct) = op := by
  have h0 := op.isLt; have h1 := rs.isLt; have h2 := rt.isLt; have h3 := rd.isLt; have h4 := sa.isLt
  have h5 := funct.isLt
  apply BitVec.eq_of_toNat_eq
  simp only [fOp, BitVec.extractLsb'_toNat, rWord_toNat, Nat.shiftRight_eq_div_pow]; omega

@[simp] theorem fRs_rWord : fRs (rWord op rs rt rd sa funct) = rs := by
  have h0 := op.isLt; have h1 := rs.isLt; have h2 := rt.isLt; have h3 := rd.isLt; have h4 := sa.isLt
  have h5 := funct.isLt
  apply BitVec.eq_of_toNat_eq
  simp only [fRs, BitVec.extractLsb'_toNat, rWord_toNat, Nat.shiftRight_eq_div_pow]; omega

@[simp] theorem fRt_rWord : fRt (rWord op rs rt rd sa funct) = rt := by
  have h0 := op.isLt; have h1 := rs.isLt; have h2 := rt.isLt; have h3 := rd.isLt; have h4 := sa.isLt
  have h5 := funct.isLt
  apply BitVec.eq_of_toNat_eq
  simp only [fRt, BitVec.extractLsb'_toNat, rWord_toNat, Nat.shiftRight_eq_div_pow]; omega

@[simp] theorem fRd_rWord : fRd (rWord op rs rt rd sa funct) = rd := by
  have h0 := op.isLt; have h1 := rs.isLt; have h2 := rt.isLt; have h3 := rd.isLt; have h4 := sa.isLt
  have h5 := funct.isLt
  apply BitVec.eq_of_toNat_eq
  simp only [fRd, BitVec.extractLsb'_toNat, rWord_toNat, Nat.shiftRight_eq_div_pow]; omega

@[simp] theorem fSa_rWord : fSa (rWord op rs rt rd sa funct) = sa := by
  have h0 := op.isLt; have h1 := rs.isLt; have h2 := rt.isLt; have h3 := rd.isLt; have h4 := sa.isLt
  have h5 := funct.isLt
  apply BitVec.eq_of_toNat_eq
  simp only [fSa, BitVec.extractLsb'_toNat, rWord_toNat, Nat.shiftRight_eq_div_pow]; omega

@[simp] theorem fFunct_rWord : fFunct (rWord op rs rt rd sa funct) = funct := by
  have h0 := op.isLt; have h1 := rs.isLt; have h2 := rt.isLt; have h3 := rd.isLt; have h4 := sa.isLt
  have h5 := funct.isLt
  apply BitVec.eq_of_toNat_eq
  simp only [fFunct, BitVec.extractLsb'_toNat, rWord_toNat, Nat.shiftRight_eq_div_pow]; omega

end rWord

/-- A word is rebuilt from its R-format fields. -/
theorem rWord_fields (w : InstrWord) : rWord (fOp w) (fRs w) (fRt w) (fRd w) (fSa w) (fFunct w) = w := by
  have h := w.isLt
  apply BitVec.eq_of_toNat_eq
  simp only [rWord_toNat, fOp, fRs, fRt, fRd, fSa, fFunct, BitVec.extractLsb'_toNat, Nat.shiftRight_eq_div_pow]
  omega

/-! ### I and FI format -/

section iWord
variable (op : BitVec 6) (rs rt : BitVec 5) (imm : BitVec 16)

theorem iWord_toNat : (iWord op rs rt imm).toNat =
    op.toNat * 2 ^ 26 + rs.toNat * 2 ^ 21 + rt.toNat * 2 ^ 16 + imm.toNat := by
  have h0 := op.isLt; have h1 := rs.isLt; have h2 := rt.isLt; have h3 := imm.isLt
  simp only [iWord, BitVec.toNat_append]
  rw [← Nat.shiftLeft_add_eq_or_of_lt h1, ← Nat.shiftLeft_add_eq_or_of_lt h2, ← Nat.shiftLeft_add_eq_or_of_lt h3]
  simp only [Nat.shiftLeft_eq]
  omega

@[simp] theorem fOp_iWord : fOp (iWord op rs rt imm) = op := by
  have h0 := op.isLt; have h1 := rs.isLt; have h2 := rt.isLt; have h3 := imm.isLt
  apply BitVec.eq_of_toNat_eq
  simp only [fOp, BitVec.extractLsb'_toNat, iWord_toNat, Nat.shiftRight_eq_div_pow]; omega

@[simp] theorem fRs_iWord : fRs (iWord op rs rt imm) = rs := by
  have h0 := op.isLt; have h1 := rs.isLt; have h2 := rt.isLt; have h3 := imm.isLt
  apply BitVec.eq_of_toNat_eq
  simp only [fRs, BitVec.extractLsb'_toNat, iWord_toNat, Nat.shiftRight_eq_div_pow]; omega

@[simp] theorem fRt_iWord : fRt (iWord op rs rt imm) = rt := by
  have h0 := op.isLt; have h1 := rs.isLt; have h2 := rt.isLt; have h3 := imm.isLt
  apply BitVec.eq_of_toNat_eq
  simp only [fRt, BitVec.extractLsb'_toNat, iWord_toNat, Nat.shiftRight_eq_div_pow]; omega

@[simp] theorem fImm_iWord : fImm (iWord op rs rt imm) = imm := by
  have h0 := op.isLt; have h1 := rs.isLt; have h2 := rt.isLt; have h3 := imm.isLt
  apply BitVec.eq_of_toNat_eq
  simp only [fImm, BitVec.extractLsb'_toNat, iWord_toNat, Nat.shiftRight_eq_div_pow]; omega

end iWord

/-- A word is rebuilt from its I-format fields. -/
theorem iWord_fields (w : InstrWord) : iWord (fOp w) (fRs w) (fRt w) (fImm w) = w := by
  have h := w.isLt
  apply BitVec.eq_of_toNat_eq
  simp only [iWord_toNat, fOp, fRs, fRt, fImm, BitVec.extractLsb'_toNat, Nat.shiftRight_eq_div_pow]
  omega

/-! ### J format and the BREAK code -/

section jWord
variable (op : BitVec 6) (target : BitVec 26)

theorem jWord_toNat : (jWord op target).toNat = op.toNat * 2 ^ 26 + target.toNat := by
  have h1 := target.isLt
  simp only [jWord, BitVec.toNat_append]
  rw [← Nat.shiftLeft_add_eq_or_of_lt h1]
  simp only [Nat.shiftLeft_eq]

@[simp] theorem fOp_jWord : fOp (jWord op target) = op := by
  have h0 := op.isLt; have h1 := target.isLt
  apply BitVec.eq_of_toNat_eq
  simp only [fOp, BitVec.extractLsb'_toNat, jWord_toNat, Nat.shiftRight_eq_div_pow]; omega

@[simp] theorem fTarget_jWord : fTarget (jWord op target) = target := by
  have h0 := op.isLt; have h1 := target.isLt
  apply BitVec.eq_of_toNat_eq
  simp only [fTarget, BitVec.extractLsb'_toNat, jWord_toNat, Nat.shiftRight_eq_div_pow]; omega

end jWord

/-- A word is rebuilt from its J-format fields. -/
theorem jWord_fields (w : InstrWord) : jWord (fOp w) (fTarget w) = w := by
  have h := w.isLt
  apply BitVec.eq_of_toNat_eq
  simp only [jWord_toNat, fOp, fTarget, BitVec.extractLsb'_toNat, Nat.shiftRight_eq_div_pow]
  omega

section codeWord
variable (op : BitVec 6) (code : BitVec 20) (funct : BitVec 6)

theorem codeWord_toNat : (codeWord op code funct).toNat = op.toNat * 2 ^ 26 + code.toNat * 2 ^ 6 + funct.toNat := by
  have h1 := code.isLt; have h2 := funct.isLt
  simp only [codeWord, BitVec.toNat_append]
  rw [← Nat.shiftLeft_add_eq_or_of_lt h1, ← Nat.shiftLeft_add_eq_or_of_lt h2]
  simp only [Nat.shiftLeft_eq]
  omega

@[simp] theorem fOp_codeWord : fOp (codeWord op code funct) = op := by
  have h0 := op.isLt; have h1 := code.isLt; have h2 := funct.isLt
  apply BitVec.eq_of_toNat_eq
  simp only [fOp, BitVec.extractLsb'_toNat, codeWord_toNat, Nat.shiftRight_eq_div_pow]; omega

@[simp] theorem fCode_codeWord : fCode (codeWord op code funct) = code := by
  have h0 := op.isLt; have h1 := code.isLt; have h2 := funct.isLt
  apply BitVec.eq_of_toNat_eq
  simp only [fCode, BitVec.extractLsb'_toNat, codeWord_toNat, Nat.shiftRight_eq_div_pow]; omega

@[simp] theorem fFunct_codeWord : fFunct (codeWord op code funct) = funct := by
  have h0 := op.isLt; have h1 := code.isLt; have h2 := funct.isLt
  apply BitVec.eq_of_toNat_eq
  simp only [fFunct, BitVec.extractLsb'_toNat, codeWord_toNat, Nat.shiftRight_eq_div_pow]; omega

end codeWord

/-- A word is rebuilt from its BREAK fields. -/
theorem codeWord_fields (w : InstrWord) : codeWord (fOp w) (fCode w) (fFunct w) = w := by
  have h := w.isLt
  apply BitVec.eq_of_toNat_eq
  simp only [codeWord_toNat, fOp, fCode, fFunct, BitVec.extractLsb'_toNat, Nat.shiftRight_eq_div_pow]
  omega

/-! ### Decoding with fixed fields -/

theorem onlyIf_eq_instr {b : Bool} {i j : Instr} : onlyIf b i = .instr j ↔ b = true ∧ i = j := by
  cases b <;> simp [onlyIf]

@[simp] theorem onlyIf_true (i : Instr) : onlyIf true i = .instr i := rfl

end Sys2Proof
end

