-- ==== Sys2Proof/Laws/ExState.lean ====
section
/-! SUPPORT. What EX does to the two pieces of state outside its own record: the FCSR and the predictor table. -/

namespace Sys2Proof.Machine

/-- What EX does to the FCSR, by the kind of instruction (R44, R47, R470). -/
inductive ExFcsr (i : Instr) (s t : State) : Prop
  | arith (hi : i.isFpArith = true) (out : FpOut) (h : Signals (clearCause s.readFcsr) out) (ht : t.fcsr = out.fcsr &&& fcsrMask)
  | compare (hi : i.isCompare = true) (cc : CcNum) (b : Bool) (ht : t.fcsr = setFcc s.readFcsr cc b &&& fcsrMask)
  | control (hi : i.isCtc1 = true) (v : BitVec 32) (ht : t.fcsr = v &&& fcsrMask)
  | other (h1 : i.isFpArith = false) (h2 : i.isCompare = false) (h3 : i.isCtc1 = false) (ht : t.fcsr = s.fcsr)

/-- The integer forms of EX leave the FCSR and PT. -/
theorem exChecked_fcsr (f : InFlight → Except FaultKind Word) (r : InFlight) (s : State) : (exChecked f r s).fcsr = s.fcsr ∧ (exChecked f r s).pt = s.pt := by
  unfold exChecked; split <;> simp
/-- The multiplies and divides leave the FCSR and PT. -/
theorem exHiLo_fcsr (f : InFlight → Except FaultKind (Word × Word)) (r : InFlight) (s : State) : (exHiLo f r s).fcsr = s.fcsr ∧ (exHiLo f r s).pt = s.pt := by
  unfold exHiLo; split <;> simp
/-- The FP arithmetic instructions write the FCSR their function answers, and leave PT. -/
theorem exFp_fcsr (f) (r : InFlight) (s : State) : (exFp f r s).fcsr = (f (clearCause s.readFcsr) r.a r.b).fcsr &&& fcsrMask ∧ (exFp f r s).pt = s.pt := by
  unfold exFp; simp only; split <;> exact ⟨rfl, rfl⟩

/-- What EX does to the FCSR. -/
theorem exec_ex_fcsr (i : Instr) {s t : State} {r : InFlight} (hp : s.phase = .EX) (hs : s.slotEX = some r)
    (h : exec i s = .next t) : ExFcsr i s t := by
  have key : ∀ f : StageFns, exec i s = runStages f s → t = f.onEX r s := by
    intro f hf
    have := h.symm.trans (hf.trans (runStages_ex hp hs)); cases this; rfl
  cases i
  case addD => exact .arith rfl _ (fpAdd_signals _ _ _) (by rw [key _ rfl]; exact (exFp_fcsr _ _ _).1)
  case subD => exact .arith rfl _ (fpSub_signals _ _ _) (by rw [key _ rfl]; exact (exFp_fcsr _ _ _).1)
  case mulD => exact .arith rfl _ (fpMul_signals _ _ _) (by rw [key _ rfl]; exact (exFp_fcsr _ _ _).1)
  case divD => exact .arith rfl _ (fpDiv_signals _ _ _) (by rw [key _ rfl]; exact (exFp_fcsr _ _ _).1)
  case cEqD => exact .compare rfl _ _ (by rw [key _ rfl]; rfl)
  case cLtD => exact .compare rfl _ _ (by rw [key _ rfl]; rfl)
  case cUnD => exact .compare rfl _ _ (by rw [key _ rfl]; rfl)
  case ctc1 => exact .control rfl _ (by rw [key _ rfl]; rfl)
  all_goals
    refine .other rfl rfl rfl ?_
    rw [key _ rfl]
    first
    | rfl
    | exact (exChecked_fcsr _ _ _).1
    | exact (exHiLo_fcsr _ _ _).1
    | (simp only [branchFns, exBranch]; simp)

/-- What EX does to PT (R264, R265): nothing but for the predicted branches. -/
theorem exec_ex_pt (i : Instr) {s t : State} {r : InFlight} (hp : s.phase = .EX) (hs : s.slotEX = some r)
    (h : exec i s = .next t) :
    (i.branch? = none ∧ t.pt = s.pt) ∨
    ∃ op offset taken, i.branch? = some (op, offset) ∧ t.pt = (s.trainPredictor op r.fetchedPC taken).pt := by
  have key : ∀ f : StageFns, exec i s = runStages f s → t = f.onEX r s := by
    intro f hf
    have := h.symm.trans (hf.trans (runStages_ex hp hs)); cases this; rfl
  cases i
  case beq => exact .inr ⟨_, _, _, rfl, by rw [key _ rfl]; rfl⟩
  case bne => exact .inr ⟨_, _, _, rfl, by rw [key _ rfl]; rfl⟩
  case beqz => exact .inr ⟨_, _, _, rfl, by rw [key _ rfl]; rfl⟩
  case bnez => exact .inr ⟨_, _, _, rfl, by rw [key _ rfl]; rfl⟩
  case bgez => exact .inr ⟨_, _, _, rfl, by rw [key _ rfl]; rfl⟩
  case bc1f => exact .inr ⟨_, _, _, rfl, by rw [key _ rfl]; rfl⟩
  case bc1t => exact .inr ⟨_, _, _, rfl, by rw [key _ rfl]; rfl⟩
  all_goals
    refine .inl ⟨rfl, ?_⟩
    rw [key _ rfl]
    first
    | rfl
    | exact (exChecked_fcsr _ _ _).2
    | exact (exHiLo_fcsr _ _ _).2
    | exact (exFp_fcsr _ _ _).2
end Sys2Proof.Machine
end

