-- ==== Sys2Proof/Laws/Host.lean ====
section
/-! SUPPORT. What the host's commands do to the state, said once (spec 60_exceptions R540, 70_reset_and_hazards R564 and R566). -/

namespace Sys2Proof.Machine

/-- While `status` is Running no command is taken. -/
theorem State.host_running {s : State} (h : s.status = .running) (command : HostCommand) : s.host command = none := by
  simp [State.host, State.hostMayWrite, h]

/-- Otherwise each command is taken or not by its own arguments. -/
theorem State.host_outside {s : State} (h : s.status ≠ .running) (command : HostCommand) :
    s.host command = match command with
      | .configure cfg => if cfg.wf then some (s.configure cfg) else none
      | .loadProgram ws => if ws = [] then none else some { s with im := ws }
      | .loadImage bs => if bs = [] ∨ bs.length % 4 ≠ 0 then none else some { s with im := wordsOfBytes bs }
      | .loadCell a v => if a % 8 = 0 ∧ a + 8 ≤ s.cfg.memBytes then some (s.loadCell a v) else none
      | .reset => some s.resetRun := by
  have hw : s.hostMayWrite = true := by simpa [State.hostMayWrite] using h
  cases command <;> simp only [State.host, hw, if_true]

/-- The cells below the new MEM_BYTES keep their words, whatever else is configured. -/
theorem State.cell_configure (s : State) (cfg : CoreConfig) {c : Nat} (h : c + 8 ≤ cfg.memBytes) :
    (s.configure cfg).cell c = s.cell c := by
  refine Memory.cell_congr fun j hj => ?_
  have hf := Sparse.get_filter (0 : Byte) (fun a => decide (a < cfg.memBytes)) s.mem (c + j)
  simp only [State.configure, Memory.read, hf]
  exact if_pos (decide_eq_true (by omega))

/-- The cell that the host loads, and every other cell. -/
theorem State.cell_loadCell {s : State} (h : Memory.wf s.mem) {a c : Nat} (v : Word) (ha : a % 8 = 0) (hc : c % 8 = 0) :
    (s.loadCell a v).cell c = if c = a then v else s.cell c := by
  by_cases hca : c = a
  · rw [if_pos hca, hca]; exact Memory.cell_store_double h .little ha v
  · rw [if_neg hca]; exact Memory.cell_store_other _ _ _ hc (by omega)

@[simp] theorem State.mem_hostLoaded_loadCell (s : State) (a b : Nat) (v : Word) :
    b ∈ (s.loadCell a v).hostLoaded ↔ b = a ∨ b ∈ s.hostLoaded := by
  simp only [State.loadCell]
  split <;> simp_all

@[simp] theorem Memory.cell_nil (c : Nat) : Memory.cell [] c = 0 := by
  simp [Memory.cell, Memory.load, Memory.readBytes, Memory.byteAt, laneOf, numberOfBytes, List.range, List.range.loop]

/-- Reset keeps the cells the host loaded and clears every other (R83, R564). -/
theorem State.cell_resetRun (s : State) {c : Nat} (hc : c % 8 = 0) :
    s.resetRun.cell c = if c ∈ s.hostLoaded then s.cell c else 0 := by
  have h : ∀ j, j < 8 → s.resetRun.mem.read (c + j) = if c ∈ s.hostLoaded then s.mem.read (c + j) else 0 := by
    intro j hj
    have hf := Sparse.get_filter (0 : Byte) (fun a => s.hostLoaded.contains (a - a % 8)) s.mem (c + j)
    simp only [State.resetRun, keepLoaded, Memory.read]
    rw [hf, show c + j - (c + j) % 8 = c by omega]; simp
  split
  · rename_i hl; exact Memory.cell_congr fun j hj => by rw [h j hj, if_pos hl]
  · rename_i hl
    rw [← Memory.cell_nil c]
    exact Memory.cell_congr fun j hj => by rw [h j hj, if_neg hl, Memory.read_nil]

end Sys2Proof.Machine
end

