-- ==== Sys2Proof/Laws/PerInstr.lean ====
section
/-! SUPPORT. Per instruction: the word of each instruction belongs to the row of R119 that the instruction is said to belong to. -/

namespace Sys2Proof.Laws

/-! ### Masking a word field by field (R116) -/

theorem append_and_append {m n : Nat} (a c : BitVec m) (b d : BitVec n) : (a ++ b) &&& (c ++ d) = (a &&& c) ++ (b &&& d) := by
  apply BitVec.eq_of_getLsbD_eq
  intro i _
  simp only [BitVec.getLsbD_and, BitVec.getLsbD_append]
  split <;> rfl

theorem rWord_and (op rs rt rd sa fn op' rs' rt' rd' sa' fn') :
    rWord op rs rt rd sa fn &&& rWord op' rs' rt' rd' sa' fn' =
      rWord (op &&& op') (rs &&& rs') (rt &&& rt') (rd &&& rd') (sa &&& sa') (fn &&& fn') := by
  simp only [rWord]
  repeat rw [append_and_append]

theorem iWord_and (op rs rt imm op' rs' rt' imm') :
    iWord op rs rt imm &&& iWord op' rs' rt' imm' = iWord (op &&& op') (rs &&& rs') (rt &&& rt') (imm &&& imm') := by
  simp only [iWord]
  repeat rw [append_and_append]

theorem jWord_and (op target op' target') :
    jWord op target &&& jWord op' target' = jWord (op &&& op') (target &&& target') := by
  simp only [jWord]
  repeat rw [append_and_append]

theorem codeWord_and (op code fn op' code' fn') :
    codeWord op code fn &&& codeWord op' code' fn' = codeWord (op &&& op') (code &&& code') (fn &&& fn') := by
  simp only [codeWord]
  repeat rw [append_and_append]

/-- The condition code of a field may be anything: only the two bits below it are fixed (R113). -/
theorem ccBits_and_three (cc : CcNum) (t : BitVec 2) : ccBits cc t &&& 0b00011 = (0 : BitVec 3) ++ t := by
  revert cc t; decide

/-- A word fits a row when its R-format fields, masked, are the row's. -/
theorem fits_rWord {row : OpcodeRow} {op rs rt rd sa fn op' rs' rt' rd' sa' fn'}
    (hm : row.mask = rWord op' rs' rt' rd' sa' fn')
    (hp : rWord (op &&& op') (rs &&& rs') (rt &&& rt') (rd &&& rd') (sa &&& sa') (fn &&& fn') = row.pattern) :
    row.fits (rWord op rs rt rd sa fn) = true := by
  rw [OpcodeRow.fits, hm, rWord_and, hp, beq_self_eq_true]

theorem fits_iWord {row : OpcodeRow} {op rs rt imm op' rs' rt' imm'} (hm : row.mask = iWord op' rs' rt' imm')
    (hp : iWord (op &&& op') (rs &&& rs') (rt &&& rt') (imm &&& imm') = row.pattern) :
    row.fits (iWord op rs rt imm) = true := by
  rw [OpcodeRow.fits, hm, iWord_and, hp, beq_self_eq_true]

theorem fits_jWord {row : OpcodeRow} {op target op' target'} (hm : row.mask = jWord op' target')
    (hp : jWord (op &&& op') (target &&& target') = row.pattern) : row.fits (jWord op target) = true := by
  rw [OpcodeRow.fits, hm, jWord_and, hp, beq_self_eq_true]

theorem fits_codeWord {row : OpcodeRow} {op code fn op' code' fn'} (hm : row.mask = codeWord op' code' fn')
    (hp : codeWord (op &&& op') (code &&& code') (fn &&& fn') = row.pattern) :
    row.fits (codeWord op code fn) = true := by
  rw [OpcodeRow.fits, hm, codeWord_and, hp, beq_self_eq_true]

/-! ### The family -/

/-- The word of the instruction is one of its row of R119 (R116, R119). -/
def MatchesRow.Statement (i : Instr) : Prop := i.row ∈ opcodeRows ∧ i.row.fits (encode i) = true

theorem MatchesRow.dadd (rd rs rt : RegNum) : MatchesRow.Statement (.dadd rd rs rt) :=
  ⟨List.mem_of_getElem? (i := 0) rfl, fits_rWord (row := Instr.row (.dadd rd rs rt)) (show _ = rWord 0b111111 0#5 0#5 0#5 0b11111 0b111111 from rfl) (by simp only [BitVec.and_zero]; rfl)⟩

theorem MatchesRow.daddu (rd rs rt : RegNum) : MatchesRow.Statement (.daddu rd rs rt) :=
  ⟨List.mem_of_getElem? (i := 1) rfl, fits_rWord (row := Instr.row (.daddu rd rs rt)) (show _ = rWord 0b111111 0#5 0#5 0#5 0b11111 0b111111 from rfl) (by simp only [BitVec.and_zero]; rfl)⟩

theorem MatchesRow.dsub (rd rs rt : RegNum) : MatchesRow.Statement (.dsub rd rs rt) :=
  ⟨List.mem_of_getElem? (i := 2) rfl, fits_rWord (row := Instr.row (.dsub rd rs rt)) (show _ = rWord 0b111111 0#5 0#5 0#5 0b11111 0b111111 from rfl) (by simp only [BitVec.and_zero]; rfl)⟩

theorem MatchesRow.dsubu (rd rs rt : RegNum) : MatchesRow.Statement (.dsubu rd rs rt) :=
  ⟨List.mem_of_getElem? (i := 3) rfl, fits_rWord (row := Instr.row (.dsubu rd rs rt)) (show _ = rWord 0b111111 0#5 0#5 0#5 0b11111 0b111111 from rfl) (by simp only [BitVec.and_zero]; rfl)⟩

theorem MatchesRow.add (rd rs rt : RegNum) : MatchesRow.Statement (.add rd rs rt) :=
  ⟨List.mem_of_getElem? (i := 4) rfl, fits_rWord (row := Instr.row (.add rd rs rt)) (show _ = rWord 0b111111 0#5 0#5 0#5 0b11111 0b111111 from rfl) (by simp only [BitVec.and_zero]; rfl)⟩

theorem MatchesRow.addu (rd rs rt : RegNum) : MatchesRow.Statement (.addu rd rs rt) :=
  ⟨List.mem_of_getElem? (i := 5) rfl, fits_rWord (row := Instr.row (.addu rd rs rt)) (show _ = rWord 0b111111 0#5 0#5 0#5 0b11111 0b111111 from rfl) (by simp only [BitVec.and_zero]; rfl)⟩

theorem MatchesRow.sub (rd rs rt : RegNum) : MatchesRow.Statement (.sub rd rs rt) :=
  ⟨List.mem_of_getElem? (i := 6) rfl, fits_rWord (row := Instr.row (.sub rd rs rt)) (show _ = rWord 0b111111 0#5 0#5 0#5 0b11111 0b111111 from rfl) (by simp only [BitVec.and_zero]; rfl)⟩

theorem MatchesRow.subu (rd rs rt : RegNum) : MatchesRow.Statement (.subu rd rs rt) :=
  ⟨List.mem_of_getElem? (i := 7) rfl, fits_rWord (row := Instr.row (.subu rd rs rt)) (show _ = rWord 0b111111 0#5 0#5 0#5 0b11111 0b111111 from rfl) (by simp only [BitVec.and_zero]; rfl)⟩

theorem MatchesRow.daddi (rt rs : RegNum) (imm : BitVec 16) : MatchesRow.Statement (.daddi rt rs imm) :=
  ⟨List.mem_of_getElem? (i := 8) rfl, fits_iWord (row := Instr.row (.daddi rt rs imm)) (show _ = iWord 0b111111 0#5 0#5 0#16 from rfl) (by simp only [BitVec.and_zero]; rfl)⟩

theorem MatchesRow.daddiu (rt rs : RegNum) (imm : BitVec 16) : MatchesRow.Statement (.daddiu rt rs imm) :=
  ⟨List.mem_of_getElem? (i := 9) rfl, fits_iWord (row := Instr.row (.daddiu rt rs imm)) (show _ = iWord 0b111111 0#5 0#5 0#16 from rfl) (by simp only [BitVec.and_zero]; rfl)⟩

theorem MatchesRow.addi (rt rs : RegNum) (imm : BitVec 16) : MatchesRow.Statement (.addi rt rs imm) :=
  ⟨List.mem_of_getElem? (i := 10) rfl, fits_iWord (row := Instr.row (.addi rt rs imm)) (show _ = iWord 0b111111 0#5 0#5 0#16 from rfl) (by simp only [BitVec.and_zero]; rfl)⟩

theorem MatchesRow.addiu (rt rs : RegNum) (imm : BitVec 16) : MatchesRow.Statement (.addiu rt rs imm) :=
  ⟨List.mem_of_getElem? (i := 11) rfl, fits_iWord (row := Instr.row (.addiu rt rs imm)) (show _ = iWord 0b111111 0#5 0#5 0#16 from rfl) (by simp only [BitVec.and_zero]; rfl)⟩

theorem MatchesRow.and (rd rs rt : RegNum) : MatchesRow.Statement (.and rd rs rt) :=
  ⟨List.mem_of_getElem? (i := 12) rfl, fits_rWord (row := Instr.row (.and rd rs rt)) (show _ = rWord 0b111111 0#5 0#5 0#5 0b11111 0b111111 from rfl) (by simp only [BitVec.and_zero]; rfl)⟩

theorem MatchesRow.or (rd rs rt : RegNum) : MatchesRow.Statement (.or rd rs rt) :=
  ⟨List.mem_of_getElem? (i := 13) rfl, fits_rWord (row := Instr.row (.or rd rs rt)) (show _ = rWord 0b111111 0#5 0#5 0#5 0b11111 0b111111 from rfl) (by simp only [BitVec.and_zero]; rfl)⟩

theorem MatchesRow.xor (rd rs rt : RegNum) : MatchesRow.Statement (.xor rd rs rt) :=
  ⟨List.mem_of_getElem? (i := 14) rfl, fits_rWord (row := Instr.row (.xor rd rs rt)) (show _ = rWord 0b111111 0#5 0#5 0#5 0b11111 0b111111 from rfl) (by simp only [BitVec.and_zero]; rfl)⟩

theorem MatchesRow.andi (rt rs : RegNum) (imm : BitVec 16) : MatchesRow.Statement (.andi rt rs imm) :=
  ⟨List.mem_of_getElem? (i := 15) rfl, fits_iWord (row := Instr.row (.andi rt rs imm)) (show _ = iWord 0b111111 0#5 0#5 0#16 from rfl) (by simp only [BitVec.and_zero]; rfl)⟩

theorem MatchesRow.ori (rt rs : RegNum) (imm : BitVec 16) : MatchesRow.Statement (.ori rt rs imm) :=
  ⟨List.mem_of_getElem? (i := 16) rfl, fits_iWord (row := Instr.row (.ori rt rs imm)) (show _ = iWord 0b111111 0#5 0#5 0#16 from rfl) (by simp only [BitVec.and_zero]; rfl)⟩

theorem MatchesRow.xori (rt rs : RegNum) (imm : BitVec 16) : MatchesRow.Statement (.xori rt rs imm) :=
  ⟨List.mem_of_getElem? (i := 17) rfl, fits_iWord (row := Instr.row (.xori rt rs imm)) (show _ = iWord 0b111111 0#5 0#5 0#16 from rfl) (by simp only [BitVec.and_zero]; rfl)⟩

theorem MatchesRow.lui (rt : RegNum) (imm : BitVec 16) : MatchesRow.Statement (.lui rt imm) :=
  ⟨List.mem_of_getElem? (i := 18) rfl, fits_iWord (row := Instr.row (.lui rt imm)) (show _ = iWord 0b111111 0b11111 0#5 0#16 from rfl) (by simp only [BitVec.and_zero]; rfl)⟩

theorem MatchesRow.slt (rd rs rt : RegNum) : MatchesRow.Statement (.slt rd rs rt) :=
  ⟨List.mem_of_getElem? (i := 19) rfl, fits_rWord (row := Instr.row (.slt rd rs rt)) (show _ = rWord 0b111111 0#5 0#5 0#5 0b11111 0b111111 from rfl) (by simp only [BitVec.and_zero]; rfl)⟩

theorem MatchesRow.sltu (rd rs rt : RegNum) : MatchesRow.Statement (.sltu rd rs rt) :=
  ⟨List.mem_of_getElem? (i := 20) rfl, fits_rWord (row := Instr.row (.sltu rd rs rt)) (show _ = rWord 0b111111 0#5 0#5 0#5 0b11111 0b111111 from rfl) (by simp only [BitVec.and_zero]; rfl)⟩

theorem MatchesRow.slti (rt rs : RegNum) (imm : BitVec 16) : MatchesRow.Statement (.slti rt rs imm) :=
  ⟨List.mem_of_getElem? (i := 21) rfl, fits_iWord (row := Instr.row (.slti rt rs imm)) (show _ = iWord 0b111111 0#5 0#5 0#16 from rfl) (by simp only [BitVec.and_zero]; rfl)⟩

theorem MatchesRow.sltiu (rt rs : RegNum) (imm : BitVec 16) : MatchesRow.Statement (.sltiu rt rs imm) :=
  ⟨List.mem_of_getElem? (i := 22) rfl, fits_iWord (row := Instr.row (.sltiu rt rs imm)) (show _ = iWord 0b111111 0#5 0#5 0#16 from rfl) (by simp only [BitVec.and_zero]; rfl)⟩

theorem MatchesRow.sll (rd rt : RegNum) (sa : BitVec 5) : MatchesRow.Statement (.sll rd rt sa) :=
  ⟨List.mem_of_getElem? (i := 23) rfl, fits_rWord (row := Instr.row (.sll rd rt sa)) (show _ = rWord 0b111111 0b11111 0#5 0#5 0#5 0b111111 from rfl) (by simp only [BitVec.and_zero]; rfl)⟩

theorem MatchesRow.srl (rd rt : RegNum) (sa : BitVec 5) : MatchesRow.Statement (.srl rd rt sa) :=
  ⟨List.mem_of_getElem? (i := 24) rfl, fits_rWord (row := Instr.row (.srl rd rt sa)) (show _ = rWord 0b111111 0b11111 0#5 0#5 0#5 0b111111 from rfl) (by simp only [BitVec.and_zero]; rfl)⟩

theorem MatchesRow.sra (rd rt : RegNum) (sa : BitVec 5) : MatchesRow.Statement (.sra rd rt sa) :=
  ⟨List.mem_of_getElem? (i := 25) rfl, fits_rWord (row := Instr.row (.sra rd rt sa)) (show _ = rWord 0b111111 0b11111 0#5 0#5 0#5 0b111111 from rfl) (by simp only [BitVec.and_zero]; rfl)⟩

theorem MatchesRow.sllv (rd rt rs : RegNum) : MatchesRow.Statement (.sllv rd rt rs) :=
  ⟨List.mem_of_getElem? (i := 26) rfl, fits_rWord (row := Instr.row (.sllv rd rt rs)) (show _ = rWord 0b111111 0#5 0#5 0#5 0b11111 0b111111 from rfl) (by simp only [BitVec.and_zero]; rfl)⟩

theorem MatchesRow.srlv (rd rt rs : RegNum) : MatchesRow.Statement (.srlv rd rt rs) :=
  ⟨List.mem_of_getElem? (i := 27) rfl, fits_rWord (row := Instr.row (.srlv rd rt rs)) (show _ = rWord 0b111111 0#5 0#5 0#5 0b11111 0b111111 from rfl) (by simp only [BitVec.and_zero]; rfl)⟩

theorem MatchesRow.srav (rd rt rs : RegNum) : MatchesRow.Statement (.srav rd rt rs) :=
  ⟨List.mem_of_getElem? (i := 28) rfl, fits_rWord (row := Instr.row (.srav rd rt rs)) (show _ = rWord 0b111111 0#5 0#5 0#5 0b11111 0b111111 from rfl) (by simp only [BitVec.and_zero]; rfl)⟩

theorem MatchesRow.dsll (rd rt : RegNum) (sa : BitVec 5) : MatchesRow.Statement (.dsll rd rt sa) :=
  ⟨List.mem_of_getElem? (i := 29) rfl, fits_rWord (row := Instr.row (.dsll rd rt sa)) (show _ = rWord 0b111111 0b11111 0#5 0#5 0#5 0b111111 from rfl) (by simp only [BitVec.and_zero]; rfl)⟩

theorem MatchesRow.dsrl (rd rt : RegNum) (sa : BitVec 5) : MatchesRow.Statement (.dsrl rd rt sa) :=
  ⟨List.mem_of_getElem? (i := 30) rfl, fits_rWord (row := Instr.row (.dsrl rd rt sa)) (show _ = rWord 0b111111 0b11111 0#5 0#5 0#5 0b111111 from rfl) (by simp only [BitVec.and_zero]; rfl)⟩

theorem MatchesRow.dsra (rd rt : RegNum) (sa : BitVec 5) : MatchesRow.Statement (.dsra rd rt sa) :=
  ⟨List.mem_of_getElem? (i := 31) rfl, fits_rWord (row := Instr.row (.dsra rd rt sa)) (show _ = rWord 0b111111 0b11111 0#5 0#5 0#5 0b111111 from rfl) (by simp only [BitVec.and_zero]; rfl)⟩

theorem MatchesRow.dsllv (rd rt rs : RegNum) : MatchesRow.Statement (.dsllv rd rt rs) :=
  ⟨List.mem_of_getElem? (i := 32) rfl, fits_rWord (row := Instr.row (.dsllv rd rt rs)) (show _ = rWord 0b111111 0#5 0#5 0#5 0b11111 0b111111 from rfl) (by simp only [BitVec.and_zero]; rfl)⟩

theorem MatchesRow.dsrlv (rd rt rs : RegNum) : MatchesRow.Statement (.dsrlv rd rt rs) :=
  ⟨List.mem_of_getElem? (i := 33) rfl, fits_rWord (row := Instr.row (.dsrlv rd rt rs)) (show _ = rWord 0b111111 0#5 0#5 0#5 0b11111 0b111111 from rfl) (by simp only [BitVec.and_zero]; rfl)⟩

theorem MatchesRow.dsrav (rd rt rs : RegNum) : MatchesRow.Statement (.dsrav rd rt rs) :=
  ⟨List.mem_of_getElem? (i := 34) rfl, fits_rWord (row := Instr.row (.dsrav rd rt rs)) (show _ = rWord 0b111111 0#5 0#5 0#5 0b11111 0b111111 from rfl) (by simp only [BitVec.and_zero]; rfl)⟩

theorem MatchesRow.movz (rd rs rt : RegNum) : MatchesRow.Statement (.movz rd rs rt) :=
  ⟨List.mem_of_getElem? (i := 35) rfl, fits_rWord (row := Instr.row (.movz rd rs rt)) (show _ = rWord 0b111111 0#5 0#5 0#5 0b11111 0b111111 from rfl) (by simp only [BitVec.and_zero]; rfl)⟩

theorem MatchesRow.movn (rd rs rt : RegNum) : MatchesRow.Statement (.movn rd rs rt) :=
  ⟨List.mem_of_getElem? (i := 36) rfl, fits_rWord (row := Instr.row (.movn rd rs rt)) (show _ = rWord 0b111111 0#5 0#5 0#5 0b11111 0b111111 from rfl) (by simp only [BitVec.and_zero]; rfl)⟩

theorem MatchesRow.dmult (rs rt : RegNum) : MatchesRow.Statement (.dmult rs rt) :=
  ⟨List.mem_of_getElem? (i := 37) rfl, fits_rWord (row := Instr.row (.dmult rs rt)) (show _ = rWord 0b111111 0#5 0#5 0b11111 0b11111 0b111111 from rfl) (by simp only [BitVec.and_zero]; rfl)⟩

theorem MatchesRow.dmultu (rs rt : RegNum) : MatchesRow.Statement (.dmultu rs rt) :=
  ⟨List.mem_of_getElem? (i := 38) rfl, fits_rWord (row := Instr.row (.dmultu rs rt)) (show _ = rWord 0b111111 0#5 0#5 0b11111 0b11111 0b111111 from rfl) (by simp only [BitVec.and_zero]; rfl)⟩

theorem MatchesRow.mult (rs rt : RegNum) : MatchesRow.Statement (.mult rs rt) :=
  ⟨List.mem_of_getElem? (i := 39) rfl, fits_rWord (row := Instr.row (.mult rs rt)) (show _ = rWord 0b111111 0#5 0#5 0b11111 0b11111 0b111111 from rfl) (by simp only [BitVec.and_zero]; rfl)⟩

theorem MatchesRow.multu (rs rt : RegNum) : MatchesRow.Statement (.multu rs rt) :=
  ⟨List.mem_of_getElem? (i := 40) rfl, fits_rWord (row := Instr.row (.multu rs rt)) (show _ = rWord 0b111111 0#5 0#5 0b11111 0b11111 0b111111 from rfl) (by simp only [BitVec.and_zero]; rfl)⟩

theorem MatchesRow.ddiv (rs rt : RegNum) : MatchesRow.Statement (.ddiv rs rt) :=
  ⟨List.mem_of_getElem? (i := 41) rfl, fits_rWord (row := Instr.row (.ddiv rs rt)) (show _ = rWord 0b111111 0#5 0#5 0b11111 0b11111 0b111111 from rfl) (by simp only [BitVec.and_zero]; rfl)⟩

theorem MatchesRow.ddivu (rs rt : RegNum) : MatchesRow.Statement (.ddivu rs rt) :=
  ⟨List.mem_of_getElem? (i := 42) rfl, fits_rWord (row := Instr.row (.ddivu rs rt)) (show _ = rWord 0b111111 0#5 0#5 0b11111 0b11111 0b111111 from rfl) (by simp only [BitVec.and_zero]; rfl)⟩

theorem MatchesRow.div (rs rt : RegNum) : MatchesRow.Statement (.div rs rt) :=
  ⟨List.mem_of_getElem? (i := 43) rfl, fits_rWord (row := Instr.row (.div rs rt)) (show _ = rWord 0b111111 0#5 0#5 0b11111 0b11111 0b111111 from rfl) (by simp only [BitVec.and_zero]; rfl)⟩

theorem MatchesRow.divu (rs rt : RegNum) : MatchesRow.Statement (.divu rs rt) :=
  ⟨List.mem_of_getElem? (i := 44) rfl, fits_rWord (row := Instr.row (.divu rs rt)) (show _ = rWord 0b111111 0#5 0#5 0b11111 0b11111 0b111111 from rfl) (by simp only [BitVec.and_zero]; rfl)⟩

theorem MatchesRow.mfhi (rd : RegNum) : MatchesRow.Statement (.mfhi rd) :=
  ⟨List.mem_of_getElem? (i := 45) rfl, fits_rWord (row := Instr.row (.mfhi rd)) (show _ = rWord 0b111111 0b11111 0b11111 0#5 0b11111 0b111111 from rfl) (by simp only [BitVec.and_zero]; rfl)⟩

theorem MatchesRow.mflo (rd : RegNum) : MatchesRow.Statement (.mflo rd) :=
  ⟨List.mem_of_getElem? (i := 46) rfl, fits_rWord (row := Instr.row (.mflo rd)) (show _ = rWord 0b111111 0b11111 0b11111 0#5 0b11111 0b111111 from rfl) (by simp only [BitVec.and_zero]; rfl)⟩

theorem MatchesRow.lb (rt : RegNum) (offset : BitVec 16) (base : RegNum) : MatchesRow.Statement (.lb rt offset base) :=
  ⟨List.mem_of_getElem? (i := 47) rfl, fits_iWord (row := Instr.row (.lb rt offset base)) (show _ = iWord 0b111111 0#5 0#5 0#16 from rfl) (by simp only [BitVec.and_zero]; rfl)⟩

theorem MatchesRow.lbu (rt : RegNum) (offset : BitVec 16) (base : RegNum) : MatchesRow.Statement (.lbu rt offset base) :=
  ⟨List.mem_of_getElem? (i := 48) rfl, fits_iWord (row := Instr.row (.lbu rt offset base)) (show _ = iWord 0b111111 0#5 0#5 0#16 from rfl) (by simp only [BitVec.and_zero]; rfl)⟩

theorem MatchesRow.lh (rt : RegNum) (offset : BitVec 16) (base : RegNum) : MatchesRow.Statement (.lh rt offset base) :=
  ⟨List.mem_of_getElem? (i := 49) rfl, fits_iWord (row := Instr.row (.lh rt offset base)) (show _ = iWord 0b111111 0#5 0#5 0#16 from rfl) (by simp only [BitVec.and_zero]; rfl)⟩

theorem MatchesRow.lhu (rt : RegNum) (offset : BitVec 16) (base : RegNum) : MatchesRow.Statement (.lhu rt offset base) :=
  ⟨List.mem_of_getElem? (i := 50) rfl, fits_iWord (row := Instr.row (.lhu rt offset base)) (show _ = iWord 0b111111 0#5 0#5 0#16 from rfl) (by simp only [BitVec.and_zero]; rfl)⟩

theorem MatchesRow.lw (rt : RegNum) (offset : BitVec 16) (base : RegNum) : MatchesRow.Statement (.lw rt offset base) :=
  ⟨List.mem_of_getElem? (i := 51) rfl, fits_iWord (row := Instr.row (.lw rt offset base)) (show _ = iWord 0b111111 0#5 0#5 0#16 from rfl) (by simp only [BitVec.and_zero]; rfl)⟩

theorem MatchesRow.lwu (rt : RegNum) (offset : BitVec 16) (base : RegNum) : MatchesRow.Statement (.lwu rt offset base) :=
  ⟨List.mem_of_getElem? (i := 52) rfl, fits_iWord (row := Instr.row (.lwu rt offset base)) (show _ = iWord 0b111111 0#5 0#5 0#16 from rfl) (by simp only [BitVec.and_zero]; rfl)⟩

theorem MatchesRow.ld (rt : RegNum) (offset : BitVec 16) (base : RegNum) : MatchesRow.Statement (.ld rt offset base) :=
  ⟨List.mem_of_getElem? (i := 53) rfl, fits_iWord (row := Instr.row (.ld rt offset base)) (show _ = iWord 0b111111 0#5 0#5 0#16 from rfl) (by simp only [BitVec.and_zero]; rfl)⟩

theorem MatchesRow.sb (rt : RegNum) (offset : BitVec 16) (base : RegNum) : MatchesRow.Statement (.sb rt offset base) :=
  ⟨List.mem_of_getElem? (i := 54) rfl, fits_iWord (row := Instr.row (.sb rt offset base)) (show _ = iWord 0b111111 0#5 0#5 0#16 from rfl) (by simp only [BitVec.and_zero]; rfl)⟩

theorem MatchesRow.sh (rt : RegNum) (offset : BitVec 16) (base : RegNum) : MatchesRow.Statement (.sh rt offset base) :=
  ⟨List.mem_of_getElem? (i := 55) rfl, fits_iWord (row := Instr.row (.sh rt offset base)) (show _ = iWord 0b111111 0#5 0#5 0#16 from rfl) (by simp only [BitVec.and_zero]; rfl)⟩

theorem MatchesRow.sw (rt : RegNum) (offset : BitVec 16) (base : RegNum) : MatchesRow.Statement (.sw rt offset base) :=
  ⟨List.mem_of_getElem? (i := 56) rfl, fits_iWord (row := Instr.row (.sw rt offset base)) (show _ = iWord 0b111111 0#5 0#5 0#16 from rfl) (by simp only [BitVec.and_zero]; rfl)⟩

theorem MatchesRow.sd (rt : RegNum) (offset : BitVec 16) (base : RegNum) : MatchesRow.Statement (.sd rt offset base) :=
  ⟨List.mem_of_getElem? (i := 57) rfl, fits_iWord (row := Instr.row (.sd rt offset base)) (show _ = iWord 0b111111 0#5 0#5 0#16 from rfl) (by simp only [BitVec.and_zero]; rfl)⟩

theorem MatchesRow.lwc1 (ft : RegNum) (offset : BitVec 16) (base : RegNum) : MatchesRow.Statement (.lwc1 ft offset base) :=
  ⟨List.mem_of_getElem? (i := 58) rfl, fits_iWord (row := Instr.row (.lwc1 ft offset base)) (show _ = iWord 0b111111 0#5 0#5 0#16 from rfl) (by simp only [BitVec.and_zero]; rfl)⟩

theorem MatchesRow.ldc1 (ft : RegNum) (offset : BitVec 16) (base : RegNum) : MatchesRow.Statement (.ldc1 ft offset base) :=
  ⟨List.mem_of_getElem? (i := 59) rfl, fits_iWord (row := Instr.row (.ldc1 ft offset base)) (show _ = iWord 0b111111 0#5 0#5 0#16 from rfl) (by simp only [BitVec.and_zero]; rfl)⟩

theorem MatchesRow.swc1 (ft : RegNum) (offset : BitVec 16) (base : RegNum) : MatchesRow.Statement (.swc1 ft offset base) :=
  ⟨List.mem_of_getElem? (i := 60) rfl, fits_iWord (row := Instr.row (.swc1 ft offset base)) (show _ = iWord 0b111111 0#5 0#5 0#16 from rfl) (by simp only [BitVec.and_zero]; rfl)⟩

theorem MatchesRow.sdc1 (ft : RegNum) (offset : BitVec 16) (base : RegNum) : MatchesRow.Statement (.sdc1 ft offset base) :=
  ⟨List.mem_of_getElem? (i := 61) rfl, fits_iWord (row := Instr.row (.sdc1 ft offset base)) (show _ = iWord 0b111111 0#5 0#5 0#16 from rfl) (by simp only [BitVec.and_zero]; rfl)⟩

theorem MatchesRow.beq (rs rt : RegNum) (offset : BitVec 16) : MatchesRow.Statement (.beq rs rt offset) :=
  ⟨List.mem_of_getElem? (i := 62) rfl, fits_iWord (row := Instr.row (.beq rs rt offset)) (show _ = iWord 0b111111 0#5 0#5 0#16 from rfl) (by simp only [BitVec.and_zero]; rfl)⟩

theorem MatchesRow.bne (rs rt : RegNum) (offset : BitVec 16) : MatchesRow.Statement (.bne rs rt offset) :=
  ⟨List.mem_of_getElem? (i := 63) rfl, fits_iWord (row := Instr.row (.bne rs rt offset)) (show _ = iWord 0b111111 0#5 0#5 0#16 from rfl) (by simp only [BitVec.and_zero]; rfl)⟩

theorem MatchesRow.beqz (rs : RegNum) (offset : BitVec 16) : MatchesRow.Statement (.beqz rs offset) :=
  ⟨List.mem_of_getElem? (i := 64) rfl, fits_iWord (row := Instr.row (.beqz rs offset)) (show _ = iWord 0b111111 0#5 0b11111 0#16 from rfl) (by simp only [BitVec.and_zero]; rfl)⟩

theorem MatchesRow.bnez (rs : RegNum) (offset : BitVec 16) : MatchesRow.Statement (.bnez rs offset) :=
  ⟨List.mem_of_getElem? (i := 65) rfl, fits_iWord (row := Instr.row (.bnez rs offset)) (show _ = iWord 0b111111 0#5 0b11111 0#16 from rfl) (by simp only [BitVec.and_zero]; rfl)⟩

theorem MatchesRow.bgez (rs : RegNum) (offset : BitVec 16) : MatchesRow.Statement (.bgez rs offset) :=
  ⟨List.mem_of_getElem? (i := 66) rfl, fits_iWord (row := Instr.row (.bgez rs offset)) (show _ = iWord 0b111111 0#5 0b11111 0#16 from rfl) (by simp only [BitVec.and_zero]; rfl)⟩

theorem MatchesRow.bc1f (cc : CcNum) (offset : BitVec 16) : MatchesRow.Statement (.bc1f cc offset) :=
  ⟨List.mem_of_getElem? (i := 67) rfl, fits_iWord (row := Instr.row (.bc1f cc offset)) (show _ = iWord 0b111111 0b11111 0b00011 0#16 from rfl) (by simp only [BitVec.and_zero, ccBits_and_three]; rfl)⟩

theorem MatchesRow.bc1t (cc : CcNum) (offset : BitVec 16) : MatchesRow.Statement (.bc1t cc offset) :=
  ⟨List.mem_of_getElem? (i := 68) rfl, fits_iWord (row := Instr.row (.bc1t cc offset)) (show _ = iWord 0b111111 0b11111 0b00011 0#16 from rfl) (by simp only [BitVec.and_zero, ccBits_and_three]; rfl)⟩

theorem MatchesRow.j (target : BitVec 26) : MatchesRow.Statement (.j target) :=
  ⟨List.mem_of_getElem? (i := 69) rfl, fits_jWord (row := Instr.row (.j target)) (show _ = jWord 0b111111 0#26 from rfl) (by simp only [BitVec.and_zero]; rfl)⟩

theorem MatchesRow.jal (target : BitVec 26) : MatchesRow.Statement (.jal target) :=
  ⟨List.mem_of_getElem? (i := 70) rfl, fits_jWord (row := Instr.row (.jal target)) (show _ = jWord 0b111111 0#26 from rfl) (by simp only [BitVec.and_zero]; rfl)⟩

theorem MatchesRow.jr (rs : RegNum) : MatchesRow.Statement (.jr rs) :=
  ⟨List.mem_of_getElem? (i := 71) rfl, fits_rWord (row := Instr.row (.jr rs)) (show _ = rWord 0b111111 0#5 0b11111 0b11111 0b11111 0b111111 from rfl) (by simp only [BitVec.and_zero]; rfl)⟩

theorem MatchesRow.jalr (rd rs : RegNum) : MatchesRow.Statement (.jalr rd rs) :=
  ⟨List.mem_of_getElem? (i := 72) rfl, fits_rWord (row := Instr.row (.jalr rd rs)) (show _ = rWord 0b111111 0#5 0b11111 0#5 0b11111 0b111111 from rfl) (by simp only [BitVec.and_zero]; rfl)⟩

theorem MatchesRow.addD (fd fs ft : RegNum) : MatchesRow.Statement (.addD fd fs ft) :=
  ⟨List.mem_of_getElem? (i := 73) rfl, fits_rWord (row := Instr.row (.addD fd fs ft)) (show _ = rWord 0b111111 0b11111 0#5 0#5 0#5 0b111111 from rfl) (by simp only [BitVec.and_zero]; rfl)⟩

theorem MatchesRow.subD (fd fs ft : RegNum) : MatchesRow.Statement (.subD fd fs ft) :=
  ⟨List.mem_of_getElem? (i := 74) rfl, fits_rWord (row := Instr.row (.subD fd fs ft)) (show _ = rWord 0b111111 0b11111 0#5 0#5 0#5 0b111111 from rfl) (by simp only [BitVec.and_zero]; rfl)⟩

theorem MatchesRow.mulD (fd fs ft : RegNum) : MatchesRow.Statement (.mulD fd fs ft) :=
  ⟨List.mem_of_getElem? (i := 75) rfl, fits_rWord (row := Instr.row (.mulD fd fs ft)) (show _ = rWord 0b111111 0b11111 0#5 0#5 0#5 0b111111 from rfl) (by simp only [BitVec.and_zero]; rfl)⟩

theorem MatchesRow.divD (fd fs ft : RegNum) : MatchesRow.Statement (.divD fd fs ft) :=
  ⟨List.mem_of_getElem? (i := 76) rfl, fits_rWord (row := Instr.row (.divD fd fs ft)) (show _ = rWord 0b111111 0b11111 0#5 0#5 0#5 0b111111 from rfl) (by simp only [BitVec.and_zero]; rfl)⟩

theorem MatchesRow.cvtLD (fd fs : RegNum) : MatchesRow.Statement (.cvtLD fd fs) :=
  ⟨List.mem_of_getElem? (i := 77) rfl, fits_rWord (row := Instr.row (.cvtLD fd fs)) (show _ = rWord 0b111111 0b11111 0b11111 0#5 0#5 0b111111 from rfl) (by simp only [BitVec.and_zero]; rfl)⟩

theorem MatchesRow.cvtWD (fd fs : RegNum) : MatchesRow.Statement (.cvtWD fd fs) :=
  ⟨List.mem_of_getElem? (i := 78) rfl, fits_rWord (row := Instr.row (.cvtWD fd fs)) (show _ = rWord 0b111111 0b11111 0b11111 0#5 0#5 0b111111 from rfl) (by simp only [BitVec.and_zero]; rfl)⟩

theorem MatchesRow.cvtDL (fd fs : RegNum) : MatchesRow.Statement (.cvtDL fd fs) :=
  ⟨List.mem_of_getElem? (i := 79) rfl, fits_rWord (row := Instr.row (.cvtDL fd fs)) (show _ = rWord 0b111111 0b11111 0b11111 0#5 0#5 0b111111 from rfl) (by simp only [BitVec.and_zero]; rfl)⟩

theorem MatchesRow.cvtDW (fd fs : RegNum) : MatchesRow.Statement (.cvtDW fd fs) :=
  ⟨List.mem_of_getElem? (i := 80) rfl, fits_rWord (row := Instr.row (.cvtDW fd fs)) (show _ = rWord 0b111111 0b11111 0b11111 0#5 0#5 0b111111 from rfl) (by simp only [BitVec.and_zero]; rfl)⟩

theorem MatchesRow.movD (fd fs : RegNum) : MatchesRow.Statement (.movD fd fs) :=
  ⟨List.mem_of_getElem? (i := 81) rfl, fits_rWord (row := Instr.row (.movD fd fs)) (show _ = rWord 0b111111 0b11111 0b11111 0#5 0#5 0b111111 from rfl) (by simp only [BitVec.and_zero]; rfl)⟩

theorem MatchesRow.movzD (fd fs rt : RegNum) : MatchesRow.Statement (.movzD fd fs rt) :=
  ⟨List.mem_of_getElem? (i := 82) rfl, fits_rWord (row := Instr.row (.movzD fd fs rt)) (show _ = rWord 0b111111 0b11111 0#5 0#5 0#5 0b111111 from rfl) (by simp only [BitVec.and_zero]; rfl)⟩

theorem MatchesRow.movnD (fd fs rt : RegNum) : MatchesRow.Statement (.movnD fd fs rt) :=
  ⟨List.mem_of_getElem? (i := 83) rfl, fits_rWord (row := Instr.row (.movnD fd fs rt)) (show _ = rWord 0b111111 0b11111 0#5 0#5 0#5 0b111111 from rfl) (by simp only [BitVec.and_zero]; rfl)⟩

theorem MatchesRow.movfD (fd fs : RegNum) (cc : CcNum) : MatchesRow.Statement (.movfD fd fs cc) :=
  ⟨List.mem_of_getElem? (i := 84) rfl, fits_rWord (row := Instr.row (.movfD fd fs cc)) (show _ = rWord 0b111111 0b11111 0b00011 0#5 0#5 0b111111 from rfl) (by simp only [BitVec.and_zero, ccBits_and_three]; rfl)⟩

theorem MatchesRow.movtD (fd fs : RegNum) (cc : CcNum) : MatchesRow.Statement (.movtD fd fs cc) :=
  ⟨List.mem_of_getElem? (i := 85) rfl, fits_rWord (row := Instr.row (.movtD fd fs cc)) (show _ = rWord 0b111111 0b11111 0b00011 0#5 0#5 0b111111 from rfl) (by simp only [BitVec.and_zero, ccBits_and_three]; rfl)⟩

theorem MatchesRow.cEqD (cc : CcNum) (fs ft : RegNum) : MatchesRow.Statement (.cEqD cc fs ft) :=
  ⟨List.mem_of_getElem? (i := 86) rfl, fits_rWord (row := Instr.row (.cEqD cc fs ft)) (show _ = rWord 0b111111 0b11111 0#5 0#5 0b00011 0b111111 from rfl) (by simp only [BitVec.and_zero, ccBits_and_three]; rfl)⟩

theorem MatchesRow.cLtD (cc : CcNum) (fs ft : RegNum) : MatchesRow.Statement (.cLtD cc fs ft) :=
  ⟨List.mem_of_getElem? (i := 87) rfl, fits_rWord (row := Instr.row (.cLtD cc fs ft)) (show _ = rWord 0b111111 0b11111 0#5 0#5 0b00011 0b111111 from rfl) (by simp only [BitVec.and_zero, ccBits_and_three]; rfl)⟩

theorem MatchesRow.cUnD (cc : CcNum) (fs ft : RegNum) : MatchesRow.Statement (.cUnD cc fs ft) :=
  ⟨List.mem_of_getElem? (i := 88) rfl, fits_rWord (row := Instr.row (.cUnD cc fs ft)) (show _ = rWord 0b111111 0b11111 0#5 0#5 0b00011 0b111111 from rfl) (by simp only [BitVec.and_zero, ccBits_and_three]; rfl)⟩

theorem MatchesRow.mtc1 (rt fs : RegNum) : MatchesRow.Statement (.mtc1 rt fs) :=
  ⟨List.mem_of_getElem? (i := 89) rfl, fits_rWord (row := Instr.row (.mtc1 rt fs)) (show _ = rWord 0b111111 0b11111 0#5 0#5 0b11111 0b111111 from rfl) (by simp only [BitVec.and_zero]; rfl)⟩

theorem MatchesRow.mfc1 (rt fs : RegNum) : MatchesRow.Statement (.mfc1 rt fs) :=
  ⟨List.mem_of_getElem? (i := 90) rfl, fits_rWord (row := Instr.row (.mfc1 rt fs)) (show _ = rWord 0b111111 0b11111 0#5 0#5 0b11111 0b111111 from rfl) (by simp only [BitVec.and_zero]; rfl)⟩

theorem MatchesRow.dmtc1 (rt fs : RegNum) : MatchesRow.Statement (.dmtc1 rt fs) :=
  ⟨List.mem_of_getElem? (i := 91) rfl, fits_rWord (row := Instr.row (.dmtc1 rt fs)) (show _ = rWord 0b111111 0b11111 0#5 0#5 0b11111 0b111111 from rfl) (by simp only [BitVec.and_zero]; rfl)⟩

theorem MatchesRow.dmfc1 (rt fs : RegNum) : MatchesRow.Statement (.dmfc1 rt fs) :=
  ⟨List.mem_of_getElem? (i := 92) rfl, fits_rWord (row := Instr.row (.dmfc1 rt fs)) (show _ = rWord 0b111111 0b11111 0#5 0#5 0b11111 0b111111 from rfl) (by simp only [BitVec.and_zero]; rfl)⟩

theorem MatchesRow.ctc1 (rt : RegNum) : MatchesRow.Statement (.ctc1 rt) :=
  ⟨List.mem_of_getElem? (i := 93) rfl, fits_rWord (row := Instr.row (.ctc1 rt)) (show _ = rWord 0b111111 0b11111 0#5 0b11111 0b11111 0b111111 from rfl) (by simp only [BitVec.and_zero]; rfl)⟩

theorem MatchesRow.cfc1 (rt : RegNum) : MatchesRow.Statement (.cfc1 rt) :=
  ⟨List.mem_of_getElem? (i := 94) rfl, fits_rWord (row := Instr.row (.cfc1 rt)) (show _ = rWord 0b111111 0b11111 0#5 0b11111 0b11111 0b111111 from rfl) (by simp only [BitVec.and_zero]; rfl)⟩

theorem MatchesRow.halt : MatchesRow.Statement .halt :=
  ⟨List.mem_of_getElem? (i := 95) rfl, fits_iWord (row := Instr.row .halt) (show _ = iWord 0b111111 0b11111 0b11111 0b1111111111111111 from rfl) rfl⟩

theorem MatchesRow.nop : MatchesRow.Statement .nop :=
  ⟨List.mem_of_getElem? (i := 96) rfl, fits_rWord (row := Instr.row .nop) (show _ = rWord 0b111111 0b11111 0b11111 0b11111 0b11111 0b111111 from rfl) rfl⟩

theorem MatchesRow.brk (code : BitVec 20) : MatchesRow.Statement (.brk code) :=
  ⟨List.mem_of_getElem? (i := 97) rfl, fits_codeWord (row := Instr.row (.brk code)) (show _ = codeWord 0b111111 0#20 0b111111 from rfl) (by simp only [BitVec.and_zero]; rfl)⟩

end Sys2Proof.Laws
end

