-- ==== Sys2Proof/Laws/Rounding.lean ====
section
/-! SUPPORT. Rounding (R170, R181): what the rounded quotient, the pattern built of it and the value of that pattern are. -/

namespace Sys2Proof.Machine

/-! ### Quotients -/

/-- A rounded quotient is the floor or one more, and more only where there is a remainder. -/
theorem roundQuotient_cases (rm : RoundMode) (neg : Bool) (num den : Nat) :
    roundQuotient rm neg num den = num / den ∨
      (roundQuotient rm neg num den = num / den + 1 ∧ (num % den ≠ 0 ∨ den = 0)) := by
  unfold roundQuotient
  cases rm <;> simp only
  · split
    · rename_i h
      right; refine ⟨rfl, ?_⟩
      by_cases hd : den = 0
      · exact .inr hd
      · left; rcases h with h | h <;> omega
    · exact .inl rfl
  · exact .inl trivial
  · split
    · rename_i h; exact .inr ⟨rfl, .inl h.2⟩
    · exact .inl rfl
  · split
    · rename_i h; exact .inr ⟨rfl, .inl h.2⟩
    · exact .inl rfl

/-- Rounding to nearest gives an integer nearest to the quotient. -/
theorem roundQuotient_nearest (neg : Bool) (num : Nat) {den : Nat} (hd : 0 < den) (t : Int) :
    |(num : Int) - roundQuotient .RN neg num den * den| ≤ |(num : Int) - t * den| ∧
    (|(num : Int) - roundQuotient .RN neg num den * den| = |(num : Int) - t * den| →
      t ≠ roundQuotient .RN neg num den → roundQuotient .RN neg num den % 2 = 0) := by
  have hdiv : (num : Int) = (num / den : Nat) * den + (num % den : Nat) := by
    have := Nat.div_add_mod num den
    rw [Nat.mul_comm] at this; exact_mod_cast this.symm
  have hr := Nat.mod_lt num hd
  unfold roundQuotient
  simp only
  generalize num / den = q at *
  generalize num % den = r at *
  have hd' : (0 : Int) < den := by exact_mod_cast hd
  have hr' : (r : Int) < den := by exact_mod_cast hr
  have low : t ≤ q → (r : Int) ≤ (num : Int) - t * den := by
    intro h; rw [hdiv]; nlinarith
  have high : (q : Int) + 1 ≤ t → (den : Int) - r ≤ t * den - num := by
    intro h; rw [hdiv]; nlinarith
  have low' : t < q → (r : Int) + den ≤ (num : Int) - t * den := by
    intro h; rw [hdiv]; nlinarith
  have high' : (q : Int) + 1 < t → 2 * (den : Int) - r ≤ t * den - num := by
    intro h; rw [hdiv]; nlinarith
  have eq1 : t = q → (num : Int) - t * den = r := by rintro rfl; rw [hdiv]; ring
  have eq2 : t = (q : Int) + 1 → t * den - num = den - r := by rintro rfl; rw [hdiv]; ring
  split
  · rename_i h
    have hv : |(num : Int) - ((q + 1 : Nat) : Int) * den| = den - r := by
      rw [hdiv]; push_cast
      rw [show (q : Int) * den + r - (q + 1) * den = -((den : Int) - r) by ring, abs_neg, abs_of_nonneg (by omega)]
    rw [hv]
    rcases lt_trichotomy t q with ht | ht | ht
    · have := low' ht; rw [abs_of_nonneg (by omega)]; exact ⟨by omega, fun _ _ => by omega⟩
    · have := eq1 ht; rw [this, abs_of_nonneg (by omega)]
      refine ⟨by omega, fun he _ => ?_⟩
      rcases h with h | h <;> omega
    · rcases eq_or_lt_of_le (show (q : Int) + 1 ≤ t by omega) with h1 | h1
      · have := eq2 h1.symm
        rw [abs_of_nonpos (by omega)]; exact ⟨by omega, fun _ hn => absurd (by push_cast; omega) hn⟩
      · have := high' h1; rw [abs_of_nonpos (by omega)]; exact ⟨by omega, fun _ _ => by omega⟩
  · rename_i h
    have hv : |(num : Int) - (q : Int) * den| = r := by
      rw [hdiv, show (q : Int) * den + r - q * den = r by ring, abs_of_nonneg (by omega)]
    rw [hv]
    rcases lt_trichotomy t q with ht | ht | ht
    · have := low' ht; rw [abs_of_nonneg (by omega)]; exact ⟨by omega, fun _ _ => by omega⟩
    · exact ⟨by rw [eq1 ht, abs_of_nonneg (by omega)], fun _ hn => absurd ht hn⟩
    · rcases eq_or_lt_of_le (show (q : Int) + 1 ≤ t by omega) with h1 | h1
      · have := eq2 h1.symm
        rw [abs_of_nonpos (by omega)]
        refine ⟨by omega, fun he _ => by omega⟩
      · have := high' h1; rw [abs_of_nonpos (by omega)]; exact ⟨by omega, fun _ _ => by omega⟩

/-! ### Patterns -/

/-- A pattern's sign, exponent and fraction make up its number. -/
theorem pattern_toNat (p : Word) : p.toNat = (if fpSign p then 2 ^ 63 else 0) + fpExp p * 2 ^ 52 + fpFrac p := by
  have h := p.isLt
  have hs : fpSign p = decide (p.toNat / 2 ^ 63 % 2 = 1) := by
    rw [fpSign, BitVec.getLsbD, Nat.testBit_eq_decide_div_mod_eq]
  simp only [hs, fpExp, fpFrac, BitVec.extractLsb'_toNat, Nat.shiftRight_eq_div_pow]
  split <;> rename_i h1 <;> simp only [decide_eq_true_eq] at h1 <;> omega

theorem fpExp_lt (p : Word) : fpExp p < 2 ^ 11 := BitVec.isLt _

theorem fpFrac_lt (p : Word) : fpFrac p < 2 ^ 52 := BitVec.isLt _

/-- A finite pattern is one whose exponent is not the greatest (R161). -/
theorem isFinite_iff (p : Word) : isFinite p = true ↔ fpExp p < 2047 := by
  have h := fpExp_lt p
  unfold isFinite isNaN isInf fpKind
  by_cases h1 : fpExp p = 0x7FF
  · rw [if_pos h1]
    by_cases h2 : fpFrac p = 0
    · simp [h2, h1]
    · by_cases h3 : fpFracTop p = true <;> simp [h2, h3, h1]
  · rw [if_neg h1]
    have : fpExp p < 2047 := by omega
    by_cases h2 : fpExp p = 0
    · by_cases h3 : fpFrac p = 0 <;> simp [h2, h3]
    · simp [h2, this]

theorem isZero_iff (p : Word) : isZero p = true ↔ fpExp p = 0 ∧ fpFrac p = 0 := by
  unfold isZero fpKind
  by_cases h1 : fpExp p = 0x7FF
  · rw [if_pos h1]
    by_cases h2 : fpFrac p = 0
    · simp [h2, h1]
    · by_cases h3 : fpFracTop p = true <;> simp [h2, h3, h1]
  · rw [if_neg h1]
    by_cases h2 : fpExp p = 0
    · by_cases h3 : fpFrac p = 0 <;> simp [h2, h3]
    · simp [h2]

/-- A finite pattern is zero exactly where its magnitude is (R161, R162). -/
theorem isZero_iff_mag (p : Word) : isZero p = true ↔ fpMag p = 0 := by
  rw [isZero_iff]
  unfold fpMag
  split
  · rename_i h; simp [h]
  · rename_i h
    refine ⟨fun hh => absurd hh.1 h, fun hh => ?_⟩
    rcases Nat.mul_eq_zero.mp hh with h2 | h2
    · omega
    · exact absurd h2 (by positivity)

/-- The sign, exponent and fraction of a number below 2^63 with a sign put on. -/
theorem pattern_fields (neg : Bool) {n : Nat} (hn : n < 2 ^ 63) :
    fpSign (BitVec.ofNat 64 ((if neg then 2 ^ 63 else 0) + n)) = neg ∧
    fpExp (BitVec.ofNat 64 ((if neg then 2 ^ 63 else 0) + n)) = n / 2 ^ 52 ∧
    fpFrac (BitVec.ofNat 64 ((if neg then 2 ^ 63 else 0) + n)) = n % 2 ^ 52 := by
  have ht : (BitVec.ofNat 64 ((if neg then 2 ^ 63 else 0) + n)).toNat = (if neg then 2 ^ 63 else 0) + n := by
    rw [BitVec.toNat_ofNat, Nat.mod_eq_of_lt]; split <;> omega
  refine ⟨?_, ?_, ?_⟩
  · rw [fpSign, BitVec.getLsbD, ht, Nat.testBit_eq_decide_div_mod_eq]
    cases neg <;> simp <;> omega
  · rw [fpExp, BitVec.extractLsb'_toNat, ht, Nat.shiftRight_eq_div_pow]
    cases neg <;> simp <;> omega
  · rw [fpFrac, BitVec.extractLsb'_toNat, ht, Nat.shiftRight_eq_div_pow]
    cases neg <;> simp <;> omega

/-- The pattern of sign neg and magnitude q * 2^k units: its fields' value is that magnitude (R160, R162). -/
theorem patternOf_facts (neg : Bool) {k q : Nat} (hq : q ≤ 2 ^ 53) (hk : k = 0 ∨ 2 ^ 52 ≤ q)
    (hb : k * 2 ^ 52 + q < 2047 * 2 ^ 52) :
    isFinite (patternOf neg k q) = true ∧ fpSign (patternOf neg k q) = neg ∧
    fpMag (patternOf neg k q) = q * 2 ^ k ∧ fpFrac (patternOf neg k q) % 2 = q % 2 := by
  obtain ⟨h1, h2, h3⟩ := pattern_fields neg (n := k * 2 ^ 52 + q) (by omega)
  rw [← Nat.add_assoc] at h1 h2 h3
  rw [isFinite_iff]
  unfold patternOf
  rw [fpMag, h1, h2, h3]
  refine ⟨by omega, rfl, ?_, by omega⟩
  by_cases hz : (k * 2 ^ 52 + q) / 2 ^ 52 = 0
  · rw [if_pos hz]
    have hk0 : k = 0 := by omega
    subst hk0
    simp only [Nat.zero_mul, Nat.zero_add, pow_zero, Nat.mul_one]
    omega
  · rw [if_neg hz]
    by_cases hlt : q < 2 ^ 52
    · omega
    · by_cases htop : q = 2 ^ 53
      · subst htop
        rw [show (k * 2 ^ 52 + 2 ^ 53) % 2 ^ 52 = 0 by omega, show (k * 2 ^ 52 + 2 ^ 53) / 2 ^ 52 - 1 = k + 1 by omega,
          pow_succ]
        ring
      · rw [show (k * 2 ^ 52 + q) % 2 ^ 52 = q - 2 ^ 52 by omega, show (k * 2 ^ 52 + q) / 2 ^ 52 - 1 = k by omega,
          show 2 ^ 52 + (q - 2 ^ 52) = q by omega]

/-- Every finite magnitude is a 53-bit significand times a power of two. -/
theorem fpMag_form {p : Word} (h : isFinite p = true) : ∃ m j, fpMag p = m * 2 ^ j ∧ m < 2 ^ 53 ∧ j ≤ 2045 := by
  have hf := fpFrac_lt p
  rw [isFinite_iff] at h
  unfold fpMag
  split
  · exact ⟨fpFrac p, 0, by simp, by omega, by omega⟩
  · exact ⟨2 ^ 52 + fpFrac p, fpExp p - 1, rfl, by omega, by omega⟩

/-- No finite magnitude is beyond DBL_MAX. -/
theorem fpMag_le {p : Word} (h : isFinite p = true) : fpMag p ≤ dblMaxUnits := by
  obtain ⟨m, j, hm, h1, h2⟩ := fpMag_form h
  rw [hm, dblMaxUnits]
  exact Nat.mul_le_mul (by omega) (Nat.pow_le_pow_right (by omega) h2)

/-! ### The place of the significand -/

/-- The bounds that `roundToPattern`'s k gives the quotient. -/
theorem place_bounds (num den : Nat) :
    let k := (num / den).log2 - 52
    num / (den * 2 ^ k) < 2 ^ 53 ∧ (k = 0 ∨ 2 ^ 52 ≤ num / (den * 2 ^ k)) := by
  intro k
  rw [← Nat.div_div_eq_div_mul]
  have hlt : num / den < 2 ^ ((num / den).log2 + 1) := Nat.lt_log2_self
  have hk : (num / den).log2 + 1 ≤ 53 + k := by omega
  refine ⟨?_, ?_⟩
  · rw [Nat.div_lt_iff_lt_mul (by positivity), ← pow_add]
    exact hlt.trans_le (Nat.pow_le_pow_right (by omega) hk)
  · by_cases h : k = 0
    · exact .inl h
    · right
      have hne : num / den ≠ 0 := by
        intro h0; apply h; simp only [k, h0]; rfl
      have hge : 2 ^ (num / den).log2 ≤ num / den := Nat.log2_self_le hne
      rw [Nat.le_div_iff_mul_le (by positivity), ← pow_add]
      exact (Nat.pow_le_pow_right (by omega) (by omega)).trans hge

/-- A value within DBL_MAX rounds, in every mode, to a finite pattern of its sign whose magnitude is the rounded significand in its
place; the fraction is even where the significand is. -/
theorem roundToPattern_facts (rm : RoundMode) (neg : Bool) {num den : Nat} (hd : 0 < den)
    (hmax : num ≤ dblMaxUnits * den) :
    let k := (num / den).log2 - 52
    let q := roundQuotient rm neg num (den * 2 ^ k)
    isFinite (roundToPattern rm neg num den) = true ∧ fpSign (roundToPattern rm neg num den) = neg ∧
    fpMag (roundToPattern rm neg num den) = q * 2 ^ k ∧ fpFrac (roundToPattern rm neg num den) % 2 = q % 2 := by
  intro k q
  obtain ⟨h1, h2⟩ := place_bounds num den
  change num / (den * 2 ^ k) < 2 ^ 53 at h1
  change k = 0 ∨ 2 ^ 52 ≤ num / (den * 2 ^ k) at h2
  have hqc : q = num / (den * 2 ^ k) ∨ (q = num / (den * 2 ^ k) + 1 ∧ num % (den * 2 ^ k) ≠ 0) := by
    rcases roundQuotient_cases rm neg num (den * 2 ^ k) with h | ⟨h, h'⟩
    · exact .inl h
    · refine .inr ⟨h, ?_⟩
      rcases h' with h' | h'
      · exact h'
      · have : 0 < den * 2 ^ k := by positivity
        omega
  have hk : k ≤ 2045 := by
    by_contra hk
    rcases h2 with h2 | h2
    · omega
    · rw [Nat.le_div_iff_mul_le (by positivity)] at h2
      have h3 : (2 : Nat) ^ 2046 ≤ 2 ^ k := Nat.pow_le_pow_right (by omega) (by omega)
      have h4 : 2 ^ 52 * (den * 2 ^ 2046) ≤ dblMaxUnits * den :=
        (Nat.mul_le_mul_left _ (Nat.mul_le_mul_left _ h3)).trans (h2.trans hmax)
      have h5 : dblMaxUnits * den < 2 ^ 52 * (den * 2 ^ 2046) := by
        have : dblMaxUnits < 2 ^ 52 * 2 ^ 2046 := by
          rw [dblMaxUnits, show (2 : Nat) ^ 2046 = 2 ^ 2045 * 2 from pow_succ 2 2045]
          have : 0 < (2 : Nat) ^ 2045 := by positivity
          generalize (2 : Nat) ^ 2045 = B at *
          omega
        calc dblMaxUnits * den < 2 ^ 52 * 2 ^ 2046 * den := Nat.mul_lt_mul_of_pos_right this hd
          _ = _ := by ring
      omega
  have hb : k * 2 ^ 52 + q < 2047 * 2 ^ 52 := by
    by_cases hk' : k = 2045
    · have hq : q ≤ 2 ^ 53 - 1 := by
        rcases hqc with h | ⟨h, h'⟩
        · omega
        · by_contra hgt
          have hfl : num / (den * 2 ^ k) = 2 ^ 53 - 1 := by omega
          have hdm := Nat.div_add_mod num (den * 2 ^ k)
          rw [hfl] at hdm
          have : num ≤ den * 2 ^ k * (2 ^ 53 - 1) := by
            rw [hk']; refine hmax.trans (le_of_eq ?_); rw [dblMaxUnits]; ring
          omega
      omega
    · rcases hqc with h | ⟨h, _⟩ <;> omega
  have hq53 : q ≤ 2 ^ 53 := by rcases hqc with h | ⟨h, _⟩ <;> omega
  have hqk : k = 0 ∨ 2 ^ 52 ≤ q := by
    rcases h2 with h2 | h2
    · exact .inl h2
    · right; rcases hqc with h | ⟨h, _⟩ <;> omega
  exact patternOf_facts neg hq53 hqk hb

/-! ### Real values -/

/-- val(p) is p's units of 2^-1074 (R162). -/
theorem fpVal_eq (p : Word) : fpVal p = (fpUnits p : ℚ) / 2 ^ 1074 := by
  have hmag : (if fpExp p = 0 then (fpFrac p : ℚ) * 2 ^ (-1074 : Int)
      else (1 + (fpFrac p : ℚ) / 2 ^ 52) * 2 ^ ((fpExp p : Int) - 1023)) = (fpMag p : ℚ) / 2 ^ 1074 := by
    unfold fpMag
    split
    · rw [zpow_neg, div_eq_mul_inv, show ((2 : ℚ) ^ (1074 : Int)) = 2 ^ 1074 from zpow_ofNat 2 1074]
    · rename_i h
      obtain ⟨e, he⟩ : ∃ e, fpExp p = e + 1 := ⟨fpExp p - 1, by omega⟩
      rw [he]
      have : ((e + 1 : Nat) : Int) - 1023 = (e : Int) + 52 - 1074 := by push_cast; ring
      rw [this, zpow_sub₀ (by norm_num), zpow_add₀ (by norm_num), zpow_natCast]
      rw [show ((2 : ℚ) ^ (52 : Int)) = 2 ^ 52 from zpow_ofNat 2 52, show ((2 : ℚ) ^ (1074 : Int)) = 2 ^ 1074 from zpow_ofNat 2 1074]
      rw [Nat.add_sub_cancel]
      push_cast
      rw [← mul_div_assoc]
      congr 1
      field_simp
      norm_num
  unfold fpVal fpUnits
  rw [hmag]
  cases fpSign p <;> simp <;> ring

/-- The magnitude of val(p). -/
theorem abs_fpVal (p : Word) : |fpVal p| = (fpMag p : ℚ) / 2 ^ 1074 := by
  rw [fpVal_eq, abs_div, abs_of_pos (by positivity : (0 : ℚ) < 2 ^ 1074)]
  congr 1
  unfold fpUnits
  split <;> simp

theorem dblMax_eq : dblMax = (dblMaxUnits : ℚ) / 2 ^ 1074 := by
  unfold dblMax dblMaxUnits
  rw [eq_div_iff (by positivity)]
  rw [show ((2 : ℚ) ^ (1023 : Int)) = 2 ^ 1023 from zpow_ofNat 2 1023, zpow_neg,
    show ((2 : ℚ) ^ (52 : Int)) = 2 ^ 52 from zpow_ofNat 2 52]
  push_cast
  have h : ((2 : ℚ) ^ 2045) * 2 ^ 52 = 2 ^ 1023 * 2 ^ 1074 := by rw [← pow_add, ← pow_add]
  have h2 : (2 - ((2 : ℚ) ^ 52)⁻¹) * 2 ^ 1023 * 2 ^ 1074 = (2 - ((2 : ℚ) ^ 52)⁻¹) * (2 ^ 52) * 2 ^ 2045 := by
    rw [mul_assoc, ← h]; ring
  rw [h2]
  congr 1
  norm_num

theorem minSub_eq : minSub = 1 / 2 ^ 1074 := by
  rw [minSub, zpow_neg, one_div, show ((2 : ℚ) ^ (1074 : Int)) = 2 ^ 1074 from zpow_ofNat 2 1074]

/-! ### Nearest values (R170) -/

/-- A value's units, with the sign of the rounded value taken off. -/
def unitsAlong (neg : Bool) (p : Word) : Int := if neg then -fpUnits p else fpUnits p

theorem unitsAlong_natAbs (neg : Bool) (p : Word) : (unitsAlong neg p).natAbs = fpMag p := by
  unfold unitsAlong fpUnits
  cases neg <;> cases fpSign p <;> simp

/-- The exact value num / den units with a sign. -/
def signedValue (neg : Bool) (num den : Nat) : ℚ := (if neg then -1 else 1) * ((num : ℚ) / den) / 2 ^ 1074

/-- How far a pattern's value lies from num / den units. -/
theorem abs_fpVal_sub (neg : Bool) (p : Word) (num : Nat) {den : Nat} (hd : 0 < den) :
    |fpVal p - signedValue neg num den| = ((|(num : Int) - unitsAlong neg p * den| : Int) : ℚ) / (den * 2 ^ 1074) := by
  have hd' : (0 : ℚ) < den := by exact_mod_cast hd
  have h2 : (0 : ℚ) < 2 ^ 1074 := by positivity
  rw [fpVal_eq, signedValue]
  generalize (2 : ℚ) ^ 1074 = B at *
  have e : (fpUnits p : ℚ) / B - (if neg then -1 else 1) * ((num : ℚ) / den) / B =
      (if neg then (1 : ℚ) else -1) * ((num : ℚ) - unitsAlong neg p * den) / (den * B) := by
    unfold unitsAlong
    cases neg
    · simp only [Bool.false_eq_true, if_false]; field_simp; ring
    · simp only [if_true]; push_cast; field_simp; ring
  rw [e, abs_div, abs_mul, abs_of_pos (mul_pos hd' h2)]
  congr 1
  push_cast
  cases neg <;> simp

/-- The rounded significand in its place is at least as near as any finite pattern; where another is as near, it is even. -/
theorem nearest_units (neg : Bool) {num den : Nat} (hn : 0 < num) (hd : 0 < den) {p : Word} (hp : isFinite p = true) :
    let k := (num / den).log2 - 52
    let q := roundQuotient .RN neg num (den * 2 ^ k)
    |(num : Int) - (q * 2 ^ k : Nat) * den| ≤ |(num : Int) - unitsAlong neg p * den| ∧
    (|(num : Int) - (q * 2 ^ k : Nat) * den| = |(num : Int) - unitsAlong neg p * den| →
      unitsAlong neg p ≠ (q * 2 ^ k : Nat) → q % 2 = 0) := by
  intro k q
  have hD : 0 < den * 2 ^ k := by positivity
  have near := roundQuotient_nearest neg num hD
  change ∀ t : Int, |(num : Int) - q * (den * 2 ^ k : Nat)| ≤ |(num : Int) - t * (den * 2 ^ k : Nat)| ∧
    (|(num : Int) - q * (den * 2 ^ k : Nat)| = |(num : Int) - t * (den * 2 ^ k : Nat)| → t ≠ q → q % 2 = 0) at near
  have hq : ((q * 2 ^ k : Nat) : Int) * den = q * (den * 2 ^ k : Nat) := by push_cast; ring
  rw [hq]
  have hk2 : (0 : Int) < 2 ^ k := by positivity
  by_cases hneg : unitsAlong neg p ≤ 0
  · obtain ⟨n1, n2⟩ := near 0
    have hz : |(num : Int) - 0 * (den * 2 ^ k : Nat)| = num := by simp
    rw [hz] at n1 n2
    have hge : (num : Int) ≤ (num : Int) - unitsAlong neg p * den := by nlinarith
    rw [abs_of_nonneg (a := (num : Int) - unitsAlong neg p * den) (by omega)]
    refine ⟨n1.trans hge, fun he hne => n2 (le_antisymm n1 (he ▸ hge)) fun h0 => hne ?_⟩
    have heq : unitsAlong neg p * den = 0 := by omega
    have h0' : unitsAlong neg p = 0 := by
      rcases mul_eq_zero.mp heq with h | h
      · exact h
      · exact absurd h (by exact_mod_cast hd.ne')
    have hq0 : q = 0 := by exact_mod_cast h0.symm
    rw [h0', hq0]; simp
  · obtain ⟨m, j, hm, hm53, _⟩ := fpMag_form hp
    have hU : unitsAlong neg p = (m * 2 ^ j : Nat) := by
      have := unitsAlong_natAbs neg p; rw [hm] at this; omega
    by_cases hjk : k ≤ j
    · have ht : unitsAlong neg p = ((m * 2 ^ (j - k) : Nat) : Int) * 2 ^ k := by
        rw [hU]; push_cast; rw [mul_assoc, ← pow_add, Nat.sub_add_cancel hjk]
      have hmul : unitsAlong neg p * den = ((m * 2 ^ (j - k) : Nat) : Int) * (den * 2 ^ k : Nat) := by
        rw [ht]; push_cast; ring
      rw [hmul]
      refine ⟨(near _).1, fun he hne => (near _).2 he fun h => hne ?_⟩
      rw [ht, h]; push_cast; ring
    · have hbig : 2 ^ 52 ≤ num / (den * 2 ^ k) := by
        rcases (place_bounds num den).2 with h | h
        · have : k = 0 := h
          omega
        · exact h
      rw [Nat.le_div_iff_mul_le hD] at hbig
      have hbig' : (2 : Int) ^ 52 * (den * 2 ^ k : Nat) ≤ num := by exact_mod_cast hbig
      have hsmall : m * 2 ^ j < 2 ^ 52 * 2 ^ k := by
        have h1 : 2 ^ (j + 1) ≤ 2 ^ k := Nat.pow_le_pow_right (by omega) (by omega)
        calc m * 2 ^ j < 2 ^ 53 * 2 ^ j := Nat.mul_lt_mul_of_pos_right hm53 (by positivity)
          _ = 2 ^ 52 * 2 ^ (j + 1) := by rw [pow_succ 2 j]; ring
          _ ≤ _ := Nat.mul_le_mul_left _ h1
      have hlt : unitsAlong neg p * den < 2 ^ 52 * (den * 2 ^ k : Nat) := by
        rw [hU]
        have h2 : m * 2 ^ j * den < 2 ^ 52 * 2 ^ k * den := Nat.mul_lt_mul_of_pos_right hsmall hd
        have h3 : ((m * 2 ^ j : Nat) : Int) * den < 2 ^ 52 * 2 ^ k * den := by exact_mod_cast h2
        calc ((m * 2 ^ j : Nat) : Int) * den < 2 ^ 52 * 2 ^ k * den := h3
          _ = _ := by push_cast; ring
      have n1 := (near (2 ^ 52)).1
      rw [abs_of_nonneg (a := (num : Int) - 2 ^ 52 * (den * 2 ^ k : Nat)) (by omega)] at n1
      have hlt2 : |(num : Int) - q * (den * 2 ^ k : Nat)| < |(num : Int) - unitsAlong neg p * den| := by
        rw [abs_of_nonneg (a := (num : Int) - unitsAlong neg p * den) (by omega)]; omega
      exact ⟨hlt2.le, fun he _ => absurd he hlt2.ne⟩

/-- Rounding a positive value within DBL_MAX gives RNE of it (R170). -/
theorem roundToPattern_nearest (neg : Bool) {num den : Nat} (hn : 0 < num) (hd : 0 < den)
    (hmax : num ≤ dblMaxUnits * den) :
    isNearestEven (roundToPattern .RN neg num den) (signedValue neg num den) := by
  obtain ⟨h1, h2, h3, h4⟩ := roundToPattern_facts .RN neg hd hmax
  have hU : unitsAlong neg (roundToPattern .RN neg num den) =
      (roundQuotient .RN neg num (den * 2 ^ ((num / den).log2 - 52)) * 2 ^ ((num / den).log2 - 52) : Nat) := by
    unfold unitsAlong fpUnits
    rw [h2, h3]
    cases neg <;> simp
  have hpos : (0 : ℚ) < den * 2 ^ 1074 := by positivity
  refine ⟨h1, fun p hp => ?_, fun p hp he hne => ?_⟩
  · rw [abs_fpVal_sub neg _ _ hd, abs_fpVal_sub neg _ _ hd, hU, div_le_div_iff_of_pos_right hpos]
    exact_mod_cast (nearest_units neg hn hd hp).1
  · rw [abs_fpVal_sub neg _ _ hd, abs_fpVal_sub neg _ _ hd, hU, div_left_inj' hpos.ne'] at he
    have he' := Int.cast_inj.mp he
    rw [h4]
    refine (nearest_units neg hn hd hp).2 he'.symm fun h => hne ?_
    have : fpUnits p = fpUnits (roundToPattern .RN neg num den) := by
      rw [← hU] at h
      unfold unitsAlong at h
      cases neg
      · simpa using h
      · simpa using h
    rw [fpVal_eq, fpVal_eq, this]

/-! ### Narrowing (R171) -/

theorem signedValue_zero (neg : Bool) (den : Nat) : signedValue neg 0 den = 0 := by simp [signedValue]

theorem abs_signedValue (neg : Bool) (num den : Nat) :
    |signedValue neg num den| = (num : ℚ) / den / 2 ^ 1074 := by
  unfold signedValue
  rw [abs_div, abs_mul, abs_of_pos (by positivity : (0 : ℚ) < 2 ^ 1074),
    abs_of_nonneg (by positivity : (0 : ℚ) ≤ num / den)]
  cases neg <;> simp

theorem signedValue_neg_iff (neg : Bool) {num den : Nat} (hn : 0 < num) (hd : 0 < den) :
    signedValue neg num den < 0 ↔ neg = true := by
  have : (0 : ℚ) < (num : ℚ) / den / 2 ^ 1074 := by positivity
  unfold signedValue
  rw [mul_div_assoc]
  cases neg
  · simp only [Bool.false_eq_true, if_false, one_mul, iff_false, not_lt]; exact this.le
  · simp only [if_true, neg_one_mul, iff_true]; linarith

/-- `narrow` of num / den units answers what R171 says of that real number. -/
theorem narrow_narrowsTo (f : BitVec 32) (z neg : Bool) (num : Nat) {den : Nat} (hd : 0 < den) :
    narrowsTo f z (signedValue neg num den) (narrow f z neg num den) := by
  unfold narrowsTo narrow
  have hB : (0 : ℚ) < 2 ^ 1074 := by positivity
  have hd' : (0 : ℚ) < den := by exact_mod_cast hd
  by_cases h0 : num = 0
  · subst h0; rw [signedValue_zero, if_pos rfl, if_pos rfl]
  · have hn : 0 < num := Nat.pos_of_ne_zero h0
    have hneg : decide (signedValue neg num den < 0) = neg := by
      rw [Bool.eq_iff_iff, decide_eq_true_iff]; exact signedValue_neg_iff neg hn hd
    have hne : signedValue neg num den ≠ 0 := by
      rw [← abs_pos, abs_signedValue]; positivity
    have c1 : dblMax < |signedValue neg num den| ↔ num > dblMaxUnits * den := by
      rw [abs_signedValue, dblMax_eq, div_lt_div_iff_of_pos_right hB, lt_div_iff₀ hd', gt_iff_lt]
      exact_mod_cast Iff.rfl
    have c2 : |signedValue neg num den| < minSub ↔ num < den := by
      rw [abs_signedValue, minSub_eq, div_lt_div_iff_of_pos_right hB, div_lt_one hd']
      exact_mod_cast Iff.rfl
    rw [if_neg hne, if_neg h0, hneg]
    by_cases h1 : num > dblMaxUnits * den
    · rw [if_pos (c1.2 h1), if_pos h1]
    · rw [if_neg (mt c1.1 h1), if_neg h1]
      by_cases h2 : num < den
      · rw [if_pos (c2.2 h2), if_pos h2]
      · rw [if_neg (mt c2.1 h2), if_neg h2]
        exact ⟨_, rfl, roundToPattern_nearest neg hn hd (by omega), (roundToPattern_facts .RN neg hd (by omega)).2.1⟩

/-- A finite pattern is no NaN and no infinity (R161). -/
theorem not_nan_inf_of_finite {a : Word} (h : isFinite a = true) : isNaN a = false ∧ isInf a = false := by
  unfold isFinite at h; cases h1 : isNaN a <;> cases h2 : isInf a <;> simp_all

/-- An integer number of units as a signed value. -/
theorem signedValue_int (x : Int) :
    signedValue (decide (x < 0)) x.natAbs 1 = (x : ℚ) / 2 ^ 1074 := by
  unfold signedValue
  congr 1
  by_cases h : x < 0
  · simp only [h, decide_true, if_true]; rw [Nat.cast_natAbs, abs_of_neg h]; push_cast; ring
  · simp only [h, decide_false, Bool.false_eq_true, if_false]; rw [Nat.cast_natAbs, abs_of_nonneg (by omega)]; push_cast; ring
/-- A pattern with its sign bit inverted (R172). -/
theorem isZero_flip (b : Word) :
    isZero (b ^^^ fpNZERO) = isZero b ∧ fpSign (b ^^^ fpNZERO) = !fpSign b := by
  have he : fpExp (b ^^^ fpNZERO) = fpExp b := by
    unfold fpExp; congr 1; apply BitVec.eq_of_getLsbD_eq; intro i hi
    rw [BitVec.getLsbD_extractLsb', BitVec.getLsbD_extractLsb', BitVec.getLsbD_xor]
    have : fpNZERO.getLsbD (52 + i) = false := by interval_cases i <;> decide
    rw [this]; simp
  have hf : fpFrac (b ^^^ fpNZERO) = fpFrac b := by
    unfold fpFrac; congr 1; apply BitVec.eq_of_getLsbD_eq; intro i hi
    rw [BitVec.getLsbD_extractLsb', BitVec.getLsbD_extractLsb', BitVec.getLsbD_xor]
    have : fpNZERO.getLsbD (0 + i) = false := by interval_cases i <;> decide
    rw [this]; simp
  refine ⟨by rw [Bool.eq_iff_iff, isZero_iff, isZero_iff, he, hf], ?_⟩
  unfold fpSign; rw [BitVec.getLsbD_xor, show fpNZERO.getLsbD 63 = true by decide]; simp

/-- A pattern's value from its sign and magnitude. -/
theorem fpVal_signed (p : Word) : fpVal p = signedValue (fpSign p) (fpMag p) 1 := by
  rw [fpVal_eq, signedValue]; unfold fpUnits; cases fpSign p <;> simp

/-- A finite magnitude is a multiple of 2^k units, or lies below 2^(52 + k) of them: there is no finite value between two
neighbours of a binade. -/
theorem fpMag_grid {p : Word} (hp : isFinite p = true) (k : Nat) :
    (∃ t, fpMag p = t * 2 ^ k) ∨ fpMag p < 2 ^ 52 * 2 ^ k := by
  obtain ⟨m, j, hm, hm53, _⟩ := fpMag_form hp
  by_cases hjk : k ≤ j
  · left; exact ⟨m * 2 ^ (j - k), by rw [hm, mul_assoc, ← pow_add, Nat.sub_add_cancel hjk]⟩
  · right
    have h1 : 2 ^ (j + 1) ≤ 2 ^ k := Nat.pow_le_pow_right (by omega) (by omega)
    rw [hm]
    calc m * 2 ^ j < 2 ^ 53 * 2 ^ j := Nat.mul_lt_mul_of_pos_right hm53 (by positivity)
      _ = 2 ^ 52 * 2 ^ (j + 1) := by rw [pow_succ 2 j]; ring
      _ ≤ _ := Nat.mul_le_mul_left _ h1

end Sys2Proof.Machine
end

