-- ==== Sys2Proof/Tests/Slice0.lean ====
section
/-! SUPPORT. Tests of single instructions and single cycles, their expected results from the spec's tables and vectors, and for each
statement of Certificates a witness that meets its hypotheses. -/

namespace Sys2Proof.Tests

open Sys2Proof Sys2Proof.Machine

/-! ### Well-formedness (R112, R117): the one check refuses the term that has no word of its own -/

theorem test_wellFormed_refuses_sll_zero : (Instr.sll 0 0 0).wellFormed = false := by decide
theorem test_wellFormed_admits_sll :
    (Instr.sll 0 0 1).wellFormed = true ∧ (Instr.sll 1 0 0).wellFormed = true ∧ (Instr.sll 0 1 0).wellFormed = true := by
  decide

/-! ### Encodings. Each word is the encoding column of R119 with rs = base = 10010, rt = 00101, rd = 01011, sa = 10111,
fs = 00111, ft = 11010, fd = 01101, cc = 101 put in its field letters -/

/-- The word decodes to the instruction, and the instruction's word is that word. -/
abbrev decodesTo (w : InstrWord) (i : Instr) : Prop := decode w = .instr i ∧ encode i = w

theorem test_decode_intAlu_1 :
    decodesTo 0b000000_10010_00101_01011_00000_101100 (.dadd 11 18 5) ∧
    decodesTo 0b000000_10010_00101_01011_00000_101101 (.daddu 11 18 5) ∧
    decodesTo 0b000000_10010_00101_01011_00000_101110 (.dsub 11 18 5) ∧
    decodesTo 0b000000_10010_00101_01011_00000_101111 (.dsubu 11 18 5) ∧
    decodesTo 0b000000_10010_00101_01011_00000_100000 (.add 11 18 5) ∧
    decodesTo 0b000000_10010_00101_01011_00000_100001 (.addu 11 18 5) ∧
    decodesTo 0b000000_10010_00101_01011_00000_100010 (.sub 11 18 5) ∧
    decodesTo 0b000000_10010_00101_01011_00000_100011 (.subu 11 18 5) ∧
    decodesTo 0b011000_10010_00101_10001_01000_110101 (.daddi 5 18 0x8A35) ∧
    decodesTo 0b011001_10010_00101_10001_01000_110101 (.daddiu 5 18 0x8A35) ∧
    decodesTo 0b001000_10010_00101_10001_01000_110101 (.addi 5 18 0x8A35) ∧
    decodesTo 0b001001_10010_00101_10001_01000_110101 (.addiu 5 18 0x8A35) ∧
    decodesTo 0b000000_10010_00101_01011_00000_100100 (.and 11 18 5) := by decide

theorem test_decode_intAlu_2 :
    decodesTo 0b000000_10010_00101_01011_00000_100101 (.or 11 18 5) ∧
    decodesTo 0b000000_10010_00101_01011_00000_100110 (.xor 11 18 5) ∧
    decodesTo 0b001100_10010_00101_10001_01000_110101 (.andi 5 18 0x8A35) ∧
    decodesTo 0b001101_10010_00101_10001_01000_110101 (.ori 5 18 0x8A35) ∧
    decodesTo 0b001110_10010_00101_10001_01000_110101 (.xori 5 18 0x8A35) ∧
    decodesTo 0b001111_00000_00101_10001_01000_110101 (.lui 5 0x8A35) ∧
    decodesTo 0b000000_10010_00101_01011_00000_101010 (.slt 11 18 5) ∧
    decodesTo 0b000000_10010_00101_01011_00000_101011 (.sltu 11 18 5) ∧
    decodesTo 0b001010_10010_00101_10001_01000_110101 (.slti 5 18 0x8A35) ∧
    decodesTo 0b001011_10010_00101_10001_01000_110101 (.sltiu 5 18 0x8A35) ∧
    decodesTo 0b000000_00000_00101_01011_10111_000000 (.sll 11 5 23) ∧
    decodesTo 0b000000_00000_00101_01011_10111_000010 (.srl 11 5 23) ∧
    decodesTo 0b000000_00000_00101_01011_10111_000011 (.sra 11 5 23) := by decide

theorem test_decode_intAlu_3 :
    decodesTo 0b000000_10010_00101_01011_00000_000100 (.sllv 11 5 18) ∧
    decodesTo 0b000000_10010_00101_01011_00000_000110 (.srlv 11 5 18) ∧
    decodesTo 0b000000_10010_00101_01011_00000_000111 (.srav 11 5 18) ∧
    decodesTo 0b000000_00000_00101_01011_10111_111000 (.dsll 11 5 23) ∧
    decodesTo 0b000000_00000_00101_01011_10111_111010 (.dsrl 11 5 23) ∧
    decodesTo 0b000000_00000_00101_01011_10111_111011 (.dsra 11 5 23) ∧
    decodesTo 0b000000_10010_00101_01011_00000_010100 (.dsllv 11 5 18) ∧
    decodesTo 0b000000_10010_00101_01011_00000_010110 (.dsrlv 11 5 18) ∧
    decodesTo 0b000000_10010_00101_01011_00000_010111 (.dsrav 11 5 18) ∧
    decodesTo 0b000000_10010_00101_01011_00000_001010 (.movz 11 18 5) ∧
    decodesTo 0b000000_10010_00101_01011_00000_001011 (.movn 11 18 5) := by decide

theorem test_decode_mulDiv :
    decodesTo 0b000000_10010_00101_00000_00000_011100 (.dmult 18 5) ∧
    decodesTo 0b000000_10010_00101_00000_00000_011101 (.dmultu 18 5) ∧
    decodesTo 0b000000_10010_00101_00000_00000_011000 (.mult 18 5) ∧
    decodesTo 0b000000_10010_00101_00000_00000_011001 (.multu 18 5) ∧
    decodesTo 0b000000_10010_00101_00000_00000_011110 (.ddiv 18 5) ∧
    decodesTo 0b000000_10010_00101_00000_00000_011111 (.ddivu 18 5) ∧
    decodesTo 0b000000_10010_00101_00000_00000_011010 (.div 18 5) ∧
    decodesTo 0b000000_10010_00101_00000_00000_011011 (.divu 18 5) ∧
    decodesTo 0b000000_00000_00000_01011_00000_010000 (.mfhi 11) ∧
    decodesTo 0b000000_00000_00000_01011_00000_010010 (.mflo 11) := by decide

theorem test_decode_loadStore_1 :
    decodesTo 0b100000_10010_00101_10001_01000_110101 (.lb 5 0x8A35 18) ∧
    decodesTo 0b100100_10010_00101_10001_01000_110101 (.lbu 5 0x8A35 18) ∧
    decodesTo 0b100001_10010_00101_10001_01000_110101 (.lh 5 0x8A35 18) ∧
    decodesTo 0b100101_10010_00101_10001_01000_110101 (.lhu 5 0x8A35 18) ∧
    decodesTo 0b100011_10010_00101_10001_01000_110101 (.lw 5 0x8A35 18) ∧
    decodesTo 0b100111_10010_00101_10001_01000_110101 (.lwu 5 0x8A35 18) ∧
    decodesTo 0b110111_10010_00101_10001_01000_110101 (.ld 5 0x8A35 18) ∧
    decodesTo 0b101000_10010_00101_10001_01000_110101 (.sb 5 0x8A35 18) ∧
    decodesTo 0b101001_10010_00101_10001_01000_110101 (.sh 5 0x8A35 18) ∧
    decodesTo 0b101011_10010_00101_10001_01000_110101 (.sw 5 0x8A35 18) ∧
    decodesTo 0b111111_10010_00101_10001_01000_110101 (.sd 5 0x8A35 18) ∧
    decodesTo 0b110001_10010_11010_10001_01000_110101 (.lwc1 26 0x8A35 18) ∧
    decodesTo 0b110101_10010_11010_10001_01000_110101 (.ldc1 26 0x8A35 18) := by decide

theorem test_decode_loadStore_2 :
    decodesTo 0b111001_10010_11010_10001_01000_110101 (.swc1 26 0x8A35 18) ∧
    decodesTo 0b111101_10010_11010_10001_01000_110101 (.sdc1 26 0x8A35 18) := by decide

theorem test_decode_control :
    decodesTo 0b000100_10010_00101_10001_01000_110101 (.beq 18 5 0x8A35) ∧
    decodesTo 0b000101_10010_00101_10001_01000_110101 (.bne 18 5 0x8A35) ∧
    decodesTo 0b000110_10010_00000_10001_01000_110101 (.beqz 18 0x8A35) ∧
    decodesTo 0b000111_10010_00000_10001_01000_110101 (.bnez 18 0x8A35) ∧
    decodesTo 0b000001_10010_00001_10001_01000_110101 (.bgez 18 0x8A35) ∧
    decodesTo 0b010001_01000_10100_10001_01000_110101 (.bc1f 5 0x8A35) ∧
    decodesTo 0b010001_01000_10101_10001_01000_110101 (.bc1t 5 0x8A35) ∧
    decodesTo 0b000010_10101_01011_11001_10111_100101 (.j 0x2ABCDE5) ∧
    decodesTo 0b000011_10101_01011_11001_10111_100101 (.jal 0x2ABCDE5) ∧
    decodesTo 0b000000_10010_00000_00000_00000_001000 (.jr 18) ∧
    decodesTo 0b000000_10010_00000_01011_00000_001001 (.jalr 11 18) := by decide

theorem test_decode_fp_1 :
    decodesTo 0b010001_10001_11010_00111_01101_000000 (.addD 13 7 26) ∧
    decodesTo 0b010001_10001_11010_00111_01101_000001 (.subD 13 7 26) ∧
    decodesTo 0b010001_10001_11010_00111_01101_000010 (.mulD 13 7 26) ∧
    decodesTo 0b010001_10001_11010_00111_01101_000011 (.divD 13 7 26) ∧
    decodesTo 0b010001_10001_00000_00111_01101_100101 (.cvtLD 13 7) ∧
    decodesTo 0b010001_10001_00000_00111_01101_100100 (.cvtWD 13 7) ∧
    decodesTo 0b010001_10101_00000_00111_01101_100001 (.cvtDL 13 7) ∧
    decodesTo 0b010001_10100_00000_00111_01101_100001 (.cvtDW 13 7) ∧
    decodesTo 0b010001_10001_00000_00111_01101_000110 (.movD 13 7) ∧
    decodesTo 0b010001_10001_00101_00111_01101_010010 (.movzD 13 7 5) ∧
    decodesTo 0b010001_10001_00101_00111_01101_010011 (.movnD 13 7 5) ∧
    decodesTo 0b010001_10001_10100_00111_01101_010001 (.movfD 13 7 5) ∧
    decodesTo 0b010001_10001_10101_00111_01101_010001 (.movtD 13 7 5) := by decide

theorem test_decode_fp_2 :
    decodesTo 0b010001_10001_11010_00111_10100_110010 (.cEqD 5 7 26) ∧
    decodesTo 0b010001_10001_11010_00111_10100_111100 (.cLtD 5 7 26) ∧
    decodesTo 0b010001_10001_11010_00111_10100_110001 (.cUnD 5 7 26) ∧
    decodesTo 0b010001_00100_00101_00111_00000_000000 (.mtc1 5 7) ∧
    decodesTo 0b010001_00000_00101_00111_00000_000000 (.mfc1 5 7) ∧
    decodesTo 0b010001_00101_00101_00111_00000_000000 (.dmtc1 5 7) ∧
    decodesTo 0b010001_00001_00101_00111_00000_000000 (.dmfc1 5 7) ∧
    decodesTo 0b010001_00110_00101_11111_00000_000000 (.ctc1 5) ∧
    decodesTo 0b010001_00010_00101_11111_00000_000000 (.cfc1 5) := by decide

theorem test_decode_misc :
    decodesTo 0b000001_00000_00000_00000_00000_000000 .halt ∧
    decodesTo 0b000000_00000_00000_00000_00000_000000 .nop ∧
    decodesTo 0b000000_10101_01111_00110_11110_001101 (.brk 0xABCDE) := by decide

/-- Reserved words: 0x0022186C, 0x0000000C and 0x40000000 of 95_test_vectors 2.9 and 2.4, and one for each map of R120 to R123. -/
theorem test_decode_reserved :
    decode 0x0022186C = .reserved ∧ decode 0x0000000C = .reserved ∧ decode 0x40000000 = .reserved ∧
    decode 0b000000_00001_00010_00011_00000_100111 = .reserved ∧
    decode 0b000001_00001_00010_0000000000000000 = .reserved ∧
    decode 0b000001_00001_00000_0000000000000000 = .reserved ∧
    decode 0b010001_10000_00010_00001_00011_000000 = .reserved ∧
    decode 0b010001_01000_00010_0000000000000000 = .reserved ∧
    decode 0b001111_00001_00010_0000000000000000 = .reserved := by decide

/-- A byte image is big-endian (R94), and the opcode table's numbers are those of the words. -/
theorem test_decodeBytes :
    decodeBytes [0x60, 0x01, 0x00, 0x05, 0xAA] = (.instr (.daddi 1 0 5), [0xAA]) ∧
    decodeBytes [0x60, 0x01] = (.truncated, [0x60, 0x01]) ∧
    decodeTableWord 32 0x0022182C = some (.dadd 3 1 2) ∧ decodeTableWord 32 0x0000000C = none := by decide

/-! ### States for the tests -/

/-- The common start state of 95_test_vectors with both sentinels a number. -/
def start : State :=
  { State.reset with cfg := { CoreConfig.commonStart with cvtSentinelL := 0x1111, cvtSentinelW := 0x22222222 } }

/-- The record of an instruction fetched at an address. -/
def record (i : Instr) (pc : Word := 0) : InFlight := newRecord pc (encode i) (.instr i)

/-- A state in which the executor calls a stage on a record. -/
def at_ (st : Stage) (r : InFlight) (s : State := start) : State := (s.setSlot st (some r)).enter st

/-- The next state of a result; the start state where there is none. -/
def nextOf (o : Result) : State :=
  match o with
  | .next s => s
  | .fault _ => start
  | .refused _ => start

/-- What EX answers on latched operands: its outcome with the result, HI result and writeEnable latches. -/
def ex (i : Instr) (a b : Word) (c : Word := 0) (s : State := start) : Option (StageOutcome × Word × Word × Bool) :=
  match exec i (at_ .EX { record i with a := a, b := b, c := c } s) with
  | .next t => t.slotEX.map (fun r => (t.outcome, r.result, r.resultHi, r.writeEnable))
  | .fault _ => none
  | .refused _ => none

/-- EX answers Ok and latches a result. -/
def gives (i : Instr) (a b v : Word) : Bool := ex i a b == some (.ok, v, 0, true)
/-- EX answers a fault and latches nothing. -/
def faultsWith (i : Instr) (a b : Word) (k : FaultKind) : Bool := ex i a b == some (.fault k, 0, 0, true)
/-- EX of a multiply or divide latches HI's and LO's values. -/
def givesHiLo (i : Instr) (a b hi lo : Word) : Bool := ex i a b == some (.ok, lo, hi, true)

/-! ### Integer EX (95_test_vectors 2.1 and 2.2) -/

theorem test_ex_trapping :
    faultsWith (.dadd 3 1 2) 0x7FFFFFFFFFFFFFFF 1 .integerOverflow ∧
    gives (.dadd 3 1 2) 0xFFFFFFFFFFFFFFFF 0xFFFFFFFFFFFFFFFF 0xFFFFFFFFFFFFFFFE ∧
    faultsWith (.dsub 3 1 2) 0x8000000000000000 1 .integerOverflow ∧
    faultsWith (.dsub 3 1 2) 0 0x8000000000000000 .integerOverflow ∧
    faultsWith (.add 3 1 2) 0x7FFFFFFF 1 .integerOverflow ∧
    gives (.add 3 1 2) 0xFFFFFFFF00000001 0x00000000FFFFFFFF 0 ∧
    faultsWith (.sub 3 1 2) 0x80000000 1 .integerOverflow ∧
    faultsWith (.daddi 2 1 0x0001) 0x7FFFFFFFFFFFFFFF 0 .integerOverflow ∧
    gives (.daddi 2 1 0xFFFF) 0 0 0xFFFFFFFFFFFFFFFF ∧
    faultsWith (.addi 2 1 0x0010) 0x7FFFFFF0 0 .integerOverflow := by decide

theorem test_ex_wrapping :
    gives (.daddu 3 1 2) 0x7FFFFFFFFFFFFFFF 1 0x8000000000000000 ∧
    gives (.dsubu 3 1 2) 0 1 0xFFFFFFFFFFFFFFFF ∧
    gives (.addu 3 1 2) 0x7FFFFFFF 1 0xFFFFFFFF80000000 ∧
    gives (.subu 3 1 2) 0 1 0xFFFFFFFFFFFFFFFF ∧
    gives (.daddiu 2 1 0x0001) 0xFFFFFFFFFFFFFFFF 0 0 ∧
    gives (.addiu 2 1 0x8000) 0 0 0xFFFFFFFFFFFF8000 := by decide

theorem test_ex_logical_and_set :
    gives (.and 3 1 2) 0xF0F0 0xFF00 0xF000 ∧ gives (.or 3 1 2) 0xF0F0 0x0F00 0xFFF0 ∧
    gives (.xor 3 1 2) 0xFF 0x0F 0xF0 ∧ gives (.andi 2 1 0x8001) 0xFFFFFFFFFFFFFFFF 0 0x8001 ∧
    gives (.ori 2 1 0xFFFF) 0 0 0xFFFF ∧ gives (.xori 2 1 0x00FF) 0xFFFF 0 0xFF00 ∧
    gives (.lui 2 0x8000) 0 0 0xFFFFFFFF80000000 ∧ gives (.lui 2 0x7FFF) 0 0 0x7FFF0000 ∧
    gives (.slt 3 1 2) 0xFFFFFFFFFFFFFFFF 0 1 ∧ gives (.sltu 3 1 2) 0xFFFFFFFFFFFFFFFF 0 0 ∧
    gives (.slti 2 1 0) 0xFFFFFFFFFFFFFFFF 0 1 ∧ gives (.sltiu 2 1 0xFFFF) 5 0 1 ∧
    gives (.sltiu 2 1 0xFFFF) 0xFFFFFFFFFFFFFFFF 0 0 := by decide

theorem test_ex_shifts :
    gives (.sll 3 2 31) 0 1 0xFFFFFFFF80000000 ∧ gives (.sll 3 2 0) 0 0xFFFFFFFF00000001 1 ∧
    gives (.srl 3 2 0) 0 0x80000000 0xFFFFFFFF80000000 ∧ gives (.srl 3 2 31) 0 0x80000000 1 ∧
    gives (.sra 3 2 31) 0 0x80000000 0xFFFFFFFFFFFFFFFF ∧ gives (.sra 3 2 0) 0 0xFFFFFFFF 0xFFFFFFFFFFFFFFFF ∧
    gives (.dsll 3 2 31) 0 1 0x80000000 ∧ gives (.dsrl 3 2 1) 0 0xFFFFFFFFFFFFFFFF 0x7FFFFFFFFFFFFFFF ∧
    gives (.dsra 3 2 31) 0 0x8000000000000000 0xFFFFFFFF00000000 ∧ gives (.sllv 3 2 1) 0x23 1 8 ∧
    gives (.srlv 3 2 1) 0x24 0xFFFFFFFF 0x0FFFFFFF ∧ gives (.srav 3 2 1) 0x3F 0x80000000 0xFFFFFFFFFFFFFFFF ∧
    gives (.dsllv 3 2 1) 0x40 1 1 ∧ gives (.dsrlv 3 2 1) 0x7F 0xFFFFFFFFFFFFFFFF 1 ∧
    gives (.dsrav 3 2 1) 0x3F 0x8000000000000000 0xFFFFFFFFFFFFFFFF := by decide

theorem test_ex_conditional_moves :
    ex (.movz 3 1 2) 9 0 = some (.ok, 9, 0, true) ∧ ex (.movz 3 1 2) 9 3 = some (.ok, 9, 0, false) ∧
    ex (.movn 3 1 2) 9 3 = some (.ok, 9, 0, true) ∧ ex (.movn 3 1 2) 9 0 = some (.ok, 9, 0, false) := by decide

theorem test_ex_multiply :
    givesHiLo (.dmult 1 2) 0x7FFFFFFFFFFFFFFF 0x7FFFFFFFFFFFFFFF 0x3FFFFFFFFFFFFFFF 1 ∧
    givesHiLo (.dmult 1 2) 0x8000000000000000 0xFFFFFFFFFFFFFFFF 0 0x8000000000000000 ∧
    givesHiLo (.dmultu 1 2) 0xFFFFFFFFFFFFFFFF 0xFFFFFFFFFFFFFFFF 0xFFFFFFFFFFFFFFFE 1 ∧
    givesHiLo (.mult 1 2) 0xFFFFFFFF 0xFFFFFFFF 0 1 ∧
    givesHiLo (.mult 1 2) 0x1234567800000003 0xABCDEF0000000005 0 0xF ∧
    givesHiLo (.multu 1 2) 0x80000000 2 1 0 ∧
    gives (.mfhi 3) 7 0 7 ∧ gives (.mflo 3) 7 0 7 := by decide

theorem test_ex_divide :
    givesHiLo (.ddiv 1 2) 0xFFFFFFFFFFFFFFF9 2 0xFFFFFFFFFFFFFFFF 0xFFFFFFFFFFFFFFFD ∧
    givesHiLo (.ddiv 1 2) 0x8000000000000000 0xFFFFFFFFFFFFFFFF 0 0x8000000000000000 ∧
    faultsWith (.ddiv 1 2) 7 0 .divideByZero ∧
    givesHiLo (.ddivu 1 2) 0xFFFFFFFFFFFFFFFF 16 15 0x0FFFFFFFFFFFFFFF ∧
    givesHiLo (.div 1 2) 7 0xFFFFFFFE 1 0xFFFFFFFFFFFFFFFD ∧
    givesHiLo (.div 1 2) 0x80000000 0xFFFFFFFF 0 0xFFFFFFFF80000000 ∧
    faultsWith (.div 1 2) 5 0xFFFFFFFF00000000 .divideByZero ∧
    givesHiLo (.divu 1 2) 0xFFFFFFFF 1 0 0xFFFFFFFFFFFFFFFF ∧
    faultsWith (.divu 1 2) 5 0 .divideByZero ∧ faultsWith (.ddivu 1 2) 5 0 .divideByZero := by decide

/-! ### Loads and stores (95_test_vectors 2.3) -/

/-- What MEM answers on an effective address, with the result latch. -/
def mem (i : Instr) (ea b : Word) (s : State) : StageOutcome × Option Word × Memory :=
  let t := nextOf (exec i (at_ .MEM { record i with ea := ea, b := b } s))
  (t.outcome, t.slotMEM.map (fun r => r.result), t.mem)

/-- cell[0] = 0x8899AABBCCDDEEFF under a byte order. -/
def loaded (o : ByteOrder) : State :=
  let s := { start with cfg := { start.cfg with byteOrder := o } }
  { s with mem := s.mem.setCell 0 0x8899AABBCCDDEEFF }

/-- MEM of a load answers Ok and latches a value. -/
abbrev loads (i : Instr) (o : ByteOrder) (ea v : Word) : Prop :=
  (mem i ea 0 (loaded o)).1 = .ok ∧ (mem i ea 0 (loaded o)).2.1 = some v

theorem test_mem_loads_big :
    loads (.lb 2 0 1) .big 0 0xFFFFFFFFFFFFFF88 ∧ loads (.lbu 2 0 1) .big 0 0x88 ∧
    loads (.lh 2 0 1) .big 6 0xFFFFFFFFFFFFEEFF ∧ loads (.lhu 2 0 1) .big 6 0xEEFF ∧
    loads (.lw 2 0 1) .big 0 0xFFFFFFFF8899AABB ∧ loads (.lwu 2 0 1) .big 4 0xCCDDEEFF ∧
    loads (.ld 2 0 1) .big 0 0x8899AABBCCDDEEFF ∧ loads (.lwc1 2 0 1) .big 0 0xFFFFFFFF8899AABB ∧
    loads (.ldc1 2 0 1) .big 0 0x8899AABBCCDDEEFF := by decide

theorem test_mem_loads_little :
    loads (.lb 2 0 1) .little 0 0xFFFFFFFFFFFFFFFF ∧ loads (.lbu 2 0 1) .little 0 0xFF ∧
    loads (.lh 2 0 1) .little 6 0xFFFFFFFFFFFF8899 ∧ loads (.lhu 2 0 1) .little 6 0x8899 ∧
    loads (.lw 2 0 1) .little 0 0xFFFFFFFFCCDDEEFF ∧ loads (.lwu 2 0 1) .little 4 0x8899AABB ∧
    loads (.ld 2 0 1) .little 0 0x8899AABBCCDDEEFF ∧ loads (.lwc1 2 0 1) .little 4 0xFFFFFFFF8899AABB ∧
    loads (.ldc1 2 0 1) .little 0 0x8899AABBCCDDEEFF := by decide

/-- The cell after the stores of program M, and one of each other width, in each byte order's places (R82, R85, R86). -/
theorem test_mem_stores :
    (mem (.sh 1 0 2) 2 0x1234 start).2.2.cell 0 = 0x0000123400000000 ∧
    (mem (.sh 1 0 2) 2 0x1234 (loaded .little)).2.2.cell 0 = 0x8899AABB1234EEFF ∧
    (mem (.sb 1 0 2) 7 0xFFFFFFFFFFFFFFFE start).2.2.cell 0 = 0xFE ∧
    (mem (.sb 1 0 2) 7 0xFFFFFFFFFFFFFFFE (loaded .little)).2.2.cell 0 = 0xFE99AABBCCDDEEFF ∧
    (mem (.sw 1 0 2) 4092 0x01020304 start).2.2.cell 4088 = 0x01020304 ∧
    (mem (.swc1 1 0 2) 0 0xFFFFFFFF00000005 start).2.2.cell 0 = 0x0000000500000000 ∧
    (∀ o ∈ [ByteOrder.big, .little], (mem (.sd 1 0 2) 8 0x0102030405060708 (loaded o)).2.2.cell 8 = 0x0102030405060708) ∧
    (mem (.sdc1 1 0 2) 0 0 (loaded .big)).2.2 = [] := by decide

/-- A byte order set between runs leaves the cell (R80, R86): what `LD` then reads. -/
theorem test_mem_order_between_runs :
    let s := { loaded .big with status := .terminated }
    ((s.host (.configure { s.cfg with byteOrder := .little })).map fun t => (mem (.ld 2 0 1) 0 0 t).2.1) =
      some (some 0x8899AABBCCDDEEFF) := by decide

/-- The fault vectors: alignment first, then range, with no wrap (R87, R88). -/
theorem test_mem_faults :
    (mem (.ld 2 1 1) 2 0 start).1 = .fault (.memoryAlignment 2 8) ∧
    (mem (.ld 2 0 1) 4096 0 start).1 = .fault (.addressFault 4096 8) ∧
    (mem (.ld 2 0 1) 4092 0 start).1 = .fault (.memoryAlignment 4092 8) ∧
    (mem (.sd 2 0 1) 0xFFFFFFFFFFFFFFF8 0 start).1 = .fault (.addressFault 0xFFFFFFFFFFFFFFF8 8) ∧
    (mem (.sb 2 0 1) 4096 5 start) = (.fault (.addressFault 4096 1), some 0, []) := by decide

/-- The effective address 0 - 8 of base 0 and offset 0xFFF8. -/
theorem test_ex_effective_address :
    (nextOf (exec (.ld 2 0xFFF8 1) (at_ .EX (record (.ld 2 0xFFF8 1))))).slotEX.map (fun r => r.ea) =
      some 0xFFFFFFFFFFFFFFF8 := by decide

/-! ### Branches and jumps (95_test_vectors 2.4 and 2.5) -/

/-- What EX of a branch at 0x100 predicted not taken answers. -/
def branch (i : Instr) (a b : Word) (s : State := start) : StageOutcome :=
  (nextOf (exec i (at_ .EX { record i 0x100 with a := a, b := b } s))).outcome

theorem test_ex_branches :
    branch (.beq 1 2 3) 5 5 = .misprediction 0x110 ∧ branch (.beq 1 2 3) 5 6 = .ok ∧
    branch (.bne 1 2 3) 5 5 = .ok ∧ branch (.bne 1 2 3) 5 6 = .misprediction 0x110 ∧
    branch (.beqz 1 0xFFFF) 0 9 = .misprediction 0x100 ∧ branch (.beqz 1 3) 1 0 = .ok ∧
    branch (.bnez 1 3) 0xFFFFFFFFFFFFFFFF 0 = .misprediction 0x110 ∧ branch (.bnez 1 3) 0 1 = .ok ∧
    branch (.bgez 1 3) 0 0 = .misprediction 0x110 ∧ branch (.bgez 1 3) 0x8000000000000000 0 = .ok := by decide

theorem test_ex_fp_branches :
    branch (.bc1t 1 3) 0 0 { start with fcsr := 0x02000000 } = .misprediction 0x110 ∧
    branch (.bc1t 0 3) 0 0 { start with fcsr := 0x02000000 } = .ok ∧
    branch (.bc1f 1 3) 0 0 { start with fcsr := 0x02000000 } = .ok ∧
    branch (.bc1f 0 3) 0 0 { start with fcsr := 0x02000000 } = .misprediction 0x110 := by decide

/-- The counter sequence of 2.4: T, T, T, N, N, N, T from 1. -/
theorem test_counter_sequence :
    [true, true, true, false, false, false, true].foldl (fun l t => l ++ [updateCounter (l.getLastD 1) t]) [1] =
      [1, 2, 3, 3, 2, 1, 0, 1] := by decide

/-- A branch predicted taken at IF goes to its target; PT[0] of the branch at 0 is 2. -/
theorem test_if_prediction :
    (nextOf (exec (.beq 1 2 3) (at_ .IF (record (.beq 1 2 3)) { start with pc := 4, pt := [(0, 2)] }))).pc = 16 ∧
    (nextOf (exec (.beq 1 2 3) (at_ .IF (record (.beq 1 2 3)) { start with pc := 4 }))).pc = 4 := by decide

theorem test_ex_jumps :
    (nextOf (exec (.j 1) (at_ .EX (record (.j 1) 0x0FFFFFFC)))).outcome = .jump 0x10000004 ∧
    (nextOf (exec (.jr 1) (at_ .EX { record (.jr 1) with a := 2 }))).outcome = .jump 2 ∧
    ex (.jal 3) 0 0 = some (.jump 12, 4, 0, true) ∧ ex (.jalr 5 1) 12 0 = some (.jump 12, 4, 0, true) := by decide

/-! ### Floating point (95_test_vectors 2.6 to 2.8) -/

/-- EX of an FP arithmetic instruction from an FCSR with these enables: does it answer this outcome, result latch and FCSR? -/
def fp (i : Instr) (enables : BitVec 32) (a b : Word) (o : StageOutcome) (v : Word) (fcsr : BitVec 32) : Bool :=
  let t := nextOf (exec i (at_ .EX { record i with a := a, b := b } { start with fcsr := enables }))
  t.outcome == o && t.slotEX.map (fun r => r.result) == some v && t.fcsr == fcsr

theorem test_ex_addD :
    fp (.addD 3 1 2) 0x0 0x7FF7FFFFFFFFFFFF 0x3FF0000000000000 .ok 0x7FF7FFFFFFFFFFFF 0x10040 ∧
    fp (.addD 3 1 2) 0x0 0x3FF0000000000000 0x7FFFFFFFFFFFFFFF .ok 0x7FF7FFFFFFFFFFFF 0x10040 ∧
    fp (.addD 3 1 2) 0x800 0x7FF7FFFFFFFFFFFF 0x3FF0000000000000 (.fault .fpInvalidOperation) 0 0x10800 ∧
    fp (.addD 3 1 2) 0x0 0x7FF0000000000000 0xFFF0000000000000 .ok 0x7FF7FFFFFFFFFFFF 0x10040 ∧
    fp (.addD 3 1 2) 0x0 0x7FF0000000000000 0x7FF0000000000000 .ok 0x7FF0000000000000 0x0 ∧
    fp (.addD 3 1 2) 0x0 0xFFF0000000000000 0x4014000000000000 .ok 0xFFF0000000000000 0x0 ∧
    fp (.addD 3 1 2) 0x0 0x3FF0000000000000 0x4000000000000000 .ok 0x4008000000000000 0x0 ∧
    fp (.addD 3 1 2) 0x0 0x3FB999999999999A 0x3FC999999999999A .ok 0x3FD3333333333334 0x0 ∧
    fp (.addD 3 1 2) 0x0 0x3FF0000000000000 0xBFF0000000000000 .ok 0x0000000000000000 0x0 ∧
    fp (.addD 3 1 2) 0x0 0x8000000000000000 0x8000000000000000 .ok 0x8000000000000000 0x0 ∧
    fp (.addD 3 1 2) 0x0 0x8000000000000000 0x0000000000000000 .ok 0x0000000000000000 0x0 ∧
    fp (.addD 3 1 2) 0x0 0x7FEFFFFFFFFFFFFF 0x7FEFFFFFFFFFFFFF .ok 0x7FF0000000000000 0x4010 ∧
    fp (.addD 3 1 2) 0x200 0x7FEFFFFFFFFFFFFF 0x7FEFFFFFFFFFFFFF (.fault .fpOverflow) 0 0x4200 ∧
    fp (.addD 3 1 2) 0x0 0x7FEFFFFFFFFFFFFF 0x0000000000000001 .ok 0x7FF0000000000000 0x4010 ∧
    fp (.addD 3 1 2) 0x0 0xFFEFFFFFFFFFFFFF 0xFBF0000000000000 .ok 0xFFF0000000000000 0x4010 ∧
    fp (.addD 3 1 2) 0x0 0x0000000000000001 0x0000000000000001 .ok 0x0000000000000002 0x0 ∧
    fp (.addD 3 1 2) 0x0 0x3FF0000000000000 0x3CA0000000000000 .ok 0x3FF0000000000000 0x0 ∧
    fp (.addD 3 1 2) 0x0 0x3FF0000000000000 0x3CB8000000000000 .ok 0x3FF0000000000002 0x0 ∧
    fp (.addD 3 1 2) 0x0 0x0010000000000000 0x8008000000000000 .ok 0x0008000000000000 0x0 := by decide +kernel

theorem test_ex_subD :
    fp (.subD 3 1 2) 0x0 0x7FF0000000000000 0x7FF0000000000000 .ok 0x7FF7FFFFFFFFFFFF 0x10040 ∧
    fp (.subD 3 1 2) 0x0 0x7FF0000000000000 0xFFF0000000000000 .ok 0x7FF0000000000000 0x0 ∧
    fp (.subD 3 1 2) 0x0 0xFFF0000000000000 0x7FF0000000000000 .ok 0xFFF0000000000000 0x0 ∧
    fp (.subD 3 1 2) 0x0 0x4008000000000000 0x7FF0000000000000 .ok 0xFFF0000000000000 0x0 ∧
    fp (.subD 3 1 2) 0x0 0x3FF0000000000000 0x3FF0000000000000 .ok 0x0000000000000000 0x0 ∧
    fp (.subD 3 1 2) 0x0 0x8000000000000000 0x0000000000000000 .ok 0x8000000000000000 0x0 ∧
    fp (.subD 3 1 2) 0x0 0x0000000000000000 0x8000000000000000 .ok 0x0000000000000000 0x0 ∧
    fp (.subD 3 1 2) 0x0 0x7FEFFFFFFFFFFFFF 0xFC80000000000000 .ok 0x7FF0000000000000 0x4010 := by decide +kernel

theorem test_ex_mulD :
    fp (.mulD 3 1 2) 0x0 0x0000000000000000 0x7FF0000000000000 .ok 0x7FF7FFFFFFFFFFFF 0x10040 ∧
    fp (.mulD 3 1 2) 0x0 0xFFF0000000000000 0xFFF0000000000000 .ok 0x7FF0000000000000 0x0 ∧
    fp (.mulD 3 1 2) 0x0 0xFFF0000000000000 0x4000000000000000 .ok 0xFFF0000000000000 0x0 ∧
    fp (.mulD 3 1 2) 0x0 0x8000000000000000 0x0000000000000000 .ok 0x8000000000000000 0x0 ∧
    fp (.mulD 3 1 2) 0x0 0xC008000000000000 0x0000000000000000 .ok 0x8000000000000000 0x0 ∧
    fp (.mulD 3 1 2) 0x0 0x3FF8000000000000 0x4000000000000000 .ok 0x4008000000000000 0x0 ∧
    fp (.mulD 3 1 2) 0x0 0x7FEFFFFFFFFFFFFF 0x4000000000000000 .ok 0x7FF0000000000000 0x4010 ∧
    fp (.mulD 3 1 2) 0x0 0x0000000000000001 0x3FE0000000000000 .ok 0x0000000000000000 0x2008 ∧
    fp (.mulD 3 1 2) 0x100 0x0000000000000001 0x3FE0000000000000 (.fault .fpUnderflow) 0 0x2100 ∧
    fp (.mulD 3 1 2) 0x0 0x0000000000000001 0x3FE8000000000000 .ok 0x0000000000000000 0x2008 ∧
    fp (.mulD 3 1 2) 0x0 0x1E60000000000000 0x1E60000000000000 .ok 0x0000000000000001 0x0 ∧
    fp (.mulD 3 1 2) 0x0 0x1E50000000000000 0x1E60000000000000 .ok 0x0000000000000000 0x2008 ∧
    fp (.mulD 3 1 2) 0x0 0x0170000000000000 0x3C30000000000000 .ok 0x0000000000004000 0x0 := by decide +kernel

theorem test_ex_divD :
    fp (.divD 3 1 2) 0x0 0x7FF0000000000000 0xFFF0000000000000 .ok 0x7FF7FFFFFFFFFFFF 0x10040 ∧
    fp (.divD 3 1 2) 0x0 0x0000000000000000 0x8000000000000000 .ok 0x7FF7FFFFFFFFFFFF 0x10040 ∧
    fp (.divD 3 1 2) 0x0 0x3FF0000000000000 0x0000000000000000 .ok 0x7FF0000000000000 0x8020 ∧
    fp (.divD 3 1 2) 0x0 0xBFF0000000000000 0x0000000000000000 .ok 0xFFF0000000000000 0x8020 ∧
    fp (.divD 3 1 2) 0x0 0x3FF0000000000000 0x8000000000000000 .ok 0xFFF0000000000000 0x8020 ∧
    fp (.divD 3 1 2) 0x400 0x3FF0000000000000 0x0000000000000000 (.fault .fpDivideByZero) 0 0x8400 ∧
    fp (.divD 3 1 2) 0x0 0x0000000000000000 0xC014000000000000 .ok 0x8000000000000000 0x0 ∧
    fp (.divD 3 1 2) 0x0 0xFFF0000000000000 0x4000000000000000 .ok 0xFFF0000000000000 0x0 ∧
    fp (.divD 3 1 2) 0x0 0x3FF0000000000000 0x7FF0000000000000 .ok 0x0000000000000000 0x0 ∧
    fp (.divD 3 1 2) 0x0 0xBFF0000000000000 0x7FF0000000000000 .ok 0x8000000000000000 0x0 ∧
    fp (.divD 3 1 2) 0x0 0x3FF0000000000000 0x4008000000000000 .ok 0x3FD5555555555555 0x0 ∧
    fp (.divD 3 1 2) 0x0 0x7FEFFFFFFFFFFFFF 0x3FE0000000000000 .ok 0x7FF0000000000000 0x4010 ∧
    fp (.divD 3 1 2) 0x0 0x0000000000000001 0x4010000000000000 .ok 0x0000000000000000 0x2008 := by decide +kernel

/-- Cause is cleared before the operation, flags and enables are kept (R45, R164). -/
theorem test_ex_cause_cleared :
    fp (.addD 3 1 2) 0x0001F07C 0x3FF0000000000000 0x4000000000000000 .ok 0x4008000000000000 0x7C := by
  decide +kernel

/-- A conversion's result under the four rounding modes 0 to 3 (95_test_vectors 2.7), the sentinels being 0x1111 and 0x22222222. -/
def cvt (i : Instr) (a : Word) : List (Option (StageOutcome × Word × Word × Bool)) :=
  [0, 1, 2, 3].map (fun m => ex i a 0 0 { start with fcsr := m })

/-- The four results. -/
def converts (i : Instr) (a r0 r1 r2 r3 : Word) : Bool :=
  cvt i a == [some (.ok, r0, 0, true), some (.ok, r1, 0, true), some (.ok, r2, 0, true), some (.ok, r3, 0, true)]

theorem test_ex_cvtLD :
    converts (.cvtLD 2 1) 0x4004000000000000 2 2 3 2 ∧ converts (.cvtLD 2 1) 0xC004000000000000 (-2) (-2) (-2) (-3) ∧
    converts (.cvtLD 2 1) 0x400C000000000000 4 3 4 3 ∧ converts (.cvtLD 2 1) 0x8000000000000000 0 0 0 0 ∧
    converts (.cvtLD 2 1) 0x43E0000000000000 0x1111 0x1111 0x1111 0x1111 ∧
    converts (.cvtLD 2 1) 0xC3E0000000000000 0x8000000000000000 0x8000000000000000 0x8000000000000000 0x8000000000000000 ∧
    converts (.cvtLD 2 1) 0x43DFFFFFFFFFFFFF 0x7FFFFFFFFFFFFC00 0x7FFFFFFFFFFFFC00 0x7FFFFFFFFFFFFC00 0x7FFFFFFFFFFFFC00 ∧
    converts (.cvtLD 2 1) 0x7FF7FFFFFFFFFFFF 0x1111 0x1111 0x1111 0x1111 ∧
    converts (.cvtLD 2 1) 0xFFF0000000000000 0x1111 0x1111 0x1111 0x1111 ∧
    converts (.cvtLD 2 1) 1 0 0 1 0 ∧ converts (.cvtLD 2 1) 0x8000000000000001 0 0 0 (-1) := by decide +kernel

theorem test_ex_cvtWD :
    converts (.cvtWD 2 1) 0x41DFFFFFFFE00000 0x22222222 0x7FFFFFFF 0x22222222 0x7FFFFFFF ∧
    converts (.cvtWD 2 1) 0xC1E0000000100000 0xFFFFFFFF80000000 0xFFFFFFFF80000000 0xFFFFFFFF80000000 0x22222222 ∧
    converts (.cvtWD 2 1) 0xBFF8000000000000 (-2) (-1) (-1) (-2) ∧ converts (.cvtWD 2 1) 0x3FE0000000000000 0 0 1 0 ∧
    converts (.cvtWD 2 1) 0x41E0000000000000 0x22222222 0x22222222 0x22222222 0x22222222 := by decide +kernel

theorem test_ex_cvtDL :
    converts (.cvtDL 2 1) 0x20000000000001 0x4340000000000000 0x4340000000000000 0x4340000000000001 0x4340000000000000 ∧
    converts (.cvtDL 2 1) (-0x20000000000001) 0xC340000000000000 0xC340000000000000 0xC340000000000000 0xC340000000000001 ∧
    converts (.cvtDL 2 1) 0x7FFFFFFFFFFFFFFF 0x43E0000000000000 0x43DFFFFFFFFFFFFF 0x43E0000000000000 0x43DFFFFFFFFFFFFF ∧
    converts (.cvtDL 2 1) 0x8000000000000000 0xC3E0000000000000 0xC3E0000000000000 0xC3E0000000000000 0xC3E0000000000000 ∧
    converts (.cvtDL 2 1) 0 0 0 0 0 := by decide +kernel

theorem test_ex_cvtDW :
    converts (.cvtDW 2 1) 0x7FFFFFFF 0x41DFFFFFFFC00000 0x41DFFFFFFFC00000 0x41DFFFFFFFC00000 0x41DFFFFFFFC00000 ∧
    converts (.cvtDW 2 1) 0x80000000 0xC1E0000000000000 0xC1E0000000000000 0xC1E0000000000000 0xC1E0000000000000 ∧
    converts (.cvtDW 2 1) 0xFFFFFFFF00000001 0x3FF0000000000000 0x3FF0000000000000 0x3FF0000000000000 0x3FF0000000000000 := by
  decide +kernel

/-- The FCSR after the EX of an instruction. -/
def fcsrAfter (i : Instr) (a b : Word) (c : Word := 0) (s : State := start) : BitVec 32 :=
  (nextOf (exec i (at_ .EX { record i with a := a, b := b, c := c } s))).fcsr

/-- Compares (2.8): +0 = -0, NaN unordered, -infinity below -DBL_MAX; no cause or flag bit changes. -/
theorem test_ex_compares :
    fcsrAfter (.cEqD 0 1 2) 0 0x8000000000000000 = 0x00800000 ∧
    fcsrAfter (.cEqD 7 1 2) 0x7FF7FFFFFFFFFFFF 0x7FF7FFFFFFFFFFFF 0 { start with fcsr := 0xFE81FFFF } = 0x7E81FFFF ∧
    fcsrAfter (.cLtD 1 1 2) 0xFFF0000000000000 0xFFEFFFFFFFFFFFFF = 0x02000000 ∧
    fcsrAfter (.cLtD 0 1 2) 0x3FF0000000000000 0x7FF7FFFFFFFFFFFF = 0 ∧
    fcsrAfter (.cUnD 0 1 2) 0x7FFFFFFFFFFFFFFF 0 = 0x00800000 ∧
    fcsrAfter (.cUnD 0 1 2) 0x3FF0000000000000 0x4000000000000000 = 0 := by decide +kernel

/-- EX of a conditional FP move from an FCSR: the value is latched, and written at WB or not. -/
def moves (i : Instr) (c : Word) (fcsr : BitVec 32) (written : Bool) : Bool :=
  ex i 9 0 c { start with fcsr := fcsr } == some (.ok, 9, 0, written)

/-- Moves and transfers (2.8). -/
theorem test_ex_fp_moves :
    gives (.movD 2 1) 9 0 9 ∧ moves (.movzD 2 1 3) 0 0 true ∧ moves (.movzD 2 1 3) 5 0 false ∧
    moves (.movnD 2 1 3) 5 0 true ∧ moves (.movnD 2 1 3) 0 0 false ∧
    moves (.movfD 2 1 1) 0 0 true ∧ moves (.movfD 2 1 1) 0 0x02000000 false ∧
    moves (.movtD 2 1 1) 0 0x02000000 true ∧ moves (.movtD 2 1 1) 0 0 false := by decide

theorem test_ex_transfers :
    ex (.mtc1 1 2) 0 0 0xFFFFFFFF = some (.ok, 0xFFFFFFFFFFFFFFFF, 0, true) ∧
    ex (.dmtc1 1 2) 0 0 0xFFFFFFFF = some (.ok, 0xFFFFFFFF, 0, true) ∧
    gives (.mfc1 1 2) 0x3FF0000000000000 0 0 ∧ gives (.dmfc1 1 2) 0x3FF0000000000000 0 0x3FF0000000000000 := by decide

/-- Program FC: CTC1 of all ones leaves the hardwired bits 0; CFC1 sign-extends. -/
theorem test_ex_fcsr_control :
    fcsrAfter (.ctc1 1) 0 0 0xFFFFFFFFFFFFFFFF = 0xFE81FFFF ∧
    ex (.cfc1 2) 0 0 0 { start with fcsr := 0xFE81FFFF } = some (.ok, 0xFFFFFFFFFE81FFFF, 0, true) := by decide

/-! ### ID, WB and single cycles (41_pipeline; the cycle tables of 95_test_vectors) -/

/-- ID of DADD waits for a reserved source, and not for GPR 0 (R36, R39, R212). -/
theorem test_id_raw :
    (nextOf (exec (.dadd 3 1 2) (at_ .ID (record (.dadd 3 1 2)) { start with rcGpr := start.rcGpr.set 2 1 }))).outcome = .raw ∧
    (nextOf (exec (.dadd 3 1 0) (at_ .ID (record (.dadd 3 1 0)) { start with rcGpr := start.rcGpr.set 0 1 }))).outcome = .ok := by
  decide

/-- DADDI R0, R0, 5 reserves nothing and leaves R0 = 0. -/
theorem test_gpr_zero :
    ((nextOf (exec (.daddi 0 0 5) (at_ .ID (record (.daddi 0 0 5))))).slotID.map (fun r => r.dests)) = some [] ∧
    (nextOf (exec (.daddi 0 0 5) (at_ .WB { record (.daddi 0 0 5) with result := 5, dests := [.gpr 0] }))).readReg (.gpr 0) = 0 := by
  decide

/-- WB of a multiply writes HI from resultHi and LO from result, and releases both. -/
theorem test_wb_hi_lo :
    let t := nextOf (exec (.mult 1 2) (at_ .WB { record (.mult 1 2) with result := 6, resultHi := 7, dests := [.hi, .lo] }
      { start with rcHi := 1, rcLo := 2 }))
    t.hi = 7 ∧ t.lo = 6 ∧ t.rcHi = 0 ∧ t.rcLo = 1 := by decide

/-- Scenario 1, cycle 6: the WB of DADDI@4 writes and releases R2 before ID reads it, and IF fetches 12 (R216). -/
def scenario1 : State :=
  { start with
    im := [0x60010005, 0x60020007, 0x0022182C, 0x04000000]
    gpr := start.gpr.set 1 5
    rcGpr := start.rcGpr.set 2 1
    pc := 12
    slotID := some (record (.dadd 3 1 2) 8)
    slotWB := some { record (.daddi 2 0 7) 4 with result := 7, dests := [.gpr 2] } }

theorem test_step_wb_before_id :
    let t := nextOf (step scenario1)
    t.slotEX.map (fun r => (r.a, r.b, r.dests)) = some (5, 7, [.gpr 3]) ∧ t.pc = 16 ∧ t.rawStalls = 0 ∧ t.retired = 1 ∧
    t.haltFetched = true ∧ t.trace = [.fetch 12] := by decide

/-- Scenario 1, cycle 5: DADDI@4 is in MEM, so ID stalls on R2 and IF does not run (R220). -/
theorem test_step_stall :
    let t := nextOf (step { scenario1 with slotMEM := scenario1.slotWB, slotWB := none })
    t.rawStalls = 1 ∧ t.slotEX = none ∧ t.slotID = scenario1.slotID ∧ t.pc = 12 ∧ t.trace = [] ∧
    t.slotWB = scenario1.slotWB := by decide

/-- Scenario 2, cycle 6: BNEZ@4 mispredicts, ID's DADDI@8 is flushed and the same cycle fetches 12 (R221, R223). -/
theorem test_step_misprediction :
    let t := nextOf (step { start with
      im := [0x60010001, 0x1C200001, 0x60020063, 0x04000000], pc := 12
      slotID := some (record (.daddi 2 0 99) 8), slotEX := some { record (.bnez 1 1) 4 with a := 1 } })
    t.pc = 16 ∧ t.slotEX = none ∧ t.mispredictions = 1 ∧ t.pt = [(1, 2)] ∧
    t.slotID.map (fun r => r.fetchedPC) = some 12 ∧ t.rc (.gpr 2) = 0 := by decide

/-- A flushed HALT lets IF fetch again in the same cycle (2.4, wrong-path HALT). -/
theorem test_step_flushed_halt :
    let t := nextOf (step { start with
      im := [0x60010001, 0x18000001, 0x04000000, 0x60020002, 0x04000000], pc := 12, haltFetched := true
      slotID := some (record .halt 8), slotEX := some (record (.beqz 0 1) 4) })
    t.haltFetched = false ∧ t.pc = 16 ∧ t.slotID.map (fun r => r.op) = some (.instr (.daddi 2 0 2)) := by decide

/-- HALT in WB of an otherwise empty pipeline: the run terminates in this cycle (R225). -/
def lastCycle : State :=
  { start with
    im := [0x04000000], pc := 4, lastFetchedPC := 0, haltFetched := true, cycles := 4, trace := [.fetch 0]
    slotWB := some (record .halt) }

theorem test_step_terminates :
    let t := nextOf (step lastCycle)
    t.status = .terminated ∧ t.cycles = 5 ∧ t.retired = 1 := by decide

theorem test_step_after_the_end : step (nextOf (step lastCycle)) = .fault .runTerminated := rfl

/-- A faulting MEM stops the run before EX runs (R513). -/
def twoFaults : State :=
  { start with
    slotMEM := some { record (.ld 2 1 1) 4 with ea := 2 }
    slotEX := some { record (.dadd 3 1 2) 8 with a := 0x7FFFFFFFFFFFFFFF, b := 1 } }

theorem test_step_fault_priority :
    let t := nextOf (step twoFaults)
    t.status = .faulted (.memoryAlignment 2 8) .MEM 4 ∧ t.cycles = 1 ∧ t.trace = [] ∧ t.slotEX = twoFaults.slotEX := by decide

/-- BREAK in ID stops the run with status Stopped; the older instructions never reach WB (R493). -/
def atBreak : State :=
  { start with
    im := [0x60010001, 0x0000000D], pc := 8
    slotID := some (record (.brk 0) 4), slotEX := some { record (.daddi 1 0 1) 0 with dests := [.gpr 1] } }

theorem test_step_break :
    let t := nextOf (step atBreak)
    t.status = .stoppedBreak 4 ∧ t.gpr[1] = 0 ∧ t.retired = 0 ∧ t.pc = 8 := by decide

/-- Poison entries (R217): what IF makes of a misaligned PC, no word, a reserved word and an instruction that is not admitted;
and the fault of the first of them in ID. -/
theorem test_poison :
    (start.fetchRecord 2).op = .poison (.instructionAlignment 2) ∧
    (start.fetchRecord 8).op = .poison (.fetchAddress 8) ∧
    ({ start with im := [0x40000000] }.fetchRecord 0).op = .poison (.reservedInstruction 0x40000000) ∧
    ({ start with im := [0], cfg := { start.cfg with tiers := ⟨true, true, false⟩ } }.fetchRecord 0).op =
      .poison (.unsupported 0) ∧
    (nextOf (step { start with pc := 6, slotID := some (newRecord 2 0 (.poison (.instructionAlignment 2))) })).status =
      .faulted (.instructionAlignment 2) .ID 2 := by decide

/-- From reset with a word placed where IF fetches, the step runs it: here HALT's IF. -/
theorem test_step_first_word :
    (nextOf (step (start.withFetchWord 32 0x04000000))).haltFetched = true ∧
    (nextOf (step (start.withFetchWord 32 0x60010005))).slotID = some (record (.daddi 1 0 5)) := by decide

/-! ### Witnesses: for each statement of Certificates that has hypotheses, states and operands that meet them -/

theorem witness_DecodeOfEncode :
    (Instr.sll 31 31 31).wellFormed = true ∧ (Instr.sll 0 0 1).wellFormed = true ∧ Instr.nop.wellFormed = true ∧
    (Instr.brk 0xFFFFF).wellFormed = true := by decide

theorem witness_EncodeOfDecode :
    decode 0 = .instr .nop ∧ decode 0xFFFFFFFF = .instr (.sd 31 0xFFFF 31) ∧ decode 0x40 = .instr (.sll 0 0 1) := by decide

theorem witness_DecodeFollowsOpcodeMap :
    (Instr.sll 0 0 0).row ∈ opcodeRows ∧ Instr.nop.row ∈ opcodeRows ∧
    (Instr.sll 0 0 0).row.fits 0 = true ∧ Instr.nop.row.fits 0 = true :=
  ⟨List.mem_of_getElem? (i := 23) rfl, List.mem_of_getElem? (i := 96) rfl, by decide, by decide⟩

theorem witness_ByteImagesAreBigEndian : (0 : Nat) < 4 ∧ (3 : Nat) < 4 := by decide

/-- Any record in the slot of the stage that is called. -/
theorem calls_at (st : Stage) (r : InFlight) (s : State) : (at_ st r s).calls st r := by
  cases st <;> exact ⟨rfl, rfl⟩

theorem witness_StepRunsDecodedInstruction :
    ((at_ .EX (record .nop)).slot .EX = some (record .nop) ∧ (record .nop).op = .instr .nop) ∧
    (let s := start.withFetchWord 32 0x60010005
     s.fetchAt s.pc = .word 0x60010005 ∧ decode 0x60010005 = .instr (.daddi 1 0 5) ∧
      s.cfg.tiers.admits (Instr.daddi 1 0 5).tier = true ∧ s.haltFetched = false ∧ s.outcome ≠ .raw ∧
      s.status = .running ∧ s.drained = true) := by decide

/-- A state whose EX faults. -/
def exFault : State := { start with slotEX := some { record (.ddiv 1 2) 4 with a := 7 } }

/-- A state whose ID faults with a kind that is not BREAK's. -/
def idFault : State := { start with slotID := some (newRecord 2 0 (.poison (.instructionAlignment 2))) }

theorem witness_FaultStopsRun_poison :
    (∃ c, idFault.status = .running ∧ beforeID idFault = .next c ∧ c.status = .running ∧
      c.slotID = some (newRecord 2 0 (.poison (.instructionAlignment 2))) ∧ FaultKind.instructionAlignment 2 ≠ .breakpoint) ∧
    (∀ st : Stage, (at_ st (newRecord 2 0 (.poison (.instructionAlignment 2))) start).slot st =
      some (newRecord 2 0 (.poison (.instructionAlignment 2)))) ∧ Stage.MEM ≠ .ID :=
  ⟨⟨_, rfl, rfl, rfl, rfl, by decide⟩, fun st => by cases st <;> rfl, by decide⟩

theorem witness_FaultStopsRun :
    start.status = .running ∧
    (∃ a v, twoFaults.status = .running ∧ wbStep twoFaults = .next a ∧ callStage .MEM a = .next v ∧
      v.outcome = .fault (.memoryAlignment 2 8)) ∧
    (∃ a b v, exFault.status = .running ∧ wbStep exFault = .next a ∧ memStep a = .next b ∧ b.status = .running ∧
      callStage .EX b = .next v ∧ v.outcome = .fault .divideByZero) ∧
    (∃ c v, atBreak.status = .running ∧ beforeID atBreak = .next c ∧ c.status = .running ∧ callStage .ID c = .next v ∧
      v.outcome = .fault .breakpoint) ∧
    (∃ c v, idFault.status = .running ∧ beforeID idFault = .next c ∧ c.status = .running ∧ callStage .ID c = .next v ∧
      v.outcome = .fault (.instructionAlignment 2)) :=
  ⟨rfl, ⟨_, _, rfl, rfl, rfl, rfl⟩, ⟨_, _, _, rfl, rfl, rfl, rfl, rfl, rfl⟩, ⟨_, _, rfl, rfl, rfl, rfl, rfl⟩,
    ⟨_, _, rfl, rfl, rfl, rfl, rfl⟩⟩

theorem witness_FetchMakesRecord :
    (1 : Word).toNat % 4 ≠ 0 ∧ ((0 : Word).toNat % 4 = 0 ∧ start.im.length ≤ (0 : Word).toNat / 4) ∧
    ((4 : Word).toNat % 4 = 0 ∧ ({ start with im := [0] } : State).im.length ≤ (4 : Word).toNat / 4) ∧
    (({ start with im := [0x40000000] } : State).im[(0 : Word).toNat / 4]? = some 0x40000000 ∧
      decode 0x40000000 = .reserved) ∧
    (decode 0 = .instr .nop ∧
      ({ start.cfg with tiers := ⟨true, true, false⟩ } : CoreConfig).tiers.admits Instr.nop.tier = false ∧
      start.cfg.tiers.admits Instr.nop.tier = true) := by decide

theorem witness_FetchAdvancesPc :
    ({ start with outcome := .raw } : State).outcome = .raw ∧ ({ start with haltFetched := true } : State).haltFetched = true ∧
    start.outcome ≠ .raw ∧ start.haltFetched = false := by decide

/-- Scenario 1, cycle 5. -/
def stalling : State := { scenario1 with slotMEM := scenario1.slotWB, slotWB := none }

theorem witness_StallHoldsDecode :
    ∃ c, stalling.status = .running ∧ beforeID stalling = .next c ∧ c.status = .running ∧
      c.slotID = some (record (.dadd 3 1 2) 8) ∧ (record (.dadd 3 1 2) 8).op = .instr (.dadd 3 1 2) ∧
      c.rawHazard (Instr.dadd 3 1 2).operands.srcs = true :=
  ⟨_, rfl, rfl, rfl, rfl, rfl, by decide⟩

/-- A state whose EX mispredicts while ID holds a HALT. -/
def redirecting : State :=
  { start with
    im := [0x60010001, 0x18000001, 0x04000000, 0x60020002, 0x04000000], pc := 12, haltFetched := true
    slotID := some (record .halt 8), slotEX := some (record (.beqz 0 1) 4) }

/-- A state whose EX jumps. -/
def jumping : State := { start with im := [0x08000002], slotEX := some (record (.j 2) 0), slotID := some (record .nop 4) }

theorem witness_RedirectFlushesDecode :
    (∃ v, callStage .EX redirecting = .next v ∧ v.outcome = .misprediction 12) ∧
    (∃ v, callStage .EX jumping = .next v ∧ v.outcome = .jump 8) ∧
    redirecting.slotID = some (record .halt 8) ∧ (record .halt 8).op = .instr .halt ∧
    jumping.slotID = some (record .nop 4) ∧ (record .nop 4).op ≠ .instr .halt ∧
    ({ jumping with slotID := none } : State).slotID = none :=
  ⟨⟨_, rfl, rfl⟩, ⟨_, rfl, rfl⟩, rfl, rfl, rfl, by decide, rfl⟩

theorem witness_RedirectRefetchesAtTarget :
    (∃ a b v, redirecting.status = .running ∧ wbStep redirecting = .next a ∧ memStep a = .next b ∧ b.status = .running ∧
      callStage .EX b = .next v ∧ v.outcome = .misprediction 12 ∧ (b.haltFetched = true → holdsHalt b.slotID = true)) ∧
    (∃ a b v, jumping.status = .running ∧ wbStep jumping = .next a ∧ memStep a = .next b ∧ b.status = .running ∧
      callStage .EX b = .next v ∧ v.outcome = .jump 8 ∧ (b.haltFetched = true → holdsHalt b.slotID = true)) :=
  ⟨⟨_, _, _, rfl, rfl, rfl, rfl, rfl, rfl, by decide⟩, ⟨_, _, _, rfl, rfl, rfl, rfl, rfl, rfl, by decide⟩⟩

theorem witness_CycleBookkeeping : ∃ t, step scenario1 = .next t := ⟨_, rfl⟩

/-- An instruction in each of WB, MEM, EX and ID, none of which stalls or redirects. -/
def flowing (halted : Bool) : State :=
  { start with
    im := [0x60010005, 0, 0, 0, 0x04000000], pc := 16, haltFetched := halted
    slotWB := some { record (.daddi 1 0 5) 0 with result := 5 }, slotMEM := some (record .nop 4)
    slotEX := some (record .nop 8), slotID := some (record .nop 12) }

theorem witness_AdvanceAndTerminate_flow (halted : Bool) :
    ∃ a b v t, wbStep (flowing halted) = .next a ∧ memStep a = .next b ∧ callStage .EX b = .next v ∧ v.outcome = .ok ∧
      step (flowing halted) = .next t ∧ t.status = .running ∧ t.rawStalls = (flowing halted).rawStalls ∧
      (∃ w, callStage .ID v = .next w) ∧ (flowing halted).haltFetched = halted := by
  cases halted <;> exact ⟨_, _, _, _, rfl, rfl, rfl, rfl, rfl, rfl, rfl, ⟨_, rfl⟩, rfl⟩

theorem witness_AdvanceAndTerminate :
    (∃ t, step lastCycle = .next t ∧ t.status = .terminated) ∧ (∃ t, step start = .next t ∧ t.status = .running) :=
  ⟨⟨_, rfl, rfl⟩, ⟨_, rfl, rfl⟩⟩

theorem witness_TraceGrowsInOrder : ∃ t, step { loaded .big with slotMEM := some (record (.ld 2 0 1)) } = .next t :=
  ⟨_, rfl⟩

theorem witness_RegistersChangeOnlyInWriteBack :
    (∃ t, step scenario1 = .next t) ∧
    scenario1.slotWB = some { record (.daddi 2 0 7) 4 with result := 7, dests := [.gpr 2] } := ⟨⟨_, rfl⟩, rfl⟩

theorem witness_FcsrChangesOnlyInEx :
    let s : State := { start with slotEX := some (record .nop), fcsr := 0x7C }
    (∃ t, step s = .next t) ∧
    (∀ r i, s.slotEX = some r → r.op = .instr i → i.isFpArith = false ∧ i.isCtc1 = false ∧ i.isCompare = false) ∧
    s.readFcsr.getLsbD 2 = true ∧ s.readFcsr.getLsbD 6 = true := by
  refine ⟨⟨_, rfl⟩, ?_, by decide, by decide⟩
  rintro r i ⟨⟩ ⟨⟩
  decide

theorem witness_MemoryChangesOnlyByStores :
    let s : State := { start with slotMEM := some { record (.sh 2 0 1) with ea := 6, b := 0x1234 } }
    (∃ t, step s = .next t) ∧
    (∀ x, x = 5 ∨ x = 8 → ∀ r i n, s.slotMEM = some r → r.op = .instr i → i.isStore = true → i.access? = some n →
      s.accessible r.ea n → x < r.ea.toNat ∨ r.ea.toNat + n ≤ x) := by
  refine ⟨⟨_, rfl⟩, ?_⟩
  rintro x hx r i n ⟨⟩ ⟨⟩ _ ⟨⟩ _
  rcases hx with rfl | rfl <;> decide

theorem witness_PredictorChangesOnlyByBranches : redirecting.ptInv ∧ ∃ t, step redirecting = .next t :=
  ⟨by unfold State.ptInv; decide, _, rfl⟩

/-- A state in which no record holds a reservation and every count is 0. -/
theorem scoreboard_of_idle (s : State) (h0 : s.slotIF = none) (h : ∀ r ∈ s.inFlight, r.dests = [])
    (hID : ∀ r, s.slotID = some r → r.dests = []) (hrc : ∀ q, s.rc q = 0) : s.scoreboardInv := by
  intro _
  refine ⟨h0, hID, fun r hr => by simp [h r hr], fun q => ?_⟩
  rw [hrc, State.reservers, eq_comm, List.countP_eq_zero]
  intro r hr
  simp [h r hr]

theorem start_rc (q : RegId) : start.rc q = 0 := by
  cases q with
  | gpr n => revert n; decide
  | fpr n => revert n; decide
  | hi => rfl
  | lo => rfl

theorem lastCycle_scoreboard : lastCycle.scoreboardInv :=
  scoreboard_of_idle lastCycle rfl (by decide) (by rintro r ⟨⟩) start_rc

theorem lastCycle_account : lastCycle.accountInv := by
  intro _
  unfold State.haltInv
  decide

theorem witness_ScoreboardKept :
    (start.scoreboardInv ∧ ∃ t, step start = .next t) ∧ lastCycle.scoreboardInv ∧ ∃ t, step lastCycle = .next t :=
  ⟨⟨scoreboard_of_idle start rfl (by decide) (by rintro r ⟨⟩) start_rc, _, rfl⟩, lastCycle_scoreboard, _, rfl⟩

theorem witness_CycleAccountKept : lastCycle.accountInv ∧ ∃ t, step lastCycle = .next t :=
  ⟨lastCycle_account, _, rfl⟩

theorem witness_DataFormsKept :
    start.memInv ∧ start.ptInv ∧ start.fcsrInv ∧ ∃ t, step start = .next t :=
  ⟨by unfold State.memInv; decide, by unfold State.ptInv; decide, by unfold State.fcsrInv; decide, _, rfl⟩

theorem witness_TerminationAccount :
    lastCycle.scoreboardInv ∧ lastCycle.accountInv ∧ ∃ t, step lastCycle = .next t ∧ t.status = .terminated :=
  ⟨lastCycle_scoreboard, lastCycle_account, _, rfl, rfl⟩

/-- HALT in EX of an otherwise empty pipeline. -/
def haltInEx : State :=
  { start with
    im := [0x04000000], pc := 4, haltFetched := true, cycles := 2, trace := [.fetch 0], slotEX := some (record .halt) }

theorem witness_HaltDrains :
    haltInEx.accountInv ∧ haltInEx.status = .running ∧ haltInEx.haltFetched = true ∧ holdsHalt haltInEx.slotEX = true ∧
    ∃ t, step haltInEx = .next t ∧ t.status = .running := by
  refine ⟨fun _ => ?_, rfl, rfl, by decide, _, rfl, rfl⟩
  unfold State.haltInv
  decide

theorem witness_InvariantsHoldAtReset : (loaded .big).memInv ∧ redirecting.ptInv :=
  ⟨by unfold State.memInv; decide, by unfold State.ptInv; decide⟩

theorem witness_DecodeReadsAndReserves :
    (at_ .ID (record (.dadd 3 1 2)) start).calls .ID (record (.dadd 3 1 2)) := calls_at _ _ _

theorem witness_ReservationsAcquired :
    ((at_ .ID (record (.dadd 3 1 2)) start).calls .ID (record (.dadd 3 1 2)) ∧
      ∀ q ∈ (Instr.dadd 3 1 2).operands.srcs, (at_ .ID (record (.dadd 3 1 2)) start).rc q = 0) ∧
    (at_ .ID (record (.dadd 3 1 2)) scenario1).calls .ID (record (.dadd 3 1 2)) ∧
    RegId.gpr 2 ∈ (Instr.dadd 3 1 2).operands.srcs ∧ (at_ .ID (record (.dadd 3 1 2)) scenario1).rc (.gpr 2) ≠ 0 :=
  ⟨⟨calls_at _ _ _, by decide⟩, calls_at _ _ _, by decide, by decide⟩

theorem witness_WriteBackWritesAndReleases :
    let r := { record (.mult 1 2) with result := 6, resultHi := 7, dests := [.hi, .lo] }
    (at_ .WB r start).calls .WB r ∧ r.dests.Nodup ∧ r.writeEnable = true ∧ RegId.hi ∈ r.dests :=
  ⟨calls_at _ _ _, by decide, rfl, by decide⟩

theorem witness_InstructionReleasesWhatItReserves :
    (∀ q ∈ (Instr.mult 1 2).operands.srcs, start.rc q = 0) ∧ (∀ q ∈ Instr.halt.operands.srcs, start.rc q = 0) := by decide

theorem witness_InstructionsEndToEnd :
    start.rc (.gpr 1) = 0 ∧ start.rc (.gpr 31) = 0 ∧
    start.accessible (start.readReg (.gpr 1) + (0x0FF8 : BitVec 16).signExtend 64) 8 ∧ Memory.wf start.mem := by
  unfold State.accessible
  decide

/-- The executor calls ID, and calls EX, on a record of an instruction. -/
theorem calls_id_and_ex (i : Instr) : (at_ .ID (record i) start).calls .ID (record i) ∧
    (at_ .EX (record i) start).calls .EX (record i) := ⟨calls_at _ _ _, calls_at _ _ _⟩

theorem witness_WrappingArithmetic : ∃ s t r, State.calls s .ID r ∧ State.calls t .EX r :=
  ⟨_, _, _, calls_id_and_ex (.daddu 3 1 2)⟩

/-- The first and last values inside and the first outside on each side, for the sums and differences of both widths. -/
theorem witness_TrappingArithmetic :
    (∃ s t r, State.calls s .ID r ∧ State.calls t .EX r) ∧
    ((2 : Int) ^ 63 - 1 = (0x7FFFFFFFFFFFFFFF : Word).toInt + (0 : Word).toInt ∧
      -((2 : Int) ^ 63) = (0x8000000000000000 : Word).toInt - (0 : Word).toInt ∧
      -((2 : Int) ^ 63) = (0x8000000000000001 : Word).toInt + ((0xFFFF : BitVec 16).signExtend 64).toInt) ∧
    ((2 : Int) ^ 63 = (0x7FFFFFFFFFFFFFFF : Word).toInt + (1 : Word).toInt ∧
      -((2 : Int) ^ 63) - 1 = (0x8000000000000000 : Word).toInt - (1 : Word).toInt ∧
      -((2 : Int) ^ 63) - 1 = (0x8000000000000000 : Word).toInt + ((0xFFFF : BitVec 16).signExtend 64).toInt) ∧
    ((2 : Int) ^ 31 - 1 = ((0x7FFFFFFF : Word).setWidth 32).toInt + ((0 : Word).setWidth 32).toInt ∧
      -((2 : Int) ^ 31) = ((0x80000000 : Word).setWidth 32).toInt - ((0 : Word).setWidth 32).toInt ∧
      -((2 : Int) ^ 31) = ((0x80000001 : Word).setWidth 32).toInt + (((0xFFFF : BitVec 16).signExtend 64).setWidth 32).toInt) ∧
    ((2 : Int) ^ 31 = ((0x7FFFFFFF : Word).setWidth 32).toInt + ((1 : Word).setWidth 32).toInt ∧
      -((2 : Int) ^ 31) - 1 = ((0x80000000 : Word).setWidth 32).toInt - ((1 : Word).setWidth 32).toInt ∧
      -((2 : Int) ^ 31) - 1 =
        ((0x80000000 : Word).setWidth 32).toInt + (((0xFFFF : BitVec 16).signExtend 64).setWidth 32).toInt) :=
  ⟨⟨_, _, _, calls_id_and_ex (.dadd 3 1 2)⟩, by decide, by decide, by decide, by decide⟩

theorem witness_LogicalInstructions : ∃ s t r, State.calls s .ID r ∧ State.calls t .EX r :=
  ⟨_, _, _, calls_id_and_ex (.and 3 1 2)⟩

theorem witness_SetOnLessThan : ∃ s t r, State.calls s .ID r ∧ State.calls t .EX r :=
  ⟨_, _, _, calls_id_and_ex (.slt 3 1 2)⟩

theorem witness_WordShifts : ∃ s t r, State.calls s .ID r ∧ State.calls t .EX r :=
  ⟨_, _, _, calls_id_and_ex (.sra 3 2 31)⟩

theorem witness_DoublewordShifts : ∃ s t r, State.calls s .ID r ∧ State.calls t .EX r :=
  ⟨_, _, _, calls_id_and_ex (.dsra 3 2 31)⟩

theorem witness_ConditionalMoves :
    (∃ s t r, State.calls s .ID r ∧ State.calls t .EX r) ∧
    (let r := { record (.movz 3 1 2) with writeEnable := false, dests := [.gpr 3] }
     (at_ .WB r start).calls .WB r) :=
  ⟨⟨_, _, _, calls_id_and_ex (.movz 3 1 2)⟩, calls_at _ _ _⟩

theorem witness_MultiplyAndHiLo : ∃ s t r, State.calls s .ID r ∧ State.calls t .EX r :=
  ⟨_, _, _, calls_id_and_ex (.mult 1 2)⟩

theorem witness_Divides :
    (∃ s t r, State.calls s .ID r ∧ State.calls t .EX r) ∧
    (0xFFFFFFFF00000000 : Word).setWidth 32 = (0 : BitVec 32) ∧
    ((0x8000000000000000 : Word).toInt = -(2 ^ 63) ∧ (0xFFFFFFFFFFFFFFFF : Word).toInt = -1) ∧
    ((0x80000000 : Word).setWidth 32).toInt = -(2 ^ 31) ∧ ((0xFFFFFFFF : Word).setWidth 32).toInt = -1 ∧
    ((1 : Word) ≠ 0 ∧ ¬((0x8000000000000000 : Word).toInt = -(2 ^ 63) ∧ (1 : Word).toInt = -1)) ∧
    ((1 : Word).setWidth 32 ≠ (0 : BitVec 32) ∧
      ¬(((0x80000000 : Word).setWidth 32).toInt = -(2 ^ 31) ∧ ((1 : Word).setWidth 32).toInt = -1)) :=
  ⟨⟨_, _, _, calls_id_and_ex (.ddiv 1 2)⟩, by decide, by decide, by decide, by decide, by decide, by decide⟩

/-- The last address at which an access of each width is in range. -/
theorem last_accessible : start.accessible 4095 1 ∧ start.accessible 4094 2 ∧ start.accessible 4092 4 ∧
    start.accessible 4088 8 := by unfold State.accessible; decide

theorem witness_Loads :
    (∃ s t r, State.calls s .ID r ∧ State.calls t .EX r) ∧
    (∀ n a, (n, a) ∈ [(1, 4095), (2, 4094), (4, 4092), (8, 4088)] →
      let r := { record (.lb 2 0 1) with ea := a }
      (at_ .MEM r start).calls .MEM r ∧ (at_ .MEM r start).accessible r.ea n) := by
  refine ⟨⟨_, _, _, calls_id_and_ex (.lb 2 0 1)⟩, fun n a h => ⟨calls_at _ _ _, ?_⟩⟩
  have := last_accessible
  simp only [List.mem_cons, List.mem_nil_iff, or_false, Prod.mk.injEq] at h
  rcases h with ⟨rfl, rfl⟩ | ⟨rfl, rfl⟩ | ⟨rfl, rfl⟩ | ⟨rfl, rfl⟩ <;> unfold State.accessible <;> decide

theorem witness_Stores :
    (∃ s t r, State.calls s .ID r ∧ State.calls t .EX r) ∧
    (∀ n a, (n, a) ∈ [(1, 4095), (2, 4094), (4, 4092), (8, 4088)] →
      let r := { record (.sb 2 0 1) with ea := a }
      (at_ .MEM r start).calls .MEM r ∧ (at_ .MEM r start).accessible r.ea n ∧ Memory.wf (at_ .MEM r start).mem) ∧
    ((Instr.sb 2 0 1).access? ≠ none ∧ ∃ t, exec (.sb 2 0 1) start = .next t) := by
  refine ⟨⟨_, _, _, calls_id_and_ex (.sb 2 0 1)⟩, fun n a h => ⟨calls_at _ _ _, ?_, ?_⟩, by decide, _, rfl⟩
  · simp only [List.mem_cons, List.mem_nil_iff, or_false, Prod.mk.injEq] at h
    rcases h with ⟨rfl, rfl⟩ | ⟨rfl, rfl⟩ | ⟨rfl, rfl⟩ | ⟨rfl, rfl⟩ <;> unfold State.accessible <;> decide
  · show Memory.wf []
    decide

theorem witness_AccessFaults :
    let r := fun a : Word => { record (.ld 2 0 1) with ea := a }
    (∀ a, (at_ .MEM (r a) start).calls .MEM (r a)) ∧ (Instr.ld 2 0 1).access? = some 8 ∧
    (r 4092).ea.toNat % 8 ≠ 0 ∧ ((r 4096).ea.toNat % 8 = 0 ∧ start.cfg.memBytes < (r 4096).ea.toNat + 8) ∧
    start.accessible (r 4088).ea 8 :=
  ⟨fun _ => calls_at _ _ _, rfl, by decide, by decide, last_accessible.2.2.2⟩

theorem witness_MemoryCells : (7 : Nat) % 1 = 0 ∧ (6 : Nat) % 2 = 0 ∧ (4 : Nat) % 4 = 0 ∧ (8 : Nat) % 8 = 0 := by decide

theorem witness_StoreReplacesItsBits :
    Memory.wf (loaded .big).mem ∧ Memory.wf ([] : Memory) ∧ (7 : Nat) % 1 = 0 ∧ (8 : Nat) % 8 = 0 ∧ (8 : Nat) ≠ 7 - 7 % 8 := by
  decide

theorem witness_ConditionalBranches : ∃ s t r, State.calls s .ID r ∧ State.calls t .EX r :=
  ⟨_, _, _, calls_id_and_ex (.beq 1 2 3)⟩

theorem witness_BranchPrediction :
    let s : State := { start with pt := [(0, 2), (1, 3)] }
    (at_ .IF (record (.beq 1 2 3)) s).calls .IF (record (.beq 1 2 3)) ∧
    (Instr.beq 1 2 3).branch? = some (.beq, 3) ∧ s.cfg.predictionEnabled = true ∧ s.cfg.predIndex = .pcBits ∧
    2 ≤ (s.pt.read (predIndex s.cfg .beq (record (.beq 1 2 3)).fetchedPC)).toNat ∧
    (start.pt.read (predIndex start.cfg .beq (record (.beq 1 2 3)).fetchedPC)).toNat < 2 ∧
    ({ start.cfg with predictionEnabled := false } : CoreConfig).predictionEnabled = false :=
  ⟨calls_at _ _ _, rfl, rfl, rfl, by decide, by decide, rfl⟩

theorem witness_Jumps : ∃ s t r, State.calls s .ID r ∧ State.calls t .EX r :=
  ⟨_, _, _, calls_id_and_ex (.jalr 5 1)⟩

/-- Does an FP result carry a value? -/
def FpOut.isOk (o : FpOut) : Bool :=
  match o.value with
  | .ok _ => true
  | .error _ => false

theorem witness_FpArithmeticStage :
    (∃ s t r, State.calls s .ID r ∧ State.calls t .EX r) ∧
    (∃ v, (fpAdd 0 0x3FF0000000000000 0xBFF0000000000000).value = .ok v) ∧
    (∃ k, (fpDiv 0x400 0x3FF0000000000000 0).value = .error k) ∧
    ((0x800 : BitVec 32).getLsbD (7 + 4) = true ∧ (0x400 : BitVec 32).getLsbD (7 + 3) = true ∧
      (0x200 : BitVec 32).getLsbD (7 + 2) = true ∧ (0x100 : BitVec 32).getLsbD (7 + 1) = true ∧
      (0 : BitVec 32).getLsbD (7 + 1) = false) := by
  refine ⟨⟨_, _, _, calls_id_and_ex (.addD 3 1 2)⟩, ?_, ?_, by decide⟩
  · have h : FpOut.isOk (fpAdd 0 0x3FF0000000000000 0xBFF0000000000000) = true := by decide +kernel
    unfold FpOut.isOk at h
    split at h <;> simp_all
  · have h : FpOut.isOk (fpDiv 0x400 0x3FF0000000000000 0) = false := by decide +kernel
    unfold FpOut.isOk at h
    split at h <;> simp_all

theorem witness_FpSpecialValues :
    (isNaN 0x7FF7FFFFFFFFFFFF = true ∧ isNaN 0x7FFFFFFFFFFFFFFF = true) ∧
    (isInf 0x7FF0000000000000 = true ∧ isInf 0xFFF0000000000000 = true ∧
      fpSign 0x7FF0000000000000 ≠ fpSign 0xFFF0000000000000) ∧
    (isFinite 0x7FEFFFFFFFFFFFFF = true ∧ isZero 0x7FEFFFFFFFFFFFFF = false) ∧
    (isFinite 0x8000000000000000 = true ∧ isZero 0x8000000000000000 = true) ∧
    (isFinite 1 = true ∧ isZero 1 = false) := by decide

theorem witness_FpAddSubNarrowExactResult :
    isFinite 0x7FEFFFFFFFFFFFFF = true ∧ isFinite 1 = true ∧ isFinite 0x8000000000000000 = true := by decide

theorem witness_FpMulDivNarrowExactResult :
    isFinite 0x7FEFFFFFFFFFFFFF = true ∧ isFinite 1 = true ∧ isZero 1 = false ∧ isZero 0x8000000000000000 = true := by decide

theorem witness_FpArithmeticLaws :
    isFinite 0x7FEFFFFFFFFFFFFF = true ∧ isFinite 0x8000000000000001 = true ∧ isZero 0x8000000000000001 = false := by decide

theorem witness_ConversionStage :
    (∃ s r, State.calls s .ID r) ∧
    (∀ m : BitVec 2, let s := at_ .EX (record (.cvtLD 2 1)) { start with fcsr := m.zeroExtend 32 }
      s.calls .EX (record (.cvtLD 2 1)) ∧ s.readFcsr.toNat % 4 = m.toNat) :=
  ⟨⟨_, _, (calls_id_and_ex (.cvtLD 2 1)).1⟩, fun m => ⟨calls_at _ _ _, by revert m; decide⟩⟩

theorem witness_ConversionValues :
    isFinite 0x7FF0000000000000 = false ∧ isFinite 0x7FF7FFFFFFFFFFFF = false ∧ isFinite 0x43E0000000000000 = true ∧
    isFinite 0xC3E0000000000000 = true ∧ (|(0x20000000000000 : Word).toInt| ≤ 2 ^ 53) ∧
    (|(0xFFE0000000000000 : Word).toInt| ≤ 2 ^ 53) := by decide

theorem witness_FpMovesAndTransfers : ∃ s t r, State.calls s .ID r ∧ State.calls t .EX r :=
  ⟨_, _, _, calls_id_and_ex (.movzD 2 1 3)⟩

theorem witness_Compares :
    (∃ s t r, State.calls s .ID r ∧ State.calls t .EX r) ∧ isNaN 0x7FF7FFFFFFFFFFFF = true ∧
    isFinite 0xFFEFFFFFFFFFFFFF = true ∧ isFinite 0x8000000000000000 = true ∧ isInf 0xFFF0000000000000 = true ∧
    isInf 0x7FF0000000000000 = true :=
  ⟨⟨_, _, _, calls_id_and_ex (.cEqD 0 1 2)⟩, by decide, by decide, by decide, by decide, by decide⟩

theorem witness_FcsrControl : ∃ s t r, State.calls s .ID r ∧ State.calls t .EX r :=
  ⟨_, _, _, calls_id_and_ex (.ctc1 1)⟩

theorem witness_QuietStages :
    (∀ st : Stage, (at_ st (record .halt) start).calls st (record .halt)) ∧ (record .halt).dests = [] ∧
    ((Instr.dadd 3 1 2).branch? = none ∧ Instr.dadd 3 1 2 ≠ .halt ∧ (Instr.dadd 3 1 2).access? = none) ∧
    start.slot start.phase = none :=
  ⟨fun _ => calls_at _ _ _, rfl, by decide, rfl⟩

theorem witness_ResetValues :
    ({ start.cfg with persistPredictor := true } : CoreConfig).persistPredictor = true ∧
    start.cfg.persistPredictor = false ∧ (loaded .big).memInv :=
  ⟨rfl, rfl, by unfold State.memInv; decide⟩

/-- From reset with nothing loaded the first fetch finds no word, and its poison entry ends that run in ID; then the host loads a
program and resets, and the next step runs IF of its first word (R566, log entry 7). -/
theorem test_host_loads_then_resets :
    let s := nextOf (step (nextOf (step start)))
    s.status = .faulted (.fetchAddress 0) .ID 0 ∧ s.status.code? = some 11 ∧
    (((s.host (.loadProgram [0x60010005])).bind fun t => t.host .reset).map fun t => (nextOf (step t)).slotID) =
      some (some (record (.daddi 1 0 5))) := by decide

/-- A cell above a smaller MEM_BYTES is dropped, one below it stays (log entry 25). -/
theorem test_host_shrinks_memory :
    let s := (({ start with status := .terminated }.host (.loadCell 0 7)).bind fun t => t.host (.loadCell 16 9))
    (((s.bind fun t => t.host (.configure { t.cfg with memBytes := 16 })).bind fun t =>
      t.host (.configure { t.cfg with memBytes := 24 })).map fun t => (t.cell 0, t.cell 16, t.hostLoaded)) =
      some (7, 0, [0]) := by decide

theorem witness_HostActsOutsideRuns :
    start.status = .running ∧ ({ start with status := .terminated } : State).status ≠ .running ∧
    CoreConfig.wf { start.cfg with memBytes := 8, byteOrder := .little } ∧ ¬CoreConfig.wf { start.cfg with memBytes := 0 } ∧
    ¬CoreConfig.wf { start.cfg with memBytes := 12 } ∧ ((0 : Nat) % 8 = 0 ∧ 0 + 8 ≤ 8) ∧
    ([0] : List InstrWord) ≠ [] ∧ (({ loaded .big with status := .terminated } : State).memInv ∧
      4088 % 8 = 0 ∧ 4088 + 8 ≤ (loaded .big).cfg.memBytes) ∧
    (HostCommand.loadProgram [0] ≠ .reset ∧
      ∃ t, State.host { start with status := .terminated } (.loadProgram [0]) = some t) :=
  ⟨rfl, by decide, by decide, by decide, by decide, by decide, by decide, ⟨by unfold State.memInv; decide, by decide, by decide⟩,
    by decide, _, rfl⟩

end Sys2Proof.Tests
end

/-! # Family 10_state: what a step may change in the state, and what every step keeps -/

namespace Sys2Proof.Machine

/-! ### The scoreboard (R56) -/

/-- How many of the records in a slot, none or one, have a register among their `dests`. -/
def reserves (o : Option InFlight) (q : RegId) : Nat := o.toList.countP (fun r => r.dests.contains q)

/-- What R56 asks of the `dests` of a slot's occupant (R212, R217). -/
def SoundDests (o : Option InFlight) : Prop :=
  ∀ r, o = some r → r.dests.Nodup ∧ .gpr 0 ∉ r.dests ∧ (r.isPoison → r.dests = [])

@[simp] theorem reserves_none (q : RegId) : reserves none q = 0 := rfl

theorem reserves_of_dests_nil {o : Option InFlight} (h : ∀ r, o = some r → r.dests = []) (q : RegId) :
    reserves o q = 0 := by
  cases o with
  | none => rfl
  | some r => simp [reserves, h r rfl]

theorem soundDests_of_dests_nil {o : Option InFlight} (h : ∀ r, o = some r → r.dests = []) : SoundDests o := by
  intro r hr
  simp [h r hr]

theorem count_dests_eq_reserves {r : InFlight} (h : r.dests.Nodup) (q : RegId) :
    r.dests.count q = reserves (some r) q := by
  rw [h.count]
  simp [reserves]

/-- The reservations of a state, slot by slot. -/
theorem State.reservers_eq (s : State) (q : RegId) : s.reservers q = reserves s.slotIF q + reserves s.slotID q +
    reserves s.slotEX q + reserves s.slotMEM q + reserves s.slotWB q := by
  simp only [State.reservers, State.inFlight, List.countP_append, reserves]

theorem State.forall_mem_inFlight {s : State} {p : InFlight → Prop} : (∀ r ∈ s.inFlight, p r) ↔
    (∀ r, s.slotIF = some r → p r) ∧ (∀ r, s.slotID = some r → p r) ∧ (∀ r, s.slotEX = some r → p r) ∧
    (∀ r, s.slotMEM = some r → p r) ∧ (∀ r, s.slotWB = some r → p r) := by
  simp only [State.inFlight, List.mem_append, Option.mem_toList, or_imp, forall_and, and_assoc]

/-- Stages that keep a record's tag keep what it reserves and that its `dests` are sound. -/
theorem reserves_of_tag_eq {o p : Option InFlight} (h : o.map InFlight.tag = p.map InFlight.tag) :
    (∀ q, reserves o q = reserves p q) ∧ (SoundDests p → SoundDests o) := by
  cases o <;> cases p <;> simp only [Option.map_none, Option.map_some, reduceCtorEq, Option.some.injEq] at h
  case none.none => exact ⟨fun _ => rfl, id⟩
  case some.some r r' =>
    obtain ⟨_, hop, _, _, hd⟩ : _ = _ ∧ r.op = r'.op ∧ _ = _ ∧ _ = _ ∧ r.dests = r'.dests := by
      simpa [InFlight.tag] using h
    refine ⟨fun q => by simp [reserves, hd], fun hs x hx => ?_⟩
    cases hx
    simpa [hd, InFlight.isPoison, hop] using hs r' rfl

theorem nodup_dests (i : Instr) : i.dests.Nodup := by
  cases i <;> simp [Instr.dests]

/-- The `dests` that ID latches for an instruction are sound (R212). -/
theorem State.soundDests_latched (s : State) {r : InFlight} {i : Instr} (hi : r.op = .instr i) (o : Operands) :
    SoundDests (some (s.latched o i.dests r)) := by
  rintro _ ⟨⟩
  exact ⟨(nodup_dests i).filter _, by simp [State.latched], by simp [State.latched, InFlight.isPoison, hi]⟩

/-- ID's reservations are those of the record it latches (R212, R37). -/
theorem State.rc_acquireAll_latched (s u : State) (o : Operands) (ds : List RegId) (r : InFlight) (q : RegId)
    (h : ds.Nodup) : (s.acquireAll ds).rc q = s.rc q + reserves (some (u.latched o ds r)) q := by
  rw [State.rc_acquireAll, ← count_dests_eq_reserves (h.filter _)]
  have h0 : RegId.gpr 0 ∉ ds.filter (fun d => d != .gpr 0) := by simp
  by_cases hq : q = .gpr 0
  · subst hq; simp [State.latched, List.count_eq_zero_of_not_mem h0]
  · simp [State.latched, hq, List.count_filter]

/-- The scoreboard between step 1 and step 6 of a cycle: the WB occupant has given back its reservations, and the counts are
those of the records in ID, EX and MEM. -/
structure Booked (s : State) : Prop where
  id : SoundDests s.slotID
  ex : SoundDests s.slotEX
  mem : SoundDests s.slotMEM
  counts : ∀ q, s.rc q = reserves s.slotID q + reserves s.slotEX q + reserves s.slotMEM q

/-- Step 1 releases what the WB occupant reserves (R215). -/
theorem WbEffect.rc {s a : State} (h : WbEffect s a) (hs : SoundDests s.slotWB) (q : RegId) :
    a.rc q = s.rc q - reserves s.slotWB q := by
  rw [h.counts, State.afterWb]
  cases hw : s.slotWB with
  | none => rfl
  | some r =>
    obtain ⟨hnodup, h0, hpoison⟩ := hs r hw
    cases hp : r.isPoison with
    | true => simp [hp, reserves, hpoison hp]
    | false =>
      simp only [hp, Bool.false_eq_true, if_false, State.rc_releaseAll, State.rc_writeDests,
        count_dests_eq_reserves hnodup]
      by_cases hq : q = .gpr 0
      · subst hq; simp
      · simp [hq]

theorem WbEffect.booked {s a : State} (h : WbEffect s a) (hs : s.scoreboardInv) (hrun : s.status = .running) :
    a.slotIF = none ∧ (∀ r, a.slotID = some r → r.dests = []) ∧ Booked a := by
  obtain ⟨hif, hid, hrecs, hcounts⟩ := hs (.inl hrun)
  obtain ⟨-, sid, sex, smem, swb⟩ := State.forall_mem_inFlight.mp hrecs
  obtain ⟨-, -, -, -, -, eif, eid, eex, emem, -⟩ := h.rest
  refine ⟨eif.trans hif, by rwa [eid], ⟨by rwa [eid], by rwa [eex], by rwa [emem], fun q => ?_⟩⟩
  rw [h.rc swb, hcounts, State.reservers_eq, hif, eid, eex, emem, reserves_none]
  omega

theorem MemEffect.booked {a b : State} (h : MemEffect a b) (ha : Booked a) : Booked b := by
  obtain ⟨-, -, -, -, -, eid, eex, -⟩ := h.rest
  obtain ⟨hres, hsound⟩ := reserves_of_tag_eq h.tags
  exact ⟨by rw [eid]; exact ha.id, by rw [eex]; exact ha.ex, hsound ha.mem, fun q => by
    rw [h.rc, ha.counts, eid, eex, hres]⟩

/-- A flush of ID changes no count where the ID occupant has reserved nothing (R222). -/
theorem State.rc_flushID_of_dests_nil {s : State} (h : ∀ r, s.slotID = some r → r.dests = []) (q : RegId) :
    s.flushID.rc q = s.rc q := by
  cases hs : s.slotID with
  | none => rw [State.flushID_of_none hs]
  | some r =>
    rw [State.rc_flushID hs, h r hs]
    by_cases hq : q = .gpr 0
    · subst hq; simp
    · simp [hq]

/-- What step 3 does to the ID slot and to the counts where the ID occupant has reserved nothing. -/
theorem ExStepEffect.id_and_rc {b u c : State} (h : ExStepEffect b u c) (hid : ∀ r, b.slotID = some r → r.dests = []) :
    (c.slotID = b.slotID ∨ c.slotID = none) ∧ ∀ q, c.rc q = b.rc q := by
  have eid : u.slotID = b.slotID := by rw [h.frame]
  have erc : ∀ q, u.rc q = b.rc q := by
    intro q; apply State.rc_congr <;> rw [h.frame]
  have hu : ∀ target r, (u.setPc target).slotID = some r → r.dests = [] := by
    intro target r hr; exact hid r (eid ▸ hr)
  rcases h.reaction with ⟨-, rfl⟩ | ⟨target, -, rfl⟩ | ⟨target, -, rfl⟩ | ⟨k, -, -, rfl⟩
  · exact ⟨.inl eid, erc⟩
  · exact ⟨.inr (by simp), fun q => by simpa [State.rc_flushID_of_dests_nil (hu target)] using erc q⟩
  · exact ⟨.inr (by simp), fun q => by simpa [State.rc_flushID_of_dests_nil (hu target)] using erc q⟩
  · exact ⟨.inl eid, fun q => by simpa using erc q⟩

theorem ExStepEffect.booked {b u c : State} (h : ExStepEffect b u c) (hid : ∀ r, b.slotID = some r → r.dests = [])
    (hb : Booked b) : (∀ r, c.slotID = some r → r.dests = []) ∧ Booked c := by
  obtain ⟨hslot, hrc⟩ := h.id_and_rc hid
  obtain ⟨-, -, -, -, -, eex, emem, -⟩ := h.rest
  obtain ⟨hres, hsound⟩ := reserves_of_tag_eq h.tags
  have hid' : ∀ r, c.slotID = some r → r.dests = [] := by
    rcases hslot with e | e <;> simp [e]
    exact hid
  refine ⟨hid', soundDests_of_dests_nil hid', by rw [eex]; exact hsound hb.ex, by rw [emem]; exact hb.mem, fun q => ?_⟩
  rw [hrc, hb.counts, eex, emem, hres, reserves_of_dests_nil hid, reserves_of_dests_nil hid']

/-- Step 4 reserves what the record it latches holds; where it stalls, its occupant still holds nothing (R212, R220). -/
theorem IdEffect.booked {c d : State} (h : IdEffect c d) (hid : ∀ r, c.slotID = some r → r.dests = [])
    (hc : Booked c) : (d.outcome = .raw → ∀ r, d.slotID = some r → r.dests = []) ∧ Booked d := by
  have hread : ∀ r i, r.op = .instr i → ∀ q, ((c.enter .ID).acquireAll i.dests).rc q =
      reserves (some ((c.enter .ID).latched i.operands i.dests r)) q + reserves c.slotEX q + reserves c.slotMEM q := by
    intro r i _ q
    rw [State.rc_acquireAll_latched _ (c.enter .ID) i.operands i.dests r q (nodup_dests i), State.rc_enter,
      hc.counts, reserves_of_dests_nil hid]
    omega
  cases h with
  | bubble _ => exact ⟨fun _ => by simpa using hid, hc.id, hc.ex, hc.mem, hc.counts⟩
  | stall r i _ hi hz => exact ⟨fun _ => by simpa using hid, hc.id, hc.ex, hc.mem, hc.counts⟩
  | read r i _ hi hz hb =>
    refine ⟨by simp, ?_, by simpa using hc.ex, by simpa using hc.mem, by simpa using hread r i hi⟩
    simpa using State.soundDests_latched _ hi _
  | breaks r i _ hi hz hb =>
    refine ⟨by simp, ?_, by simpa using hc.ex, by simpa using hc.mem, by simpa using hread r i hi⟩
    simpa using State.soundDests_latched _ hi _
  | poisoned r k _ hk => exact ⟨by simp, hc.id, hc.ex, hc.mem, by simpa using hc.counts⟩

/-- A record that IF makes holds no reservation (R217). -/
theorem State.fetchRecord_dests (s : State) (pc : Word) : (s.fetchRecord pc).dests = [] := by
  unfold State.fetchRecord
  split <;> rfl

theorem IfEffect.slotIF_dests {d e : State} (h : IfEffect d e) (hif : d.slotIF = none) :
    ∀ r, e.slotIF = some r → r.dests = [] := by
  have hf : ∀ r, d.fetched.slotIF = some r → r.dests = [] := by
    rintro _ ⟨⟩; exact d.fetchRecord_dests d.pc
  cases h with
  | stalled _ => simp [hif]
  | halted _ _ => simp [hif]
  | poison _ _ k hk => exact hf
  | halt _ _ hi => exact hf
  | branch _ _ i op offset hi hb => rintro _ ⟨⟩; exact d.fetchRecord_dests d.pc
  | other _ _ i hi hb hn => exact hf

theorem IfEffect.booked {d e : State} (h : IfEffect d e) (hd : Booked d) : Booked e := by
  obtain ⟨-, -, -, eid, eex, emem, -⟩ := h.rest
  exact ⟨by rw [eid]; exact hd.id, by rw [eex]; exact hd.ex, by rw [emem]; exact hd.mem,
    fun q => by rw [h.rc, hd.counts, eid, eex, emem]⟩

/-- Steps 6 and 7 move each record on with its reservations (R219). -/
theorem Booked.endOfCycle {e : State} (h : Booked e) (hif : ∀ r, e.slotIF = some r → r.dests = [])
    (hraw : e.outcome = .raw → ∀ r, e.slotID = some r → r.dests = []) : (endOfCycle e).scoreboardInv := by
  intro _
  by_cases ho : e.outcome = .raw
  · have hid := hraw ho
    refine ⟨rfl, by simpa [Machine.endOfCycle, ho] using hid, State.forall_mem_inFlight.mpr ?_, fun q => ?_⟩
    · simpa [Machine.endOfCycle, ho] using ⟨soundDests_of_dests_nil hid, h.ex, h.mem⟩
    · rw [endOfCycle_rc, h.counts, State.reservers_eq]
      simp [Machine.endOfCycle, ho, Nat.add_assoc]
  · refine ⟨rfl, by simpa [Machine.endOfCycle, ho] using hif, State.forall_mem_inFlight.mpr ?_, fun q => ?_⟩
    · simpa [Machine.endOfCycle, ho] using ⟨soundDests_of_dests_nil hif, h.id, h.ex, h.mem⟩
    · rw [endOfCycle_rc, h.counts, State.reservers_eq]
      simp [Machine.endOfCycle, ho, reserves_of_dests_nil hif]

/-- A cycle that stops the run leaves it Faulted or Stopped; else it is a full one. -/
theorem CycleEffect.full_of_unstopped {s t : State} (h : CycleEffect s t) (ht : t.unstopped) :
    ∃ a b u c d e, WbEffect s a ∧ MemEffect a b ∧ ExStepEffect b u c ∧ IdEffect c d ∧ IfEffect d e ∧
      d.status = .running ∧ t = endOfCycle e := by
  cases h with
  | memStop a b ha hb => obtain ⟨k, pc, rfl⟩ := hb.rest; simp [State.unstopped] at ht
  | exStop a b u c ha hb hc hstop => obtain ⟨k, -, rfl⟩ := hstop; simp [State.unstopped] at ht
  | idStop a b u c d ha hb hc hrun hd hstop =>
    cases hd with
    | poisoned r k _ hk => simp only [State.unstopped, State.stop_status] at ht; split at ht <;> simp at ht
    | breaks r i _ hi hz hb => simp [State.unstopped] at ht
    | _ => exact absurd (by simpa using hrun) hstop
  | full a b u c d e ha hb hc hrun hd hrun' he => exact ⟨a, b, u, c, d, e, ha, hb, hc, hd, he, hrun', rfl⟩

/-- Settles O20: each of the seven steps of a cycle moves the reservations with the records that hold them. -/
theorem scoreboardKept : Obligations.ScoreboardKept := by
  intro s t hs hstep ht
  obtain ⟨hrun, hcycle⟩ := step_cases hstep
  obtain ⟨a, b, u, c, d, e, ha, hb, hc, hd, he, -, rfl⟩ := hcycle.full_of_unstopped ht
  obtain ⟨aIF, aDests, aBooked⟩ := ha.booked hs hrun
  obtain ⟨-, -, -, -, bIF, bID, -⟩ := hb.rest
  obtain ⟨-, -, -, -, cIF, -⟩ := hc.rest
  obtain ⟨-, -, -, -, -, dIF, -⟩ := hd.rest
  obtain ⟨-, -, -, eID, -⟩ := he.rest
  obtain ⟨cDests, cBooked⟩ := hc.booked (by rwa [bID]) (hb.booked aBooked)
  obtain ⟨dDests, dBooked⟩ := hd.booked cDests cBooked
  have hif : d.slotIF = none := by rw [dIF, cIF, bIF, aIF]
  exact (he.booked dBooked).endOfCycle (he.slotIF_dests hif) (by rwa [he.outcome, eID]) ht

/-! ### The trace (R55, R532) -/

/-- Step 2 appends at most the data event of the MEM occupant (R531). -/
theorem MemEffect.trace_append {a b : State} (h : MemEffect a b) : ∃ d : List TraceEvent, b.trace = a.trace ++ d ∧
    (d = [] ∨ ∃ r i n, a.slotMEM = some r ∧ r.op = .instr i ∧ i.access? = some n ∧ d = [.dataAccess r.ea n]) := by
  rcases h.access with ⟨-, ht⟩ | ⟨r, i, n, hr, hi, hn, -, ht, -⟩
  · exact ⟨[], by simp [ht], .inl rfl⟩
  · exact ⟨_, ht, .inr ⟨r, i, n, hr, hi, hn, rfl⟩⟩

/-- Step 5 appends at most the fetch event of the address it fetched from (R530). -/
theorem IfEffect.trace_append {d e : State} (h : IfEffect d e) : ∃ f : List TraceEvent, e.trace = d.trace ++ f ∧
    (f = [] ∨ f = [.fetch e.lastFetchedPC]) := by
  cases h with
  | stalled _ => exact ⟨[], by simp, .inl rfl⟩
  | halted _ _ => exact ⟨[], by simp, .inl rfl⟩
  | poison _ _ k hk => exact ⟨_, rfl, .inr rfl⟩
  | halt _ _ hi => exact ⟨_, rfl, .inr rfl⟩
  | branch _ _ i op offset hi hb => exact ⟨_, rfl, .inr rfl⟩
  | other _ _ i hi hb hn => exact ⟨_, rfl, .inr rfl⟩

/-- Settles O15: only MEM and, after it, IF append to the trace. -/
theorem traceGrowsInOrder : Obligations.TraceGrowsInOrder := by
  intro s t hstep
  obtain ⟨-, hcycle⟩ := step_cases hstep
  have data : ∀ a b, WbEffect s a → MemEffect a b → ∃ d : List TraceEvent, b.trace = s.trace ++ d ∧ (d = [] ∨
      ∃ r i n, s.slotMEM = some r ∧ r.op = .instr i ∧ i.access? = some n ∧ d = [.dataAccess r.ea n]) := by
    intro a b ha hb
    obtain ⟨-, -, -, -, -, -, -, -, emem, -, -, -, -, -, -, etrace⟩ := ha.rest
    rw [← etrace, ← emem]
    exact hb.trace_append
  cases hcycle with
  | memStop a b ha hb =>
    obtain ⟨k, pc, rfl⟩ := hb.rest
    exact ⟨[], [], by rw [ha.frame]; simp, .inl rfl, .inl rfl⟩
  | exStop a b u c ha hb hc hstop =>
    obtain ⟨d, ht, hd⟩ := data a b ha hb
    obtain ⟨-, -, -, -, -, -, -, -, -, -, etrace⟩ := hc.rest
    exact ⟨d, [], by simp [etrace, ht], hd, .inl rfl⟩
  | idStop a b u c x ha hb hc hrun hx hstop =>
    obtain ⟨d, ht, hd⟩ := data a b ha hb
    obtain ⟨-, -, -, -, -, -, -, -, -, -, ctrace⟩ := hc.rest
    obtain ⟨-, -, -, -, -, -, -, -, -, -, -, -, xtrace⟩ := hx.rest
    exact ⟨d, [], by simp [xtrace, ctrace, ht], hd, .inl rfl⟩
  | full a b u c x e ha hb hc hrun hx hrun' he =>
    obtain ⟨d, ht, hd⟩ := data a b ha hb
    obtain ⟨-, -, -, -, -, -, -, -, -, -, ctrace⟩ := hc.rest
    obtain ⟨-, -, -, -, -, -, -, -, -, -, -, -, xtrace⟩ := hx.rest
    obtain ⟨f, hf, hfetch⟩ := he.trace_append
    exact ⟨d, f, by rw [← ht, ← ctrace, ← xtrace, ← hf]; simp [endOfCycle], hd, by simpa [endOfCycle] using hfetch⟩

/-! ### Registers (R32, R34) -/

/-- After a step every register reads as step 1 left it. -/
theorem step_readReg {s t : State} (h : step s = .next t) (q : RegId) : t.readReg q = s.afterWb.readReg q := by
  obtain ⟨-, hcycle⟩ := step_cases h
  cases hcycle with
  | memStop a b ha hb => obtain ⟨k, pc, rfl⟩ := hb.rest; rw [State.readReg_stop, ha.regs]
  | exStop a b u c ha hb hc hstop => rw [hc.readReg, hb.readReg, ha.regs]
  | idStop a b u c d ha hb hc hrun hd hstop => rw [hd.readReg, hc.readReg, hb.readReg, ha.regs]
  | full a b u c d e ha hb hc hrun hd hrun' he =>
    rw [endOfCycle_readReg, he.readReg, hd.readReg, hc.readReg, hb.readReg, ha.regs]

/-- Settles O16: the register writes of a cycle are those of the WB occupant. -/
theorem registersChangeOnlyInWriteBack : Obligations.RegistersChangeOnlyInWriteBack := by
  intro s t hstep q
  rw [step_readReg hstep, State.afterWb]
  cases s.slotWB with
  | none => rfl
  | some r =>
    cases hp : r.isPoison with
    | true => simp [hp]
    | false => simp [hp, State.readReg_writeDests, wbValue]

/-! ### The FCSR (R42 to R47) -/

/-- What EX does to the FCSR depends on the FCSR alone. -/
theorem ExFcsr.congr {i : Instr} {b u s t : State} (h : ExFcsr i b u) (hs : b.fcsr = s.fcsr) (ht : t.fcsr = u.fcsr) :
    ExFcsr i s t := by
  have hread : b.readFcsr = s.readFcsr := by rw [State.readFcsr, hs, State.readFcsr]
  cases h with
  | arith hi out hsig hu => exact .arith hi out (hread ▸ hsig) (ht.trans hu)
  | compare hi cc v hu => exact .compare hi cc v (hread ▸ ht.trans hu)
  | control hi v hu => exact .control hi v (ht.trans hu)
  | other h1 h2 h3 hu => exact .other h1 h2 h3 (ht.trans (hu.trans hs))

/-- A step leaves the FCSR and PT as they are, or as the EX of the EX occupant leaves them, called with the FCSR, the PT and the
configuration that the cycle began with. -/
theorem step_ex_occupant {s t : State} (h : step s = .next t) : (t.fcsr = s.fcsr ∧ t.pt = s.pt) ∨
    ∃ (r : InFlight) (i : Instr) (b u : State), s.slotEX = some r ∧ r.op = .instr i ∧ b.phase = .EX ∧ b.slotEX = some r ∧
      b.fcsr = s.fcsr ∧ b.pt = s.pt ∧ b.cfg = s.cfg ∧ exec i b = .next u ∧ t.fcsr = u.fcsr ∧ t.pt = u.pt := by
  rcases step_ex h with hsame | ⟨b, u, hbf, hbp, hbx, hbc, htf, htp, hcall, hidle⟩
  · exact .inl hsame
  · by_cases hocc : ∃ r i, s.slotEX = some r ∧ r.op = .instr i
    · obtain ⟨r, i, hr, hi⟩ := hocc
      exact .inr ⟨r, i, b.enter .EX, u, hr, hi, rfl, hbx.trans hr, hbf, hbp, hbc, hcall r i hr hi, htf, htp⟩
    · have hu := hidle fun r i hr hi => hocc ⟨r, i, hr, hi⟩
      exact .inl (by simp [htf, htp, hu, hbf, hbp])

/-- A step leaves the FCSR as it is, or does to it what the EX of the EX occupant does. -/
theorem step_fcsr {s t : State} (h : step s = .next t) :
    t.fcsr = s.fcsr ∨ ∃ r i, s.slotEX = some r ∧ r.op = .instr i ∧ ExFcsr i s t := by
  rcases step_ex_occupant h with ⟨hf, -⟩ | ⟨r, i, b, u, hr, hi, hphase, hslot, hbf, -, -, hexec, htf, -⟩
  · exact .inl hf
  · exact .inr ⟨r, i, hr, hi, (exec_ex_fcsr i hphase hslot hexec).congr hbf htf⟩

/-- The FCSR as read after a pattern was stored masked (R42). -/
theorem State.getLsbD_readFcsr_of_masked {t : State} {v : BitVec 32} (h : t.fcsr = v &&& fcsrMask) (n : Nat) :
    t.readFcsr.getLsbD n = if n = 24 ∨ (17 ≤ n ∧ n ≤ 22) then false else v.getLsbD n := by
  rw [← State.getLsbD_readFcsr_writeFcsr t, State.readFcsr, State.readFcsr, State.writeFcsr_fcsr, h]

/-- EX of FP arithmetic keeps every bit but cause and flag bits, and clears no flag (R44, R165). -/
theorem ExFcsr.arith_keeps {s t : State} {out : FpOut} (h : Signals (clearCause s.readFcsr) out)
    (ht : t.fcsr = out.fcsr &&& fcsrMask) {n : Nat} (hn : n < 32) (hcause : ¬(12 ≤ n ∧ n ≤ 16)) :
    (s.readFcsr.getLsbD n = true → t.readFcsr.getLsbD n = true) ∧
    (¬(2 ≤ n ∧ n ≤ 6) → t.readFcsr.getLsbD n = s.readFcsr.getLsbD n) := by
  obtain ⟨hset, hsame⟩ := h.keeps hn
  rw [getLsbD_clearCause, if_neg hcause] at hset hsame
  rw [State.getLsbD_readFcsr_of_masked ht]
  by_cases hw : n = 24 ∨ (17 ≤ n ∧ n ≤ 22)
  · simp [State.getLsbD_readFcsr, hw]
  · rw [if_neg hw]
    exact ⟨hset, fun hflag => hsame (by omega) (by omega)⟩

/-- EX of a compare keeps every bit but one FCC bit (R47). -/
theorem ExFcsr.compare_keeps {s t : State} {cc : CcNum} {b : Bool} (ht : t.fcsr = setFcc s.readFcsr cc b &&& fcsrMask)
    {n : Nat} (hn : n < 23) : t.readFcsr.getLsbD n = s.readFcsr.getLsbD n := by
  have hne : n ≠ fccBit cc := by have := (fccBit_facts cc).1; omega
  rw [State.getLsbD_readFcsr_of_masked ht, setFcc, getLsbD_putBit _ _ _ (by omega), if_neg hne, State.getLsbD_readFcsr]
  split <;> rfl

/-- Settles O17, by the kinds of EX that write the FCSR: FP arithmetic, compares and CTC1. -/
theorem fcsrChangesOnlyInEx : Obligations.FcsrChangesOnlyInEx := by
  intro s t hstep
  have same : t.fcsr = s.fcsr → t.readFcsr = s.readFcsr := fun h => by rw [State.readFcsr, h, State.readFcsr]
  rcases step_fcsr hstep with hf | ⟨r, i, hr, hi, hfx⟩
  · simp [same hf]
  cases hfx with
  | arith ha out hsig ht =>
    refine ⟨fun h => ?_, fun _ => ⟨fun n h2 h6 => ?_, fun n hn => ?_⟩, fun h => ?_, fun _ cc => ?_⟩
    · simp [h r i hr hi] at ha
    · exact (ExFcsr.arith_keeps hsig ht (by omega) (by omega)).1
    · exact (ExFcsr.arith_keeps hsig ht (by omega) (by omega)).2 (by omega)
    · simp [h r i hr hi] at ha
    · obtain ⟨h23, h32, -⟩ := fccBit_facts cc
      exact (ExFcsr.arith_keeps hsig ht h32 (by omega)).2 (by omega)
  | compare hc cc b ht =>
    have low : ∀ n, n < 23 → t.readFcsr.getLsbD n = s.readFcsr.getLsbD n := fun n hn => ExFcsr.compare_keeps ht hn
    refine ⟨fun _ n _ h16 => low n (by omega), fun _ => ⟨fun n _ h6 hset => ?_, fun n hn => low n (by omega)⟩,
      fun _ n _ h6 => low n (by omega), fun h => ?_⟩
    · rw [low n (by omega), hset]
    · simp [h r i hr hi] at hc
  | control hc v ht =>
    refine ⟨fun h => ?_, fun h => ?_, fun h => ?_, fun h => ?_⟩ <;> simp [h r i hr hi] at hc
  | other _ _ _ ht => simp [same ht]

/-! ### Data that keeps its form (R42, R50, R80) -/

theorem predIndex_lt (cfg : CoreConfig) (op : BranchOp) (pc : Word) : predIndex cfg op pc < 4096 := by
  unfold predIndex
  split
  · exact (pc.extractLsb' 2 12).isLt
  · exact (Config.suppliedPredIndex op pc).isLt

theorem State.trainPredictor_ptInv {s : State} (h : s.ptInv) (op : BranchOp) (pc : Word) (taken : Bool) :
    (s.trainPredictor op pc taken).ptInv := by
  unfold State.trainPredictor
  split
  · exact PredTable.write_wf h (predIndex_lt _ _ _) _
  · exact h

/-- An access that passes the checks is aligned and in range (R87, R88). -/
theorem State.accessible_of_accessFault {s : State} {ea : Word} {n : Nat} (h : s.accessFault ea n = none) :
    s.accessible ea n := by
  unfold State.accessFault at h
  split at h
  · cases h
  · split at h
    · cases h
    · exact ⟨by omega, by omega⟩

/-- The one write of data memory in a step is a store within range (R81, R88). -/
theorem step_memInv {s t : State} (h : step s = .next t) (hs : s.memInv) : t.memInv := by
  obtain ⟨hcfg, hwf, hbound, hloaded⟩ := hs
  have hk := step_keeps h
  rcases step_mem h with hm | ⟨r, i, n, -, -, -, -, hfault, hm⟩
  · exact ⟨by rw [hk.cfg]; exact hcfg, by rw [hm]; exact hwf, by rw [hm, hk.cfg]; exact hbound,
      by rw [hk.cfg, hk.hostLoaded]; exact hloaded⟩
  · obtain ⟨-, hrange⟩ := State.accessible_of_accessFault hfault
    exact ⟨by rw [hk.cfg]; exact hcfg, by rw [hm]; exact Memory.store_wf hwf _ _ _ _,
      by rw [hm, hk.cfg]; exact Memory.store_bound hbound _ _ _ _ hrange hcfg.1,
      by rw [hk.cfg, hk.hostLoaded]; exact hloaded⟩

/-- The one write of PT in a step is at an index that EX of a branch computes (R261, R264). -/
theorem step_ptInv {s t : State} (h : step s = .next t) (hs : s.ptInv) : t.ptInv := by
  rcases step_ex_occupant h with ⟨-, hpt⟩ | ⟨r, i, b, u, -, -, hphase, hslot, -, hbp, -, hexec, -, htp⟩
  · rwa [State.ptInv, hpt]
  · have hb : b.ptInv := by rwa [State.ptInv, hbp]
    rw [State.ptInv, htp]
    rcases exec_ex_pt i hphase hslot hexec with ⟨-, hu⟩ | ⟨op, offset, taken, -, hu⟩
    · rw [hu]; exact hb
    · rw [hu]; exact State.trainPredictor_ptInv hb op r.fetchedPC taken

theorem State.fcsrInv_of_masked {t : State} {v : BitVec 32} (h : t.fcsr = v &&& fcsrMask) : t.fcsrInv := by
  rw [State.fcsrInv, h, BitVec.and_assoc, BitVec.and_not_self]
  exact BitVec.and_zero

/-- Every write of the FCSR in a step is masked (R42). -/
theorem step_fcsrInv {s t : State} (h : step s = .next t) (hs : s.fcsrInv) : t.fcsrInv := by
  rcases step_fcsr h with hf | ⟨r, i, -, -, hfx⟩
  · rwa [State.fcsrInv, hf]
  cases hfx with
  | arith _ out _ ht => exact State.fcsrInv_of_masked ht
  | compare _ cc b ht => exact State.fcsrInv_of_masked ht
  | control _ v ht => exact State.fcsrInv_of_masked ht
  | other _ _ _ ht => rwa [State.fcsrInv, ht]

/-- Settles O22, from what a step may write to data memory, PT and the FCSR. -/
theorem dataFormsKept : Obligations.DataFormsKept := fun _ _ h => ⟨step_memInv h, step_ptInv h, step_fcsrInv h⟩

/-! ### Normal termination (R225, R580) -/

/-- An MEM slot that step 2 leaves empty was empty, and nothing was traced. -/
theorem MemEffect.bubble {a b : State} (h : MemEffect a b) (hb : b.slotMEM = none) :
    a.slotMEM = none ∧ b.trace = a.trace := by
  have ha : a.slotMEM = none := by simpa [hb, eq_comm] using h.tags
  rcases h.access with ⟨-, ht⟩ | ⟨r, i, n, hr, -⟩
  · exact ⟨ha, ht⟩
  · rw [ha] at hr; cases hr

/-- An EX slot that step 3 leaves empty was empty, and nothing was done. -/
theorem ExStepEffect.bubble {b u c : State} (h : ExStepEffect b u c) (hc : c.slotEX = none) :
    b.slotEX = none ∧ c = b.enter .EX := by
  obtain ⟨-, -, -, -, -, eex, -⟩ := h.rest
  have hb : b.slotEX = none := by simpa [← eex, hc, eq_comm] using h.tags
  obtain rfl : u = b.enter .EX := h.called.2 (by simp [hb])
  refine ⟨hb, ?_⟩
  rcases h.reaction with ⟨-, ht⟩ | ⟨_, ho, -⟩ | ⟨_, ho, -⟩ | ⟨_, -, ho, -⟩
  · exact ht
  all_goals cases ho

/-- An ID slot that step 4 leaves empty was empty, and nothing was done. -/
theorem IdEffect.bubble_of_slotID {c d : State} (h : IdEffect c d) (hd : d.slotID = none) :
    c.slotID = none ∧ d = c.enter .ID := by
  cases h with
  | bubble hc => exact ⟨hc, rfl⟩
  | stall r i hc hi hz => simp [hc] at hd
  | read r i hc hi hz hb => simp at hd
  | breaks r i hc hi hz hb => simp at hd
  | poisoned r k hc hk => simp [hc] at hd

/-- Where step 5 leaves IF's slot empty it has fetched nothing. -/
theorem IfEffect.eq_of_slotIF {d e : State} (h : IfEffect d e) (he : e.slotIF = none) : e = d := by
  cases h with
  | stalled _ => rfl
  | halted _ _ => rfl
  | poison _ _ k hk => cases he
  | halt _ _ hi => cases he
  | branch _ _ i op offset hi hb => cases he
  | other _ _ i hi hb hn => cases he

/-- What steps 6 and 7 find where they terminate the run (R225). -/
theorem endOfCycle_terminated {e : State} (hrun : e.status = .running) (h : (endOfCycle e).status = .terminated) :
    e.haltFetched = true ∧ e.slotID = none ∧ e.slotEX = none ∧ e.slotMEM = none ∧
    (e.outcome ≠ .raw → e.slotIF = none) ∧ (endOfCycle e).inFlight = [] := by
  by_cases ho : e.outcome = .raw <;>
    simp_all [endOfCycle, State.drained, State.inFlight, and_assoc]

/-- The cycle that terminates a run: HALT was fetched before, ID, EX and MEM were empty, and so nothing is traced, no stall is
counted, and no record is left (R225). -/
theorem step_terminates {s t : State} (h : step s = .next t) (ht : t.status = .terminated) :
    s.haltFetched = true ∧ s.slotID = none ∧ s.slotEX = none ∧ s.slotMEM = none ∧ t.inFlight = [] ∧
    t.cycles = s.cycles + 1 ∧ t.rawStalls = s.rawStalls ∧ t.trace = s.trace := by
  obtain ⟨-, hcycle⟩ := step_cases h
  obtain ⟨a, b, u, c, d, e, ha, hb, hc, hd, he, hrun, rfl⟩ := hcycle.full_of_unstopped (.inr ht)
  obtain ⟨hhalt, eID, eEX, eMEM, eIF, hnone⟩ := endOfCycle_terminated (he.status.trans hrun) ht
  obtain ⟨-, -, -, deID, deEX, deMEM, -⟩ := he.rest
  obtain ⟨cID, rfl⟩ := hd.bubble_of_slotID (deID.symm.trans eID)
  obtain rfl := he.eq_of_slotIF (eIF (by rw [Ne, he.outcome]; simp))
  obtain ⟨bEX, rfl⟩ := hc.bubble eEX
  obtain ⟨aMEM, btrace⟩ := hb.bubble eMEM
  obtain ⟨-, -, -, -, -, bID, abEX, -, -, bhalt, bcycles, -, bstalls, -⟩ := hb.rest
  obtain ⟨-, -, -, -, -, -, aID, aEX, saMEM, -, -, ahalt, acycles, astalls, -, atrace⟩ := ha.rest
  refine ⟨?_, ?_, ?_, ?_, hnone, ?_, ?_, ?_⟩
  · rw [← ahalt, ← bhalt]; exact hhalt
  · rw [← aID, ← bID]; exact cID
  · rw [← aEX, ← abEX]; exact bEX
  · rw [← saMEM]; exact aMEM
  · rw [← acycles, ← bcycles]; rfl
  · rw [← astalls, ← bstalls]; rfl
  · rw [← atrace, ← btrace]; rfl

@[simp] theorem holdsHalt_none : holdsHalt none = false := rfl

/-- With HALT fetched and only WB occupied, HALT is in WB, three cycles after its fetch (R224, R580). -/
theorem State.haltInv.drainCycles_eq_three {s : State} (h : s.haltInv) (hrun : s.status = .running)
    (hhalt : s.haltFetched = true) (hid : s.slotID = none) (hex : s.slotEX = none) (hmem : s.slotMEM = none) :
    s.drainCycles = 3 := by
  have hwb : holdsHalt s.slotWB = true := by
    simpa [State.haltInv, hrun, hhalt, hid, hex, hmem] using h.2
  simp [State.drainCycles, hhalt, hid, hex, hmem, hwb]

/-- Settles O23: the scoreboard invariant with no record in flight, and the cycle account with HALT in WB. -/
theorem terminationAccount : Obligations.TerminationAccount := by
  intro s t hs hacc hstep ht
  obtain ⟨hhalt, hid, hex, hmem, hnone, hcycles, hstalls, htrace⟩ := step_terminates hstep ht
  obtain ⟨hrun, -⟩ := step_cases hstep
  constructor
  · obtain ⟨-, -, -, hcounts⟩ := scoreboardKept s t hs hstep (.inr ht)
    intro q
    rw [hcounts, State.reservers, hnone, List.countP_nil]
  · obtain ⟨hinv, haccount⟩ := hacc (.inl hrun)
    have hdrain := hinv.drainCycles_eq_three hrun hhalt hid hex hmem
    rw [hcycles, hstalls, State.fetchCount, htrace, haccount, hdrain]
    rfl

/-! ### Reservations in ID (R36 to R39, R212) -/

theorem State.rawHazard_eq_false {s : State} {srcs : List RegId} :
    s.rawHazard srcs = false ↔ ∀ q ∈ srcs, s.rc q = 0 := by
  simp [State.rawHazard]

/-- ID where no source is reserved: the destinations are acquired and the record latched (R212). -/
theorem idStage_free {o : Operands} {ds : List RegId} {own : StageOutcome} {r : InFlight} {s : State}
    (h : ∀ q ∈ o.srcs, s.rc q = 0) :
    idStage o ds own r s = ((s.acquireAll ds).setSlot .ID (some (s.latched o ds r))).done own := by
  rw [idStage, State.rawHazard_eq_false.mpr h, if_neg (by decide)]

/-- ID where a source is reserved: RAW and nothing else (R212, R220). -/
theorem idStage_hazard {o : Operands} {ds : List RegId} {own : StageOutcome} {r : InFlight} {s : State} {q : RegId}
    (hq : q ∈ o.srcs) (h : s.rc q ≠ 0) : idStage o ds own r s = s.done .raw := by
  have hz : s.rawHazard o.srcs = true := by
    rw [← Bool.not_eq_false, State.rawHazard_eq_false]
    exact fun h0 => h (h0 q hq)
  rw [idStage, hz, if_pos rfl]

/-- ID of an instruction with no source reserved: its destinations are counted and latched, no register changes (R212, R37). -/
theorem exec_id_free (i : Instr) {s : State} {r : InFlight} (hp : s.phase = .ID) (hs : s.slotID = some r)
    (hz : ∀ q ∈ i.operands.srcs, s.rc q = 0) : ∃ t, exec i s = .next t ∧ t.outcome = i.idOutcome ∧
      (∃ r', t.slotID = some r' ∧ r'.dests = i.dests.filter (fun d => d != .gpr 0)) ∧
      (∀ q, t.rc q = (s.acquireAll i.dests).rc q) ∧ ∀ q, t.readReg q = s.readReg q :=
  ⟨_, (exec_id i hp hs).trans (congrArg _ (idStage_free hz)), by simp,
    ⟨s.latched i.operands i.dests r, by simp, rfl⟩, by simp, by simp⟩

/-- Settles O27, from the counts after `acquireAll` of a list that names no register twice. -/
theorem reservationsAcquired : Obligations.ReservationsAcquired := by
  refine ⟨fun i s r ⟨hp, hs⟩ hz => ?_, fun i s r q ⟨hp, hs⟩ hq h => ?_, fun s => ⟨rfl, rfl⟩⟩
  · obtain ⟨t, ht, hout, -, hrc, -⟩ := exec_id_free i hp hs hz
    refine ⟨t, ht, hout, fun q => ?_⟩
    rw [hrc, State.rc_acquireAll, (nodup_dests i).count]
    by_cases h0 : q = .gpr 0
    · subst h0; simp
    · simp [h0]
  · exact (exec_id i hp hs).trans (congrArg _ (idStage_hazard hq h))

/-! ### One instruction from ID to WB (R56 item 3) -/

/-- What EX and MEM of every instruction leave: the registers, the counts, and the `dests` of its own record. -/
structure LeavesRegisters (st : Stage) (r : InFlight) (s t : State) : Prop where
  regs : ∀ q, t.readReg q = s.readReg q
  counts : ∀ q, t.rc q = s.rc q
  dests : ∃ r', t.slot st = some r' ∧ r'.dests = r.dests

theorem exec_ex_leavesRegisters (i : Instr) {s : State} {r : InFlight} (hp : s.phase = .EX) (hs : s.slotEX = some r) :
    ∃ t, exec i s = .next t ∧ LeavesRegisters .EX r s t := by
  obtain ⟨t, ht, heff⟩ := exec_ex i hp hs
  obtain ⟨v, h, w, x, hr⟩ := heff.record
  refine ⟨t, ht, fun q => ?_, fun q => ?_, _, hr, rfl⟩
  · apply State.readReg_congr <;> rw [heff.frame]
  · apply State.rc_congr <;> rw [heff.frame]

theorem memLoad_leavesRegisters (n : Nat) (ext : Word → Word) {s : State} {r : InFlight} (hs : s.slotMEM = some r) :
    LeavesRegisters .MEM r s (memLoad n ext r s) := by
  unfold memLoad
  split
  · exact ⟨fun q => by simp, fun q => by simp, r, hs, rfl⟩
  · exact ⟨fun q => by apply State.readReg_congr <;> rfl, fun q => by apply State.rc_congr <;> rfl, _, rfl, rfl⟩

theorem memStore_leavesRegisters (n : Nat) {s : State} {r : InFlight} (hs : s.slotMEM = some r) :
    LeavesRegisters .MEM r s (memStore n r s) := by
  unfold memStore
  split
  · exact ⟨fun q => by simp, fun q => by simp, r, hs, rfl⟩
  · exact ⟨fun q => by apply State.readReg_congr <;> rfl, fun q => by apply State.rc_congr <;> rfl, r, hs, rfl⟩

theorem exec_mem_leavesRegisters (i : Instr) {s : State} {r : InFlight} (hp : s.phase = .MEM)
    (hs : s.slotMEM = some r) : ∃ t, exec i s = .next t ∧ LeavesRegisters .MEM r s t := by
  cases ha : i.access? with
  | none => exact ⟨_, exec_mem_other i hp hs ha, fun q => by simp, fun q => by simp, r, hs, rfl⟩
  | some n =>
    cases hi : i.isStore with
    | true => exact ⟨_, exec_mem_store i hp hs ha hi, memStore_leavesRegisters n hs⟩
    | false =>
      obtain ⟨ext, ht⟩ := exec_mem_load i hp hs ha hi
      exact ⟨_, ht, memLoad_leavesRegisters n ext hs⟩

/-- A release undoes an acquire of the same list, whether or not the list names GPR 0, which has no count (R37, R38). -/
theorem State.rc_releaseAll_acquireAll {s t u : State} {ds : List RegId} (hu : ∀ q, u.rc q = (s.acquireAll ds).rc q)
    (ht : ∀ q, t.rc q = (u.releaseAll (ds.filter fun d => d != .gpr 0)).rc q) (q : RegId) : t.rc q = s.rc q := by
  rw [ht, State.rc_releaseAll, hu, State.rc_acquireAll]
  by_cases h0 : q = .gpr 0
  · subst h0; simp
  · simp [h0, List.count_filter]

/-- Settles O29: EX and MEM leave the registers, the counts and the record's `dests`, so WB writes and releases what ID
reserved. -/
theorem instructionReleasesWhatItReserves : Obligations.InstructionReleasesWhatItReserves := by
  intro i s pc hz
  generalize newRecord pc (encode i) (.instr i) = r
  obtain ⟨s1, h1, -, ⟨r1, hr1, hd1⟩, hrc1, hreg1⟩ :=
    exec_id_free i (s := (s.setSlot .ID (some r)).enter .ID) rfl rfl (by simpa using hz)
  obtain ⟨s2, h2, hreg2, hrc2, r2, hr2, hd2⟩ :=
    exec_ex_leavesRegisters i (s := (s1.advance false).enter .EX) rfl hr1
  obtain ⟨s3, h3, hreg3, hrc3, r3, hr3, hd3⟩ :=
    exec_mem_leavesRegisters i (s := (s2.advance false).enter .MEM) rfl hr2
  have h4 := exec_wb i (s := (s3.advance false).enter .WB) rfl hr3
  have hdests : r3.dests = i.dests.filter (fun d => d != .gpr 0) := by rw [hd3, hd2, hd1]
  have hrun : runAlone i r s = .next (wbStage r3 ((s3.advance false).enter .WB)) := by
    simp only [runAlone, andThen, h1, h2, h3, h4]
  refine ⟨_, hrun, fun q => ?_, fun q hq => ?_, rfl⟩
  · refine State.rc_releaseAll_acquireAll (u := s3) (ds := i.dests) (fun q => ?_) (fun q => ?_) q
    · simp [hrc3, hrc2, hrc1, State.rc_acquireAll]
    · simp [wbStage, hdests, State.rc_releaseAll]
  · have hq3 : q ∉ r3.dests := by simp [hdests, hq]
    simp [wbStage, State.readReg_writeDests, hq3, hreg3, hreg2, hreg1]

/-! ### FCSR control (R42, R470, R471) -/

/-- ID as the statements write it out (R212). -/
theorem idStage_eq_afterID (o : Operands) (ds : List RegId) (own : StageOutcome) (r : InFlight) (s : State) :
    idStage o ds own r s = s.afterID r o ds own := rfl

/-- The low 32 bits of a register, stored masked, bit by bit (R470). -/
theorem getLsbD_low32_and_fcsrMask (v : Word) (n : Nat) : (low32 v &&& fcsrMask).getLsbD n =
    if n = 24 ∨ (17 ≤ n ∧ n ≤ 22) ∨ 32 ≤ n then false else v.getLsbD n := by
  rw [BitVec.getLsbD_and, getLsbD_fcsrMask, low32, BitVec.getLsbD_extractLsb']
  by_cases h32 : n < 32
  · by_cases hw : n = 24 ∨ (17 ≤ n ∧ n ≤ 22)
    · simp [hw, or_assoc.symm]
    · simp [h32, hw, or_assoc.symm]
  · simp [h32, Nat.not_lt.mp h32]

/-- Settles O57, from the stage functions of CTC1 and CFC1. -/
theorem fcsrControl : Obligations.FcsrControl := by
  intro s r rt
  refine ⟨fun ⟨hp, hs⟩ => ?_, fun ⟨hp, hs⟩ => ?_, fun n hn => ?_⟩
  · exact ⟨(exec_id _ hp hs).trans (congrArg _ (idStage_eq_afterID _ _ _ _ _)),
      (exec_id _ hp hs).trans (congrArg _ (idStage_eq_afterID _ _ _ _ _))⟩
  · exact ⟨⟨_, runStages_ex hp hs, getLsbD_low32_and_fcsrMask r.c⟩, runStages_ex hp hs⟩
  · rw [State.getLsbD_readFcsr, if_pos hn]

end Sys2Proof.Machine

/-! # Family 20_memory: fetches, the checks of an access, cells and bytes, and the host's port -/

namespace Sys2Proof

/-! ### Byte images (R94) -/

@[simp] theorem length_bytesOfWord (w : InstrWord) : (bytesOfWord w).length = 4 := rfl

theorem wordOfBytes_toNat (b0 b1 b2 b3 : Byte) : (wordOfBytes b0 b1 b2 b3).toNat =
    b0.toNat * 2 ^ 24 + b1.toNat * 2 ^ 16 + b2.toNat * 2 ^ 8 + b3.toNat := by
  simp only [wordOfBytes, BitVec.toNat_append]
  rw [← Nat.shiftLeft_add_eq_or_of_lt b1.isLt, ← Nat.shiftLeft_add_eq_or_of_lt b2.isLt,
    ← Nat.shiftLeft_add_eq_or_of_lt b3.isLt]
  simp only [Nat.shiftLeft_eq]
  omega

/-- The bytes of a word, put together, are the word (R94). -/
@[simp] theorem wordOfBytes_extractLsb' (w : InstrWord) :
    wordOfBytes (w.extractLsb' 24 8) (w.extractLsb' 16 8) (w.extractLsb' 8 8) (w.extractLsb' 0 8) = w := by
  have h := w.isLt
  apply BitVec.eq_of_toNat_eq
  simp only [wordOfBytes_toNat, BitVec.extractLsb'_toNat, Nat.shiftRight_eq_div_pow]
  omega

theorem decodeBytes_bytesOfWord_append (w : InstrWord) (rest : List Byte) :
    decodeBytes (bytesOfWord w ++ rest) = (decode w, rest) := by
  simp [bytesOfWord, decodeBytes]

theorem wordsOfBytes_bytesOfWord_append (w : InstrWord) (rest : List Byte) :
    wordsOfBytes (bytesOfWord w ++ rest) = w :: wordsOfBytes rest := by
  simp [bytesOfWord, wordsOfBytes]

/-- A program's byte image holds the program. -/
theorem wordsOfBytes_flatMap_bytesOfWord (ws : List InstrWord) : wordsOfBytes (ws.flatMap bytesOfWord) = ws := by
  induction ws with
  | nil => rfl
  | cons w ws ih => rw [List.flatMap_cons, wordsOfBytes_bytesOfWord_append, ih]

/-- Settles O5, by induction on the words of an image. -/
theorem byteImagesAreBigEndian : Obligations.ByteImagesAreBigEndian := by
  refine ⟨fun w j hj => ?_, wordsOfBytes_flatMap_bytesOfWord, decodeBytes_bytesOfWord_append⟩
  interval_cases j <;> rfl

end Sys2Proof

namespace Sys2Proof.Machine

/-! ### Fetch (R95, R217) -/

section
variable {s : State} {pc : Word}

theorem State.fetchAt_misaligned (h : pc.toNat % 4 ≠ 0) : s.fetchAt pc = .misaligned := by
  rw [State.fetchAt, if_pos h]

theorem State.fetchAt_noWord (h : pc.toNat % 4 = 0) (hlen : s.im.length ≤ pc.toNat / 4) :
    s.fetchAt pc = .noWord := by
  simp [State.fetchAt, h, codeBase, List.getElem?_eq_none hlen]

/-- CODE_BASE is 0, so an aligned fetch reads entry pc / 4 of the program (R93). -/
theorem State.fetchAt_word {w : InstrWord} (h : pc.toNat % 4 = 0) (hw : s.im[pc.toNat / 4]? = some w) :
    s.fetchAt pc = .word w := by
  simp [State.fetchAt, h, codeBase, hw]

end

/-- Settles O8, from what a fetch finds at an address and what the decoder makes of a word. -/
theorem fetchMakesRecord : Obligations.FetchMakesRecord := by
  intro s pc
  refine ⟨fun h => ?_, fun h hlen => ?_, fun w h hw => ?_, fun m => rfl⟩
  · have hf : s.fetchAt pc = .misaligned := State.fetchAt_misaligned h
    exact ⟨hf, by rw [State.fetchRecord, hf]⟩
  · have hf : s.fetchAt pc = .noWord := State.fetchAt_noWord h hlen
    exact ⟨hf, by rw [State.fetchRecord, hf]⟩
  · have hf : s.fetchAt pc = .word w := State.fetchAt_word h hw
    have hrec : s.fetchRecord pc = newRecord pc w (fetchedOp s.cfg w) := by rw [State.fetchRecord, hf]
    exact ⟨hf, fun hd => by rw [hrec, fetchedOp, hd], fun i hd ht => by simp [hrec, fetchedOp, hd, ht],
      fun i hd ht => by simp [hrec, fetchedOp, hd, ht]⟩

/-! ### The checks of an access (R87, R88) -/

section
variable {s : State} {ea : Word} {n : Nat}

theorem State.accessFault_misaligned (h : ea.toNat % n ≠ 0) : s.accessFault ea n = some (.memoryAlignment ea n) := by
  rw [State.accessFault, if_pos h]

theorem State.accessFault_outOfRange (h : ea.toNat % n = 0) (hr : s.cfg.memBytes < ea.toNat + n) :
    s.accessFault ea n = some (.addressFault ea n) := by
  rw [State.accessFault, if_neg (not_not.mpr h), if_pos hr]

theorem State.accessFault_of_accessible (h : s.accessible ea n) : s.accessFault ea n = none := by
  obtain ⟨halign, hrange⟩ := h
  rw [State.accessFault, if_neg (not_not.mpr halign), if_neg (by omega)]

end

section
variable {s : State} {r : InFlight} {n : Nat}

theorem memLoad_of_fault {k : FaultKind} (ext : Word → Word) (h : s.accessFault r.ea n = some k) :
    memLoad n ext r s = s.answers (.fault k) := by
  rw [memLoad, h]; rfl

theorem memStore_of_fault {k : FaultKind} (h : s.accessFault r.ea n = some k) :
    memStore n r s = s.answers (.fault k) := by
  rw [memStore, h]; rfl

theorem memLoad_of_accessible (ext : Word → Word) (h : s.accessible r.ea n) :
    memLoad n ext r s = s.memLoaded r n (ext (s.mem.load s.cfg.byteOrder r.ea.toNat n)) := by
  rw [memLoad, State.accessFault_of_accessible h]; rfl

theorem memStore_of_accessible (h : s.accessible r.ea n) :
    memStore n r s = s.memStored r n (s.mem.store s.cfg.byteOrder r.ea.toNat n r.b) := by
  rw [memStore, State.accessFault_of_accessible h]; rfl

/-- MEM of an access that fails a check answers the fault and does nothing else (R213). -/
theorem exec_mem_of_fault (i : Instr) {k : FaultKind} (hp : s.phase = .MEM) (hs : s.slotMEM = some r)
    (ha : i.access? = some n) (hf : s.accessFault r.ea n = some k) : exec i s = .next (s.answers (.fault k)) := by
  cases hi : i.isStore with
  | true => rw [exec_mem_store i hp hs ha hi, memStore_of_fault hf]
  | false =>
    obtain ⟨ext, ht⟩ := exec_mem_load i hp hs ha hi
    rw [ht, memLoad_of_fault ext hf]

/-- MEM of an access that passes the checks answers Ok and is traced (R531). -/
theorem exec_mem_of_accessible (i : Instr) (hp : s.phase = .MEM) (hs : s.slotMEM = some r) (ha : i.access? = some n)
    (h : s.accessible r.ea n) :
    ∃ t, exec i s = .next t ∧ t.outcome = .ok ∧ t.trace = s.trace ++ [.dataAccess r.ea n] := by
  cases hi : i.isStore with
  | true => exact ⟨_, by rw [exec_mem_store i hp hs ha hi, memStore_of_accessible h], rfl, rfl⟩
  | false =>
    obtain ⟨ext, ht⟩ := exec_mem_load i hp hs ha hi
    exact ⟨_, by rw [ht, memLoad_of_accessible ext h], rfl, rfl⟩

end

/-- Settles O42, from the two checks in their order. -/
theorem accessFaults : Obligations.AccessFaults := by
  rintro s r i n ⟨hp, hs⟩ ha
  exact ⟨fun h => exec_mem_of_fault i hp hs ha (State.accessFault_misaligned h),
    fun h hr => exec_mem_of_fault i hp hs ha (State.accessFault_outOfRange h hr), exec_mem_of_accessible i hp hs ha⟩

/-- Settles O18: the one write of data memory in a step is the store in MEM, which keeps every byte outside those stored. -/
theorem memoryChangesOnlyByStores : Obligations.MemoryChangesOnlyByStores := by
  intro s t hstep x hout
  rw [State.byteAt, State.byteAt, (step_keeps hstep).cfg]
  rcases step_mem hstep with hm | ⟨r, i, n, hr, hi, hn, hst, hfault, hm⟩
  · rw [hm]
  · rw [hm]
    exact Memory.byteAt_store_outside _ _ _ _ _ _ (hout r i n hr hi hst hn (State.accessible_of_accessFault hfault))

/-! ### Cells (R80, R82, R84 to R86) -/

/-- An aligned access lies within one cell (R90). -/
theorem aligned_access_within_cell {a n : Nat} (hn : n = 1 ∨ n = 2 ∨ n = 4 ∨ n = 8) (h : a % n = 0) : a % 8 + n ≤ 8 := by
  rcases hn with rfl | rfl | rfl | rfl <;> omega

/-- A load of one byte is that byte. -/
theorem Memory.load_one (m : Memory) (order : ByteOrder) (a : Nat) :
    (m.load order a 1).toNat = (m.byteAt order a).toNat := by
  rw [Memory.load_toNat _ _ _ _ (by decide)]
  cases order <;> simp [Memory.readBytes, numberOfBytes, List.range_succ]

/-- Settles O43: an access is a part of the doubleword at its cell, and the doubleword is the cell. -/
theorem memoryCells : Obligations.MemoryCells := by
  intro m a
  have hk : a - a % 8 + a % 8 = a := Nat.sub_add_cancel (Nat.mod_le a 8)
  refine ⟨m.byteAt_eq_cell .big a, m.byteAt_eq_cell .little a, fun n hn h => ?_,
    fun order => ⟨m.load_one order a, m.load_double order⟩⟩
  have hin := aligned_access_within_cell hn h
  have hbig := m.load_big_within (a - a % 8) (a % 8) n 8 hin (le_refl _)
  have hlittle := m.load_little_within (a - a % 8) (a % 8) n 8 hin (le_refl _)
  rw [hk, m.load_double _ (by omega)] at hbig hlittle
  exact ⟨by rw [hbig, Nat.mul_sub, Nat.mul_sub], hlittle⟩

/-- Which byte of a cell, counted by rising address, holds bit j of its word (R82). -/
def byteOfBit (order : ByteOrder) (j : Nat) : Nat :=
  match order with
  | .big => 7 - j / 8
  | .little => j / 8

/-- A bit of a cell, in the byte that holds it. -/
theorem Memory.getLsbD_cell (m : Memory) (order : ByteOrder) {c j : Nat} (hc : c % 8 = 0) (hj : j < 64) :
    (m.cell c).getLsbD j = (m.byteAt order (c + byteOfBit order j)).getLsbD (j % 8) := by
  rw [← m.load_double order hc]
  cases order with
  | big => exact m.getLsbD_load_big c 8 j (le_refl _) hj
  | little => exact m.getLsbD_load_little c 8 j (le_refl _) hj

theorem getLsbD_byteOf (v : Word) {k b : Nat} (hb : b < 8) : (byteOf v k).getLsbD b = v.getLsbD (8 * k + b) := by
  simp [byteOf, hb]

/-- The lowest bit of a cell that an access of n bytes at byte k of the cell reads and writes (R82, R84, R85). -/
def lowBit (order : ByteOrder) (k n : Nat) : Nat :=
  match order with
  | .big => 64 - 8 * k - 8 * n
  | .little => 8 * k

/-- The cell of a store, bit by bit (R85). -/
theorem Memory.getLsbD_cell_store {m : Memory} (hm : Memory.wf m) (order : ByteOrder) {a n : Nat} (v : Word)
    (hin : a % 8 + n ≤ 8) {j : Nat} (hj : j < 64) :
    ((m.store order a n v).cell (a - a % 8)).getLsbD j =
      if lowBit order (a % 8) n ≤ j ∧ j < lowBit order (a % 8) n + 8 * n then v.getLsbD (j - lowBit order (a % 8) n)
      else (m.cell (a - a % 8)).getLsbD j := by
  have hc : (a - a % 8) % 8 = 0 := by omega
  have hb : j % 8 < 8 := Nat.mod_lt _ (by decide)
  rw [Memory.getLsbD_cell _ order hc hj, Memory.getLsbD_cell _ order hc hj, Memory.byteAt_store hm]
  have hbyte : (a ≤ a - a % 8 + byteOfBit order j ∧ a - a % 8 + byteOfBit order j < a + n) ↔
      (lowBit order (a % 8) n ≤ j ∧ j < lowBit order (a % 8) n + 8 * n) := by
    cases order <;> simp only [byteOfBit, lowBit] <;> omega
  simp only [hbyte]
  split
  case isFalse => rfl
  case isTrue hlow =>
    cases order
    all_goals
      simp only [byteOfBit, lowBit] at hlow ⊢
      rw [getLsbD_byteOf v hb]
      congr 1
      omega

/-- Settles O44, from the cell of a store bit by bit and the cells a store leaves. -/
theorem storeReplacesItsBits : Obligations.StoreReplacesItsBits := by
  intro m order a n v hm hn h
  have hin := aligned_access_within_cell hn h
  refine ⟨fun j hj => ?_, fun c hc hne => Memory.cell_store_other m order v hc (by omega), ?_,
    Memory.store_wf hm order a n v⟩
  · rw [Memory.getLsbD_cell_store hm order v hin hj]
    cases order <;> rfl
  · rintro rfl
    exact ⟨Memory.store_double hm order h v, Memory.cell_store_double hm order h v⟩

/-! ### The host port (R97, R540, R566) -/

/-- What a new configuration within the bounds of R8 keeps of data memory is canonical and within the new MEM_BYTES. -/
theorem State.configure_memInv {s : State} {cfg : CoreConfig} (h : s.memInv) (hcfg : cfg.wf) :
    (s.configure cfg).memInv := by
  obtain ⟨-, hwf, -, hloaded⟩ := h
  refine ⟨hcfg, Sparse.filter_wf hwf _, fun p hp => ?_, fun a ha => ?_⟩
  · exact of_decide_eq_true (List.mem_filter.mp hp).2
  · obtain ⟨ha, hlt⟩ := List.mem_filter.mp ha
    exact ⟨(hloaded a ha).1, of_decide_eq_true hlt⟩

theorem State.mem_hostLoaded_configure (s : State) {cfg : CoreConfig} {c : Nat} (h : c < cfg.memBytes) :
    c ∈ (s.configure cfg).hostLoaded ↔ c ∈ s.hostLoaded := by
  simp [State.configure, h]

/-- A cell loaded within data memory keeps its form (R566). -/
theorem State.loadCell_memInv {s : State} (h : s.memInv) {a : Nat} (v : Word) (ha : a % 8 = 0)
    (hr : a + 8 ≤ s.cfg.memBytes) : (s.loadCell a v).memInv := by
  obtain ⟨hcfg, hwf, hbound, hloaded⟩ := h
  refine ⟨hcfg, Memory.store_wf hwf _ _ _ _, Memory.store_bound hbound _ _ _ _ hr hcfg.1, fun b hb => ?_⟩
  rcases (s.mem_hostLoaded_loadCell a b v).mp hb with rfl | hb
  · exact ⟨ha, by show b < s.cfg.memBytes; omega⟩
  · exact hloaded b hb

/-- A cell the host has loaded still reads so after the reset that follows (R83, R564). -/
theorem State.cell_resetRun_loadCell {s : State} (h : Memory.wf s.mem) {a : Nat} (v : Word) (ha : a % 8 = 0) :
    (s.loadCell a v).resetRun.cell a = v := by
  rw [State.cell_resetRun _ ha, if_pos (by simp), State.cell_loadCell h v ha ha, if_pos rfl]

/-- The byte image of a program of at least one word is taken as that program (R93, R94). -/
theorem State.host_loadImage {s : State} (h : s.status ≠ .running) {ws : List InstrWord} (hne : ws ≠ []) :
    s.host (.loadImage (ws.flatMap bytesOfWord)) = some { s with im := ws } := by
  have hlen : (ws.flatMap bytesOfWord).length = ws.length * 4 := by simp [List.length_flatMap]
  have hpos : ws.length ≠ 0 := by simpa using hne
  have htaken : ¬(ws.flatMap bytesOfWord = [] ∨ (ws.flatMap bytesOfWord).length % 4 ≠ 0) := by
    rw [← List.length_eq_zero_iff]; omega
  rw [State.host_outside h]
  simp only [if_neg htaken, wordsOfBytes_flatMap_bytesOfWord]

/-- No command but reset changes `status`. -/
theorem State.host_status {s t : State} {cmd : HostCommand} (hne : cmd ≠ .reset) (h : s.host cmd = some t) :
    t.status = s.status := by
  rw [State.host_outside fun hrun => by simp [State.host_running hrun] at h] at h
  cases cmd with
  | reset => exact absurd rfl hne
  | configure | loadProgram | loadImage | loadCell =>
    simp only at h
    split at h <;> cases h
    rfl

/-- Settles O60, command by command. -/
theorem hostActsOutsideRuns : Obligations.HostActsOutsideRuns := by
  refine ⟨fun s cmd h => State.host_running h cmd, fun s h => ⟨fun cfg hcfg => ?_, fun cfg hcfg => ?_, ?_, fun ws hne => ?_,
    fun ws hne => State.host_loadImage h hne, fun a v hinv ha hr => ?_, State.host_outside h .reset, ?_⟩⟩
  · exact ⟨s.configure cfg, (State.host_outside h _).trans (if_pos hcfg), rfl,
      fun c _ hr => ⟨s.cell_configure cfg hr, s.mem_hostLoaded_configure (by omega)⟩, fun hinv => s.configure_memInv hinv hcfg⟩
  · exact (State.host_outside h _).trans (if_neg hcfg)
  · exact State.host_outside h _
  · exact (State.host_outside h _).trans (if_neg hne)
  · have ⟨_, hwf, _⟩ := hinv
    exact ⟨s.loadCell a v, (State.host_outside h _).trans (if_pos ⟨ha, hr⟩), rfl,
      (State.cell_loadCell hwf v ha ha).trans (if_pos rfl), State.cell_resetRun_loadCell hwf v ha,
      fun c hc hne => (State.cell_loadCell hwf v ha hc).trans (if_neg hne), State.loadCell_memInv hinv v ha hr⟩
  · intro cmd t hne ht
    have hstatus := State.host_status hne ht
    exact ⟨hstatus, fun u hu => h (hstatus ▸ (step_cases hu).1)⟩

end Sys2Proof.Machine

/-! # Family 30_encoding: the decoder, the encoder and the opcode map -/

namespace Sys2Proof

/-! ### Words given by their fields (R111, R113) -/

theorem rWord_eq_iff {op rs rt rd sa funct} {w : InstrWord} : rWord op rs rt rd sa funct = w ↔
    fOp w = op ∧ fRs w = rs ∧ fRt w = rt ∧ fRd w = rd ∧ fSa w = sa ∧ fFunct w = funct := by
  constructor
  · rintro rfl; simp
  · rintro ⟨rfl, rfl, rfl, rfl, rfl, rfl⟩; exact rWord_fields w

theorem iWord_eq_iff {op rs rt imm} {w : InstrWord} : iWord op rs rt imm = w ↔
    fOp w = op ∧ fRs w = rs ∧ fRt w = rt ∧ fImm w = imm := by
  constructor
  · rintro rfl; simp
  · rintro ⟨rfl, rfl, rfl, rfl⟩; exact iWord_fields w

theorem jWord_eq_iff {op target} {w : InstrWord} : jWord op target = w ↔ fOp w = op ∧ fTarget w = target := by
  constructor
  · rintro rfl; simp
  · rintro ⟨rfl, rfl⟩; exact jWord_fields w

theorem codeWord_eq_iff {op code funct} {w : InstrWord} : codeWord op code funct = w ↔
    fOp w = op ∧ fCode w = code ∧ fFunct w = funct := by
  constructor
  · rintro rfl; simp
  · rintro ⟨rfl, rfl, rfl⟩; exact codeWord_fields w

theorem eq_ccBits_iff {f : BitVec 5} {cc : CcNum} {tail : BitVec 2} :
    f = ccBits cc tail ↔ ccOf f = cc ∧ ccTail f = tail := by
  constructor
  · rintro rfl; simp
  · rintro ⟨rfl, rfl⟩; exact (ccBits_ccOf f).symm

theorem fImm_eq_append (w : InstrWord) : fImm w = fRd w ++ fSa w ++ fFunct w := by
  rw [fRd, fSa, fFunct, BitVec.extractLsb'_append_extractLsb'_eq_extractLsb' (by rfl),
    BitVec.extractLsb'_append_extractLsb'_eq_extractLsb' (by rfl), fImm]

@[simp] theorem regBits_one : regBits 1 = 1#5 := rfl

@[simp] theorem regBits_thirtyOne : regBits 31 = 31#5 := rfl

@[simp] theorem regOf_eq_zero {f : BitVec 5} : regOf f = 0 ↔ f = 0#5 := (regBits_eq_zero (regOf f)).symm

/-! ### Decoding an instruction's word -/

theorem wellFormed_sll {rd rt : RegNum} {sa : BitVec 5} (h : (Instr.sll rd rt sa).wellFormed = true) :
    ¬(rt = 0 ∧ rd = 0 ∧ sa = 0) := by
  rintro ⟨rfl, rfl, rfl⟩
  exact absurd h (by decide)

/-- Each field read back is the field written; the word of SLL has a field that is not 0, so it is not NOP's (R117). -/
theorem decode_encode {i : Instr} (h : i.wellFormed = true) : decode (encode i) = .instr i := by
  cases i with
  | sll rd rt sa =>
    have hne : ¬(regBits rt = 0 ∧ regBits rd = 0 ∧ sa = 0) := by
      simpa only [regBits_eq_zero] using wellFormed_sll h
    simpa [encode, shiftWord, decode, decodeSpecial] using hne
  | _ =>
    simp [encode, specialWord, shiftWord, immWord, fmtDWord, transferWord, decode, decodeSpecial, decodeRegimm,
      decodeCop1, decodeFmtD]

/-- Settles O2, instruction by instruction. -/
theorem decodeOfEncode : Obligations.DecodeOfEncode := fun _ => decode_encode

/-! ### What a decoded word is the word of -/

/-- The answer is right for the word: an instruction is well formed and has that word, and a whole word is not truncated. -/
def DecodeResult.IsMeaningOf (w : InstrWord) : DecodeResult → Prop
  | .instr i => encode i = w ∧ i.wellFormed = true
  | .reserved => True
  | .truncated => False

@[simp] theorem isMeaningOf_instr {w : InstrWord} {i : Instr} :
    (DecodeResult.instr i).IsMeaningOf w ↔ encode i = w ∧ i.wellFormed = true := Iff.rfl

@[simp] theorem isMeaningOf_reserved (w : InstrWord) : DecodeResult.reserved.IsMeaningOf w := trivial

@[simp] theorem not_isMeaningOf_truncated (w : InstrWord) : ¬DecodeResult.truncated.IsMeaningOf w := id

@[simp] theorem isMeaningOf_onlyIf {w : InstrWord} {b : Bool} {i : Instr} :
    (onlyIf b i).IsMeaningOf w ↔ (b = true → encode i = w ∧ i.wellFormed = true) := by
  cases b <;> simp [onlyIf]

theorem decodeSpecial_isMeaningOf {w : InstrWord} (hop : fOp w = 0) : (decodeSpecial w).IsMeaningOf w := by
  simp only [decodeSpecial]
  split
  case h_1 hfunct =>
    split
    · split <;> simp_all [Instr.wellFormed, encode, shiftWord, rWord_eq_iff]
    · trivial
  all_goals
    simp +contextual [Instr.wellFormed, encode, specialWord, shiftWord, rWord_eq_iff, codeWord_eq_iff, *]

theorem decodeRegimm_isMeaningOf {w : InstrWord} (hop : fOp w = 1) : (decodeRegimm w).IsMeaningOf w := by
  unfold decodeRegimm
  split <;> simp +contextual [Instr.wellFormed, encode, immWord, iWord_eq_iff, *]

theorem decodeFmtD_isMeaningOf {w : InstrWord} (hop : fOp w = 0b010001) (hfmt : fRs w = 0b10001) :
    (decodeFmtD w).IsMeaningOf w := by
  unfold decodeFmtD
  split
  case h_6 => split <;> simp [Instr.wellFormed, encode, fmtDWord, rWord_eq_iff, eq_ccBits_iff, *]
  all_goals simp +contextual [Instr.wellFormed, encode, fmtDWord, rWord_eq_iff, eq_ccBits_iff, *]

theorem decodeCop1_isMeaningOf {w : InstrWord} (hop : fOp w = 0b010001) : (decodeCop1 w).IsMeaningOf w := by
  unfold decodeCop1
  split
  case h_7 => split <;> simp [Instr.wellFormed, encode, iWord_eq_iff, eq_ccBits_iff, *]
  case h_8 hfmt => exact decodeFmtD_isMeaningOf hop hfmt
  all_goals simp +contextual [Instr.wellFormed, encode, transferWord, rWord_eq_iff, *]

/-- By primary opcode (R120): every field is fixed by the branch or an operand, so the word is rebuilt from its fields. -/
theorem decode_isMeaningOf (w : InstrWord) : (decode w).IsMeaningOf w := by
  unfold decode
  split
  case h_1 hop => exact decodeSpecial_isMeaningOf hop
  case h_2 hop => exact decodeRegimm_isMeaningOf hop
  case h_17 hop => exact decodeCop1_isMeaningOf hop
  all_goals simp +contextual [Instr.wellFormed, encode, immWord, iWord_eq_iff, jWord_eq_iff, *]

/-- Settles O3, from what the decoder answers in each branch. -/
theorem encodeOfDecode : Obligations.EncodeOfDecode := by
  intro w i h
  simpa [h] using decode_isMeaningOf w

/-! ### The opcode map (R116, R117, R119) -/

/-- Matching a row is matching it field by field. -/
theorem fits_iff {mnemonic : String} {pattern mask w : InstrWord} {tier : Tier} :
    (⟨mnemonic, pattern, mask, tier⟩ : OpcodeRow).fits w = true ↔
      fOp w &&& mask.extractLsb' 26 6 = pattern.extractLsb' 26 6 ∧
      fRs w &&& mask.extractLsb' 21 5 = pattern.extractLsb' 21 5 ∧
      fRt w &&& mask.extractLsb' 16 5 = pattern.extractLsb' 16 5 ∧
      fRd w &&& mask.extractLsb' 11 5 = pattern.extractLsb' 11 5 ∧
      fSa w &&& mask.extractLsb' 6 5 = pattern.extractLsb' 6 5 ∧
      fFunct w &&& mask.extractLsb' 0 6 = pattern.extractLsb' 0 6 := by
  conv_lhs => rw [OpcodeRow.fits, beq_iff_eq, ← rWord_fields w, ← rWord_fields mask, Laws.rWord_and, rWord_eq_iff]
  simp only [eq_comm, fOp, fRs, fRt, fRd, fSa, fFunct]

theorem and_sixOnes (f : BitVec 6) : f &&& 63#6 = f := BitVec.and_allOnes

theorem and_fiveOnes (f : BitVec 5) : f &&& 31#5 = f := BitVec.and_allOnes

theorem and_three_eq_zero {f : BitVec 5} : f &&& 3#5 = 0#5 ↔ ccTail f = 0#2 := by
  revert f; decide

theorem and_three_eq_one {f : BitVec 5} : f &&& 3#5 = 1#5 ↔ ccTail f = 1#2 := by
  revert f; decide

/-- The word of every instruction is one of its row (R119). -/
theorem Laws.MatchesRow.all (i : Instr) : MatchesRow.Statement i :=
  i.casesOn dadd daddu dsub dsubu add addu sub subu daddi daddiu addi addiu and or xor andi ori xori lui slt sltu slti
    sltiu sll srl sra sllv srlv srav dsll dsrl dsra dsllv dsrlv dsrav movz movn dmult dmultu mult multu ddiv ddivu div
    divu mfhi mflo lb lbu lh lhu lw lwu ld sb sh sw sd lwc1 ldc1 swc1 sdc1 beq bne beqz bnez bgez bc1f bc1t j jal jr
    jalr addD subD mulD divD cvtLD cvtWD cvtDL cvtDW movD movzD movnD movfD movtD cEqD cLtD cUnD mtc1 mfc1 dmtc1 dmfc1
    ctc1 cfc1 halt nop brk

/-- The decoder answers with an instruction of the row. -/
def DecodeResult.InRow (row : OpcodeRow) : DecodeResult → Prop
  | .instr i => i.row = row
  | .reserved => False
  | .truncated => False

@[simp] theorem inRow_instr {row : OpcodeRow} {i : Instr} : (DecodeResult.instr i).InRow row ↔ i.row = row := Iff.rfl

@[simp] theorem not_inRow_reserved (row : OpcodeRow) : ¬DecodeResult.reserved.InRow row := id

theorem DecodeResult.InRow.unique {r : DecodeResult} {row row' : OpcodeRow} (h : r.InRow row) (h' : r.InRow row') :
    row = row' := by
  cases r with
  | instr i => exact h.symm.trans h'
  | reserved | truncated => exact h.elim

/-- The row's fixed fields lead the decoder to its branch. In the SLL row only the word 0 leads elsewhere (R117). -/
theorem decode_inRow_of_fits {i : Instr} {w : InstrWord} (hw : w ≠ 0) (hfits : i.row.fits w = true) :
    (decode w).InRow i.row := by
  cases i with
  | sll rd rt sa =>
    simp [Instr.row, fits_iff, and_sixOnes, and_fiveOnes] at hfits
    obtain ⟨hop, hrs, hfunct⟩ := hfits
    have hz : ¬(fRt w = 0 ∧ fRd w = 0 ∧ fSa w = 0) := fun ⟨hrt, hrd, hsa⟩ =>
      hw (rWord_eq_iff.mpr ⟨hop, hrs, hrt, hrd, hsa, hfunct⟩).symm
    have hdec : decode w = .instr (.sll (regOf (fRd w)) (regOf (fRt w)) (fSa w)) := by
      simpa [decode, decodeSpecial, hop, hrs, hfunct] using hz
    exact hdec ▸ rfl
  | _ =>
    simp [Instr.row, fits_iff, and_sixOnes, and_fiveOnes, and_three_eq_zero, and_three_eq_one] at hfits
    simp [decode, decodeSpecial, decodeRegimm, decodeCop1, decodeFmtD, fImm_eq_append, hfits, Instr.row]

theorem decode_inRow {row : OpcodeRow} {w : InstrWord} (hrow : row ∈ opcodeRows) (hw : w ≠ 0) (hfits : row.fits w = true) :
    (decode w).InRow row := by
  obtain ⟨i, -, rfl⟩ := List.mem_map.mp hrow
  exact decode_inRow_of_fits hw hfits

theorem decode_zero : decode 0 = .instr .nop := by decide

theorem mnemonic_of_fits_zero : ∀ row ∈ opcodeRows, row.fits 0 = true → row.mnemonic ∈ ["NOP", "SLL"] := by decide

/-- Settles O4. A word of a row decodes into that row, so two rows of one word other than 0 are the row of one instruction. -/
theorem decodeFollowsOpcodeMap : Obligations.DecodeFollowsOpcodeMap := by
  refine ⟨fun w => ?_, fun w row row' hrow hrow' hfits hfits' => ?_, decode_zero⟩
  · cases hdec : decode w with
    | instr i =>
      obtain ⟨rfl, -⟩ := encodeOfDecode w i hdec
      exact Laws.MatchesRow.all i
    | reserved =>
      intro row hrow
      have hw : w ≠ 0 := by rintro rfl; cases hdec.symm.trans decode_zero
      exact Bool.eq_false_iff.mpr fun hfits => by simpa [hdec] using decode_inRow hrow hw hfits
    | truncated => simpa [hdec] using decode_isMeaningOf w
  · by_cases hw : w = 0
    · subst hw
      exact .inr ⟨rfl, mnemonic_of_fits_zero row hrow hfits, mnemonic_of_fits_zero row' hrow' hfits'⟩
    · exact .inl ((decode_inRow hrow hw hfits).unique (decode_inRow hrow' hw hfits'))

/-- Settles O1, by running the decoder on each word. -/
theorem decodesTableWords : Obligations.DecodesTableWords := by
  unfold Obligations.DecodesTableWords
  decide

end Sys2Proof

/-! # Family 40_fpu: special values, narrowing, the laws of FP arithmetic, and conversions -/

namespace Sys2Proof.Machine

/-! ### The classes exclude each other (R161) -/

theorem isFinite_eq_false {p : Word} : isFinite p = false ↔ isNaN p = true ∨ isInf p = true := by
  cases hn : isNaN p <;> cases hi : isInf p <;> simp [isFinite, hn, hi]

theorem not_nan_zero_of_inf {p : Word} (h : isInf p = true) : isNaN p = false ∧ isZero p = false := by
  have hk : fpKind p = .inf := of_decide_eq_true h
  simp [isNaN, isZero, hk]

/-! ### The special-value tables (R163, R166 to R169) -/

section
variable (f : BitVec 32) {a b : Word}

/-- The NaN step (R163) is the first of each function. -/
theorem fp_of_nan (h : isNaN a = true ∨ isNaN b = true) :
    fpAdd f a b = signal f .V fpQNAN ∧ fpSub f a b = signal f .V fpQNAN ∧
    fpMul f a b = signal f .V fpQNAN ∧ fpDiv f a b = signal f .V fpQNAN := by
  have hor : (isNaN a || isNaN b) = true := by simpa using h
  simp [fpAdd, fpSub, fpMul, fpDiv, hor]

theorem fp_of_inf_inf (ha : isInf a = true) (hb : isInf b = true) :
    fpAdd f a b = (if fpSign a = fpSign b then ⟨f, .ok a⟩ else signal f .V fpQNAN) ∧
    fpSub f a b = (if fpSign a = fpSign b then signal f .V fpQNAN else ⟨f, .ok a⟩) ∧
    fpMul f a b = ⟨f, .ok (infOf (fpSign a ^^ fpSign b))⟩ ∧ fpDiv f a b = signal f .V fpQNAN := by
  obtain ⟨hna, hza⟩ := not_nan_zero_of_inf ha
  obtain ⟨hnb, hzb⟩ := not_nan_zero_of_inf hb
  simp [fpAdd, fpSub, fpMul, fpDiv, ha, hb, hna, hza, hnb, hzb]

theorem fp_of_inf_finite (ha : isInf a = true) (hb : isFinite b = true) :
    fpAdd f a b = ⟨f, .ok a⟩ ∧ fpSub f a b = ⟨f, .ok a⟩ ∧
    fpMul f a b = (if isZero b = true then signal f .V fpQNAN else ⟨f, .ok (infOf (fpSign a ^^ fpSign b))⟩) ∧
    fpDiv f a b = ⟨f, .ok (infOf (fpSign a ^^ fpSign b))⟩ := by
  obtain ⟨hna, hza⟩ := not_nan_zero_of_inf ha
  obtain ⟨hnb, hib⟩ := not_nan_inf_of_finite hb
  simp [fpAdd, fpSub, fpMul, fpDiv, isFinite, ha, hna, hza, hnb, hib]

theorem fp_of_finite_inf (ha : isFinite a = true) (hb : isInf b = true) :
    fpAdd f a b = ⟨f, .ok b⟩ ∧ fpSub f a b = ⟨f, .ok (infOf (!fpSign b))⟩ ∧
    fpMul f a b = (if isZero a = true then signal f .V fpQNAN else ⟨f, .ok (infOf (fpSign a ^^ fpSign b))⟩) ∧
    fpDiv f a b = ⟨f, .ok (zeroOf (fpSign a ^^ fpSign b))⟩ := by
  obtain ⟨hna, hia⟩ := not_nan_inf_of_finite ha
  obtain ⟨hnb, hzb⟩ := not_nan_zero_of_inf hb
  simp [fpAdd, fpSub, fpMul, fpDiv, isFinite, hb, hna, hia, hnb, hzb]

/-! ### The finite path (R170, R173 to R176) -/

theorem fpAdd_of_finite (ha : isFinite a = true) (hb : isFinite b = true) :
    fpAdd f a b = narrowInt f (addZeroSign a b) (fpUnits a + fpUnits b) := by
  simp [fpAdd, not_nan_inf_of_finite ha, not_nan_inf_of_finite hb]

theorem fpSub_of_finite (ha : isFinite a = true) (hb : isFinite b = true) :
    fpSub f a b = narrowInt f (addZeroSign a (b ^^^ fpNZERO)) (fpUnits a - fpUnits b) := by
  simp [fpSub, not_nan_inf_of_finite ha, not_nan_inf_of_finite hb]

theorem fpMag_ne_zero {p : Word} (h : isZero p = false) : fpMag p ≠ 0 := by
  rw [ne_eq, ← isZero_iff_mag, h]
  exact Bool.false_ne_true

theorem fpMag_mul_eq_zero : fpMag a * fpMag b = 0 ↔ isZero a = true ∨ isZero b = true := by
  rw [Nat.mul_eq_zero, isZero_iff_mag, isZero_iff_mag]

theorem narrow_zero (z neg : Bool) (den : Nat) : narrow f z neg 0 den = ⟨f, .ok (zeroOf z)⟩ := if_pos rfl

/-- The rows of R168 for a zero and a finite operand are what narrowing gives of their product. -/
theorem fpMul_of_finite (ha : isFinite a = true) (hb : isFinite b = true) :
    fpMul f a b = narrow f (fpSign a ^^ fpSign b) (fpSign a ^^ fpSign b) (fpMag a * fpMag b) unitsPerOne := by
  by_cases hz : isZero a = true ∨ isZero b = true
  · rw [fpMag_mul_eq_zero.mpr hz, narrow_zero]
    simp [fpMul, not_nan_inf_of_finite ha, not_nan_inf_of_finite hb, hz]
  · simp [fpMul, not_nan_inf_of_finite ha, not_nan_inf_of_finite hb, hz]

theorem fpDiv_of_zero (ha : isFinite a = true) (hb : isFinite b = true) (hz : isZero b = true) :
    fpDiv f a b = if isZero a = true then signal f .V fpQNAN else signal f .Z (infOf (fpSign a ^^ fpSign b)) := by
  simp [fpDiv, not_nan_inf_of_finite ha, not_nan_inf_of_finite hb, ha, hz]

/-- The row of R169 for a zero dividend is what narrowing gives of the quotient. -/
theorem fpDiv_of_nonzero (ha : isFinite a = true) (hb : isFinite b = true) (hz : isZero b = false) :
    fpDiv f a b = narrow f (fpSign a ^^ fpSign b) (fpSign a ^^ fpSign b) (fpMag a * unitsPerOne) (fpMag b) := by
  by_cases hza : isZero a = true
  · rw [(isZero_iff_mag a).mp hza, Nat.zero_mul, narrow_zero]
    simp [fpDiv, not_nan_inf_of_finite ha, not_nan_inf_of_finite hb, hb, hz, hza]
  · simp [fpDiv, not_nan_inf_of_finite ha, not_nan_inf_of_finite hb, hz, hza]

theorem narrowInt_narrowsTo (z : Bool) (x : Int) : narrowsTo f z ((x : ℚ) / 2 ^ 1074) (narrowInt f z x) := by
  rw [← signedValue_int]
  exact narrow_narrowsTo f z _ _ one_pos

end

/-- Settles O49, from the classes of the operands in the order in which each function tests them. -/
theorem fpSpecialValues : Obligations.FpSpecialValues := by
  intro f a b
  refine ⟨fp_of_nan f, fun ha hb => ?_, fp_of_inf_finite f, fp_of_finite_inf f,
    fun ha hb => ⟨fun hz => ?_, fun hza hzb => ?_, fun hza hzb => ?_, fun hza hzb => ?_⟩⟩
  · obtain ⟨hadd, hsub, hmul, hdiv⟩ := fp_of_inf_inf f ha hb
    exact ⟨fun h => ⟨by rw [hadd, if_neg h], by rw [hsub, if_neg h]⟩,
      fun h => ⟨by rw [hadd, if_pos h], by rw [hsub, if_pos h]⟩, hmul, hdiv⟩
  · rw [fpMul_of_finite f ha hb, fpMag_mul_eq_zero.mpr hz, narrow_zero]
  · rw [fpDiv_of_zero f ha hb hzb, if_pos hza]
  · rw [fpDiv_of_zero f ha hb hzb, if_neg (by simp [hza])]
  · rw [fpDiv_of_nonzero f ha hb hzb, (isZero_iff_mag a).mp hza, Nat.zero_mul, narrow_zero]

/-- Settles O50: the sum of the operands' units is narrowed, and the zero sign of FPSub is that of FPAdd of the flipped b. -/
theorem fpAddSubNarrowExactResult : Obligations.FpAddSubNarrowExactResult := by
  intro f a b ha hb
  constructor
  · have hx : fpVal a + fpVal b = ((fpUnits a + fpUnits b : Int) : ℚ) / 2 ^ 1074 := by
      rw [fpVal_eq, fpVal_eq, Int.cast_add, add_div]
    rw [hx, fpAdd_of_finite f ha hb]
    exact narrowInt_narrowsTo f _ _
  · have hx : fpVal a - fpVal b = ((fpUnits a - fpUnits b : Int) : ℚ) / 2 ^ 1074 := by
      rw [fpVal_eq, fpVal_eq, Int.cast_sub, sub_div]
    have hsign : (isZero a && isZero b && fpSign a && !fpSign b) = addZeroSign a (b ^^^ fpNZERO) := by
      obtain ⟨hzero, hflip⟩ := isZero_flip b
      rw [addZeroSign, hzero, hflip]
    rw [hx, hsign, fpSub_of_finite f ha hb]
    exact narrowInt_narrowsTo f _ _

/-! ### Products and quotients of signed values (R175, R176) -/

theorem signedValue_eq (neg : Bool) (num den : Nat) :
    signedValue neg num den = (if neg then -1 else 1) * (num / den / 2 ^ 1074) := mul_div_assoc ..

theorem cast_unitsPerOne : (unitsPerOne : ℚ) = 2 ^ 1074 := by rw [unitsPerOne, Nat.cast_pow, Nat.cast_ofNat]

theorem unitsPerOne_pos : 0 < unitsPerOne := by rw [unitsPerOne]; positivity

theorem fpVal_mul (a b : Word) :
    fpVal a * fpVal b = signedValue (fpSign a ^^ fpSign b) (fpMag a * fpMag b) unitsPerOne := by
  have hsign : ((if fpSign a ^^ fpSign b then -1 else 1) : ℚ) =
      (if fpSign a then -1 else 1) * (if fpSign b then -1 else 1) := by
    cases fpSign a <;> cases fpSign b <;> norm_num
  rw [fpVal_signed a, fpVal_signed b, signedValue_eq, signedValue_eq, signedValue_eq, hsign, cast_unitsPerOne, Nat.cast_mul]
  generalize (2 : ℚ) ^ 1074 = B
  ring

theorem fpVal_div (a b : Word) :
    fpVal a / fpVal b = signedValue (fpSign a ^^ fpSign b) (fpMag a * unitsPerOne) (fpMag b) := by
  have hsign : ((if fpSign a ^^ fpSign b then -1 else 1) : ℚ) =
      (if fpSign a then -1 else 1) / (if fpSign b then -1 else 1) := by
    cases fpSign a <;> cases fpSign b <;> norm_num
  rw [fpVal_signed a, fpVal_signed b, signedValue_eq, signedValue_eq, signedValue_eq, hsign, Nat.cast_mul, cast_unitsPerOne]
  have hB : (2 : ℚ) ^ 1074 ≠ 0 := by positivity
  generalize (2 : ℚ) ^ 1074 = B at *
  field_simp

/-- Settles O51, from the exact product and quotient as signed values. -/
theorem fpMulDivNarrowExactResult : Obligations.FpMulDivNarrowExactResult := by
  intro f a b ha hb
  constructor
  · rw [fpVal_mul, fpMul_of_finite f ha hb]
    exact narrow_narrowsTo f _ _ _ unitsPerOne_pos
  · intro hz
    have hmag : 0 < fpMag b := Nat.pos_of_ne_zero (fpMag_ne_zero hz)
    rw [fpVal_div, fpDiv_of_nonzero f ha hb hz]
    exact narrow_narrowsTo f _ _ _ hmag

/-! ### Rounding what is exact -/

theorem roundQuotient_of_dvd (rm : RoundMode) (neg : Bool) {num den : Nat} (hd : 0 < den) (h : den ∣ num) :
    roundQuotient rm neg num den = num / den := by
  rcases roundQuotient_cases rm neg num den with hq | ⟨-, hrem | hden⟩
  · exact hq
  · exact absurd (Nat.mod_eq_zero_of_dvd h) hrem
  · exact absurd hden hd.ne'

/-- What `roundToPattern` gives of a whole number of units. -/
theorem roundToPattern_units (rm : RoundMode) (neg : Bool) {num : Nat} (hmax : num ≤ dblMaxUnits) :
    isFinite (roundToPattern rm neg num 1) = true ∧ fpSign (roundToPattern rm neg num 1) = neg ∧
    fpMag (roundToPattern rm neg num 1) =
      roundQuotient rm neg num (2 ^ (num.log2 - 52)) * 2 ^ (num.log2 - 52) := by
  have hmax' : num ≤ dblMaxUnits * 1 := by rwa [Nat.mul_one]
  obtain ⟨hfin, hsign, hmag, -⟩ := roundToPattern_facts rm neg Nat.one_pos hmax'
  rw [Nat.div_one, Nat.one_mul] at hmag
  exact ⟨hfin, hsign, hmag⟩

/-- A significand of 53 bits is placed no higher than it stands. -/
theorem log2_sub_le {m : Nat} (j : Nat) (hm : m < 2 ^ 53) : (m * 2 ^ j).log2 - 52 ≤ j := by
  by_cases h0 : m * 2 ^ j = 0
  · simp [h0]
  · have hlt : m * 2 ^ j < 2 ^ (53 + j) := by
      rw [pow_add]
      exact Nat.mul_lt_mul_of_pos_right hm (by positivity)
    have := (Nat.log2_lt h0).mpr hlt
    omega

/-- A significand of 53 bits in its place loses no bit to `roundToPattern`. -/
theorem fpMag_roundToPattern_exact (rm : RoundMode) (neg : Bool) {m j : Nat} (hm : m < 2 ^ 53)
    (hmax : m * 2 ^ j ≤ dblMaxUnits) : fpMag (roundToPattern rm neg (m * 2 ^ j) 1) = m * 2 ^ j := by
  obtain ⟨-, -, hmag⟩ := roundToPattern_units rm neg hmax
  have hdvd : 2 ^ ((m * 2 ^ j).log2 - 52) ∣ m * 2 ^ j := Dvd.dvd.mul_left (Nat.pow_dvd_pow 2 (log2_sub_le j hm)) m
  rw [hmag, roundQuotient_of_dvd rm neg (by positivity) hdvd, Nat.div_mul_cancel hdvd]

/-! ### A finite pattern is its sign and magnitude (R162) -/

theorem fpMag_lt_of_fpExp_lt {p q : Word} (h : fpExp p < fpExp q) : fpMag p < fpMag q := by
  obtain ⟨e, he⟩ : ∃ e, fpExp q = e + 1 := ⟨fpExp q - 1, by omega⟩
  have hp := fpFrac_lt p
  have hq : 2 ^ 52 * 2 ^ e ≤ fpMag q := by
    rw [fpMag, if_neg (by omega), he, Nat.add_sub_cancel]
    exact Nat.mul_le_mul_right _ (by omega)
  refine lt_of_lt_of_le ?_ hq
  by_cases h0 : fpExp p = 0
  · rw [fpMag, if_pos h0]
    exact hp.trans_le (Nat.le_mul_of_pos_right _ (by positivity))
  · have hle : 2 ^ (fpExp p - 1 + 1) ≤ 2 ^ e := Nat.pow_le_pow_right (by omega) (by omega)
    rw [fpMag, if_neg h0]
    calc (2 ^ 52 + fpFrac p) * 2 ^ (fpExp p - 1)
      _ < 2 ^ 53 * 2 ^ (fpExp p - 1) := Nat.mul_lt_mul_of_pos_right (by omega) (by positivity)
      _ = 2 ^ 52 * 2 ^ (fpExp p - 1 + 1) := by ring
      _ ≤ 2 ^ 52 * 2 ^ e := Nat.mul_le_mul_left _ hle

theorem eq_of_sign_mag_eq {p q : Word} (hs : fpSign p = fpSign q) (hm : fpMag p = fpMag q) : p = q := by
  have he : fpExp p = fpExp q := by
    rcases lt_trichotomy (fpExp p) (fpExp q) with h | h | h
    · exact absurd hm (fpMag_lt_of_fpExp_lt h).ne
    · exact h
    · exact absurd hm (fpMag_lt_of_fpExp_lt h).ne'
  have hf : fpFrac p = fpFrac q := by
    unfold fpMag at hm
    rw [he] at hm
    split at hm
    · exact hm
    · exact Nat.add_left_cancel (Nat.eq_of_mul_eq_mul_right (by positivity) hm)
  exact BitVec.eq_of_toNat_eq (by rw [pattern_toNat, pattern_toNat, hs, he, hf])

/-- The round trip of R178: rounding a finite value gives its own pattern. -/
theorem roundToPattern_own (rm : RoundMode) {p : Word} (hp : isFinite p = true) :
    roundToPattern rm (fpSign p) (fpMag p) 1 = p := by
  have hmax := fpMag_le hp
  obtain ⟨-, hsign, -⟩ := roundToPattern_units rm (fpSign p) hmax
  obtain ⟨m, j, hm, hm53, -⟩ := fpMag_form hp
  refine eq_of_sign_mag_eq hsign ?_
  rw [hm] at hmax ⊢
  exact fpMag_roundToPattern_exact rm _ hm53 hmax

theorem narrow_own (f : BitVec 32) (z : Bool) {p : Word} (hp : isFinite p = true) (hz : isZero p = false) :
    narrow f z (fpSign p) (fpMag p) 1 = ⟨f, .ok p⟩ := by
  have hne := fpMag_ne_zero hz
  have hmax : ¬fpMag p > dblMaxUnits * 1 := by
    rw [Nat.mul_one]
    exact (fpMag_le hp).not_gt
  rw [narrow, if_neg hne, if_neg hmax, if_neg (by omega), roundToPattern_own .RN hp]

/-! ### The cause bits of one operation (R164, R177, R178) -/

theorem fpArith_signals (f : BitVec 32) (a b : Word) :
    ∀ g ∈ [fpAdd, fpSub, fpMul, fpDiv], Signals f (g f a b) := by
  simp [fpAdd_signals, fpSub_signals, fpMul_signals, fpDiv_signals]

/-- With the cause bits cleared before it, an operation leaves at most one of them set. -/
theorem Signals.oneCause {f : BitVec 32} {out : FpOut} (h : Signals (clearCause f) out) :
    ∃ c ∈ [none, some 13, some 14, some 15, some 16], ∀ n, 12 ≤ n → n ≤ 16 →
      out.fcsr.getLsbD n = decide (c = some n) := by
  have hclear : ∀ n, 12 ≤ n → n ≤ 16 → (clearCause f).getLsbD n = false := fun n h1 h2 => by
    rw [getLsbD_clearCause, if_pos ⟨h1, h2⟩]
  cases h with
  | quiet v h =>
    subst h
    exact ⟨none, by simp, fun n h1 h2 => by simp [hclear n h1 h2]⟩
  | raises c d hc h =>
    subst h
    refine ⟨some (causeBit c), ?_, fun n h1 h2 => ?_⟩
    · revert hc; cases c <;> decide
    · have hflag : n ≠ flagBit c := by
        have : flagBit c ≤ 6 := by cases c <;> decide
        omega
      simp [getLsbD_signal _ _ _ (show n < 32 by omega), hclear n h1 h2, hflag, eq_comm]

/-- Settles O52, from the finite paths, the round trip of rounding, and what an operation may do to the FCSR. -/
theorem fpArithmeticLaws : Obligations.FpArithmeticLaws := by
  refine ⟨fun f a b ha hb => ⟨?_, ?_⟩, fun f p z => narrow_own f z, fun f a b g hg => ?_, fun f a b g hg => ?_⟩
  · have hsign : addZeroSign a b = addZeroSign b a := by
      simp only [addZeroSign, Bool.and_comm, Bool.and_left_comm]
    rw [fpAdd_of_finite f ha hb, fpAdd_of_finite f hb ha, hsign, Int.add_comm]
  · rw [fpMul_of_finite f ha hb, fpMul_of_finite f hb ha, Bool.xor_comm, Nat.mul_comm]
  · exact (fpArith_signals _ a b g hg).oneCause
  · have hkeeps := fpArith_signals f a b g hg
    exact ⟨(hkeeps.keeps (by omega)).2 (by omega) (by omega), (hkeeps.keeps (by omega)).2 (by omega) (by omega)⟩

/-! ### Quotients rounded toward and away from zero (R181) -/

/-- The mode drops the remainder of a magnitude of the given sign. -/
def RoundMode.towardZero (neg : Bool) : RoundMode → Bool
  | .RN => false
  | .RZ => true
  | .RP => neg
  | .RM => !neg

/-- The mode rounds a magnitude of the given sign up. -/
def RoundMode.awayFromZero (neg : Bool) : RoundMode → Bool
  | .RN => false
  | .RZ => false
  | .RP => !neg
  | .RM => neg

theorem ceilDiv_eq_ite (num : Nat) {den : Nat} (hd : 0 < den) :
    num ⌈/⌉ den = if num % den ≠ 0 then num / den + 1 else num / den := by
  have hdiv := Nat.div_add_mod' num den
  have hr := Nat.mod_lt num hd
  rw [Nat.ceilDiv_eq_add_pred_div]
  have hsucc := Nat.add_one_mul (num / den) den
  split
  · exact Nat.div_eq_of_lt_le (by omega) (by rw [Nat.add_one_mul]; omega)
  · exact Nat.div_eq_of_lt_le (by omega) (by omega)

section
variable {rm : RoundMode} {neg : Bool} (num : Nat) {den : Nat}

theorem roundQuotient_of_towardZero (h : rm.towardZero neg = true) : roundQuotient rm neg num den = num / den := by
  cases rm <;> cases neg <;> simp_all [roundQuotient, RoundMode.towardZero]

theorem roundQuotient_of_awayFromZero (hd : 0 < den) (h : rm.awayFromZero neg = true) :
    roundQuotient rm neg num den = num ⌈/⌉ den := by
  rw [ceilDiv_eq_ite num hd]
  cases rm <;> cases neg <;> simp_all [roundQuotient, RoundMode.awayFromZero]

end

/-- Rounded to nearest, a quotient is at most half a unit off; at just half it is even. -/
theorem roundQuotient_half (neg : Bool) (num : Nat) {den : Nat} (hd : 0 < den) :
    2 * |(num : Int) - roundQuotient .RN neg num den * den| ≤ den ∧
    (2 * |(num : Int) - roundQuotient .RN neg num den * den| = den → roundQuotient .RN neg num den % 2 = 0) := by
  have hr := Nat.mod_lt num hd
  have hdiv : (num : Int) = (num / den : Nat) * den + (num % den : Nat) := by
    exact_mod_cast (Nat.div_add_mod' num den).symm
  have hfloor : |(num : Int) - (num / den : Nat) * den| = (num % den : Nat) := by
    rw [abs_of_nonneg] <;> omega
  have hceil : |(num : Int) - ((num / den : Nat) + 1) * den| = den - (num % den : Nat) := by
    rw [add_one_mul, abs_of_nonpos] <;> omega
  obtain ⟨hle, heven⟩ := roundQuotient_nearest neg num hd (num / den : Nat)
  obtain ⟨hle', heven'⟩ := roundQuotient_nearest neg num hd ((num / den : Nat) + 1)
  rw [hfloor] at hle heven
  rw [hceil] at hle' heven'
  omega

/-! ### Rounding to an integer (R181) -/

theorem abs_div_sub_roundQuotient (neg : Bool) (num : Nat) {den : Nat} (hd : 0 < den) :
    |(num : ℚ) / den - roundQuotient .RN neg num den| ≤ 1 / 2 ∧
    (|(num : ℚ) / den - roundQuotient .RN neg num den| = 1 / 2 → roundQuotient .RN neg num den % 2 = 0) := by
  obtain ⟨hhalf, heven⟩ := roundQuotient_half neg num hd
  have hd' : (0 : ℚ) < den := by exact_mod_cast hd
  have habs : |(num : ℚ) / den - roundQuotient .RN neg num den| =
      ((|(num : Int) - roundQuotient .RN neg num den * den| : Int) : ℚ) / den := by
    rw [div_sub' hd'.ne', abs_div, abs_of_pos hd', mul_comm (den : ℚ)]
    push_cast
    rfl
  rw [habs, div_le_div_iff₀ hd' two_pos, div_eq_div_iff hd'.ne' two_ne_zero, mul_comm, one_mul]
  exact ⟨by exact_mod_cast hhalf, fun h => heven (by exact_mod_cast h)⟩

theorem ceil_natCast_div (num : Nat) {den : Nat} (hd : 0 < den) : ⌈(num : ℚ) / den⌉ = (num ⌈/⌉ den : Nat) := by
  have hceil : ⌈(num : ℚ) / den⌉₊ = num ⌈/⌉ den := eq_of_forall_ge_iff fun t => by
    rw [Nat.ceil_le, div_le_iff₀ (by exact_mod_cast hd), ceilDiv_le_iff_le_mul hd, Nat.mul_comm]
    exact_mod_cast Iff.rfl
  rw [← hceil, Int.natCast_ceil_eq_ceil (by positivity)]

/-- A magnitude rounded with its sign put on is the integer that the mode names. -/
theorem roundQuotient_roundsToInt (rm : RoundMode) (neg : Bool) (num : Nat) {den : Nat} (hd : 0 < den) :
    roundsToInt rm ((if neg then -1 else 1) * ((num : ℚ) / den))
      (if neg then -(roundQuotient rm neg num den : Int) else roundQuotient rm neg num den) := by
  have hfloor : ⌊(num : ℚ) / den⌋ = (num / den : Nat) := Rat.floor_natCast_div_natCast num den
  have hceil := ceil_natCast_div num hd
  have hnonneg : (0 : ℚ) ≤ num / den := by positivity
  cases rm with
  | RN =>
    obtain ⟨hhalf, heven⟩ := abs_div_sub_roundQuotient neg num hd
    have hsigned : |(if neg then -1 else 1) * ((num : ℚ) / den) -
        ((if neg then -(roundQuotient .RN neg num den : Int) else roundQuotient .RN neg num den : Int) : ℚ)| =
        |(num : ℚ) / den - roundQuotient .RN neg num den| := by
      cases neg
      · simp
      · simp [neg_add_eq_sub, abs_sub_comm]
    refine ⟨hsigned.trans_le hhalf, fun h => ?_⟩
    have heven' := heven (hsigned.symm.trans h)
    split <;> omega
  | RZ =>
    rw [roundQuotient_of_towardZero num rfl]
    cases neg
    · simp [roundsToInt, hnonneg, hfloor]
    · rcases hnonneg.eq_or_lt with h0 | hpos
      · have hq : num / den = 0 := by
          rw [← h0, Int.floor_zero] at hfloor
          exact_mod_cast hfloor.symm
        simp [roundsToInt, ← h0, hq]
      · simp [roundsToInt, hpos.not_ge, Int.ceil_neg, hfloor]
  | RP =>
    cases neg
    · rw [roundQuotient_of_awayFromZero num hd rfl]
      simp [roundsToInt, hceil]
    · rw [roundQuotient_of_towardZero num rfl]
      simp [roundsToInt, Int.ceil_neg, hfloor]
  | RM =>
    cases neg
    · rw [roundQuotient_of_towardZero num rfl]
      simp [roundsToInt, hfloor]
    · rw [roundQuotient_of_awayFromZero num hd rfl]
      simp [roundsToInt, Int.floor_neg, hceil]

theorem roundToInteger_roundsToInt (rm : RoundMode) (p : Word) : roundsToInt rm (fpVal p) (roundToInteger rm p) := by
  have hv : fpVal p = (if fpSign p then -1 else 1) * ((fpMag p : ℚ) / unitsPerOne) := by
    rw [fpVal_signed, signedValue_eq, Nat.cast_one, div_one, cast_unitsPerOne]
  rw [hv]
  exact roundQuotient_roundsToInt rm _ _ unitsPerOne_pos

/-! ### Conversions from double (R182, R183) -/

theorem ite_outside {α : Type} (n lo hi : Int) (outside inside : α) :
    (if n < lo ∨ n > hi then outside else inside) = if lo ≤ n ∧ n ≤ hi then inside else outside := by
  by_cases h : lo ≤ n ∧ n ≤ hi
  · rw [if_pos h, if_neg (by omega)]
  · rw [if_neg h, if_pos (by omega)]

section
variable (rm : RoundMode) (sl : BitVec 64) (sw : BitVec 32) {p : Word}

theorem cvt_of_not_finite (h : isFinite p = false) : cvtDoubleToLong rm sl p = sl ∧ cvtDoubleToWord rm sw p = sw := by
  have hor : (isNaN p || isInf p) = true := by simpa using isFinite_eq_false.mp h
  simp [cvtDoubleToLong, cvtDoubleToWord, hor]

theorem cvtDoubleToLong_of_finite (h : isFinite p = true) : cvtDoubleToLong rm sl p =
    if -(2 ^ 63) ≤ roundToInteger rm p ∧ roundToInteger rm p ≤ 2 ^ 63 - 1 then BitVec.ofInt 64 (roundToInteger rm p)
    else sl := by
  simp [cvtDoubleToLong, not_nan_inf_of_finite h, ite_outside]

theorem cvtDoubleToWord_of_finite (h : isFinite p = true) : cvtDoubleToWord rm sw p =
    if -(2 ^ 31) ≤ roundToInteger rm p ∧ roundToInteger rm p ≤ 2 ^ 31 - 1 then BitVec.ofInt 32 (roundToInteger rm p)
    else sw := by
  simp [cvtDoubleToWord, not_nan_inf_of_finite h, ite_outside]

end

/-! ### Directed rounding to a pattern (R181) -/

section
variable {rm : RoundMode} {neg : Bool} {num : Nat}

/-- A finite magnitude at the place of num units is whole, or lies below num and below every significand of that place. -/
theorem fpMag_place {q : Word} (hq : isFinite q = true) (num : Nat) :
    (∃ t, fpMag q = t * 2 ^ (num.log2 - 52)) ∨
      (fpMag q < 2 ^ 52 * 2 ^ (num.log2 - 52) ∧ 2 ^ 52 * 2 ^ (num.log2 - 52) ≤ num) := by
  have hplace := (place_bounds num 1).2
  rw [Nat.div_one, Nat.one_mul, Nat.le_div_iff_mul_le (by positivity)] at hplace
  rcases hplace with h | h
  · exact .inl ⟨fpMag q, by rw [h, pow_zero, Nat.mul_one]⟩
  · exact (fpMag_grid hq _).imp_right fun hlt => ⟨hlt, h⟩

theorem roundToPattern_towardZero (h : rm.towardZero neg = true) (hmax : num ≤ dblMaxUnits) :
    fpMag (roundToPattern rm neg num 1) ≤ num ∧
    ∀ q, isFinite q = true → fpMag q ≤ num → fpMag q ≤ fpMag (roundToPattern rm neg num 1) := by
  obtain ⟨-, -, hmag⟩ := roundToPattern_units rm neg hmax
  rw [hmag, roundQuotient_of_towardZero num h]
  refine ⟨Nat.div_mul_le_self .., fun q hq hle => ?_⟩
  have hpos : 0 < 2 ^ (num.log2 - 52) := by positivity
  rcases fpMag_place hq num with ⟨t, ht⟩ | ⟨hlt, hplace⟩
  · rw [ht] at hle ⊢
    exact Nat.mul_le_mul_right _ ((Nat.le_div_iff_mul_le hpos).mpr hle)
  · exact hlt.le.trans (Nat.mul_le_mul_right _ ((Nat.le_div_iff_mul_le hpos).mpr hplace))

theorem roundToPattern_awayFromZero (h : rm.awayFromZero neg = true) (hmax : num ≤ dblMaxUnits) :
    num ≤ fpMag (roundToPattern rm neg num 1) ∧
    ∀ q, isFinite q = true → num ≤ fpMag q → fpMag (roundToPattern rm neg num 1) ≤ fpMag q := by
  obtain ⟨-, -, hmag⟩ := roundToPattern_units rm neg hmax
  have hpos : 0 < 2 ^ (num.log2 - 52) := by positivity
  rw [hmag, roundQuotient_of_awayFromZero num hpos h]
  refine ⟨?_, fun q hq hle => ?_⟩
  · rw [Nat.mul_comm, ← ceilDiv_le_iff_le_mul hpos]
  · rcases fpMag_place hq num with ⟨t, ht⟩ | ⟨hlt, hplace⟩
    · rw [ht] at hle ⊢
      exact Nat.mul_le_mul_right _ ((ceilDiv_le_iff_le_mul hpos).mpr (by rwa [Nat.mul_comm]))
    · omega

end

/-! ### Integers in units -/

section
variable {n : Int} {p q : Word}

theorem fpVal_le_fpVal_iff : fpVal p ≤ fpVal q ↔ fpUnits p ≤ fpUnits q := by
  rw [fpVal_eq, fpVal_eq, div_le_div_iff_of_pos_right (by positivity), Int.cast_le]

theorem le_fpVal_iff : (n : ℚ) ≤ fpVal p ↔ n * unitsPerOne ≤ fpUnits p := by
  rw [fpVal_eq, le_div_iff₀ (by positivity), ← cast_unitsPerOne]
  exact_mod_cast Iff.rfl

theorem fpVal_le_iff : fpVal p ≤ n ↔ fpUnits p ≤ n * unitsPerOne := by
  rw [fpVal_eq, div_le_iff₀ (by positivity), ← cast_unitsPerOne]
  exact_mod_cast Iff.rfl

theorem fpUnits_natAbs (p : Word) : (fpUnits p).natAbs = fpMag p := unitsAlong_natAbs false p

theorem natAbs_mul_unitsPerOne (n : Int) : (n * unitsPerOne).natAbs = n.natAbs * unitsPerOne := Int.natAbs_mul n _

theorem abs_fpVal_le_abs_fpVal_iff : |fpVal p| ≤ |fpVal q| ↔ (fpUnits p).natAbs ≤ (fpUnits q).natAbs := by
  rw [abs_fpVal, abs_fpVal, div_le_div_iff_of_pos_right (by positivity), Nat.cast_le, fpUnits_natAbs, fpUnits_natAbs]

theorem abs_fpVal_le_iff : |fpVal p| ≤ |(n : ℚ)| ↔ (fpUnits p).natAbs ≤ (n * unitsPerOne).natAbs := by
  rw [abs_fpVal, div_le_iff₀ (by positivity), ← cast_unitsPerOne, ← Int.cast_abs, Int.abs_eq_natAbs,
    fpUnits_natAbs, natAbs_mul_unitsPerOne]
  exact_mod_cast Iff.rfl

theorem signedValue_ofInt (n : Int) : signedValue (decide (n < 0)) (n.natAbs * unitsPerOne) 1 = n := by
  have hB : (2 : ℚ) ^ 1074 ≠ 0 := by positivity
  rw [signedValue_eq, Nat.cast_mul, cast_unitsPerOne, Nat.cast_one, div_one, mul_div_cancel_right₀ _ hB, Nat.cast_natAbs]
  rcases lt_or_ge n 0 with h | h
  · simp [h, abs_of_neg h]
  · simp [h.not_gt, abs_of_nonneg h]

theorem natAbs_toInt_le {w : Nat} (v : BitVec w) : v.toInt.natAbs ≤ 2 ^ (w - 1) := by
  have habs : |v.toInt| ≤ 2 ^ (w - 1) := abs_le.mpr ⟨BitVec.le_toInt v, BitVec.toInt_lt.le⟩
  rw [Int.abs_eq_natAbs] at habs
  exact_mod_cast habs

/-- Every integer of 64 bits lies within DBL_MAX. -/
theorem units_le_dblMaxUnits (h : n.natAbs ≤ 2 ^ 63) : n.natAbs * unitsPerOne ≤ dblMaxUnits := by
  have hpow : ∀ k e : Nat, 63 + k ≤ e → 2 ^ 63 * 2 ^ k ≤ 2 ^ e := fun k e h => by
    rw [← pow_add]
    exact Nat.pow_le_pow_right two_pos h
  rw [unitsPerOne, dblMaxUnits]
  calc n.natAbs * 2 ^ 1074
    _ ≤ 2 ^ 63 * 2 ^ 1074 := Nat.mul_le_mul_right _ h
    _ ≤ 2 ^ 2045 := hpow 1074 2045 (by norm_num)
    _ ≤ (2 ^ 53 - 1) * 2 ^ 2045 := Nat.le_mul_of_pos_left _ (by norm_num)

/-- An integer of at most 53 bits fits a significand; 2^53 itself is one place up. -/
theorem units_form (h : n.natAbs ≤ 2 ^ 53) : ∃ m j, n.natAbs * unitsPerOne = m * 2 ^ j ∧ m < 2 ^ 53 := by
  rcases Nat.lt_or_eq_of_le h with hlt | heq
  · exact ⟨n.natAbs, 1074, rfl, hlt⟩
  · exact ⟨2 ^ 52, 1074 + 1, by rw [heq, unitsPerOne, pow_succ' 2 1074, ← Nat.mul_assoc, ← pow_succ 2 52], by norm_num⟩

end

/-! ### Integers converted to double (R181, R184, R185) -/

section
variable {rm : RoundMode} {n : Int}

/-- The zero of `roundToFP` is no special case. -/
theorem roundToFP_eq (rm : RoundMode) (n : Int) :
    roundToFP rm n = roundToPattern rm (decide (n < 0)) (n.natAbs * unitsPerOne) 1 := by
  by_cases h : n = 0
  · subst h
    have hsign : fpSign fpPZERO = false := by decide
    have hmag : fpMag fpPZERO = 0 := by decide
    have hown := roundToPattern_own rm (p := fpPZERO) (by decide)
    rw [hsign, hmag] at hown
    rw [roundToFP, if_pos rfl, Int.natAbs_zero, Nat.zero_mul]
    exact hown.symm
  · rw [roundToFP, if_neg h]

theorem roundToFP_facts (rm : RoundMode) (h : n.natAbs ≤ 2 ^ 63) :
    isFinite (roundToFP rm n) = true ∧ fpSign (roundToFP rm n) = decide (n < 0) := by
  rw [roundToFP_eq]
  obtain ⟨hfin, hsign, -⟩ := roundToPattern_units rm (decide (n < 0)) (units_le_dblMaxUnits h)
  exact ⟨hfin, hsign⟩

theorem fpVal_roundToFP (rm : RoundMode) (h : n.natAbs ≤ 2 ^ 53) : fpVal (roundToFP rm n) = n := by
  have hmax : n.natAbs * unitsPerOne ≤ dblMaxUnits := units_le_dblMaxUnits (by omega)
  obtain ⟨m, j, hm, hm53⟩ := units_form h
  have hmag : fpMag (roundToFP rm n) = n.natAbs * unitsPerOne := by
    rw [roundToFP_eq, hm]
    exact fpMag_roundToPattern_exact rm _ hm53 (hm ▸ hmax)
  rw [fpVal_signed, (roundToFP_facts rm (by omega)).2, hmag, signedValue_ofInt]

theorem isNearestEven_self {p : Word} (hp : isFinite p = true) : isNearestEven p (fpVal p) := by
  refine ⟨hp, fun q _ => ?_, fun q _ heq hne => absurd ?_ hne⟩
  · rw [sub_self, abs_zero]
    exact abs_nonneg _
  · rwa [sub_self, abs_zero, abs_eq_zero, sub_eq_zero] at heq

theorem roundToFP_nearest (h : n.natAbs ≤ 2 ^ 63) : isNearestEven (roundToFP .RN n) n := by
  by_cases h0 : n = 0
  · have hv : fpVal (roundToFP .RN n) = n := fpVal_roundToFP .RN (by omega)
    exact hv ▸ isNearestEven_self (roundToFP_facts .RN h).1
  · have hpos : 0 < n.natAbs * unitsPerOne := Nat.mul_pos (by omega) unitsPerOne_pos
    have hmax : n.natAbs * unitsPerOne ≤ dblMaxUnits * 1 := by
      rw [Nat.mul_one]
      exact units_le_dblMaxUnits h
    rw [roundToFP_eq, ← signedValue_ofInt n]
    exact roundToPattern_nearest _ hpos Nat.one_pos hmax

/-- An integer's units and its rounded value lie on the integer's side of zero. -/
theorem roundToFP_side (rm : RoundMode) (h : n.natAbs ≤ 2 ^ 63) :
    (n < 0 → n * unitsPerOne ≤ 0 ∧ fpUnits (roundToFP rm n) ≤ 0) ∧
    (0 ≤ n → 0 ≤ n * unitsPerOne ∧ 0 ≤ fpUnits (roundToFP rm n)) := by
  have hU : (0 : Int) ≤ unitsPerOne := Int.natCast_nonneg _
  rw [fpUnits, (roundToFP_facts rm h).2]
  refine ⟨fun hn => ⟨mul_nonpos_of_nonpos_of_nonneg hn.le hU, ?_⟩, fun hn => ⟨mul_nonneg hn hU, ?_⟩⟩
  · rw [if_pos (decide_eq_true hn)]
    exact neg_nonpos.mpr (Int.natCast_nonneg _)
  · rw [if_neg (by simpa using hn)]
    exact Int.natCast_nonneg _

theorem fpVal_roundToFP_mul_nonneg (rm : RoundMode) (h : n.natAbs ≤ 2 ^ 63) : 0 ≤ fpVal (roundToFP rm n) * n := by
  obtain ⟨hneg, hpos⟩ := roundToFP_side rm h
  rw [fpVal_eq]
  rcases lt_or_ge n 0 with hn | hn
  · have hu : (fpUnits (roundToFP rm n) : ℚ) ≤ 0 := by exact_mod_cast (hneg hn).2
    exact mul_nonneg_of_nonpos_of_nonpos (div_nonpos_of_nonpos_of_nonneg hu (by positivity)) (by exact_mod_cast hn.le)
  · have hu : (0 : ℚ) ≤ fpUnits (roundToFP rm n) := by exact_mod_cast (hpos hn).2
    exact mul_nonneg (div_nonneg hu (by positivity)) (by exact_mod_cast hn)

theorem roundToFP_towardZero (hrm : rm.towardZero (decide (n < 0)) = true) (h : n.natAbs ≤ 2 ^ 63) :
    (fpUnits (roundToFP rm n)).natAbs ≤ (n * unitsPerOne).natAbs ∧
    ∀ q, isFinite q = true → (fpUnits q).natAbs ≤ (n * unitsPerOne).natAbs →
      (fpUnits q).natAbs ≤ (fpUnits (roundToFP rm n)).natAbs := by
  simp only [fpUnits_natAbs, natAbs_mul_unitsPerOne, roundToFP_eq]
  exact roundToPattern_towardZero hrm (units_le_dblMaxUnits h)

theorem roundToFP_awayFromZero (hrm : rm.awayFromZero (decide (n < 0)) = true) (h : n.natAbs ≤ 2 ^ 63) :
    (n * unitsPerOne).natAbs ≤ (fpUnits (roundToFP rm n)).natAbs ∧
    ∀ q, isFinite q = true → (n * unitsPerOne).natAbs ≤ (fpUnits q).natAbs →
      (fpUnits (roundToFP rm n)).natAbs ≤ (fpUnits q).natAbs := by
  simp only [fpUnits_natAbs, natAbs_mul_unitsPerOne, roundToFP_eq]
  exact roundToPattern_awayFromZero hrm (units_le_dblMaxUnits h)

/-- Toward +infinity is toward zero below zero and away from it above. -/
theorem roundToFP_up (h : n.natAbs ≤ 2 ^ 63) : n * unitsPerOne ≤ fpUnits (roundToFP .RP n) ∧
    ∀ q, isFinite q = true → n * unitsPerOne ≤ fpUnits q → fpUnits (roundToFP .RP n) ≤ fpUnits q := by
  obtain ⟨hneg, hpos⟩ := roundToFP_side .RP h
  rcases lt_or_ge n 0 with hn | hn
  · obtain ⟨hle, hnearest⟩ := roundToFP_towardZero (rm := .RP) (decide_eq_true hn) h
    exact ⟨by omega, fun q hq hqn => by have := hnearest q hq; omega⟩
  · obtain ⟨hle, hnearest⟩ := roundToFP_awayFromZero (rm := .RP) (by simpa [RoundMode.awayFromZero] using hn) h
    exact ⟨by omega, fun q hq hqn => by have := hnearest q hq; omega⟩

/-- Toward -infinity is away from zero below zero and toward it above. -/
theorem roundToFP_down (h : n.natAbs ≤ 2 ^ 63) : fpUnits (roundToFP .RM n) ≤ n * unitsPerOne ∧
    ∀ q, isFinite q = true → fpUnits q ≤ n * unitsPerOne → fpUnits q ≤ fpUnits (roundToFP .RM n) := by
  obtain ⟨hneg, hpos⟩ := roundToFP_side .RM h
  rcases lt_or_ge n 0 with hn | hn
  · obtain ⟨hle, hnearest⟩ := roundToFP_awayFromZero (rm := .RM) (decide_eq_true hn) h
    exact ⟨by omega, fun q hq hqn => by have := hnearest q hq; omega⟩
  · obtain ⟨hle, hnearest⟩ := roundToFP_towardZero (rm := .RM) (by simpa [RoundMode.towardZero] using hn) h
    exact ⟨by omega, fun q hq hqn => by have := hnearest q hq; omega⟩

theorem roundToFP_roundsToFp (rm : RoundMode) (h : n.natAbs ≤ 2 ^ 63) : roundsToFp rm n (roundToFP rm n) := by
  refine ⟨(roundToFP_facts rm h).1, ?_⟩
  cases rm with
  | RN => exact roundToFP_nearest h
  | RZ =>
    simp only [abs_fpVal_le_iff, abs_fpVal_le_abs_fpVal_iff]
    obtain ⟨hle, hnearest⟩ := roundToFP_towardZero (rm := .RZ) rfl h
    exact ⟨hle, fpVal_roundToFP_mul_nonneg .RZ h, hnearest⟩
  | RP =>
    simp only [le_fpVal_iff, fpVal_le_fpVal_iff]
    exact roundToFP_up h
  | RM =>
    simp only [fpVal_le_iff, fpVal_le_fpVal_iff]
    exact roundToFP_down h

end

/-- Settles O54: each mode rounds a magnitude toward zero, away from it or to nearest; an integer of at most 53 bits is
rounded by none. -/
theorem conversionValues : Obligations.ConversionValues := by
  refine ⟨fun rm sl sw p => ⟨cvt_of_not_finite rm sl sw, fun hp => ?_⟩, fun rm v => ⟨?_, fun h => ?_, ?_⟩, fun v => ?_⟩
  · exact ⟨roundToInteger rm p, roundToInteger_roundsToInt rm p, cvtDoubleToLong_of_finite rm sl hp,
      cvtDoubleToWord_of_finite rm sw hp⟩
  · exact roundToFP_roundsToFp rm (natAbs_toInt_le v)
  · exact fpVal_roundToFP rm (by rw [Int.abs_eq_natAbs] at h; omega)
  · rintro rfl
    rfl
  · have hv : v.toInt.natAbs ≤ 2 ^ 31 := natAbs_toInt_le v
    refine ⟨(roundToFP_facts .RN (by omega)).1, fpVal_roundToFP .RN (by omega), ?_⟩
    rintro rfl
    rfl

end Sys2Proof.Machine

/-! # Family 41_pipeline: the steps of a cycle, and the cycles that stop, stall, redirect or run through -/

namespace Sys2Proof.Machine

/-! ### The executor and the decoded instruction (R210, R211) -/

/-- IF of an admitted instruction is its `exec` on the new record (R217). -/
theorem ifStep_of_decode {s : State} {w : InstrWord} {i : Instr} (hw : s.fetchAt s.pc = .word w)
    (hd : decode w = .instr i) (ht : s.cfg.tiers.admits i.tier = true) (hh : s.haltFetched = false)
    (ho : s.outcome ≠ .raw) :
    s.fetched.slotIF = some (newRecord s.pc w (.instr i)) ∧ ifStep s = exec i s.fetched := by
  have hrec : s.fetchRecord s.pc = newRecord s.pc w (.instr i) := by
    simp [State.fetchRecord, hw, fetchedOp, hd, ht]
  exact ⟨congrArg some hrec, ifStep_instr ho hh (by rw [hrec]; rfl)⟩

theorem State.drained_iff {s : State} : s.drained = true ↔
    s.slotIF = none ∧ s.slotID = none ∧ s.slotEX = none ∧ s.slotMEM = none ∧ s.slotWB = none := by
  simp [State.drained, and_assoc]

/-- Settles O6: the call of a stage, IF of the instruction it decodes, and a cycle with four bubbles before IF. -/
theorem stepRunsDecodedInstruction : Obligations.StepRunsDecodedInstruction := by
  refine ⟨fun st s r i hs hi => callStage_instr hs hi, fun s w i hw hd ht hh ho => ifStep_of_decode hw hd ht hh ho,
    fun s w i hrun hdrained hw hd ht hh => ?_⟩
  obtain ⟨-, hid, hex, hmem, hwb⟩ := State.drained_iff.mp hdrained
  obtain ⟨t, hexec⟩ := exec_next i s.fetched
  have hif : ifStep (s.enter .ID) = .next t :=
    (ifStep_of_decode (s := s.enter .ID) hw hd ht hh (by simp)).2.trans hexec
  exact ⟨t, hexec,
    step_full hrun (beforeID_bubbles hrun hwb hmem hex) hrun (idStep_bubble (s := s.enter .EX) hid) hrun hif⟩

/-! ### Stops (R226, R493, R510) -/

section
variable {s v : State} {k : FaultKind}

theorem memStep_fault (hv : callStage .MEM s = .next v) (ho : v.outcome = .fault k) :
    memStep s = .next (v.stop (.faulted k .MEM (s.fetchedPCOf .MEM))) := by
  simp only [memStep, hv, andThen, ho]

theorem exStep_fault (hv : callStage .EX s = .next v) (ho : v.outcome = .fault k) :
    exStep s = .next (v.stop (.faulted k .EX (s.fetchedPCOf .EX))) := by
  simp only [exStep, hv, andThen, ho]

/-- ID's stop tells BREAK from a fault (R493). -/
theorem idStep_fault (hv : callStage .ID s = .next v) (ho : v.outcome = .fault k) :
    idStep s = .next (v.stop (if k = .breakpoint then .stoppedBreak (s.fetchedPCOf .ID)
      else .faulted k .ID (s.fetchedPCOf .ID))) := by
  by_cases hk : k = .breakpoint
  · subst hk
    simp only [idStep, hv, andThen, ho, if_true]
  · simp only [idStep, hv, andThen, ho, if_neg hk]

end

/-- A fault or BREAK in ID ends the cycle there (R226, R493). -/
theorem step_fault_id {s c v : State} {k : FaultKind} (hs : s.status = .running) (hc : beforeID s = .next c)
    (hrun : c.status = .running) (hv : callStage .ID c = .next v) (ho : v.outcome = .fault k) :
    step s = .next (v.stop (if k = .breakpoint then .stoppedBreak (c.fetchedPCOf .ID)
      else .faulted k .ID (c.fetchedPCOf .ID))) :=
  step_stopped_id hs hc hrun (idStep_fault hv ho) (by rw [State.stop_status]; split <;> simp)

/-- Settles O7: a stage's fault makes its step stop the run, and a stopped run passes the steps after it by. -/
theorem faultStopsRun : Obligations.FaultStopsRun := by
  refine ⟨fun s => ⟨fun ⟨t, ht⟩ => (step_cases ht).1, fun hs => ?_⟩, fun s a v k hs ha hv ho => ?_,
    fun s a b v k hs ha hb hrun hv ho => ?_, fun s c v k hs hc hrun hv ho => step_fault_id hs hc hrun hv ho,
    fun s c r k hs hc hrun hr hk hbreak => ?_, fun st s r k hst hr hk => callStage_poison hr hk hst,
    fun ea pc n w => rfl, fun k st pc => ⟨rfl, rfl⟩⟩
  · obtain ⟨t, ht, -⟩ := step_effect hs
    exact ⟨t, ht⟩
  · exact step_stopped hs (beforeID_stopped ha (memStep_fault hv ho) (by simp)) (by simp)
  · exact step_stopped hs (beforeID_of ha hb hrun (exStep_fault hv ho)) (by simp)
  · have hcall := callStage_poison_id hr hk
    refine ⟨hcall, (step_fault_id hs hc hrun hcall rfl).trans ?_⟩
    rw [if_neg hbreak, fetchedPCOf_eq (st := .ID) hr]
    rfl

/-! ### IF (R217, R218) -/

/-- What IF does where it runs: the fetch is traced, the record placed, HALT noted and PC moved (R217, R218, R224,
R262, R530). -/
structure Fetches (s t : State) : Prop where
  trace : t.trace = s.trace ++ [.fetch s.pc]
  lastFetchedPC : t.lastFetchedPC = s.pc
  record : t.slotIF.map (fun r => { r with predictedTaken := false }) = some (s.fetchRecord s.pc)
  halt : t.haltFetched = true ↔ (s.fetchRecord s.pc).op = .instr .halt
  pc : t.pc = s.pc + 4 ∨ ∃ i op offset, (s.fetchRecord s.pc).op = .instr i ∧ i.branch? = some (op, offset) ∧
    s.prediction op s.pc = true ∧ t.pc = branchTarget s.pc offset

/-- The record of a fetch: no prediction is made yet, and its fetched PC is the address of the fetch (R217). -/
theorem State.fetchRecord_fields (s : State) (pc : Word) :
    (s.fetchRecord pc).predictedTaken = false ∧ (s.fetchRecord pc).fetchedPC = pc := by
  unfold State.fetchRecord
  split <;> exact ⟨rfl, rfl⟩

/-- A fetch reads instruction memory and the admitted tiers, nothing else (R95, R217). -/
theorem State.fetchRecord_congr {s t : State} (him : s.im = t.im) (hcfg : s.cfg = t.cfg) (pc : Word) :
    s.fetchRecord pc = t.fetchRecord pc := by
  simp only [State.fetchRecord, State.fetchAt, him, hcfg]

theorem IfEffect.fetches {s t : State} (h : IfEffect s t) (hraw : s.outcome ≠ .raw) (hh : s.haltFetched = false) :
    Fetches s t := by
  obtain ⟨hpred, hpc⟩ := s.fetchRecord_fields s.pc
  have hrecord : { s.fetchRecord s.pc with predictedTaken := false } = s.fetchRecord s.pc := by
    rw [← hpred]
  cases h with
  | stalled h => exact absurd h hraw
  | halted _ h => simp [hh] at h
  | poison _ _ k hk => exact ⟨rfl, rfl, congrArg some hrecord, by simp [hh, hk], .inl rfl⟩
  | halt _ _ hi => exact ⟨rfl, rfl, congrArg some hrecord, by simp [hi], .inl rfl⟩
  | other _ _ i hi hb hn => exact ⟨rfl, rfl, congrArg some hrecord, by simp [hh, hi, hn], .inl rfl⟩
  | branch _ _ i op offset hi hb =>
    have hn : i ≠ .halt := by rintro rfl; cases hb
    have hnext : (predictAtIF op offset (s.fetchRecord s.pc) s.fetched).pc =
        if s.prediction op s.pc = true then branchTarget s.pc offset else s.pc + 4 := by
      rw [predictAtIF, hpc]; rfl
    refine ⟨rfl, rfl, congrArg some hrecord, by simp [predictAtIF, hh, hi, hn], ?_⟩
    by_cases htaken : s.prediction op s.pc = true
    · exact .inr ⟨i, op, offset, hi, hb, htaken, by rw [hnext, if_pos htaken]⟩
    · exact .inl (by rw [hnext, if_neg htaken])

/-- In a stall and after a HALT, IF does nothing (R220, R224). -/
theorem ifStep_skips {s : State} (h : s.outcome = .raw ∨ s.haltFetched = true) : ifStep s = .next s := by
  rcases h with h | h <;> simp [ifStep, h]

/-- Settles O9, by what the fetched record is. -/
theorem fetchAdvancesPc : Obligations.FetchAdvancesPc := by
  refine ⟨fun s => ifStep_skips, fun s hraw hh => ?_⟩
  obtain ⟨t, ht, heff⟩ := ifStep_effect s
  obtain ⟨htrace, hlast, hrecord, hhalt, hpc⟩ := heff.fetches hraw hh
  obtain ⟨hfcsr, hpt, hmem, -⟩ := heff.rest
  exact ⟨t, ht, htrace, hlast, hrecord, hhalt, hpc, hmem, hfcsr, hpt, fun q => ⟨heff.readReg q, heff.rc q⟩⟩

/-! ### Stalls (R220) -/

theorem idStep_stall {c : State} {r : InFlight} {i : Instr} (h : c.slotID = some r) (hi : r.op = .instr i)
    (hz : c.rawHazard i.operands.srcs = true) : idStep c = .next ((c.enter .ID).done .raw).countStall := by
  rw [idStep, callStage_instr (st := .ID) h hi, exec_id i (State.enter_phase _ _) h, idStage, enter_rawHazard, if_pos hz]
  rfl

/-- Settles O10: the occupant that stays in ID also keeps the run from terminating. -/
theorem stallHoldsDecode : Obligations.StallHoldsDecode := by
  intro s c r i hs hc hrun hr hi hz
  refine (step_full hs hc hrun (idStep_stall hr hi hz) hrun (ifStep_skips (.inl rfl))).trans (congrArg _ ?_)
  apply State.ext <;> simp [endOfCycle, State.drained, hr]

/-! ### Redirects (R221 to R223) -/

/-- Step 3 is the call of EX's stage function and the executor's reaction to it. -/
theorem ExStepEffect.callStage_eq {b u c : State} (h : ExStepEffect b u c) : callStage .EX b = .next u := by
  obtain ⟨hinstr, hother⟩ := h.called
  cases hs : b.slotEX with
  | none => rw [callStage_bubble (st := .EX) hs, hother (by simp [hs])]
  | some r =>
    cases ho : r.op with
    | instr i => rw [callStage_instr (st := .EX) hs ho, hinstr r i hs ho]
    | poison k =>
      rw [callStage_poison (st := .EX) hs ho (by simp), hother fun r' i hr' => ?_]
      rw [hs] at hr'; cases hr'; simp [ho]

theorem exStep_effect_of_call {b v : State} (hv : callStage .EX b = .next v) :
    ∃ c, exStep b = .next c ∧ ExStepEffect b v c := by
  obtain ⟨u, c, hc, heff⟩ := exStep_effect b
  have hu := heff.callStage_eq
  rw [hv] at hu; cases hu
  exact ⟨c, hc, heff⟩

/-- A redirect sets PC, flushes ID and counts a misprediction (R221). -/
theorem ExStepEffect.redirect {b v c : State} {target : Word} (h : ExStepEffect b v c)
    (ho : v.outcome = .misprediction target ∨ v.outcome = .jump target) :
    c = { (v.setPc target).flushID with
      mispredictions := b.mispredictions + if v.outcome = .misprediction target then 1 else 0 } := by
  have hcount : v.mispredictions = b.mispredictions := by rw [h.frame]
  rcases h.reaction with ⟨hok, -⟩ | ⟨pc, hpc, rfl⟩ | ⟨pc, hpc, rfl⟩ | ⟨k, -, hk, -⟩
  · simp [hok] at ho
  · obtain rfl : pc = target := by simpa [hpc] using ho
    apply State.ext <;> simp [hpc, hcount]
  · obtain rfl : pc = target := by simpa [hpc] using ho
    apply State.ext <;> simp [hpc, hcount]
  · simp [hk] at ho

/-- Settles O11, from the flush of ID's slot, a bubble or an occupant. -/
theorem redirectFlushesDecode : Obligations.RedirectFlushesDecode := by
  intro b v target hv ho
  obtain ⟨c, hc, heff⟩ := exStep_effect_of_call hv
  obtain ⟨-, -, -, -, -, hex, hmem, hwb, -⟩ := heff.rest
  have hid : (v.setPc target).slotID = b.slotID := by rw [heff.frame]; rfl
  have hhalt : (v.setPc target).haltFetched = b.haltFetched := by rw [heff.frame]; rfl
  have hstatus : v.status = b.status := by rw [heff.frame]
  have hrc : ∀ q, (v.setPc target).rc q = b.rc q := by
    intro q; apply State.rc_congr <;> rw [heff.frame] <;> rfl
  obtain rfl := heff.redirect ho
  have hcrc : ∀ (n : Nat) q, ({ (v.setPc target).flushID with mispredictions := n } : State).rc q =
      (v.setPc target).flushID.rc q := fun n q => by apply State.rc_congr <;> rfl
  refine ⟨_, hc, by simp, by simp, hmem, hwb, hex, by simp [hstatus], rfl, fun r hr => ?_, fun hnone => ?_⟩
  · have hflush := State.flushID_haltFetched (hid.trans hr)
    refine ⟨fun hop => by simp [hflush, hop], fun hop => by simp [hflush, hop, ← hhalt], fun q => ?_⟩
    rw [hcrc, State.rc_flushID (hid.trans hr), hrc]
  · simp only [State.flushID_of_none (hid.trans hnone)]
    exact ⟨hhalt, hrc⟩

theorem holdsHalt_iff {o : Option InFlight} : holdsHalt o = true ↔ ∃ r, o = some r ∧ r.op = .instr .halt := by
  cases o <;> simp [holdsHalt]

/-- Settles O12: the flushed ID is a bubble in step 4, and step 5 fetches from the PC that step 3 set. -/
theorem redirectRefetchesAtTarget : Obligations.RedirectRefetchesAtTarget := by
  intro s a b v target hs ha hb hrun hv ho hhalt
  obtain ⟨c, hc, hpc, hid, hmem, hwb, hex, hstatus, -, hsome, hnone⟩ := redirectFlushesDecode b v target hv ho
  obtain ⟨c', hc', heff⟩ := exStep_effect_of_call hv
  rw [hc] at hc'; cases hc'
  obtain ⟨-, hfcsr, -, hdata, -, -, -, -, -, -, htrace⟩ := heff.rest
  have hfetch : c.haltFetched = false := by
    cases hh : b.haltFetched with
    | true =>
      obtain ⟨r, hr, hop⟩ := holdsHalt_iff.mp (hhalt hh)
      exact (hsome r hr).1 hop
    | false =>
      cases hslot : b.slotID with
      | none => rw [(hnone hslot).1, hh]
      | some r =>
        obtain ⟨hflushed, hkept, -⟩ := hsome r hslot
        by_cases hop : r.op = .instr .halt
        · exact hflushed hop
        · rw [hkept hop, hh]
  obtain ⟨e, he, hif⟩ := ifStep_effect (c.enter .ID)
  obtain ⟨etrace, elast, erecord, -, -⟩ := hif.fetches (by simp) hfetch
  obtain ⟨efcsr, -, emem, eID, eEX, eMEM, -⟩ := hif.rest
  have hraw : e.outcome ≠ .raw := by rw [Ne, hif.outcome]; simp
  have hrunc : c.status = .running := hstatus.trans hrun
  refine ⟨_, step_full hs (beforeID_of ha hb hrun hc) hrunc (idStep_bubble hid) hrunc he, ?_⟩
  refine ⟨?_, ?_, ?_, ?_, ?_, ?_, ?_, ?_⟩
  · simp [endOfCycle, hraw, eID, hid]
  · simp [endOfCycle, eEX, hex]
  · simp [endOfCycle, eMEM, hmem]
  · simp [endOfCycle, etrace, htrace, hpc]
  · simp [endOfCycle, elast, hpc]
  · have hrec : c.fetchRecord target = b.fetchRecord target :=
      State.fetchRecord_congr heff.keeps.im heff.keeps.cfg target
    simpa [endOfCycle, hraw, hpc, hrec] using erecord
  · simp [endOfCycle, efcsr, hfcsr]
  · simp [endOfCycle, emem, hdata]

/-! ### The account of a cycle (R54, R228) -/

/-- What each way through a cycle counts, with the model's own fields at rest after it. -/
structure Counted (s t : State) : Prop where
  cycles : t.cycles = s.cycles + 1
  phase : t.phase = .IF
  outcome : t.outcome = .ok
  retired : t.retired = s.retired + if s.slotWB.isSome then 1 else 0
  rawStalls : s.rawStalls ≤ t.rawStalls ∧ t.rawStalls ≤ s.rawStalls + 1
  mispredictions : s.mispredictions ≤ t.mispredictions ∧ t.mispredictions ≤ s.mispredictions + 1

/-- Where step 4 stops the run it counts the cycle and no stall. -/
theorem IdEffect.stopped {c d : State} (h : IdEffect c d) (hc : c.status = .running) (hd : d.status ≠ .running) :
    d.cycles = c.cycles + 1 ∧ d.phase = .IF ∧ d.outcome = .ok := by
  cases h with
  | bubble _ => exact absurd hc hd
  | stall r i _ hi hz => exact absurd hc hd
  | read r i _ hi hz hb => exact absurd (by simpa using hc) hd
  | breaks r i _ hi hz hb => simp
  | poisoned r k _ hk => simp

theorem IdEffect.rawStalls_le {c d : State} (h : IdEffect c d) :
    c.rawStalls ≤ d.rawStalls ∧ d.rawStalls ≤ c.rawStalls + 1 := by
  by_cases ho : d.outcome = .raw
  · have := (h.rawStalls.1 ho).1; omega
  · have := h.rawStalls.2 ho; omega

/-- What the first three steps count, where MEM does not stop the run. -/
theorem counts_beforeID {s a b u c : State} (ha : WbEffect s a) (hb : MemEffect a b) (hc : ExStepEffect b u c) :
    b.cycles = s.cycles ∧ c.retired = s.retired + (if s.slotWB.isSome then 1 else 0) ∧ c.rawStalls = s.rawStalls ∧
    s.mispredictions ≤ c.mispredictions ∧ c.mispredictions ≤ s.mispredictions + 1 := by
  obtain ⟨-, -, -, -, -, -, -, -, -, -, -, -, acycles, astalls, amiss, -⟩ := ha.rest
  obtain ⟨-, -, -, -, -, -, -, -, -, -, bcycles, bretired, bstalls, bmiss⟩ := hb.rest
  obtain ⟨-, -, -, -, -, -, -, -, cretired, cstalls, -⟩ := hc.rest
  have cmiss := hc.mispredictions
  exact ⟨by omega, by rw [cretired, bretired, ha.retired], by omega, by omega, by omega⟩

theorem step_counted {s t : State} (h : step s = .next t) : Counted s t := by
  obtain ⟨-, hcycle⟩ := step_cases h
  cases hcycle with
  | memStop a b ha hb =>
    obtain ⟨k, pc, rfl⟩ := hb.rest
    obtain ⟨-, -, -, -, -, -, -, -, -, -, -, -, acycles, astalls, amiss, -⟩ := ha.rest
    exact ⟨congrArg (· + 1) acycles, rfl, rfl, ha.retired, by simp [astalls], by simp [amiss]⟩
  | exStop a b u c ha hb hc hstop =>
    obtain ⟨bcycles, retired, stalls, miss⟩ := counts_beforeID ha hb hc
    obtain ⟨k, -, hstop⟩ := hstop
    have cycles : t.cycles = b.cycles + 1 := by rw [hstop, hc.frame]; rfl
    exact ⟨by omega, by rw [hstop]; rfl, by rw [hstop]; rfl, retired, by omega, miss⟩
  | idStop a b u c d ha hb hc hrunc hd hstop =>
    obtain ⟨bcycles, cretired, cstalls, miss⟩ := counts_beforeID ha hb hc
    have ccycles := (hc.running hrunc).1
    obtain ⟨cycles, hphase, hout⟩ := hd.stopped hrunc hstop
    have stalls := hd.rawStalls_le
    obtain ⟨-, -, -, -, -, -, -, -, -, -, retired, dmiss, -⟩ := hd.rest
    exact ⟨by omega, hphase, hout, by rw [retired, cretired], by omega, by omega⟩
  | full a b u c d e ha hb hc hrunc hd hrund he =>
    obtain ⟨bcycles, cretired, cstalls, miss⟩ := counts_beforeID ha hb hc
    have ccycles := (hc.running hrunc).1
    have dcycles := (hd.running hrund).1
    have stalls := hd.rawStalls_le
    obtain ⟨-, -, -, -, -, -, -, -, -, -, dretired, dmiss, -⟩ := hd.rest
    obtain ⟨-, -, -, -, -, -, -, -, ecycles, eretired, estalls, emiss⟩ := he.rest
    obtain ⟨-, -, -, -, -, -, tcycles, tretired, tstalls, tmiss, -⟩ := endOfCycle_rest e
    exact ⟨by omega, rfl, rfl, by rw [tretired, eretired, dretired, cretired], by omega, by omega⟩

/-- Settles O13: what no step of a cycle changes, and what each counts. -/
theorem cycleBookkeeping : Obligations.CycleBookkeeping := by
  intro s t h
  obtain ⟨hcfg, him, hhost⟩ := step_keeps h
  obtain ⟨hcycles, hphase, hout, hretired, ⟨hlo, hhi⟩, hmlo, hmhi⟩ := step_counted h
  exact ⟨hcycles, him, hcfg, hhost, hphase, hout, hretired, hlo, hhi, hmlo, hmhi⟩

/-! ### The end of a cycle (R219, R225) -/

/-- The run terminates exactly where a HALT is fetched and the slots are drained after the advance. -/
theorem endOfCycle_status (e : State) : (endOfCycle e).status =
    if (endOfCycle e).haltFetched && (endOfCycle e).drained then .terminated else e.status := rfl

/-- ID moves no record: what it leaves in its slot is the same instruction (R49, R212). -/
theorem IdEffect.identity {c d : State} (h : IdEffect c d) :
    d.slotID.map InFlight.identity = c.slotID.map InFlight.identity := by
  cases h with
  | bubble _ => rfl
  | stall r i _ hi hz => rfl
  | read r i hr hi hz hb => simp [hr, State.latched, InFlight.identity]
  | breaks r i hr hi hz hb => simp [hr, State.latched, InFlight.identity]
  | poisoned r k _ hk => simp

theorem identity_of_tag_eq {o p : Option InFlight} (h : o.map InFlight.tag = p.map InFlight.tag) :
    o.map InFlight.identity = p.map InFlight.identity := by
  have hview : InFlight.identity = (fun x => (x.1, x.2.1, x.2.2.1, x.2.2.2.1)) ∘ InFlight.tag := rfl
  rw [hview, ← Option.map_map, h, Option.map_map]

/-- The record in ID is the one that its stage function left, whatever the outcome (R211). -/
theorem idStep_slotID {c w d : State} (hw : callStage .ID c = .next w) (hd : idStep c = .next d) :
    d.slotID = w.slotID := by
  simp only [idStep, hw, andThen] at hd
  split at hd <;> (cases hd; rfl)

/-- Where step 4 stops the run it ends as Faulted or Stopped (R226). -/
theorem IdEffect.running_of_unstopped {c d : State} (h : IdEffect c d) (hc : c.status = .running) (hd : d.unstopped) :
    d.status = .running := by
  cases h with
  | bubble _ => exact hc
  | stall r i _ hi hz => exact hc
  | read r i _ hi hz hb => simpa using hc
  | breaks r i _ hi hz hb => simp [State.unstopped] at hd
  | poisoned r k _ hk => simp only [State.unstopped, State.stop_status] at hd; split at hd <;> simp at hd

/-- A cycle that neither stops the run nor redirects, step by step. -/
theorem step_through {s a b v t : State} (ha : wbStep s = .next a) (hb : memStep a = .next b)
    (hv : callStage .EX b = .next v) (ho : v.outcome = .ok) (h : step s = .next t) (ht : t.unstopped) :
    ∃ d e, WbEffect s a ∧ MemEffect a b ∧ ExStepEffect b v v ∧ idStep v = .next d ∧ IdEffect v d ∧
      ifStep d = .next e ∧ IfEffect d e ∧ t = endOfCycle e := by
  obtain ⟨hs, -⟩ := step_cases h
  obtain ⟨a', ha', hwb⟩ := wbStep_effect s
  rw [ha] at ha'; cases ha'
  obtain ⟨b', hb', hmem⟩ := memStep_effect a
  rw [hb] at hb'; cases hb'
  rcases hmem with hmem | hstop
  · have hrun : b.status = .running := by rw [hmem.frame, hwb.frame]; exact hs
    obtain ⟨c, hc, hex⟩ := exStep_effect_of_call hv
    obtain rfl : c = v := by
      rcases hex.reaction with ⟨-, hcv⟩ | ⟨_, hno, -⟩ | ⟨_, hno, -⟩ | ⟨_, -, hno, -⟩
      · exact hcv
      all_goals rw [ho] at hno; cases hno
    have hrunc : c.status = .running := by rw [hex.frame]; exact hrun
    obtain ⟨d, hd, hid⟩ := idStep_effect c
    have hbefore := beforeID_of ha hb hrun hc
    have hrund : d.status = .running := by
      by_contra hn
      rw [step_stopped_id hs hbefore hrunc hd hn] at h; cases h
      exact hn (hid.running_of_unstopped hrunc ht)
    obtain ⟨e, he, hif⟩ := ifStep_effect d
    rw [step_full hs hbefore hrunc hd hrund he] at h; cases h
    exact ⟨d, e, hwb, hmem, hex, hd, hid, he, hif, rfl⟩
  · obtain ⟨k, pc, rfl⟩ := hstop.rest
    rw [step_stopped hs (beforeID_stopped ha hb (by simp)) (by simp)] at h; cases h
    simp [State.unstopped] at ht

theorem endOfCycle_slots (s : State) : (endOfCycle s).slotWB = s.slotMEM ∧ (endOfCycle s).slotMEM = s.slotEX ∧
    (endOfCycle s).slotEX = (if s.outcome = .raw then none else s.slotID) ∧
    (endOfCycle s).slotID = (if s.outcome = .raw then s.slotID else s.slotIF) ∧ (endOfCycle s).slotIF = none ∧
    (endOfCycle s).cycles = s.cycles + 1 := by
  simp [endOfCycle]

/-- The occupants after a step that neither stops the run nor stalls nor redirects (R219). -/
theorem step_advances {s a b v t : State} (ha : wbStep s = .next a) (hb : memStep a = .next b)
    (hv : callStage .EX b = .next v) (ho : v.outcome = .ok) (h : step s = .next t) (ht : t.unstopped)
    (hstalls : t.rawStalls = s.rawStalls) :
    t.slotWB.map InFlight.identity = s.slotMEM.map InFlight.identity ∧ t.slotWB = b.slotMEM ∧
    t.slotMEM.map InFlight.identity = s.slotEX.map InFlight.identity ∧ t.slotMEM = v.slotEX ∧
    t.slotEX.map InFlight.identity = s.slotID.map InFlight.identity ∧
    (∀ w, callStage .ID v = .next w → t.slotEX = w.slotID) ∧
    (s.haltFetched = false →
      t.slotID.map (fun r => { r with predictedTaken := false }) = some (s.fetchRecord s.pc)) ∧
    (s.haltFetched = true → t.slotID = s.slotIF) ∧ t.slotIF = none := by
  obtain ⟨d, e, hwb, hmem, hex, hd, hid, he, hif, rfl⟩ := step_through ha hb hv ho h ht
  obtain ⟨pc1, -, -, -, -, if1, id1, ex1, mem1, -, -, halt1, -, stalls1, -, -⟩ := hwb.rest
  obtain ⟨pc2, -, -, -, if2, id2, ex2, -, -, halt2, -, -, stalls2, -⟩ := hmem.rest
  obtain ⟨-, -, -, -, if3, -, mem3, -, -, stalls3, -⟩ := hex.rest
  have pc3 : v.pc = b.pc := by rw [hex.frame]
  have id3 : v.slotID = b.slotID := by rw [hex.frame]
  have halt3 : v.haltFetched = b.haltFetched := by rw [hex.frame]
  obtain ⟨pc4, -, -, -, -, if4, ex4, mem4, -, halt4, -⟩ := hid.rest
  obtain ⟨-, -, -, id5, ex5, mem5, -, -, -, -, stalls5, -⟩ := hif.rest
  obtain ⟨wb6, mem6, ex6, id6, if6, -⟩ := endOfCycle_slots e
  have hhalt : d.haltFetched = s.haltFetched := by rw [halt4, halt3, halt2, halt1]
  have hraw : d.outcome ≠ .raw := by
    intro hraw
    have hcount := (hid.rawStalls.1 hraw).1
    have hsame : (endOfCycle e).rawStalls = e.rawStalls := rfl
    omega
  have heraw : e.outcome ≠ .raw := by rwa [Ne, hif.outcome]
  rw [if_neg heraw] at ex6 id6
  have hwbslot : (endOfCycle e).slotWB = b.slotMEM := by rw [wb6, mem5, mem4, mem3]
  have hmemslot : (endOfCycle e).slotMEM = v.slotEX := by rw [mem6, ex5, ex4]
  refine ⟨?_, hwbslot, ?_, hmemslot, ?_, fun w hw => ?_, fun hh => ?_, fun hh => ?_, if6⟩
  · rw [hwbslot, identity_of_tag_eq hmem.tags, mem1]
  · rw [hmemslot, identity_of_tag_eq hex.tags, ex2, ex1]
  · rw [ex6, id5, hid.identity, id3, id2, id1]
  · rw [ex6, id5, idStep_slotID hw hd]
  · have hrec : d.fetchRecord d.pc = s.fetchRecord s.pc := by
      have hkeeps := hwb.keeps.trans (hmem.keeps.trans (hex.keeps.trans hid.keeps))
      rw [State.fetchRecord_congr hkeeps.im hkeeps.cfg, pc4, pc3, pc2, pc1]
    rw [id6, (hif.fetches hraw (hhalt.trans hh)).record, hrec]
  · rw [ifStep_skips (.inr (hhalt.trans hh))] at he; cases he
    rw [id6, if4, if3, if2, if1]

/-- Settles O14: only a full cycle leaves the run Running or Terminated, and its end decides which. -/
theorem advanceAndTerminate : Obligations.AdvanceAndTerminate := by
  refine ⟨endOfCycle_slots, fun s a b v t ha hb hv ho h ht hstalls => step_advances ha hb hv ho h ht hstalls,
    fun s t h ht => ?_, fun s t h ht => ?_⟩
  · obtain ⟨-, -, -, -, d, e, -, -, -, -, he, hrun, rfl⟩ := (step_cases h).2.full_of_unstopped (.inr ht)
    simpa [endOfCycle_status, he.status, hrun] using ht
  · obtain ⟨-, -, -, -, d, e, -, -, -, -, -, -, rfl⟩ := (step_cases h).2.full_of_unstopped (.inl ht)
    rintro ⟨hhalt, hdrained⟩
    simp [endOfCycle_status, hhalt, hdrained] at ht

/-! ### ID and WB of every instruction (R212, R215) -/

/-- Settles O26, from ID's template with the instruction's row in the tables of sources and destinations. -/
theorem decodeReadsAndReserves : Obligations.DecodeReadsAndReserves := by
  intro i s r ⟨hp, hs⟩
  rw [exec_id i hp hs, idStage_eq_afterID]

/-- Settles O28, from WB's writes and its releases. -/
theorem writeBackWritesAndReleases : Obligations.WriteBackWritesAndReleases := by
  intro i s r ⟨hp, hs⟩ hnodup
  refine ⟨wbStage r s, exec_wb i hp hs, rfl, fun q => ?_, fun q => ?_, ?_⟩
  · simp [wbStage, State.readReg_writeDests, wbValue]
  · rw [wbStage, State.rc_done, State.rc_releaseAll, State.rc_writeDests, hnodup.count]
    by_cases h0 : q = .gpr 0
    · subst h0; simp
    · rw [if_neg h0]
  · apply State.ext <;> simp [wbStage]

end Sys2Proof.Machine

/-! # Family 42_branch_predictor: the prediction at IF and the training of PT in EX -/

namespace Sys2Proof.Machine

/-! ### Indexes, counters and targets (R261, R263, R411) -/

/-- PRED_INDEX as the reset configuration has it: pc[13:2] (R261). -/
theorem predIndex_pcBits {cfg : CoreConfig} (h : cfg.predIndex = .pcBits) (op : BranchOp) (pc : Word) :
    predIndex cfg op pc = pc.toNat / 4 % 4096 := by
  simp [predIndex, h, Nat.shiftRight_eq_div_pow]

/-- The distance of a branch is four times its offset as a signed number (R115). -/
theorem branchDistance_eq_ofInt (offset : BitVec 16) : branchDistance offset = BitVec.ofInt 64 (offset.toInt * 4) := by
  have hdistance : (branchDistance offset).toInt = offset.toInt * 4 := by
    rw [branchDistance, BitVec.toInt_signExtend_of_le (by decide), mul_comm]
    exact BitVec.toInt_append_zero
  rw [← hdistance, BitVec.ofInt_toInt]

/-- IF predicts taken where prediction is enabled and the counter is at least 2 (R263, R265). -/
theorem State.prediction_eq_true_iff (s : State) (op : BranchOp) (pc : Word) : s.prediction op pc = true ↔
    s.cfg.predictionEnabled = true ∧ 2 ≤ (s.pt.read (predIndex s.cfg op pc)).toNat := by
  simp [State.prediction, predictsTaken]

/-! ### The prediction at IF (R262) -/

/-- A branch predicted taken is marked so, and PC becomes its target. -/
theorem predictAtIF_taken {s : State} {r : InFlight} {op : BranchOp} (offset : BitVec 16)
    (h : s.prediction op r.fetchedPC = true) : predictAtIF op offset r s =
      { s with
        slotIF := some { r with predictedTaken := true }
        pc := branchTarget r.fetchedPC offset, outcome := .ok } := by
  simp [predictAtIF, h]

/-- A branch predicted not taken leaves PC where the fetch put it. -/
theorem predictAtIF_not_taken {s : State} {r : InFlight} {op : BranchOp} (offset : BitVec 16)
    (h : ¬s.prediction op r.fetchedPC = true) : predictAtIF op offset r s =
      { s with slotIF := some { r with predictedTaken := false }, outcome := .ok } := by
  simp [predictAtIF, h]

/-- Settles O46, by the two predictions that IF of a branch can make. -/
theorem branchPrediction : Obligations.BranchPrediction := by
  intro s r i op off ⟨hphase, hslot⟩ hbranch
  rw [exec_if_branch i hphase hslot hbranch]
  refine ⟨fun henabled hcounter => ?_, fun hnot => ?_, fun hscheme => predIndex_pcBits hscheme op r.fetchedPC⟩
  · have htaken := (s.prediction_eq_true_iff op r.fetchedPC).mpr ⟨henabled, hcounter⟩
    rw [predictAtIF_taken off htaken, branchTarget, branchDistance_eq_ofInt]
  · have hnottaken : ¬s.prediction op r.fetchedPC = true := by
      rw [State.prediction_eq_true_iff]
      rintro ⟨henabled, hcounter⟩
      rcases hnot with hdisabled | hlow
      · exact absurd henabled (by simp [hdisabled])
      · omega
    rw [predictAtIF_not_taken off hnottaken]

/-! ### The training in EX (R264 to R267) -/

/-- PT after the EX of a branch, counter by counter: with prediction enabled its own moves by one saturating step. -/
theorem State.read_trainPredictor {s : State} (hs : s.ptInv) (op : BranchOp) (pc : Word) (taken : Bool) (j : Nat) :
    (s.trainPredictor op pc taken).pt.read j =
      if s.cfg.predictionEnabled = true ∧ j = predIndex s.cfg op pc then updateCounter (s.pt.read j) taken
      else s.pt.read j := by
  by_cases henabled : s.cfg.predictionEnabled = true
  · by_cases hj : j = predIndex s.cfg op pc
    · subst hj
      simp [State.trainPredictor, henabled, PredTable.read_write_same hs]
    · simp [State.trainPredictor, henabled, hj, PredTable.read_write_other]
  · simp [State.trainPredictor, henabled]

/-- A step leaves PT as it is, or trains it on the branch in EX. -/
theorem step_pt {s t : State} (h : step s = .next t) : t.pt = s.pt ∨
    ∃ r i op offset taken, s.slotEX = some r ∧ r.op = .instr i ∧ i.branch? = some (op, offset) ∧
      t.pt = (s.trainPredictor op r.fetchedPC taken).pt := by
  rcases step_ex_occupant h with ⟨-, hpt⟩ | ⟨r, i, b, u, hr, hi, hphase, hslot, -, hbp, hbc, hexec, -, htp⟩
  · exact .inl hpt
  · rcases exec_ex_pt i hphase hslot hexec with ⟨-, hu⟩ | ⟨op, offset, taken, hbranch, hu⟩
    · exact .inl (htp.trans (hu.trans hbp))
    · have htrain : (b.trainPredictor op r.fetchedPC taken).pt = (s.trainPredictor op r.fetchedPC taken).pt := by
        simp only [State.trainPredictor, hbc, hbp]
        split <;> simp [hbp]
      exact .inr ⟨r, i, op, offset, taken, hr, hi, hbranch, htp.trans (hu.trans htrain)⟩

/-- Settles O19: only the branch in EX trains PT, and training moves the one counter at the branch's index. -/
theorem predictorChangesOnlyByBranches : Obligations.PredictorChangesOnlyByBranches := by
  intro s t hs hstep j
  rcases step_pt hstep with hpt | ⟨r, i, op, offset, taken, hr, hi, hbranch, hpt⟩
  · exact .inl (by rw [hpt])
  have hread := State.read_trainPredictor hs op r.fetchedPC taken j
  rw [← hpt] at hread
  by_cases hown : s.cfg.predictionEnabled = true ∧ j = predIndex s.cfg op r.fetchedPC
  · rw [if_pos hown] at hread
    exact .inr ⟨r, i, op, offset, taken, hr, hi, hbranch, hown.1, hown.2, hread⟩
  · rw [if_neg hown] at hread
    exact .inl hread

end Sys2Proof.Machine

/-! # Family 43_int_alu: the integer ALU instructions in ID and EX, and whole instructions from ID to WB -/

namespace Sys2Proof.Machine

/-! ### Operands and immediates (R115, R280) -/

theorem low32_eq_setWidth (v : Word) : low32 v = v.setWidth 32 := (BitVec.setWidth_eq_extractLsb' (by decide)).symm

theorem zimm_eq_ofNat (imm : BitVec 16) : zimm imm = BitVec.ofNat 64 imm.toNat := (BitVec.ofNat_toNat ..).symm

theorem toInt_simm (imm : BitVec 16) : (simm imm).toInt = imm.toInt := BitVec.toInt_signExtend_of_le (by decide)

/-- LUI's value is 2^16 times its immediate as a signed number (R299). -/
theorem upperImm_eq_ofInt (imm : BitVec 16) : upperImm imm = BitVec.ofInt 64 (imm.toInt * 2 ^ 16) := by
  have hvalue : (upperImm imm).toInt = imm.toInt * 2 ^ 16 := by
    rw [upperImm, BitVec.toInt_signExtend_of_le (by decide), mul_comm]
    exact BitVec.toInt_append_zero
  rw [← hvalue, BitVec.ofInt_toInt]

/-! ### Exact results and overflow (R281, R285) -/

section
variable {x : Int}

theorem narrow64_of_fits (hlo : -(2 ^ 63) ≤ x) (hhi : x < 2 ^ 63) : narrow64 x = .ok (BitVec.ofInt 64 x) :=
  if_neg (by omega)

theorem narrow64_of_overflow (h : x < -(2 ^ 63) ∨ 2 ^ 63 ≤ x) : narrow64 x = .error .integerOverflow :=
  if_pos (by omega)

theorem narrow32_of_fits (hlo : -(2 ^ 31) ≤ x) (hhi : x < 2 ^ 31) :
    narrow32 x = .ok ((BitVec.ofInt 32 x).signExtend 64) :=
  if_neg (by omega)

theorem narrow32_of_overflow (h : x < -(2 ^ 31) ∨ 2 ^ 31 ≤ x) : narrow32 x = .error .integerOverflow :=
  if_pos (by omega)

end

theorem addTrap32_eq (a b : Word) : addTrap32 a b = narrow32 ((a.setWidth 32).toInt + (b.setWidth 32).toInt) := by
  rw [addTrap32, low32_eq_setWidth, low32_eq_setWidth]

theorem subTrap32_eq (a b : Word) : subTrap32 a b = narrow32 ((a.setWidth 32).toInt - (b.setWidth 32).toInt) := by
  rw [subTrap32, low32_eq_setWidth, low32_eq_setWidth]

theorem addWrap32_eq (a b : Word) : addWrap32 a b = (a.setWidth 32 + b.setWidth 32).signExtend 64 := by
  rw [addWrap32, sext32, low32_eq_setWidth, low32_eq_setWidth]

theorem subWrap32_eq (a b : Word) : subWrap32 a b = (a.setWidth 32 - b.setWidth 32).signExtend 64 := by
  rw [subWrap32, sext32, low32_eq_setWidth, low32_eq_setWidth]

/-! ### Set results (R300) -/

theorem setWord_decide (p : Prop) [Decidable p] : setWord (decide p) = if p then 1 else 0 := by
  by_cases h : p <;> simp [setWord, h]

/-! ### Shifts as floor arithmetic (R304 to R315) -/

section
variable {w : Nat} (v : BitVec w) (k : Nat)

theorem shiftLeft_eq_ofNat : v <<< k = BitVec.ofNat w (v.toNat * 2 ^ k) := by
  rw [← Nat.shiftLeft_eq]; rfl

theorem ushiftRight_eq_ofNat : v >>> k = BitVec.ofNat w (v.toNat / 2 ^ k) := by
  rw [← Nat.shiftRight_eq_div_pow, ← BitVec.toNat_ushiftRight, BitVec.ofNat_toNat, BitVec.setWidth_eq]

theorem sshiftRight_eq_ofInt : v.sshiftRight k = BitVec.ofInt w (v.toInt / 2 ^ k) := by
  rw [BitVec.sshiftRight, Int.shiftRight_eq_div_pow, Nat.cast_pow, Nat.cast_ofNat]

end

theorem sllWord_eq (b : Word) (k : Nat) :
    sllWord b k = (BitVec.ofNat 32 ((b.setWidth 32).toNat * 2 ^ k)).signExtend 64 := by
  rw [sllWord, sext32, low32_eq_setWidth, shiftLeft_eq_ofNat]

theorem srlWord_eq (b : Word) (k : Nat) :
    srlWord b k = (BitVec.ofNat 32 ((b.setWidth 32).toNat / 2 ^ k)).signExtend 64 := by
  rw [srlWord, sext32, low32_eq_setWidth, ushiftRight_eq_ofNat]

theorem sraWord_eq (b : Word) (k : Nat) :
    sraWord b k = (BitVec.ofInt 32 ((b.setWidth 32).toInt / 2 ^ k)).signExtend 64 := by
  rw [sraWord, sext32, low32_eq_setWidth, sshiftRight_eq_ofInt]

theorem shamt5_eq_mod (a : Word) : shamt5 a = a.toNat % 32 := by simp [shamt5]

theorem shamt6_eq_mod (a : Word) : shamt6 a = a.toNat % 64 := by simp [shamt6]

/-! ### EX of the integer ALU templates (R280, R316) -/

section
variable {o : Operands} {d : RegId} {s : State} {r : InFlight} (h : s.calls .EX r)
include h

theorem runStages_aluFns_ex {f : InFlight → Word} {v : Word} (hv : f r = v) :
    runStages (aluFns o d f) s = .next (s.exResult r v) := by
  rw [runStages_ex h.1 h.2, ← hv]; rfl

theorem runStages_aluTrapFns_ok {f : InFlight → Except FaultKind Word} {v : Word} (hv : f r = .ok v) :
    runStages (aluTrapFns o d f) s = .next (s.exResult r v) := by
  rw [runStages_ex h.1 h.2]
  simp only [aluTrapFns, exChecked, hv]
  rfl

theorem runStages_aluTrapFns_fault {f : InFlight → Except FaultKind Word} {k : FaultKind} (hk : f r = .error k) :
    runStages (aluTrapFns o d f) s = .next (s.answers (.fault k)) := by
  rw [runStages_ex h.1 h.2]
  simp only [aluTrapFns, exChecked, hk]
  rfl

theorem runStages_moveFns_ex {cond : InFlight → State → Bool} {move : Bool} (hmove : cond r s = move) :
    runStages (moveFns o d cond) s = .next (s.exMoveResult r move) := by
  rw [runStages_ex h.1 h.2, ← hmove]; rfl

end

/-- Settles O31, from ID's template and the EX of the six instructions. -/
theorem wrappingArithmetic : Obligations.WrappingArithmetic := by
  intro s r rd rs rt imm
  refine ⟨fun h => ?_, fun h => ?_⟩
  · have hid := fun i => decodeReadsAndReserves i s r h
    exact ⟨hid _, hid _, hid _, hid _, hid _, hid _⟩
  · exact ⟨runStages_aluFns_ex h rfl, runStages_aluFns_ex h rfl, runStages_aluFns_ex h (addWrap32_eq _ _),
      runStages_aluFns_ex h (subWrap32_eq _ _), runStages_aluFns_ex h rfl, runStages_aluFns_ex h (addWrap32_eq _ _)⟩

/-- Settles O32: an exact sum or difference is narrowed, inside the range of its width and outside it. -/
theorem trappingArithmetic : Obligations.TrappingArithmetic := by
  intro s r rd rs rt imm
  refine ⟨fun h => ?_, fun h => ⟨fun x hlo hhi => ?_, fun x hout => ?_, fun x hlo hhi => ?_, fun x hout => ?_⟩⟩
  · have hid := fun i => decodeReadsAndReserves i s r h
    exact ⟨hid _, hid _, hid _, hid _, hid _, hid _⟩
  · have hfits := narrow64_of_fits hlo hhi
    refine ⟨?_, ?_, ?_⟩ <;> rintro rfl <;> exact runStages_aluTrapFns_ok h hfits
  · have hover := narrow64_of_overflow hout
    refine ⟨?_, ?_, ?_⟩ <;> rintro rfl <;> exact runStages_aluTrapFns_fault h hover
  · have hfits := narrow32_of_fits hlo hhi
    refine ⟨?_, ?_, ?_⟩ <;> rintro rfl
    · exact runStages_aluTrapFns_ok h ((addTrap32_eq _ _).trans hfits)
    · exact runStages_aluTrapFns_ok h ((subTrap32_eq _ _).trans hfits)
    · exact runStages_aluTrapFns_ok h ((addTrap32_eq _ _).trans hfits)
  · have hover := narrow32_of_overflow hout
    refine ⟨?_, ?_, ?_⟩ <;> rintro rfl
    · exact runStages_aluTrapFns_fault h ((addTrap32_eq _ _).trans hover)
    · exact runStages_aluTrapFns_fault h ((subTrap32_eq _ _).trans hover)
    · exact runStages_aluTrapFns_fault h ((addTrap32_eq _ _).trans hover)

/-- Settles O33, from the values of the two forms of immediate. -/
theorem logicalInstructions : Obligations.LogicalInstructions := by
  intro s r rd rs rt imm
  refine ⟨fun h => ?_, fun h => ?_⟩
  · have hid := fun i => decodeReadsAndReserves i s r h
    exact ⟨hid _, hid _, hid _, hid _, hid _, hid _, hid _⟩
  · have hz := zimm_eq_ofNat imm
    exact ⟨runStages_aluFns_ex h rfl, runStages_aluFns_ex h rfl, runStages_aluFns_ex h rfl,
      runStages_aluFns_ex h (congrArg (r.a &&& ·) hz), runStages_aluFns_ex h (congrArg (r.a ||| ·) hz),
      runStages_aluFns_ex h (congrArg (r.a ^^^ ·) hz), runStages_aluFns_ex h (upperImm_eq_ofInt imm)⟩

/-- Settles O34; sign extension keeps the value of SLTI's immediate. -/
theorem setOnLessThan : Obligations.SetOnLessThan := by
  intro s r rd rs rt imm
  refine ⟨fun h => ?_, fun h => ?_⟩
  · have hid := fun i => decodeReadsAndReserves i s r h
    exact ⟨hid _, hid _, hid _, hid _⟩
  · have hslti : setWord (decide (r.a.toInt < (simm imm).toInt)) = if r.a.toInt < imm.toInt then 1 else 0 := by
      rw [toInt_simm, setWord_decide]
    exact ⟨runStages_aluFns_ex h (setWord_decide _), runStages_aluFns_ex h (setWord_decide _),
      runStages_aluFns_ex h hslti, runStages_aluFns_ex h (setWord_decide _)⟩

/-- Settles O35, from the shifts of the low word by any amount. -/
theorem wordShifts : Obligations.WordShifts := by
  intro s r rd rs rt sa
  refine ⟨fun h => ?_, fun h => ?_⟩
  · have hid := fun i => decodeReadsAndReserves i s r h
    exact ⟨hid _, hid _, hid _, hid _, hid _, hid _⟩
  · rw [← shamt5_eq_mod]
    exact ⟨runStages_aluFns_ex h (sllWord_eq _ _), runStages_aluFns_ex h (srlWord_eq _ _),
      runStages_aluFns_ex h (sraWord_eq _ _), runStages_aluFns_ex h (sllWord_eq _ _),
      runStages_aluFns_ex h (srlWord_eq _ _), runStages_aluFns_ex h (sraWord_eq _ _)⟩

/-- Settles O36, from the shifts of a doubleword by any amount. -/
theorem doublewordShifts : Obligations.DoublewordShifts := by
  intro s r rd rs rt sa
  refine ⟨fun h => ?_, fun h => ?_⟩
  · have hid := fun i => decodeReadsAndReserves i s r h
    exact ⟨hid _, hid _, hid _, hid _, hid _, hid _⟩
  · rw [← shamt6_eq_mod]
    exact ⟨runStages_aluFns_ex h (shiftLeft_eq_ofNat _ _), runStages_aluFns_ex h (ushiftRight_eq_ofNat _ _),
      runStages_aluFns_ex h (sshiftRight_eq_ofInt _ _), runStages_aluFns_ex h (shiftLeft_eq_ofNat _ _),
      runStages_aluFns_ex h (ushiftRight_eq_ofNat _ _), runStages_aluFns_ex h (sshiftRight_eq_ofInt _ _)⟩

/-! ### Conditional moves (R316, R317) -/

theorem readReg_wbStage (r : InFlight) (s : State) (q : RegId) : (wbStage r s).readReg q =
    if r.writeEnable = true ∧ q ∈ r.dests ∧ q ≠ .gpr 0 then (if q = .hi then r.resultHi else r.result)
    else s.readReg q := by
  simp [wbStage, State.readReg_writeDests, wbValue]

theorem rc_wbStage (r : InFlight) (s : State) (q : RegId) :
    (wbStage r s).rc q = if q = .gpr 0 then 0 else s.rc q - r.dests.count q := by
  rw [wbStage, State.rc_done, State.rc_releaseAll, State.rc_writeDests]

/-- Settles O37: only the write of WB asks for writeEnable, not the reservation of ID or the release of WB. -/
theorem conditionalMoves : Obligations.ConditionalMoves := by
  intro s r rd rs rt
  refine ⟨fun h => ?_, fun h => ?_, fun h i _ => ?_⟩
  · have hid := fun i => decodeReadsAndReserves i s r h
    exact ⟨hid _, hid _⟩
  · have hmovn : (r.b != 0) = decide (r.b ≠ 0) := by rw [bne_eq, beq_eq_decide, decide_not]
    exact ⟨runStages_moveFns_ex h (beq_eq_decide _ _), runStages_moveFns_ex h hmovn⟩
  · exact ⟨_, exec_wb i h.1 h.2, readReg_wbStage r s, rc_wbStage r s⟩

/-! ### Doublewords in MEM (R378, R382) -/

section
variable {rt base : RegNum} {offset : BitVec 16} {s : State} {r : InFlight} (h : s.calls .MEM r)
  (hacc : s.accessible r.ea 8)
include h hacc

theorem exec_ld_mem : exec (.ld rt offset base) s = .next (s.memLoaded r 8 (s.cell r.ea.toNat)) := by
  rw [State.cell, ← Memory.load_double s.mem s.cfg.byteOrder hacc.1]
  exact (runStages_load h.1 h.2).trans (congrArg _ (memLoad_of_accessible wholeDouble hacc))

theorem exec_sd_mem : exec (.sd rt offset base) s =
    .next (s.memStored r 8 (s.mem.store s.cfg.byteOrder r.ea.toNat 8 r.b)) :=
  (runStages_store h.1 h.2).trans (congrArg _ (memStore_of_accessible hacc))

end

/-! ### Whole instructions from ID to WB (R212 to R215) -/

theorem Alike.accessible {s u : State} {ea : Word} {n : Nat} (h : Alike s u) (ha : s.accessible ea n) :
    u.accessible ea n := by
  rwa [State.accessible, h.cfg]

section
variable {i : Instr} {s : State} {r r2 r3 : InFlight} (hz : ∀ q ∈ i.operands.srcs, s.rc q = 0)
  (hex : ∀ u : State, u.calls .EX (s.latched i.operands i.dests r) →
    exec i u = .next { u with slotEX := some r2, outcome := .ok })
include hz hex

/-- An instruction alone whose EX writes no more than its own record, from what its MEM does. -/
theorem runAlone_of_exLatches {m : Memory} (hmem : ∀ u : State, u.calls .MEM r2 → Alike s u →
      ∃ v, exec i u = .next v ∧ v.slotMEM = some r3 ∧ Alike { s with mem := m } v) :
    ∃ t, runAlone i r s = .next t ∧ t.mem = m ∧ t.fcsr = s.fcsr ∧ t.pt = s.pt ∧ t.cfg = s.cfg ∧
      ∀ q, t.readReg q = (s.writeDests r3).readReg q := by
  simp only [State.readReg_writeDests]
  exact alone_run i s r r2 r3 m hz (fun u hp hs halike =>
    ⟨_, hex u ⟨hp, hs⟩, rfl, halike.trans (alike_of rfl rfl rfl rfl rfl rfl rfl rfl)⟩) fun u hp hs => hmem u ⟨hp, hs⟩

/-- An instruction alone that makes no access of data memory: WB writes what EX latched. -/
theorem runAlone_of_no_access (ha : i.access? = none) :
    ∃ t, runAlone i r s = .next t ∧ t.mem = s.mem ∧ t.fcsr = s.fcsr ∧ t.pt = s.pt ∧ t.cfg = s.cfg ∧
      ∀ q, t.readReg q = (s.writeDests r2).readReg q :=
  runAlone_of_exLatches hz hex fun _ h halike =>
    ⟨_, exec_mem_other i h.1 h.2 ha, h.2, halike.trans (alike_of rfl rfl rfl rfl rfl rfl rfl rfl)⟩

/-- A load alone: WB writes what MEM read. -/
theorem runAlone_of_load {n : Nat} {v : Word}
    (hmem : ∀ u : State, u.calls .MEM r2 → Alike s u → exec i u = .next (u.memLoaded r2 n v)) :
    ∃ t, runAlone i r s = .next t ∧ t.mem = s.mem ∧ t.fcsr = s.fcsr ∧ t.pt = s.pt ∧ t.cfg = s.cfg ∧
      ∀ q, t.readReg q = (s.writeDests { r2 with result := v }).readReg q :=
  runAlone_of_exLatches hz hex fun u h halike =>
    ⟨_, hmem u h halike, rfl, halike.trans (alike_of rfl rfl rfl rfl rfl rfl rfl rfl)⟩

/-- A store alone: MEM replaces data memory. -/
theorem runAlone_of_store {n : Nat} {m : Memory}
    (hmem : ∀ u : State, u.calls .MEM r2 → Alike s u → exec i u = .next (u.memStored r2 n m)) :
    ∃ t, runAlone i r s = .next t ∧ t.mem = m ∧ t.fcsr = s.fcsr ∧ t.pt = s.pt ∧ t.cfg = s.cfg ∧
      ∀ q, t.readReg q = (s.writeDests r2).readReg q :=
  runAlone_of_exLatches hz hex fun u h halike =>
    ⟨_, hmem u h halike, h.2, halike.regs, rfl, halike.fcsr, halike.pt, halike.cfg⟩

end

/-- The registers after WB of an instruction whose one destination is a GPR. -/
theorem State.readReg_writeDests_gpr (s : State) {r : InFlight} {n : RegNum}
    (hd : r.dests = [RegId.gpr n].filter (fun d => d != .gpr 0)) (q : RegId) : (s.writeDests r).readReg q =
      if q = .gpr n ∧ n ≠ 0 ∧ r.writeEnable = true then r.result else s.readReg q := by
  rw [State.readReg_writeDests]
  by_cases hq : q = .gpr n
  · subst hq
    simp [hd, wbValue, and_comm]
  · simp [hd, hq]

/-- HI and LO of DMULTU are the halves of the exact product (R342). -/
theorem dmultuHiLo_toNat (a b : Word) :
    (dmultuHiLo a b).1.toNat * 2 ^ 64 + (dmultuHiLo a b).2.toNat = a.toNat * b.toNat := by
  have hlt : a.toNat * b.toNat < 2 ^ 64 * 2 ^ 64 := Nat.mul_lt_mul'' a.isLt b.isLt
  simp only [dmultuHiLo, BitVec.toNat_ofNat]
  omega

/-- Settles O30, instruction by instruction, from what EX and MEM of each do to its record. -/
theorem instructionsEndToEnd : Obligations.InstructionsEndToEnd := by
  intro s pc rd rs rt off run x ea hrs hrt
  have hz : ∀ q ∈ [RegId.gpr rs, .gpr rt], s.rc q = 0 := by simp [hrs, hrt]
  have hzBase : ∀ q ∈ [RegId.gpr rs], s.rc q = 0 := by simp [hrs]
  refine ⟨?daddu, ?movn, ?dmultu, fun hacc => ⟨?ld, fun hwf => ?sd⟩⟩
  case daddu =>
    obtain ⟨t, ht, hmem, hfcsr, hpt, -, hregs⟩ := runAlone_of_no_access (i := .daddu rd rs rt)
      (r := newRecord pc _ _) hz (fun u hu => runStages_aluFns_ex hu rfl) rfl
    refine ⟨t, ht, hmem, hfcsr, hpt, fun q => ?_⟩
    rw [hregs, State.readReg_writeDests_gpr s rfl]
    simp [newRecord, State.latched, State.latch, Instr.operands, x]
  case movn =>
    obtain ⟨t, ht, hmem, hfcsr, hpt, -, hregs⟩ := runAlone_of_no_access (i := .movn rd rs rt)
      (r := newRecord pc _ _) hz (fun u hu => runStages_moveFns_ex hu rfl) rfl
    refine ⟨t, ht, hmem, hfcsr, hpt, fun q => ?_⟩
    rw [hregs, State.readReg_writeDests_gpr s rfl]
    simp [State.latched, State.latch, Instr.operands, x]
  case dmultu =>
    obtain ⟨t, ht, hmem, hfcsr, hpt, -, hregs⟩ := runAlone_of_no_access (i := .dmultu rs rt)
      (r := newRecord pc _ _) hz (fun u hu => runStages_ex hu.1 hu.2) rfl
    have hhi : t.hi = (dmultuHiLo (x rs) (x rt)).1 := hregs .hi
    have hlo : t.lo = (dmultuHiLo (x rs) (x rt)).2 := hregs .lo
    refine ⟨t, ht, hmem, hfcsr, hpt, ?_, fun q hqhi hqlo => ?_⟩
    · rw [hhi, hlo, dmultuHiLo_toNat]
    · rw [hregs, State.readReg_writeDests, if_neg]
      simp [State.latched, Instr.dests, hqhi, hqlo]
  case ld =>
    obtain ⟨t, ht, hmem, hfcsr, hpt, -, hregs⟩ := runAlone_of_load (i := .ld rt off rs)
      (r := newRecord pc _ _) (v := s.cell ea.toNat) hzBase (fun u hu => runStages_ex hu.1 hu.2)
      (fun u hu halike => by
        rw [exec_ld_mem hu (halike.accessible hacc), State.cell, halike.mem]; rfl)
    refine ⟨t, ht, hmem, hfcsr, hpt, fun q => ?_⟩
    rw [hregs, State.readReg_writeDests_gpr s rfl]
    simp [newRecord, State.latched]
  case sd =>
    obtain ⟨t, ht, hmem, hfcsr, hpt, hcfg, hregs⟩ := runAlone_of_store (i := .sd rt off rs)
      (r := newRecord pc _ _) (m := s.mem.store s.cfg.byteOrder ea.toNat 8 (x rt)) hz
      (fun u hu => runStages_ex hu.1 hu.2)
      (fun u hu halike => by
        rw [exec_sd_mem hu (halike.accessible hacc), halike.mem, halike.cfg]; rfl)
    refine ⟨t, ht, hfcsr, hpt, hregs, ?_, fun y hy => ?_⟩
    · rw [State.cell, hmem, Memory.cell_store_double hwf _ hacc.1]
    · rw [State.byteAt, hmem, hcfg, Memory.byteAt_store_outside _ _ _ _ _ _ hy, State.byteAt]

end Sys2Proof.Machine

/-! # Family 44_int_muldiv: the multiplies, the divides and the moves from HI and LO in ID and EX -/

namespace Sys2Proof.Machine

/-! ### EX of the multiply and divide template (R340) -/

section
variable {rs rt : RegNum} {s : State} {r : InFlight} (h : s.calls .EX r)
include h

theorem runStages_hiLoFns_ok {f : InFlight → Except FaultKind (Word × Word)} {hi lo : Word} (hv : f r = .ok (hi, lo)) :
    runStages (hiLoFns rs rt f) s = .next (s.exHiLoResult r hi lo) := by
  rw [runStages_ex h.1 h.2]
  simp only [hiLoFns, exHiLo, hv]
  rfl

theorem runStages_hiLoFns_fault {f : InFlight → Except FaultKind (Word × Word)} {k : FaultKind} (hk : f r = .error k) :
    runStages (hiLoFns rs rt f) s = .next (s.answers (.fault k)) := by
  rw [runStages_ex h.1 h.2]
  simp only [hiLoFns, exHiLo, hk]
  rfl

end

/-! ### Products and their halves (R341 to R344) -/

/-- HI and LO of DMULT are the halves of the exact signed product (R341). -/
theorem dmultHiLo_toInt (a b : Word) :
    (dmultHiLo a b).1.toInt * 2 ^ 64 + (dmultHiLo a b).2.toNat = a.toInt * b.toInt := by
  have hle : a.toInt * b.toInt ≤ 2 ^ 126 := BitVec.toInt_mul_toInt_le
  have hge : -2 ^ 126 ≤ a.toInt * b.toInt := BitVec.le_toInt_mul_toInt
  have hhi : (dmultHiLo a b).1.toInt = a.toInt * b.toInt / 2 ^ 64 :=
    BitVec.toInt_ofInt_eq_self (by decide) (by omega) (by omega)
  rw [hhi, dmultHiLo, BitVec.toNat_ofInt]
  omega

theorem append_halves (p : BitVec 64) : p.extractLsb' 32 32 ++ p.extractLsb' 0 32 = p :=
  (BitVec.extractLsb'_append_extractLsb'_eq_extractLsb' rfl).trans BitVec.extractLsb'_eq_self

theorem toInt_halves (p : BitVec 64) :
    (p.extractLsb' 32 32).toInt * 2 ^ 32 + (p.extractLsb' 0 32).toNat = p.toInt := by
  have happ := congrArg BitVec.toInt (append_halves p)
  rw [BitVec.toInt_append, if_neg (by decide), mul_comm] at happ
  exact happ

theorem toNat_halves (p : BitVec 64) :
    (p.extractLsb' 32 32).toNat * 2 ^ 32 + (p.extractLsb' 0 32).toNat = p.toNat := by
  simp only [BitVec.extractLsb'_toNat, Nat.shiftRight_eq_div_pow]
  omega

/-- HI and LO of MULT extend the halves of the exact signed product of the low words (R343). -/
theorem multHiLo_halves (a b : Word) : ∃ hi lo : BitVec 32, multHiLo a b = (hi.signExtend 64, lo.signExtend 64) ∧
    hi.toInt * 2 ^ 32 + lo.toNat = (a.setWidth 32).toInt * (b.setWidth 32).toInt := by
  have hle : (a.setWidth 32).toInt * (b.setWidth 32).toInt ≤ 2 ^ 62 := BitVec.toInt_mul_toInt_le
  have hge : -2 ^ 62 ≤ (a.setWidth 32).toInt * (b.setWidth 32).toInt := BitVec.le_toInt_mul_toInt
  refine ⟨_, _, rfl, ?_⟩
  rw [toInt_halves, low32_eq_setWidth, low32_eq_setWidth]
  exact BitVec.toInt_ofInt_eq_self (by decide) (by omega) (by omega)

/-- HI and LO of MULTU extend the halves of the exact unsigned product of the low words (R344). -/
theorem multuHiLo_halves (a b : Word) : ∃ hi lo : BitVec 32, multuHiLo a b = (hi.signExtend 64, lo.signExtend 64) ∧
    hi.toNat * 2 ^ 32 + lo.toNat = (a.setWidth 32).toNat * (b.setWidth 32).toNat := by
  have hlt : (a.setWidth 32).toNat * (b.setWidth 32).toNat < 2 ^ 32 * 2 ^ 32 :=
    Nat.mul_lt_mul'' (a.setWidth 32).isLt (b.setWidth 32).isLt
  refine ⟨_, _, rfl, ?_⟩
  rw [toNat_halves, low32_eq_setWidth, low32_eq_setWidth, BitVec.toNat_ofNat]
  exact Nat.mod_eq_of_lt hlt

/-- Settles O38, from the halves of the four products. -/
theorem multiplyAndHiLo : Obligations.MultiplyAndHiLo := by
  intro s r rd rs rt
  refine ⟨fun h => ?_, fun h => ?_⟩
  · have hid := fun i => decodeReadsAndReserves i s r h
    exact ⟨hid _, hid _, hid _, hid _, hid _, hid _⟩
  · obtain ⟨mhi, mlo, hmult, hmultEq⟩ := multHiLo_halves r.a r.b
    obtain ⟨uhi, ulo, hmultu, hmultuEq⟩ := multuHiLo_halves r.a r.b
    exact ⟨⟨_, _, runStages_hiLoFns_ok h rfl, dmultHiLo_toInt r.a r.b⟩,
      ⟨_, _, runStages_hiLoFns_ok h rfl, dmultuHiLo_toNat r.a r.b⟩,
      ⟨mhi, mlo, runStages_hiLoFns_ok h (congrArg _ hmult), hmultEq⟩,
      ⟨uhi, ulo, runStages_hiLoFns_ok h (congrArg _ hmultu), hmultuEq⟩,
      runStages_aluFns_ex h rfl, runStages_aluFns_ex h rfl⟩

/-! ### Division truncated toward zero (R345, R347) -/

section
variable {w : Nat} (x y : BitVec w)

theorem ofInt_tdiv : BitVec.ofInt w (x.toInt.tdiv y.toInt) = x.sdiv y :=
  BitVec.eq_of_toInt_eq (by rw [BitVec.toInt_ofInt, BitVec.toInt_sdiv])

theorem ofInt_sub_tdiv_mul : BitVec.ofInt w (x.toInt - x.toInt.tdiv y.toInt * y.toInt) = x.srem y := by
  rw [mul_comm, ← Int.tmod_def, ← BitVec.toInt_srem, BitVec.ofInt_toInt]

/-- The remainder takes the sign of the dividend and is smaller than the divisor. -/
theorem toInt_srem_bounds (hy : y ≠ 0) : |(x.srem y).toInt| < |y.toInt| ∧ 0 ≤ (x.srem y).toInt * x.toInt := by
  have hy0 : y.toInt ≠ 0 := fun h0 => hy (BitVec.eq_of_toInt_eq (h0.trans BitVec.toInt_zero.symm))
  rw [BitVec.toInt_srem]
  constructor
  · rw [Int.abs_eq_natAbs, Int.abs_eq_natAbs, Int.natAbs_tmod]
    exact_mod_cast Nat.mod_lt _ (Int.natAbs_pos.mpr hy0)
  · rcases le_total 0 x.toInt with hx | hx
    · exact mul_nonneg (Int.tmod_nonneg _ hx) hx
    · have hneg : 0 ≤ (-x.toInt).tmod y.toInt := Int.tmod_nonneg _ (by omega)
      rw [Int.neg_tmod] at hneg
      exact mul_nonneg_of_nonpos_of_nonpos (by omega) hx

/-- The quotient fits its width but for the most negative number over -1. -/
theorem toInt_sdiv_mul_add_srem (hw : 0 < w) (hc : ¬(x.toInt = -(2 ^ (w - 1)) ∧ y.toInt = -1)) :
    (x.sdiv y).toInt * y.toInt + (x.srem y).toInt = x.toInt := by
  have hfits : x ≠ BitVec.intMin w ∨ y ≠ -1#w := by
    rw [← not_and_or]
    rintro ⟨rfl, rfl⟩
    refine hc ⟨BitVec.toInt_intMin_of_pos hw, ?_⟩
    simp [BitVec.neg_one_eq_allOnes, BitVec.toInt_allOnes, hw]
  rw [BitVec.toInt_sdiv_of_ne_or_ne _ _ hfits, BitVec.toInt_srem, Int.tdiv_mul_add_tmod]

end

section
variable {a b : Word}

theorem ddivHiLo_of_ordinary (hb : b ≠ 0) (hc : ¬(a.toInt = -(2 ^ 63) ∧ b.toInt = -1)) :
    ddivHiLo a b = .ok (a.srem b, a.sdiv b) := by
  rw [ddivHiLo, if_neg hb, if_neg hc, ← ofInt_tdiv, ← ofInt_sub_tdiv_mul]

theorem ddivHiLo_of_corner (ha : a.toInt = -(2 ^ 63)) (hb : b.toInt = -1) :
    ddivHiLo a b = .ok (0, 0x8000000000000000) := by
  have hb0 : b ≠ 0 := by rintro rfl; simp at hb
  rw [ddivHiLo, if_neg hb0, if_pos ⟨ha, hb⟩]
  rfl

theorem divHiLo_of_ordinary (hb : b.setWidth 32 ≠ 0)
    (hc : ¬((a.setWidth 32).toInt = -(2 ^ 31) ∧ (b.setWidth 32).toInt = -1)) :
    divHiLo a b = .ok (((a.setWidth 32).srem (b.setWidth 32)).signExtend 64,
      ((a.setWidth 32).sdiv (b.setWidth 32)).signExtend 64) := by
  rw [divHiLo, low32_eq_setWidth, low32_eq_setWidth, if_neg hb, if_neg hc, ← ofInt_tdiv, ← ofInt_sub_tdiv_mul]
  rfl

theorem divHiLo_of_corner (ha : (a.setWidth 32).toInt = -(2 ^ 31)) (hb : (b.setWidth 32).toInt = -1) :
    divHiLo a b = .ok (0, 0xFFFFFFFF80000000) := by
  have hb0 : b.setWidth 32 ≠ 0 := by intro h0; simp [h0] at hb
  rw [divHiLo, low32_eq_setWidth, low32_eq_setWidth, if_neg hb0, if_pos ⟨ha, hb⟩]
  rfl

theorem divuHiLo_of_ne_zero (hb : b.setWidth 32 ≠ 0) : divuHiLo a b =
    .ok ((BitVec.ofNat 32 ((a.setWidth 32).toNat % (b.setWidth 32).toNat)).signExtend 64,
      (BitVec.ofNat 32 ((a.setWidth 32).toNat / (b.setWidth 32).toNat)).signExtend 64) := by
  rw [divuHiLo, low32_eq_setWidth, low32_eq_setWidth, if_neg hb, sext32, sext32]

theorem divHiLo_of_zero (hb : b.setWidth 32 = 0) : divHiLo a b = .error .divideByZero :=
  if_pos ((low32_eq_setWidth b).trans hb)

theorem divuHiLo_of_zero (hb : b.setWidth 32 = 0) : divuHiLo a b = .error .divideByZero :=
  if_pos ((low32_eq_setWidth b).trans hb)

end

/-- Settles O39, by the zero divisors, the corners and the ordinary quotients of the four divides. -/
theorem divides : Obligations.Divides := by
  intro s r rs rt
  refine ⟨fun h => ?_, fun h => ⟨fun hb => ?_, fun hb => ?_, fun hb hc => ?_, fun ha hb => ?_, fun hb => ?_,
    fun hb hc => ?_, fun ha hb => ?_, fun hb => ?_⟩⟩
  · have hid := fun i => decodeReadsAndReserves i s r h
    exact ⟨hid _, hid _, hid _, hid _⟩
  · exact ⟨runStages_hiLoFns_fault h (if_pos hb), runStages_hiLoFns_fault h (if_pos hb)⟩
  · exact ⟨runStages_hiLoFns_fault h (divHiLo_of_zero hb), runStages_hiLoFns_fault h (divuHiLo_of_zero hb)⟩
  · exact ⟨_, _, runStages_hiLoFns_ok h (ddivHiLo_of_ordinary hb hc),
      toInt_sdiv_mul_add_srem _ _ (by decide) hc, toInt_srem_bounds _ _ hb⟩
  · exact runStages_hiLoFns_ok h (ddivHiLo_of_corner ha hb)
  · exact runStages_hiLoFns_ok h (if_neg hb)
  · exact ⟨_, _, runStages_hiLoFns_ok h (divHiLo_of_ordinary hb hc),
      toInt_sdiv_mul_add_srem _ _ (by decide) hc, toInt_srem_bounds _ _ hb⟩
  · exact runStages_hiLoFns_ok h (divHiLo_of_corner ha hb)
  · exact runStages_hiLoFns_ok h (divuHiLo_of_ne_zero hb)

end Sys2Proof.Machine

namespace Sys2Proof.Machine

/-! ### The extensions of a loaded value (R372 to R377) -/

section
variable (v : Word)

theorem sextByte_eq : sextByte v = (v.setWidth 8).signExtend 64 :=
  congrArg (BitVec.signExtend 64) (BitVec.setWidth_eq_extractLsb' (by decide)).symm

theorem zextByte_eq : zextByte v = (v.setWidth 8).setWidth 64 :=
  congrArg (BitVec.setWidth 64) (BitVec.setWidth_eq_extractLsb' (by decide)).symm

theorem sextHalf_eq : sextHalf v = (v.setWidth 16).signExtend 64 :=
  congrArg (BitVec.signExtend 64) (BitVec.setWidth_eq_extractLsb' (by decide)).symm

theorem zextHalf_eq : zextHalf v = (v.setWidth 16).setWidth 64 :=
  congrArg (BitVec.setWidth 64) (BitVec.setWidth_eq_extractLsb' (by decide)).symm

theorem sextWord_eq : sextWord v = (v.setWidth 32).signExtend 64 :=
  congrArg (BitVec.signExtend 64) (low32_eq_setWidth v)

theorem zextWord_eq : zextWord v = (v.setWidth 32).setWidth 64 :=
  congrArg (BitVec.setWidth 64) (low32_eq_setWidth v)

end

/-! ### The load and store templates (R370, R371) -/

section
variable {base : RegNum} {o : Operands} {offset : BitVec 16} {d : RegId} {n : Nat} {ext : Word → Word} {s : State}
  {r : InFlight}

theorem runStages_loadFns_ex (h : s.calls .EX r) : runStages (loadFns base offset d n ext) s =
    .next (s.exAddressResult r (r.a + offset.signExtend 64)) :=
  runStages_ex h.1 h.2

theorem runStages_storeFns_ex (h : s.calls .EX r) : runStages (storeFns o offset n) s =
    .next (s.exAddressResult r (r.a + offset.signExtend 64)) :=
  runStages_ex h.1 h.2

theorem runStages_loadFns_mem (h : s.calls .MEM r) (hacc : s.accessible r.ea n) {v : Word}
    (hv : ext (s.mem.load s.cfg.byteOrder r.ea.toNat n) = v) :
    runStages (loadFns base offset d n ext) s = .next (s.memLoaded r n v) := by
  rw [runStages_load h.1 h.2, memLoad_of_accessible ext hacc, hv]

end

/-- Settles O40, from the load template with each load's extension of the value read. -/
theorem loads : Obligations.Loads := by
  intro s r rt base off
  simp only [List.cons_append, List.nil_append, List.forall_mem_cons, List.not_mem_nil, false_implies, implies_true, and_true]
  refine ⟨fun h => ?_, fun h => ?_, fun h => ⟨fun hacc => ?_, fun hacc => ?_, fun hacc => ?_, fun hacc => ?_⟩⟩
  · have hid := fun i => decodeReadsAndReserves i s r h
    exact ⟨⟨hid _, hid _, hid _, hid _, hid _, hid _, hid _⟩, hid _, hid _⟩
  · have hex := fun d n ext => runStages_loadFns_ex (base := base) (offset := off) (d := d) (n := n) (ext := ext) h
    exact ⟨hex _ _ _, hex _ _ _, hex _ _ _, hex _ _ _, hex _ _ _, hex _ _ _, hex _ _ _, hex _ _ _, hex _ _ _⟩
  · exact ⟨runStages_loadFns_mem h hacc (sextByte_eq _), runStages_loadFns_mem h hacc (zextByte_eq _)⟩
  · exact ⟨runStages_loadFns_mem h hacc (sextHalf_eq _), runStages_loadFns_mem h hacc (zextHalf_eq _)⟩
  · exact ⟨runStages_loadFns_mem h hacc (sextWord_eq _), runStages_loadFns_mem h hacc (zextWord_eq _),
      runStages_loadFns_mem h hacc (sextWord_eq _)⟩
  · exact ⟨runStages_loadFns_mem h hacc rfl, runStages_loadFns_mem h hacc rfl⟩

/-! ### Loads, stores and the FCSR -/

/-- An instruction that accesses memory is one of the load or of the store template. -/
theorem exec_of_access {i : Instr} {n : Nat} (ha : i.access? = some n) :
    (∃ base offset d ext, exec i = runStages (loadFns base offset d n ext)) ∨
    ∃ o offset, exec i = runStages (storeFns o offset n) := by
  cases i with
  | lb | lbu | lh | lhu | lw | lwu | ld | lwc1 | ldc1 => cases ha; exact .inl ⟨_, _, _, _, rfl⟩
  | sb | sh | sw | sd | swc1 | sdc1 => cases ha; exact .inr ⟨_, _, rfl⟩
  | _ => cases ha

theorem idStage_fcsr (o : Operands) (ds : List RegId) (own : StageOutcome) (r : InFlight) (s : State) :
    (idStage o ds own r s).fcsr = s.fcsr := by
  unfold idStage
  split <;> simp

theorem memLoad_fcsr (n : Nat) (ext : Word → Word) (r : InFlight) (s : State) : (memLoad n ext r s).fcsr = s.fcsr := by
  unfold memLoad
  split <;> rfl

theorem memStore_fcsr (n : Nat) (r : InFlight) (s : State) : (memStore n r s).fcsr = s.fcsr := by
  unfold memStore
  split <;> rfl

/-- ID and WB of no instruction write the FCSR, so stage functions keep it whose IF, EX and MEM do. -/
theorem runStages_fcsr {f : StageFns} {s t : State} (hif : ∀ r, (f.onIF r s).fcsr = s.fcsr)
    (hex : ∀ r, (f.onEX r s).fcsr = s.fcsr) (hmem : ∀ r, (f.onMEM r s).fcsr = s.fcsr) (h : runStages f s = .next t) :
    t.fcsr = s.fcsr := by
  unfold runStages at h
  split at h
  · cases h; rfl
  · split at h <;> cases h
    · exact hif _
    · exact idStage_fcsr ..
    · exact hex _
    · exact hmem _
    · simp [wbStage]

theorem exec_access_fcsr {i : Instr} {s t : State} (ha : i.access? ≠ none) (h : exec i s = .next t) :
    t.fcsr = s.fcsr := by
  obtain ⟨n, hn⟩ := Option.ne_none_iff_exists'.mp ha
  rcases exec_of_access hn with ⟨base, offset, d, ext, hi⟩ | ⟨o, offset, hi⟩
  · exact runStages_fcsr (fun _ => rfl) (fun _ => rfl) (fun r => memLoad_fcsr n ext r s) (congrFun hi s ▸ h)
  · exact runStages_fcsr (fun _ => rfl) (fun _ => rfl) (fun r => memStore_fcsr n r s) (congrFun hi s ▸ h)

/-- Settles O41, from the store template and every byte of memory after a store. -/
theorem stores : Obligations.Stores := by
  intro s r rt base off gprStores fprStores
  have hstore : ∀ p ∈ gprStores ++ fprStores, p.1.access? = some p.2 ∧ p.1.isStore = true := by
    simp [gprStores, fprStores, Instr.access?, Instr.isStore]
  refine ⟨fun h => ?_, fun h => ?_, fun h p hp hacc => ?_, fun i t ha ht => exec_access_fcsr ha ht⟩
  · have hid := fun i => decodeReadsAndReserves i s r h
    simp only [gprStores, fprStores, List.forall_mem_cons, List.not_mem_nil, false_implies, implies_true, and_true]
    exact ⟨⟨hid _, hid _, hid _, hid _⟩, hid _, hid _⟩
  · have hex := fun o n => runStages_storeFns_ex (o := o) (offset := off) (n := n) h
    simp only [gprStores, fprStores, List.cons_append, List.nil_append, List.forall_mem_cons, List.not_mem_nil,
      false_implies, implies_true, and_true]
    exact ⟨hex _ _, hex _ _, hex _ _, hex _ _, hex _ _, hex _ _⟩
  · obtain ⟨ha, hi⟩ := hstore p hp
    refine ⟨s.mem.store s.cfg.byteOrder r.ea.toNat p.2 r.b, ?_, fun hwf x => ?_, fun hwf => Memory.store_wf hwf _ _ _ _⟩
    · rw [exec_mem_store p.1 h.1 h.2 ha hi, memStore_of_accessible hacc]
    · rw [Memory.byteAt_store hwf, State.byteAt]
      cases s.cfg.byteOrder <;> rfl

end Sys2Proof.Machine

/-! # Family 46_control: the conditional branches and the jumps in ID and EX -/

namespace Sys2Proof.Machine

/-! ### Conditional branches in EX (R410, R411) -/

/-- The outcome of a branch, with the target of a taken one as a signed sum. -/
theorem branchOutcome_eq (r : InFlight) (offset : BitVec 16) (taken : Bool) : branchOutcome r offset taken =
    if r.predictedTaken = true ∧ taken = false then .misprediction (r.fetchedPC + 4)
    else if r.predictedTaken = false ∧ taken = true then
      .misprediction (r.fetchedPC + 4 + BitVec.ofInt 64 (offset.toInt * 4))
    else .ok := by
  simp [branchOutcome, branchTarget, branchDistance_eq_ofInt]

/-- The branch template trains PT whether prediction was right or wrong, and only with prediction enabled. -/
theorem exBranch_eq_branchResult (op : BranchOp) (offset : BitVec 16) (cond : InFlight → State → Bool) (r : InFlight)
    (s : State) : exBranch op offset cond r s = branchResult s r op offset (cond r s) := by
  simp only [exBranch, branchResult, branchOutcome_eq, State.trainPredictor, updateCounter]
  split <;> rfl

theorem runStages_branchFns_ex {s : State} {r : InFlight} (h : s.calls .EX r) {op : BranchOp} {o : Operands}
    {offset : BitVec 16} {cond : InFlight → State → Bool} {taken : Bool} (htaken : cond r s = taken) :
    runStages (branchFns op o offset cond) s = .next (branchResult s r op offset taken) := by
  rw [runStages_ex h.1 h.2, ← htaken]
  exact congrArg _ (exBranch_eq_branchResult op offset cond r s)

/-- Settles O45, from the branch template with the condition of each branch. -/
theorem conditionalBranches : Obligations.ConditionalBranches := by
  intro s r rs rt cc off
  refine ⟨fun h => ?_, fun h => ?_⟩
  · have hid := fun i => decodeReadsAndReserves i s r h
    exact ⟨hid _, hid _, hid _, hid _, hid _, hid _, hid _⟩
  · have hne : ∀ x y : Word, (x != y) = decide (x ≠ y) := fun x y => by rw [bne_eq, beq_eq_decide, decide_not]
    exact ⟨runStages_branchFns_ex h (beq_eq_decide _ _), runStages_branchFns_ex h (hne _ _),
      runStages_branchFns_ex h (beq_eq_decide _ _), runStages_branchFns_ex h (hne _ _), runStages_branchFns_ex h rfl,
      runStages_branchFns_ex h Bool.decide_eq_false.symm, runStages_branchFns_ex h Bool.decide_eq_true.symm⟩

/-! ### Jumps in EX (R420, R421) -/

/-- A jump target lies in the 256 MiB region of the incremented PC, at four times the target field (R421). -/
theorem jumpTarget_eq_ofNat (pc : Word) (target : BitVec 26) : jumpTarget pc target =
    BitVec.ofNat 64 ((pc + 4).toNat / 2 ^ 28 * 2 ^ 28 + target.toNat * 4) := by
  apply BitVec.eq_of_toNat_eq
  simp only [jumpTarget, BitVec.toNat_append, BitVec.extractLsb'_toNat, BitVec.toNat_ofNat, BitVec.ofNat_eq_ofNat]
  rw [← Nat.shiftLeft_add_eq_or_of_lt target.isLt, Nat.zero_mod, Nat.or_zero]
  simp only [Nat.shiftLeft_eq, Nat.shiftRight_eq_div_pow]
  omega

section
variable {o : Operands} {target : InFlight → Word} {pc : Word} {s : State} {r : InFlight} (h : s.calls .EX r)
  (hpc : target r = pc)
include h hpc

theorem runStages_exJump_ex :
    runStages ⟨o, [], .ok, nothing, exJump target, nothing⟩ s = .next (s.answers (.jump pc)) := by
  rw [runStages_ex h.1 h.2, ← hpc]; rfl

theorem runStages_exJumpLink_ex {d : RegId} : runStages ⟨o, [d], .ok, nothing, exJumpLink target, nothing⟩ s =
    .next ((s.exResult r (r.fetchedPC + 4)).answers (.jump pc)) := by
  rw [runStages_ex h.1 h.2, ← hpc]; rfl

end

/-- Settles O47, from the two jump templates: the target is in the region of the incremented PC, or latched from rs. -/
theorem jumps : Obligations.Jumps := by
  intro s r rd rs target next region
  refine ⟨fun h => ?_, fun h => ?_⟩
  · have hid := fun i => decodeReadsAndReserves i s r h
    exact ⟨hid _, hid _, hid _, hid _⟩
  · have hregion : jumpTarget r.fetchedPC target = region := jumpTarget_eq_ofNat _ _
    exact ⟨runStages_exJump_ex h hregion, runStages_exJump_ex h rfl, runStages_exJumpLink_ex h hregion,
      runStages_exJumpLink_ex h rfl⟩

end Sys2Proof.Machine

/-! # Family 47_fp_instructions: FP arithmetic, conversions, moves, transfers and compares in ID and EX -/

namespace Sys2Proof.Machine

/-! ### FP arithmetic (R164, R165) -/

/-- The hardwired bits of the FCSR that EX hands to an FP arithmetic function are still 0 in its answer (R42). -/
theorem Signals.fcsr_and_fcsrMask {s : State} {out : FpOut} (h : Signals (clearCause s.readFcsr) out) :
    out.fcsr &&& fcsrMask = out.fcsr := by
  refine fcsrMask_of_hardwired fun n hn => ?_
  have hkept := (h.keeps (show n < 32 by omega)).2 (by omega) (by omega)
  rw [hkept, getLsbD_clearCause, if_neg (by omega), State.getLsbD_readFcsr, if_pos hn]

section
variable {fd fs ft : RegNum} {s : State} {r : InFlight} {f : BitVec 32 → Word → Word → FpOut} (h : s.calls .EX r)
  (hf : Signals (clearCause s.readFcsr) (f (clearCause s.readFcsr) r.a r.b))
include h hf

theorem runStages_fpArithFns_ok {v : Word} (hv : (f (clearCause s.readFcsr) r.a r.b).value = .ok v) :
    runStages (fpArithFns fd fs ft f) s =
      .next { s.exResult r v with fcsr := (f (clearCause s.readFcsr) r.a r.b).fcsr } := by
  rw [runStages_ex h.1 h.2, ← hf.fcsr_and_fcsrMask]
  simp only [fpArithFns, exFp, hv]
  rfl

theorem runStages_fpArithFns_fault {k : FaultKind} (hk : (f (clearCause s.readFcsr) r.a r.b).value = .error k) :
    runStages (fpArithFns fd fs ft f) s =
      .next { s.answers (.fault k) with fcsr := (f (clearCause s.readFcsr) r.a r.b).fcsr } := by
  rw [runStages_ex h.1 h.2, ← hf.fcsr_and_fcsrMask]
  simp only [fpArithFns, exFp, hk]
  rfl

end

/-- `signal` faults exactly where the class traps, and the cause bit it sets is never the enable bit it tests (R165). -/
theorem signal_value (f : BitVec 32) (d : Word) {c : FpClass} {k : FaultKind} (hc : c.fault = some k) :
    (signal f c d).value = if f.getLsbD (enableBit c) then .error k else .ok d := by
  have hne : enableBit c ≠ causeBit c := by simp [enableBit, causeBit]
  have hlt : enableBit c < 32 := by cases c <;> decide
  have hbit : (putBit f (causeBit c) true).getLsbD (enableBit c) = f.getLsbD (enableBit c) := by
    rw [getLsbD_putBit _ _ _ hlt, if_neg hne]
  simp only [signal, hc, hbit]
  cases f.getLsbD (enableBit c) <;> rfl

/-- What `signal` of a class that can trap answers, with its trap enabled and disabled (R165). -/
theorem signal_spec (f : BitVec 32) (d : Word) {c : FpClass} {k : FaultKind} (hc : c.fault = some k) :
    (f.getLsbD (enableBit c) = true → (signal f c d).value = .error k ∧
      ∀ n, n < 32 → (signal f c d).fcsr.getLsbD n = (decide (n = causeBit c) || f.getLsbD n)) ∧
    (f.getLsbD (enableBit c) = false → (signal f c d).value = .ok d ∧
      ∀ n, n < 32 → (signal f c d).fcsr.getLsbD n =
        (decide (n = causeBit c) || decide (n = flagBit c) || f.getLsbD n)) := by
  refine ⟨fun he => ⟨?_, fun n hn => ?_⟩, fun he => ⟨?_, fun n hn => ?_⟩⟩
  · simp [signal_value f d hc, he]
  · simp [getLsbD_signal f c d hn, hc, he]
  · simp [signal_value f d hc, he]
  · simp [getLsbD_signal f c d hn, he]

/-- Settles O48, from the FP arithmetic template with the function of each instruction, and the two answers of `signal`. -/
theorem fpArithmeticStage : Obligations.FpArithmeticStage := by
  refine ⟨?_, fun f d => ?_⟩
  · intro s r fd fs ft instrs
    have hexec : ∀ p ∈ instrs, exec p.1 s = runStages (fpArithFns fd fs ft p.2) s := by
      simp only [instrs, List.forall_mem_cons, List.not_mem_nil, false_implies, implies_true, and_true]
      exact ⟨rfl, rfl, rfl, rfl⟩
    refine ⟨fun h => ?_, fun h p hp => ?_⟩
    · have hid := fun i => decodeReadsAndReserves i s r h
      simp only [instrs, List.forall_mem_cons, List.not_mem_nil, false_implies, implies_true, and_true]
      exact ⟨hid _, hid _, hid _, hid _⟩
    · have hsignals := fpArith_signals (clearCause s.readFcsr) r.a r.b p.2 (List.mem_map_of_mem hp)
      rw [hexec p hp]
      exact ⟨clearCause s.readFcsr, getLsbD_clearCause _, fun v => runStages_fpArithFns_ok h hsignals,
        fun k => runStages_fpArithFns_fault h hsignals⟩
  · simp only [List.forall_mem_cons, List.not_mem_nil, false_implies, implies_true, and_true]
    exact ⟨signal_spec f d (c := .V) rfl, signal_spec f d (c := .Z) rfl, signal_spec f d (c := .O) rfl,
      signal_spec f d (c := .U) rfl⟩

/-! ### Conversions (R43, R180) -/

/-- The number of a rounding mode in FCSR.RM (R43). -/
def RoundMode.code : RoundMode → Nat
  | .RN => 0
  | .RZ => 1
  | .RP => 2
  | .RM => 3

theorem RoundMode.code_injective {x y : RoundMode} (h : x.code = y.code) : x = y := by
  cases x <;> cases y <;> simp [RoundMode.code] at h ⊢

theorem toNat_mod_four_eq_low_bits (f : BitVec 32) : f.toNat % 4 = 2 * (f.getLsbD 1).toNat + (f.getLsbD 0).toNat := by
  simp only [BitVec.getLsbD, Nat.toNat_testBit]
  omega

/-- FCSR.RM is the low two bits of the FCSR as a number (R43). -/
theorem code_roundMode (f : BitVec 32) : (roundMode f).code = f.toNat % 4 := by
  rw [toNat_mod_four_eq_low_bits, roundMode]
  cases f.getLsbD 1 <;> cases f.getLsbD 0 <;> rfl

theorem runStages_convertFns_ex {fd fs : RegNum} {s : State} {r : InFlight} (h : s.calls .EX r)
    {f : RoundMode → CoreConfig → Word → Word} {v : Word} (hv : f (roundMode s.readFcsr) s.cfg r.a = v) :
    runStages (convertFns fd fs f) s = .next (s.exResult r v) := by
  rw [runStages_ex h.1 h.2, ← hv]; rfl

/-- Settles O53, from the conversion template: the mode it reads is the one whose number FCSR.RM holds. -/
theorem conversionStage : Obligations.ConversionStage := by
  intro s r fd fs
  refine ⟨fun h => ?_, fun h rm hrm => ?_⟩
  · have hid := fun i => decodeReadsAndReserves i s r h
    simp only [List.forall_mem_cons, List.not_mem_nil, false_implies, implies_true, and_true]
    exact ⟨hid _, hid _, hid _, hid _⟩
  · have hmode : roundMode s.readFcsr = rm := RoundMode.code_injective ((code_roundMode _).trans hrm)
    subst hmode
    exact ⟨runStages_convertFns_ex h rfl, runStages_convertFns_ex h rfl, runStages_convertFns_ex h rfl,
      runStages_convertFns_ex h (congrArg cvtWordToDouble (low32_eq_setWidth _))⟩

/-! ### Moves and transfers (R449 to R453, R457 to R460) -/

/-- Settles O55: the moves and transfers are the ALU and conditional-move templates over FPR operands. -/
theorem fpMovesAndTransfers : Obligations.FpMovesAndTransfers := by
  intro s r fd fs rt cc
  refine ⟨fun h => ?_, fun h => ?_⟩
  · have hid := fun i => decodeReadsAndReserves i s r h
    exact ⟨hid _, hid _, hid _, hid _, hid _, hid _, hid _, hid _, hid _⟩
  · have hnonzero : (r.c != 0) = decide (r.c ≠ 0) := by rw [bne_eq, beq_eq_decide, decide_not]
    exact ⟨runStages_aluFns_ex h rfl, runStages_moveFns_ex h (beq_eq_decide _ _), runStages_moveFns_ex h hnonzero,
      runStages_moveFns_ex h Bool.decide_eq_false.symm, runStages_moveFns_ex h Bool.decide_eq_true.symm,
      runStages_aluFns_ex h (sextWord_eq _), runStages_aluFns_ex h rfl, runStages_aluFns_ex h (sextWord_eq _),
      runStages_aluFns_ex h rfl⟩

/-! ### Compares in EX (R47, R454 to R456) -/

theorem getLsbD_setFcc (f : BitVec 32) (cc : CcNum) (b : Bool) {n : Nat} (hn : n < 32) :
    (setFcc f cc b).getLsbD n = if n = fccBit cc then b else f.getLsbD n :=
  getLsbD_putBit f _ b hn

theorem fcc_setFcc (f : BitVec 32) (cc cc' : CcNum) (b : Bool) :
    fcc (setFcc f cc b) cc' = if cc' = cc then b else fcc f cc' := by
  have heq : fccBit cc' = fccBit cc ↔ cc' = cc := ⟨fccBit_inj, congrArg fccBit⟩
  simp only [fcc, getLsbD_setFcc f cc b (fccBit_facts cc').2.1, heq]

/-- A compare writes no hardwired bit, so the FCSR it forms is stored as it is (R42). -/
theorem setFcc_readFcsr_and_fcsrMask (s : State) (cc : CcNum) (b : Bool) :
    setFcc s.readFcsr cc b &&& fcsrMask = setFcc s.readFcsr cc b := by
  refine fcsrMask_of_hardwired fun n hn => ?_
  obtain ⟨hlow, -, hgap⟩ := fccBit_facts cc
  rw [getLsbD_setFcc _ _ _ (by omega), if_neg (by omega), State.getLsbD_readFcsr, if_pos hn]

theorem runStages_fpCompareFns_ex {cc : CcNum} {fs ft : RegNum} {cond : Word → Word → Bool} {s : State} {r : InFlight}
    (h : s.calls .EX r) : runStages (fpCompareFns cc fs ft cond) s =
      .next { s with fcsr := setFcc s.readFcsr cc (cond r.a r.b), outcome := .ok } := by
  rw [runStages_ex h.1 h.2, ← setFcc_readFcsr_and_fcsrMask]; rfl

/-! ### The conditions as orders of real values (R454, R455) -/

section
variable {a b : Word}

theorem fpCompare_of_nan (h : isNaN a = true ∨ isNaN b = true) : fpEq a b = false ∧ fpLt a b = false := by
  have hun : unordered a b = true := by simpa [unordered] using h
  simp [fpEq, fpLt, hun]

theorem fpCompare_of_ordered (ha : isNaN a = false) (hb : isNaN b = false) :
    fpEq a b = decide (fpExtended a = fpExtended b) ∧ fpLt a b = decide (fpExtended a < fpExtended b) := by
  have hun : unordered a b = false := by simp [unordered, ha, hb]
  simp [fpEq, fpLt, hun, beq_eq_decide]

theorem fpExtended_of_finite (h : isFinite a = true) : fpExtended a = fpUnits a := by
  simp [fpExtended, not_nan_inf_of_finite h]

theorem fpExtended_of_inf (h : isInf a = true) :
    fpExtended a = if fpSign a then -((dblMaxUnits : Int) + 1) else (dblMaxUnits : Int) + 1 := if_pos h

/-- No finite value reaches where `fpExtended` puts an infinity. -/
theorem natAbs_fpExtended_le_of_finite (h : isFinite a = true) : (fpExtended a).natAbs ≤ dblMaxUnits := by
  rw [fpExtended_of_finite h, fpUnits_natAbs]
  exact fpMag_le h

theorem fpCompare_of_finite (ha : isFinite a = true) (hb : isFinite b = true) :
    fpEq a b = decide (fpVal a = fpVal b) ∧ fpLt a b = decide (fpVal a < fpVal b) := by
  obtain ⟨heq, hlt⟩ := fpCompare_of_ordered (not_nan_inf_of_finite ha).1 (not_nan_inf_of_finite hb).1
  rw [heq, hlt, fpExtended_of_finite ha, fpExtended_of_finite hb]
  simp only [le_antisymm_iff, ← not_le, fpVal_le_fpVal_iff, and_self]

theorem fpCompare_of_inf (ha : isInf a = true) (hb : isInf b = true) :
    fpEq a b = decide (fpSign a = fpSign b) ∧ fpLt a b = (fpSign a && !fpSign b) := by
  obtain ⟨heq, hlt⟩ := fpCompare_of_ordered (not_nan_zero_of_inf ha).1 (not_nan_zero_of_inf hb).1
  rw [heq, hlt, fpExtended_of_inf ha, fpExtended_of_inf hb]
  generalize dblMaxUnits = m
  cases fpSign a <;> cases fpSign b <;> simp <;> omega

theorem fpCompare_of_inf_finite (ha : isInf a = true) (hb : isFinite b = true) :
    fpEq a b = false ∧ fpLt a b = fpSign a := by
  obtain ⟨heq, hlt⟩ := fpCompare_of_ordered (not_nan_zero_of_inf ha).1 (not_nan_inf_of_finite hb).1
  have hbound := natAbs_fpExtended_le_of_finite hb
  rw [heq, hlt, fpExtended_of_inf ha]
  generalize dblMaxUnits = m at hbound ⊢
  cases fpSign a <;> simp <;> omega

theorem fpCompare_of_finite_inf (ha : isFinite a = true) (hb : isInf b = true) :
    fpEq a b = false ∧ fpLt a b = !fpSign b := by
  obtain ⟨heq, hlt⟩ := fpCompare_of_ordered (not_nan_inf_of_finite ha).1 (not_nan_zero_of_inf hb).1
  have hbound := natAbs_fpExtended_le_of_finite ha
  rw [heq, hlt, fpExtended_of_inf hb]
  generalize dblMaxUnits = m at hbound ⊢
  cases fpSign b <;> simp <;> omega

end

/-- Settles O56, from the compare template, and the conditions class by class. -/
theorem compares : Obligations.Compares := by
  refine ⟨?_, fun a b =>
    ⟨fpCompare_of_nan, fpCompare_of_finite, fpCompare_of_inf, fpCompare_of_inf_finite, fpCompare_of_finite_inf⟩⟩
  intro s r cc fs ft instrs
  refine ⟨fun h => ?_, fun h p hp => ?_⟩
  · have hid := fun i => decodeReadsAndReserves i s r h
    simp only [instrs, List.forall_mem_cons, List.not_mem_nil, false_implies, implies_true, and_true]
    exact ⟨hid _, hid _, hid _⟩
  · have hexec : ∀ p ∈ instrs, exec p.1 s = runStages (fpCompareFns cc fs ft p.2) s := by
      simp only [instrs, List.forall_mem_cons, List.not_mem_nil, false_implies, implies_true, and_true]
      exact ⟨rfl, rfl, rfl⟩
    obtain ⟨hlow, -, hgap⟩ := fccBit_facts cc
    refine ⟨_, (hexec p hp).trans (runStages_fpCompareFns_ex h), ?_, fun cc' hne => ?_, fun n hn => ?_⟩
    · rw [fcc_setFcc, if_pos rfl]
    · rw [fcc_setFcc, if_neg hne]
    · rw [getLsbD_setFcc _ _ _ (by omega), if_neg (by omega)]

end Sys2Proof.Machine

/-! # Families 48_misc and 70_reset_and_hazards: HALT and the cycle account, idle stages, and reset -/

namespace Sys2Proof.Machine

/-! ### Which slots hold a HALT during a cycle (R53, R224) -/

theorem holdsHalt_some (r : InFlight) : holdsHalt (some r) = decide (r.op = .instr .halt) := rfl

theorem holdsHalt_of_tag_eq {o p : Option InFlight} (h : o.map InFlight.tag = p.map InFlight.tag) :
    holdsHalt o = holdsHalt p := by
  have hview : holdsHalt = fun o => (o.map InFlight.tag).any fun x => x.2.1 == .instr .halt := by
    funext o; cases o <;> rfl
  rw [hview]; simp only [h]

theorem eq_none_iff_of_tag_eq {o p : Option InFlight} (h : o.map InFlight.tag = p.map InFlight.tag) : o = none ↔ p = none := by
  rw [← Option.map_eq_none_iff (f := InFlight.tag), h, Option.map_eq_none_iff]

theorem IdEffect.holdsHalt_slotID {c d : State} (h : IdEffect c d) : holdsHalt d.slotID = holdsHalt c.slotID := by
  cases h with
  | bubble _ => rfl
  | stall r i _ hi hz => rfl
  | read r i hr hi hz hb => rw [hr]; rfl
  | breaks r i hr hi hz hb => rw [hr]; rfl
  | poisoned r k _ hk => simp

/-- A HALT has no sources, so it never stalls (R490). -/
theorem IdEffect.holdsHalt_of_raw {c d : State} (h : IdEffect c d) (ho : d.outcome = .raw) :
    holdsHalt d.slotID = false := by
  cases h with
  | stall r i hr hi hz =>
    have hne : i ≠ .halt := by rintro rfl; cases hz
    simp [hr, holdsHalt_some, hi, hne]
  | _ => cases ho

/-- Where no HALT has passed ID, IF is stopped exactly while ID holds one. -/
structure State.HaltsOnlyInID (s : State) : Prop where
  fetched : s.haltFetched = holdsHalt s.slotID
  ex : holdsHalt s.slotEX = false
  mem : holdsHalt s.slotMEM = false

theorem WbEffect.haltsOnlyInID {s a : State} (h : WbEffect s a) (hs : s.HaltsOnlyInID) : a.HaltsOnlyInID := by
  obtain ⟨-, -, -, -, -, -, eid, eex, emem, -, -, ehalt, -⟩ := h.rest
  exact ⟨by rw [ehalt, eid, hs.fetched], by rw [eex, hs.ex], by rw [emem, hs.mem]⟩

theorem MemEffect.haltsOnlyInID {a b : State} (h : MemEffect a b) (ha : a.HaltsOnlyInID) : b.HaltsOnlyInID := by
  obtain ⟨-, -, -, -, -, eid, eex, -, -, ehalt, -⟩ := h.rest
  exact ⟨by rw [ehalt, eid, ha.fetched], by rw [eex, ha.ex], by rw [holdsHalt_of_tag_eq h.tags, ha.mem]⟩

/-- A flush of ID leaves IF stopped only by a HALT that ID did not hold (R222). -/
theorem State.flushID_fetched {s : State} (h : s.haltFetched = holdsHalt s.slotID) : s.flushID.haltFetched = false := by
  cases hs : s.slotID with
  | none => simpa [State.flushID_of_none hs, hs] using h
  | some r => simp [State.flushID_haltFetched hs, h, hs, holdsHalt_some]

theorem ExStepEffect.haltsOnlyInID {b u c : State} (h : ExStepEffect b u c) (hb : b.HaltsOnlyInID) : c.HaltsOnlyInID := by
  obtain ⟨-, -, -, -, -, eex, emem, -⟩ := h.rest
  refine ⟨?_, by rw [eex, holdsHalt_of_tag_eq h.tags, hb.ex], by rw [emem, hb.mem]⟩
  have hu : u.haltFetched = holdsHalt u.slotID := by rw [h.frame]; exact hb.fetched
  have hflush := fun target => State.flushID_fetched (s := u.setPc target) hu
  rcases h.reaction with ⟨-, rfl⟩ | ⟨target, -, rfl⟩ | ⟨target, -, rfl⟩ | ⟨k, -, -, rfl⟩
  · exact hu
  · simp [hflush]
  · simp [hflush]
  · exact hu

theorem IdEffect.haltsOnlyInID {c d : State} (h : IdEffect c d) (hc : c.HaltsOnlyInID) : d.HaltsOnlyInID := by
  obtain ⟨-, -, -, -, -, -, eex, emem, -, ehalt, -⟩ := h.rest
  exact ⟨by rw [ehalt, h.holdsHalt_slotID, hc.fetched], by rw [eex, hc.ex], by rw [emem, hc.mem]⟩

/-! ### Fetches (R530) -/

theorem State.fetchCount_congr {s t : State} (h : t.trace = s.trace) : t.fetchCount = s.fetchCount := by
  rw [State.fetchCount, h, State.fetchCount]

/-- A data access is no fetch. -/
theorem MemEffect.fetchCount {a b : State} (h : MemEffect a b) : b.fetchCount = a.fetchCount := by
  rcases h.access with ⟨-, ht⟩ | ⟨r, i, n, -, -, -, -, ht, -⟩
  · exact State.fetchCount_congr ht
  · simp [State.fetchCount, ht, TraceEvent.isFetch]

/-- Where IF runs it counts one fetch. -/
theorem Fetches.fetchCount {d e : State} (h : Fetches d e) : e.fetchCount = d.fetchCount + 1 := by
  simp [State.fetchCount, h.trace, TraceEvent.isFetch]

/-- Where IF runs, it is stopped from then on exactly where it fetched a HALT. -/
theorem Fetches.haltFetched {d e : State} (h : Fetches d e) : e.haltFetched = holdsHalt e.slotIF := by
  obtain ⟨r, hr, hop⟩ : ∃ r, e.slotIF = some r ∧ r.op = (d.fetchRecord d.pc).op := by
    obtain ⟨r, hr, hrec⟩ := Option.map_eq_some_iff.mp h.record
    exact ⟨r, hr, by rw [← hrec]⟩
  rw [Bool.eq_iff_iff, h.halt, hr, holdsHalt_some, hop, decide_eq_true_iff]

/-! ### A cycle while no HALT has passed ID -/

theorem IfEffect.eq_of_skips {d e : State} (h : IfEffect d e) (hskip : d.outcome = .raw ∨ d.haltFetched = true) :
    e = d := by
  cases h with
  | stalled _ => rfl
  | halted _ _ => rfl
  | _ ho hh => simp [ho, hh] at hskip

/-- With HALT at most in ID and the run Running, the place of HALT is right and no cycle of draining has passed. -/
theorem State.HaltsOnlyInID.haltInv {t : State} (h : t.HaltsOnlyInID) (hif : t.slotIF = none)
    (hwb : holdsHalt t.slotWB = false) (hrun : t.status = .running) : t.haltInv ∧ t.drainCycles = 0 := by
  obtain ⟨hfetched, hex, hmem⟩ := h
  cases hid : holdsHalt t.slotID <;> simp [State.haltInv, State.drainCycles, hfetched, hid, hif, hex, hmem, hwb, hrun]

/-- A HALT that leaves ID for EX starts to drain the pipeline (R224). -/
theorem State.haltInv_of_halt_in_ex {t : State} (hif : t.slotIF = none) (hh : t.haltFetched = true)
    (hid : t.slotID = none) (hex : holdsHalt t.slotEX = true) (hmem : holdsHalt t.slotMEM = false)
    (hwb : holdsHalt t.slotWB = false) (hrun : t.status = .running) : t.haltInv ∧ t.drainCycles = 1 := by
  simp [State.haltInv, State.drainCycles, hif, hh, hid, hex, hmem, hwb, hrun]

/-- With no HALT fetched, or with a record left in ID or EX, the cycle does not terminate the run (R225). -/
theorem endOfCycle_running {e : State} (hrun : e.status = .running)
    (h : e.haltFetched = true → (endOfCycle e).slotID ≠ none ∨ (endOfCycle e).slotEX ≠ none) :
    (endOfCycle e).status = .running := by
  rw [endOfCycle_status, if_neg, hrun]
  simp only [Bool.and_eq_true, State.drained_iff, not_and]
  rintro hh - hid hex
  exact absurd (h hh) (by simp [hid, hex])

theorem ne_none_of_holdsHalt {o : Option InFlight} (h : holdsHalt o = true) : o ≠ none := by
  rintro rfl; cases h

/-- What steps 5 to 7 do to the place of HALT and to the account where no HALT has passed ID: in a stall nothing; a HALT in
ID starts to drain the pipeline; otherwise there is a fetch. -/
theorem IfEffect.account {d e : State} (h : IfEffect d e) (hd : d.HaltsOnlyInID) (hif : d.slotIF = none)
    (hrun : d.status = .running) (hraw : d.outcome = .raw → holdsHalt d.slotID = false) :
    (endOfCycle e).haltInv ∧ (endOfCycle e).fetchCount + (endOfCycle e).drainCycles =
      d.fetchCount + if d.outcome = .raw then 0 else 1 := by
  obtain ⟨-, -, -, eID, eEX, eMEM, -, estatus, -⟩ := h.rest
  have erun : e.status = .running := estatus.trans hrun
  have tmem : holdsHalt (endOfCycle e).slotMEM = false := by show holdsHalt e.slotEX = false; rw [eEX, hd.ex]
  have twb : holdsHalt (endOfCycle e).slotWB = false := by show holdsHalt e.slotMEM = false; rw [eMEM, hd.mem]
  obtain ⟨-, -, tex, tid, -⟩ := endOfCycle_slots e
  have young : e.haltFetched = holdsHalt (endOfCycle e).slotID → holdsHalt (endOfCycle e).slotEX = false →
      (endOfCycle e).haltInv ∧ (endOfCycle e).drainCycles = 0 := fun hfetched hex =>
    State.HaltsOnlyInID.haltInv ⟨hfetched, hex, tmem⟩ rfl twb <|
      endOfCycle_running erun fun hh => .inl (ne_none_of_holdsHalt (hfetched ▸ hh))
  by_cases ho : d.outcome = .raw
  · rw [if_pos (h.outcome.mpr ho)] at tex tid
    obtain rfl := h.eq_of_skips (.inl ho)
    obtain ⟨hinv, hdrain⟩ := young (by rw [tid, hd.fetched]) (by rw [tex]; rfl)
    exact ⟨hinv, by rw [hdrain, if_pos ho]; rfl⟩
  · rw [if_neg (mt h.outcome.mp ho)] at tex tid
    cases hh : d.haltFetched with
    | true =>
      obtain rfl := h.eq_of_skips (.inr hh)
      have hid : holdsHalt e.slotID = true := hd.fetched ▸ hh
      obtain ⟨hinv, hdrain⟩ := State.haltInv_of_halt_in_ex (t := endOfCycle e) rfl hh (tid.trans hif)
        (by rwa [tex]) tmem twb (endOfCycle_running erun fun _ => .inr (by rw [tex]; exact ne_none_of_holdsHalt hid))
      exact ⟨hinv, by rw [hdrain, if_neg ho]; rfl⟩
    | false =>
      have hf := h.fetches ho hh
      have hid : holdsHalt e.slotID = false := by rw [eID, ← hd.fetched, hh]
      obtain ⟨hinv, hdrain⟩ := young (by rw [tid, hf.haltFetched]) (by rw [tex, hid])
      exact ⟨hinv, by rw [hdrain, if_neg ho]; exact hf.fetchCount⟩

/-- A cycle that does not stop the run, from a state where no HALT has passed ID. -/
theorem CycleEffect.account_of_haltsOnlyInID {s t : State} (h : CycleEffect s t) (hs : s.HaltsOnlyInID)
    (hif : s.slotIF = none) (ht : t.unstopped) :
    t.haltInv ∧ t.fetchCount + t.rawStalls + t.drainCycles = s.fetchCount + s.rawStalls + 1 := by
  obtain ⟨a, b, u, c, d, e, ha, hb, hc, hd, he, hrun, rfl⟩ := h.full_of_unstopped ht
  obtain ⟨-, -, -, -, -, aIF, -, -, -, -, -, -, -, astalls, -, atrace⟩ := ha.rest
  obtain ⟨-, -, -, -, bIF, -, -, -, -, -, -, -, bstalls, -⟩ := hb.rest
  obtain ⟨-, -, -, -, cIF, -, -, -, -, cstalls, ctrace⟩ := hc.rest
  obtain ⟨-, -, -, -, -, dIF, -, -, -, -, -, -, dtrace⟩ := hd.rest
  obtain ⟨-, -, -, -, -, -, -, -, -, -, estalls, -⟩ := he.rest
  have hdID := hd.haltsOnlyInID (hc.haltsOnlyInID (hb.haltsOnlyInID (ha.haltsOnlyInID hs)))
  obtain ⟨hinv, haccount⟩ := he.account hdID (by rw [dIF, cIF, bIF, aIF, hif]) hrun hd.holdsHalt_of_raw
  have hfetches : d.fetchCount = s.fetchCount := by
    rw [State.fetchCount_congr dtrace, State.fetchCount_congr ctrace, hb.fetchCount, State.fetchCount_congr atrace]
  have hstalls : (endOfCycle e).rawStalls = d.rawStalls := estalls
  refine ⟨hinv, ?_⟩
  by_cases ho : d.outcome = .raw
  · have := (hd.rawStalls.1 ho).1
    rw [if_pos ho] at haccount
    omega
  · have := hd.rawStalls.2 ho
    rw [if_neg ho] at haccount
    omega

/-! ### A cycle of draining (R224, R225) -/

/-- The pipeline drains: HALT has stopped IF and passed ID. -/
structure State.Draining (s : State) : Prop where
  running : s.status = .running
  halt : s.haltFetched = true
  slotIF : s.slotIF = none
  slotID : s.slotID = none
  slotEX : ∀ r, s.slotEX = some r → r.op = .instr .halt

/-- EX does nothing on a HALT (R490). -/
theorem exStep_halt {b : State} (h : ∀ r, b.slotEX = some r → r.op = .instr .halt) :
    exStep b = .next (b.enter .EX) := by
  cases hs : b.slotEX with
  | none => exact exStep_bubble hs
  | some r =>
    have hexec : exec .halt (b.enter .EX) = .next (b.enter .EX) := runStages_ex rfl hs
    rw [exStep, callStage_instr (st := .EX) hs (h r hs), hexec]
    rfl

/-- A draining cycle runs WB and MEM and nothing else, and is stopped only by a fault in MEM. -/
theorem State.Draining.step_eq {s : State} (h : s.Draining) : ∃ a b, WbEffect s a ∧
    ((MemEffect a b ∧ step s = .next (endOfCycle (b.enter .ID))) ∨ (MemStops a b ∧ step s = .next b)) := by
  obtain ⟨hrun, hhalt, hif, hid, hex⟩ := h
  obtain ⟨a, hwb, ha⟩ := wbStep_effect s
  obtain ⟨b, hmem, hb⟩ := memStep_effect a
  refine ⟨a, b, ha, hb.imp (fun hb => ⟨hb, ?_⟩) (fun hb => ⟨hb, ?_⟩)⟩
  · have hfields : b.status = .running ∧ b.haltFetched = true ∧ b.slotID = none ∧ b.slotEX = s.slotEX := by
      rw [hb.frame, ha.frame]; exact ⟨hrun, hhalt, hid, rfl⟩
    obtain ⟨brun, bhalt, bID, bEX⟩ := hfields
    exact step_full hrun (beforeID_of hwb hmem brun (exStep_halt (bEX ▸ hex))) brun
      (idStep_bubble (s := b.enter .EX) bID) brun (ifStep_skips (.inr bhalt))
  · have hstop : b.status ≠ .running := by obtain ⟨k, pc, rfl⟩ := hb.rest; simp
    exact step_stopped hrun (beforeID_stopped hwb hmem hstop) hstop

/-- What a draining cycle that is not stopped leaves. -/
structure Drains (s t : State) : Prop where
  pc : t.pc = s.pc
  fetchCount : t.fetchCount = s.fetchCount
  rawStalls : t.rawStalls = s.rawStalls
  halt : t.haltFetched = true
  slotIF : t.slotIF = none
  slotID : t.slotID = none
  slotEX : t.slotEX = none
  slotMEM : t.slotMEM = s.slotEX
  slotWB : t.slotWB.map InFlight.tag = s.slotMEM.map InFlight.tag
  status : t.status = if s.slotEX = none ∧ s.slotMEM = none then .terminated else .running

theorem State.Draining.drains {s a b : State} (h : s.Draining) (ha : WbEffect s a) (hb : MemEffect a b) :
    Drains s (endOfCycle (b.enter .ID)) := by
  obtain ⟨hrun, hhalt, hif, hid, hex⟩ := h
  obtain ⟨apc, -, -, -, -, aIF, aID, aEX, aMEM, -, astatus, ahalt, -, astalls, -, atrace⟩ := ha.rest
  obtain ⟨bpc, -, -, -, bIF, bID, bEX, -, bstatus, bhalt, -, -, bstalls, -⟩ := hb.rest
  have hnone : b.slotMEM = none ↔ s.slotMEM = none := by rw [eq_none_iff_of_tag_eq hb.tags, aMEM]
  refine ⟨bpc.trans apc, hb.fetchCount.trans (State.fetchCount_congr atrace), bstalls.trans astalls,
    bhalt.trans (ahalt.trans hhalt), rfl, bIF.trans (aIF.trans hif), bID.trans (aID.trans hid), bEX.trans aEX,
    by rw [← aMEM]; exact hb.tags, ?_⟩
  have hdrained : (endOfCycle (b.enter .ID)).drained = true ↔ s.slotEX = none ∧ s.slotMEM = none := by
    rw [State.drained_iff, ← hnone, ← aEX, ← bEX]
    simp [endOfCycle, bIF, aIF, hif, bID, aID, hid]
  have hfetched : (endOfCycle (b.enter .ID)).haltFetched = true := bhalt.trans (ahalt.trans hhalt)
  simp only [endOfCycle_status, hfetched, Bool.true_and, hdrained]
  rw [State.enter_status, bstatus, astatus, hrun]

theorem State.Draining.drains_of_step {s t : State} (h : s.Draining) (hstep : step s = .next t) (ht : t.unstopped) :
    Drains s t := by
  obtain ⟨a, b, ha, ⟨hb, heq⟩ | ⟨hb, heq⟩⟩ := h.step_eq <;> rw [hstep] at heq <;> cases heq
  · exact h.drains ha hb
  · obtain ⟨k, pc, rfl⟩ := hb.rest
    simp [State.unstopped] at ht

/-- Where a fetched HALT is in a run that goes on (R224). -/
theorem State.haltInv.place {s : State} (h : s.haltInv) (hrun : s.status = .running) (hh : s.haltFetched = true) :
    (holdsHalt s.slotID = true ∧ holdsHalt s.slotEX = false ∧ holdsHalt s.slotMEM = false) ∨
    (s.slotID = none ∧ holdsHalt s.slotEX = true ∧ holdsHalt s.slotMEM = false) ∨
    (s.slotID = none ∧ s.slotEX = none ∧ holdsHalt s.slotMEM = true) ∨
    (s.slotID = none ∧ s.slotEX = none ∧ s.slotMEM = none ∧ holdsHalt s.slotWB = true) := by
  have hplace := h.2
  simp only [hh, if_true, hrun, Bool.not_eq_true', true_and, reduceCtorEq, false_and, or_false] at hplace
  rcases hplace with ⟨hid, hex, hmem, -⟩ | ⟨hid, hex, hmem, -⟩ | ⟨hid, hex, hmem, -⟩ | hwb
  · exact .inl ⟨hid, hex, hmem⟩
  · exact .inr (.inl ⟨hid, hex, hmem⟩)
  · exact .inr (.inr (.inl ⟨hid, hex, hmem⟩))
  · exact .inr (.inr (.inr hwb))

/-- Each draining cycle moves HALT on by one slot, and from WB it leaves the pipeline (R224, R580). -/
theorem Drains.account {s t : State} (h : Drains s t) (hs : s.haltInv) (hd : s.Draining) :
    t.haltInv ∧ t.drainCycles = s.drainCycles + 1 := by
  have hwb : holdsHalt t.slotWB = holdsHalt s.slotMEM := holdsHalt_of_tag_eq h.slotWB
  have hnone : t.slotWB = none ↔ s.slotMEM = none := eq_none_iff_of_tag_eq h.slotWB
  simp only [State.haltInv, State.drainCycles, State.drained_iff, h.halt, h.slotIF, h.slotID, h.slotEX, h.slotMEM, h.status,
    hwb, hnone, hd.halt, hd.slotID]
  rcases hs.place hd.running hd.halt with ⟨hid, -, -⟩ | ⟨-, hex, hmem⟩ | ⟨-, hex, hmem⟩ | ⟨-, hex, hmem, hlast⟩
  · exact absurd hd.slotID (ne_none_of_holdsHalt hid)
  · simp [hex, hmem, ne_none_of_holdsHalt hex]
  · simp [hex, hmem, ne_none_of_holdsHalt hmem]
  · simp [hex, hmem, hlast]

theorem op_of_holdsHalt {o : Option InFlight} (h : holdsHalt o = true) {r : InFlight} (hr : o = some r) :
    r.op = .instr .halt := by
  subst hr; exact of_decide_eq_true h

/-- Between two cycles of a run HALT has not passed ID, or the pipeline drains (R224). -/
theorem State.haltInv.haltsOnlyInID_or_draining {s : State} (h : s.haltInv) (hrun : s.status = .running) :
    (s.HaltsOnlyInID ∧ s.drainCycles = 0) ∨ s.Draining := by
  cases hh : s.haltFetched with
  | false =>
    have hplace := h.2
    simp only [hh, Bool.false_eq_true, if_false, Bool.not_eq_true'] at hplace
    obtain ⟨-, hid, hex, hmem, -⟩ := hplace
    exact .inl ⟨⟨by rw [hh, hid], hex, hmem⟩, by simp [State.drainCycles, hh]⟩
  | true =>
    have draining : s.slotID = none → (∀ r, s.slotEX = some r → r.op = .instr .halt) → s.Draining :=
      fun hid hex => ⟨hrun, hh, h.1, hid, hex⟩
    rcases h.place hrun hh with ⟨hid, hex, hmem⟩ | ⟨hid, hex, -⟩ | ⟨hid, hex, -⟩ | ⟨hid, hex, -⟩
    · exact .inl ⟨⟨by rw [hh, hid], hex, hmem⟩, by simp [State.drainCycles, hh, hid]⟩
    · exact .inr (draining hid fun r => op_of_holdsHalt hex)
    · exact .inr (draining hid (by simp [hex]))
    · exact .inr (draining hid (by simp [hex]))

/-- Settles O21: before HALT passes ID a cycle counts one fetch or one stall, and after that one cycle of draining. -/
theorem cycleAccountKept : Obligations.CycleAccountKept := by
  intro s t hs hstep ht
  obtain ⟨hrun, hcycle⟩ := step_cases hstep
  obtain ⟨hinv, haccount⟩ := hs (.inl hrun)
  have hcycles := (step_counted hstep).cycles
  rcases hinv.haltsOnlyInID_or_draining hrun with ⟨hid, hdrain⟩ | hdraining
  · obtain ⟨tinv, taccount⟩ := hcycle.account_of_haltsOnlyInID hid hinv.1 ht
    exact ⟨tinv, by omega⟩
  · have hdrains := hdraining.drains_of_step hstep ht
    obtain ⟨tinv, tdrain⟩ := hdrains.account hinv hdraining
    exact ⟨tinv, by rw [hdrains.fetchCount, hdrains.rawStalls, tdrain]; omega⟩

/-- A draining cycle with nothing but HALT in MEM is not stopped, and stores nothing (R490). -/
theorem State.Draining.next {s : State} (h : s.Draining) (hmem : ∀ r, s.slotMEM = some r → r.op = .instr .halt) :
    ∃ t, step s = .next t ∧ Drains s t ∧ t.mem = s.mem := by
  have no_access : ∀ r i n, s.slotMEM = some r → r.op = .instr i → i.access? ≠ some n := by
    intro r i n hr hi ha
    rw [hmem r hr] at hi; cases hi; cases ha
  obtain ⟨a, b, ha, ⟨hb, heq⟩ | ⟨hb, -⟩⟩ := h.step_eq
  · refine ⟨_, heq, h.drains ha hb, ?_⟩
    rcases step_mem heq with hsame | ⟨r, i, n, hr, hi, hn, -⟩
    · exact hsame
    · exact absurd hn (no_access r i n hr hi)
  · obtain ⟨-, -, -, -, -, -, -, -, aMEM, -⟩ := ha.rest
    obtain ⟨r, i, n, k, hr, hi, hn, -⟩ := hb
    exact absurd hn (no_access r i n (aMEM ▸ hr) hi)

theorem Drains.draining {s t : State} (h : Drains s t) (ht : t.status = .running) : t.Draining :=
  ⟨ht, h.halt, h.slotIF, h.slotID, by simp [h.slotEX]⟩

/-- Settles O24: three draining cycles, with HALT in EX, in MEM and in WB. -/
theorem haltDrains : Obligations.HaltDrains := by
  intro s t hs hrun hh hex hst ht
  obtain ⟨hinv, -⟩ := hs (.inl hrun)
  have hid : s.slotID = none := by
    rcases hinv.place hrun hh with ⟨-, hno, -⟩ | ⟨hid, -⟩ | ⟨hid, -⟩ | ⟨hid, -⟩
    · rw [hex] at hno; cases hno
    all_goals exact hid
  have dst := State.Draining.drains_of_step ⟨hrun, hh, hinv.1, hid, fun r => op_of_holdsHalt hex⟩ hst (.inl ht)
  have tmem : holdsHalt t.slotMEM = true := by rw [dst.slotMEM, hex]
  obtain ⟨u, htu, dtu, umem⟩ := (dst.draining ht).next fun r => op_of_holdsHalt tmem
  have urun : u.status = .running := by rw [dtu.status, if_neg fun hn => ne_none_of_holdsHalt tmem hn.2]
  have uMEM : u.slotMEM = none := by rw [dtu.slotMEM, dst.slotEX]
  obtain ⟨v, huv, duv, vmem⟩ := (dtu.draining urun).next (by simp [uMEM])
  refine ⟨u, v, htu, urun, huv, ?_, ?_, ?_, vmem.trans umem, ?_⟩
  · rw [duv.status, if_pos ⟨dtu.slotEX, uMEM⟩]
  · rw [duv.fetchCount, dtu.fetchCount, dst.fetchCount]
  · rw [duv.pc, dtu.pc, dst.pc]
  · rw [(step_counted huv).cycles, (step_counted htu).cycles, (step_counted hst).cycles]

/-! ### Idle stages (R210, R213) -/

/-- WB of a record without destinations does nothing (R215). -/
theorem wbStage_of_dests_nil {r : InFlight} (h : r.dests = []) (s : State) : wbStage r s = s.answers .ok := by
  simp only [wbStage, State.writeDests, h, List.foldl_nil, ite_self]
  rfl

/-- Settles O58, stage by stage, from what `exec` answers in each. -/
theorem quietStages : Obligations.QuietStages := by
  refine ⟨fun s r code => ⟨fun ⟨hp, hs⟩ => ⟨exec_if_halt hp hs, ?_, ?_⟩, fun h => ?_,
      fun ⟨hp, hs⟩ => ⟨runStages_ex hp hs, runStages_ex hp hs⟩, fun ⟨hp, hs⟩ hdests => ?_⟩,
    fun i s r => ⟨fun ⟨hp, hs⟩ hb hn => exec_if_other i hp hs hb hn, fun ⟨hp, hs⟩ ha => exec_mem_other i hp hs ha⟩,
    fun i s hs => exec_bubble i hs⟩
  · exact exec_if_other .nop hp hs rfl (by simp)
  · exact exec_if_other (.brk code) hp hs rfl (by simp)
  · have hid := fun i => decodeReadsAndReserves i s r h
    exact ⟨hid .halt, hid .nop, hid (.brk code)⟩
  · have hwb := fun i => (exec_wb i hp hs).trans (congrArg _ (wbStage_of_dests_nil hdests s))
    exact ⟨hwb .halt, hwb .nop⟩

/-! ### Reset (R560) -/

theorem State.readReg_resetRun (s : State) (q : RegId) : s.resetRun.readReg q = 0 := by
  cases q <;> simp [State.resetRun, State.reset, State.readReg]

theorem State.rc_resetRun (s : State) (q : RegId) : s.resetRun.rc q = 0 := by
  cases q <;> simp [State.resetRun, State.reset, State.rc]

/-- FCSR after reset bit by bit (R46). -/
theorem getLsbD_fcsrAtReset (e : FcsrEnables) (n : Nat) : (fcsrAtReset e).getLsbD n =
    (decide (n = 11) && e.v || decide (n = 10) && e.z || decide (n = 9) && e.o || decide (n = 8) && e.u ||
      decide (n = 7) && e.i) := by
  simp only [fcsrAtReset, BitVec.getLsbD_append, BitVec.getLsbD_ofBool]
  by_cases h : n < 12
  · interval_cases n <;> simp
  · simp (disch := omega) only [if_neg, decide_eq_false, Bool.false_and, Bool.or_false]
    simp

theorem fcsrAtReset_and_fcsrMask (e : FcsrEnables) : fcsrAtReset e &&& fcsrMask = fcsrAtReset e := by
  refine fcsrMask_of_hardwired fun n hn => ?_
  rw [getLsbD_fcsrAtReset]
  simp (disch := omega) only [decide_eq_false, Bool.false_and, Bool.or_false]

/-- Settles O59, from the registers, the FCSR and the cells after reset. -/
theorem resetValues : Obligations.ResetValues := by
  intro s
  refine ⟨fun q => ⟨s.readReg_resetRun q, s.rc_resetRun q⟩, rfl, rfl, fun n => ?_, rfl, fun hp => if_pos hp, fun hp j => ?_,
    rfl, rfl, rfl, rfl, rfl, rfl, rfl, rfl, rfl, fun c hc => s.cell_resetRun hc⟩
  · have hread : s.resetRun.readFcsr = fcsrAtReset s.cfg.enablesReset := fcsrAtReset_and_fcsrMask _
    rw [hread, getLsbD_fcsrAtReset]
  · have hpt : s.resetRun.pt = [] := if_neg (by simp [hp])
    rw [hpt, PredTable.read_nil]

/-! ### The invariants at reset (R56, R580) -/

/-- With no record in flight every count is 0. -/
theorem State.resetRun_scoreboardInv (s : State) : s.resetRun.scoreboardInv := by
  intro _
  have hnone : s.resetRun.inFlight = [] := rfl
  refine ⟨rfl, by rintro r ⟨⟩, by simp [hnone], fun q => ?_⟩
  rw [s.rc_resetRun, State.reservers, hnone, List.countP_nil]

theorem State.resetRun_accountInv (s : State) : s.resetRun.accountInv := by
  intro _
  exact ⟨⟨rfl, rfl, rfl, rfl, rfl, rfl⟩, rfl⟩

theorem State.resetRun_memInv {s : State} (h : s.memInv) : s.resetRun.memInv := by
  obtain ⟨hcfg, hwf, hbound, hloaded⟩ := h
  exact ⟨hcfg, Sparse.filter_wf hwf _, fun p hp => hbound p (List.mem_of_mem_filter hp), hloaded⟩

theorem State.resetRun_ptInv {s : State} (h : s.ptInv) : s.resetRun.ptInv := by
  cases hp : s.cfg.persistPredictor <;> simp only [State.ptInv, State.resetRun, hp]
  · exact PredTable.nil_wf
  · exact h

theorem State.resetRun_fcsrInv (s : State) : s.resetRun.fcsrInv :=
  State.fcsrInv_of_masked (fcsrAtReset_and_fcsrMask _).symm

/-- A reset of the state right after reset changes nothing. -/
theorem State.resetRun_reset : State.reset.resetRun = State.reset := rfl

theorem State.reset_memInv : State.reset.memInv :=
  ⟨by decide, Memory.nil_wf, by rintro p ⟨⟩, by rintro a ⟨⟩⟩

/-- Settles O25: the CORE right after reset is the reset of itself. -/
theorem invariantsHoldAtReset : Obligations.InvariantsHoldAtReset := by
  have after : ∀ s : State, s.memInv → s.ptInv → s.resetRun.scoreboardInv ∧ s.resetRun.accountInv ∧ s.resetRun.memInv ∧
      s.resetRun.ptInv ∧ s.resetRun.fcsrInv := fun s hmem hpt =>
    ⟨s.resetRun_scoreboardInv, s.resetRun_accountInv, State.resetRun_memInv hmem, State.resetRun_ptInv hpt,
      s.resetRun_fcsrInv⟩
  have hreset := after .reset State.reset_memInv PredTable.nil_wf
  rw [State.resetRun_reset] at hreset
  exact ⟨hreset, after⟩

end Sys2Proof.Machine
